-- ==== Sys2Proof/Word.lean ====
section
/-! DEFINITION. The plainest data of the model: bytes, the limits the manual names, and the two small
fixed-size tables the part is built from (two heads or banks, four contexts or counters). -/

namespace Sys2Proof

/-- One byte of shared memory or of the pod line. -/
abbrev Byte := BitVec 8

/-- An index of one of two like things: a head or a bank. -/
inductive Ix2 where
  | i0
  | i1
deriving DecidableEq, Repr

/-- A sensor head, 0 or 1 (section 1.1). -/
abbrev Head := Ix2

/-- A LUT bank, 0 or 1 (R111). -/
abbrev BankIx := Ix2

/-- The index as a number. -/
def Ix2.toNat : Ix2 → Nat
  | .i0 => 0
  | .i1 => 1

/-- The other of the two. -/
def Ix2.other : Ix2 → Ix2
  | .i0 => .i1
  | .i1 => .i0

/-- Two like things, indexed by `Ix2`. -/
structure Two (α : Type) where
  i0 : α
  i1 : α
deriving DecidableEq, Repr

/-- The entry at an index. -/
def Two.get {α : Type} (t : Two α) : Ix2 → α
  | .i0 => t.i0
  | .i1 => t.i1

/-- The table with one entry replaced. -/
def Two.set {α : Type} (t : Two α) (i : Ix2) (a : α) : Two α :=
  match i with
  | .i0 => { t with i0 := a }
  | .i1 => { t with i1 := a }

/-- Both entries mapped. -/
def Two.map {α β : Type} (f : α → β) (t : Two α) : Two β :=
  { i0 := f t.i0, i1 := f t.i1 }

/-- Four like things: the scene contexts (R72) or the monitor counters (R155). -/
structure Quad (α : Type) where
  q0 : α
  q1 : α
  q2 : α
  q3 : α
deriving DecidableEq, Repr

/-- The entry at an index. -/
def Quad.get {α : Type} (t : Quad α) : Fin 4 → α
  | 0 => t.q0
  | 1 => t.q1
  | 2 => t.q2
  | 3 => t.q3

/-- The table with one entry replaced. -/
def Quad.set {α : Type} (t : Quad α) (i : Fin 4) (a : α) : Quad α :=
  match i with
  | 0 => { t with q0 := a }
  | 1 => { t with q1 := a }
  | 2 => { t with q2 := a }
  | 3 => { t with q3 := a }

/-- The table with every entry mapped, the index given to the map. -/
def Quad.mapIdx {α β : Type} (f : Fin 4 → α → β) (t : Quad α) : Quad β :=
  { q0 := f 0 t.q0, q1 := f 1 t.q1, q2 := f 2 t.q2, q3 := f 3 t.q3 }

/-- The entries in index order. -/
def Quad.toList {α : Type} (t : Quad α) : List α := [t.q0, t.q1, t.q2, t.q3]

/-- Four equal entries. -/
def Quad.const {α : Type} (a : α) : Quad α := { q0 := a, q1 := a, q2 := a, q3 := a }

/-- The largest frame count, at which it saturates (R169). -/
def maxFrame : Nat := 4294967295

/-- The number of entries of a LUT bank (R111). -/
def lutEntries : Nat := 4913

end Sys2Proof
end

