-- ==== Sys2Proof/Syntax.lean ====
section
/-! DEFINITION. The commands of the part: one constructor of `Instr` per row of spec/opcode_table.json.
The three job rows of the engine carry one operand, the stage up to which the engine runs the job before
other events are taken (R34, R173, R13); the last stage is the whole step of the table. -/

namespace Sys2Proof

/-- The stages of a take, in the order of R13. -/
inductive TakeStage where
  | reread      -- re-read of the card (R14)
  | writeTaken  -- TAKEN is written (R15)
  | checks      -- the intake checks (R16)
  | lastTaken   -- the last-taken frame (R17)
  | finish      -- the card is ended or handed to the engine (R19, R20)
deriving DecidableEq, Repr

/-- A stage's place in the order. -/
def TakeStage.rank : TakeStage → Nat
  | .reread => 0
  | .writeTaken => 1
  | .checks => 2
  | .lastTaken => 3
  | .finish => 4

/-- The stages in order. -/
def TakeStage.all : List TakeStage := [.reread, .writeTaken, .checks, .lastTaken, .finish]

/-- The stages of a card job, in the order of R29 to R33 and R5. -/
inductive CardStage where
  | calibration      -- calibration check (R29)
  | tilePass         -- tile pass (R30)
  | estimate         -- estimate and hand-over (R31)
  | contextRead      -- the one read of the active context (R32)
  | grade            -- head mired, gains, matrix, saturation (R33.1)
  | bankQuery        -- the bank of the card's frame (R33.2)
  | marks            -- the pending marks (R33.3)
  | podSnapshot      -- the pod reading (R33.4)
  | monitorEvents    -- the card's monitor events (R33.5)
  | monitorSnapshot  -- the monitor snapshot (R160)
  | writeResult      -- result sections (R5, R109)
  | writeEnding      -- ending code and frame count (R5)
  | finish           -- ENDED, the CARD cause, the end of the job
deriving DecidableEq, Repr

/-- A stage's place in the order. -/
def CardStage.rank : CardStage → Nat
  | .calibration => 0
  | .tilePass => 1
  | .estimate => 2
  | .contextRead => 3
  | .grade => 4
  | .bankQuery => 5
  | .marks => 6
  | .podSnapshot => 7
  | .monitorEvents => 8
  | .monitorSnapshot => 9
  | .writeResult => 10
  | .writeEnding => 11
  | .finish => 12

/-- The stages in order. -/
def CardStage.all : List CardStage :=
  [.calibration, .tilePass, .estimate, .contextRead, .grade, .bankQuery, .marks, .podSnapshot,
    .monitorEvents, .monitorSnapshot, .writeResult, .writeEnding, .finish]

/-- The stages of a directive job, in the order of R172. -/
inductive DirStage where
  | take      -- re-read of the slot state, then TAKEN (R27, R172.1)
  | kind      -- the kind is read (R172.2)
  | payload   -- the payload is read (R172.3)
  | prepare   -- LOAD_CALIBRATION's count check, read and validation (R62 to R64); nothing for the others
  | effect    -- the owning block carries the directive out (R172.4)
  | result    -- the result code is written (R172.5)
  | finish    -- ENDED, the DIRECTIVE cause, the end of the job (R172.6, R172.7)
deriving DecidableEq, Repr

/-- A stage's place in the order. -/
def DirStage.rank : DirStage → Nat
  | .take => 0
  | .kind => 1
  | .payload => 2
  | .prepare => 3
  | .effect => 4
  | .result => 5
  | .finish => 6

/-- The stages in order. -/
def DirStage.all : List DirStage := [.take, .kind, .payload, .prepare, .effect, .result, .finish]

/-- The registers whose writes are ignored (R166). -/
inductive ReadOnlyRegister where
  | ident
  | state
  | frame
deriving DecidableEq, Repr

/-- The commands. The docstring of each names its row of spec/opcode_table.json and the row's rule. -/
inductive Instr where
  /-- FRAME_SYNC (R169). -/
  | frameSync
  /-- RETIREMENT (R124). -/
  | retirement
  /-- TRACKER_STEP (R83). -/
  | trackerStep
  /-- POLL_EXPIRY (R143). -/
  | pollExpiry
  /-- SETTLE_EXPIRY (R132). -/
  | settleExpiry
  /-- REQUEST_SENT (R140). -/
  | requestSent
  /-- REPLY_WINDOW_EXPIRY (R140). -/
  | replyWindowExpiry
  /-- REPLY_CHARACTER (R138): the eight data bits, the parity bit and the stop bit as received. -/
  | replyCharacter (data : BitVec 8) (parity stop : Bool)
  /-- REPLY_GAP_TIMEOUT (R140). -/
  | replyGapTimeout
  /-- TAKE (R13), run up to a stage. -/
  | take (upTo : TakeStage)
  /-- CARD_JOB (R33), run up to a stage. -/
  | cardJob (upTo : CardStage)
  /-- REFUSED_KIND (R172), run up to a stage. -/
  | refusedKind (upTo : DirStage)
  /-- SET_ORDER (R26), run up to a stage. -/
  | setOrder (upTo : DirStage)
  /-- SET_FILTER (R57), run up to a stage. -/
  | setFilter (upTo : DirStage)
  /-- LOAD_CALIBRATION (R62), run up to a stage. -/
  | loadCalibration (upTo : DirStage)
  /-- SET_TRACKING (R75), run up to a stage. -/
  | setTracking (upTo : DirStage)
  /-- SWITCH_CONTEXT (R78), run up to a stage. -/
  | switchContext (upTo : DirStage)
  /-- SNAP (R79), run up to a stage. -/
  | snap (upTo : DirStage)
  /-- SET_GRADE (R97), run up to a stage. -/
  | setGrade (upTo : DirStage)
  /-- BAKE_LUT (R114), run up to a stage. -/
  | bakeLut (upTo : DirStage)
  /-- ABORT_BAKE (R121), run up to a stage. -/
  | abortBake (upTo : DirStage)
  /-- SET_CADENCE (R133), run up to a stage. -/
  | setCadence (upTo : DirStage)
  /-- SET_POD (R151), run up to a stage. -/
  | setPod (upTo : DirStage)
  /-- SET_MONITOR (R162), run up to a stage. -/
  | setMonitor (upTo : DirStage)
  /-- SET_FREEZE (R161), run up to a stage. -/
  | setFreeze (upTo : DirStage)
  /-- CLEAR_MONITOR (R163), run up to a stage. -/
  | clearMonitor (upTo : DirStage)
  /-- BAKE_ROW (R36). -/
  | bakeRow
  /-- DRAIN_COMPLETE (R37). -/
  | drainComplete
  /-- RUN_SET (R168): a write to CONTROL of a word with RUN 1 and ENGINE_RESET 0. -/
  | runSet (word : BitVec 32)
  /-- RUN_CLEAR (R167): a write to CONTROL of a word with RUN 0 and ENGINE_RESET 0. -/
  | runClear (word : BitVec 32)
  /-- ENGINE_RESET (R174): a write to CONTROL of a word with ENGINE_RESET 1. -/
  | engineReset (word : BitVec 32)
  /-- ATTENTION_MASK_WRITE (R171): the mask field of a write to CONTROL with ENGINE_RESET 0. -/
  | attentionMaskWrite (word : BitVec 32)
  /-- AREA_WRITE (R166). -/
  | areaWrite (word : BitVec 32)
  /-- ATTN_WRITE (R171). -/
  | attnWrite (word : BitVec 32)
  /-- REGISTER_WRITE_IGNORED (R166). -/
  | registerWriteIgnored (register : ReadOnlyRegister) (word : BitVec 32)
  /-- DEVICE_RESET (R174). -/
  | deviceReset
deriving DecidableEq, Repr

end Sys2Proof
end

