-- ==== Sys2Proof/Config.lean ====
section
/-! DEFINITION. What the manual fixes as numbers (the work area layout of section 1.3 and chapter 12, the
codes), and the two values it leaves open. -/

namespace Sys2Proof.Config

/-- FREE VALUE (notes/assumptions/4.md). R173 says that after a failed write of a directive's result code
the slot "reads TAKEN, or reads ENDED with a stale result code", and does not say which. The argument is
the use count held in State. -/
opaque endedAfterFailedResult : Nat → Bool

/-- FREE VALUE (notes/assumptions/30.md). Which of a request's four characters is on the line when the request
is abandoned (R151, R154): the manual gives the line's timing, but not when the abandonment falls. The argument
is the count of abandoned requests held in State. -/
opaque characterInProgress : Nat → Fin 4

/-- IDENT reads this word (12.1). -/
def ident : BitVec 32 := 0x0DC25201#32

/-- Offset of the directive slot (section 1.3). -/
def directiveSlot : Nat := 0x0080

/-- Offset of a head's card table (section 1.3). -/
def cardTable : Head → Nat
  | .i0 => 0x0100
  | .i1 => 0x0900

/-- Offset of a bank header (section 1.3). -/
def bankHeader : BankIx → Nat
  | .i0 => 0x1100
  | .i1 => 0x1140

/-- Offset of a LUT bank (section 1.3, R111). -/
def lutBank : BankIx → Nat
  | .i0 => 0x2000
  | .i1 => 0xC000

/-- Card state words (12.4). -/
def cardReady : Nat := 1
/-- Card state TAKEN (12.4). -/
def cardTaken : Nat := 2
/-- Card state ENDED (12.4). -/
def cardEnded : Nat := 3

/-- Slot state POSTED (12.3). -/
def slotPosted : Nat := 1
/-- Slot state TAKEN (12.3). -/
def slotTaken : Nat := 2
/-- Slot state ENDED (12.3). -/
def slotEnded : Nat := 3

end Sys2Proof.Config
end

