-- ==== Sys2Proof/Machine/State.lean ====
section
/-! DEFINITION. The state of the part, block by block, as plain data, and its value after reset. Each field
names the rule that gives it; a field that is the model's own says so and names its log entry. -/

namespace Sys2Proof.Machine

/-! ## Outcomes -/

/-- Faults of the model. There are none: every failure the manual describes (a failed shared-memory access,
R170) is an effect on the state, so no meaning stops. Raised by nobody; safe. -/
inductive Fault where
deriving DecidableEq, Repr

/-- Refusals of the model. -/
inductive Refusal where
  /-- Raised by `exec` for a command that has no meaning yet, with its mnemonic (no arm does). Safe: the
  model stops where the part goes on. -/
  | notModelled (mnemonic : String)
deriving DecidableEq, Repr

/-! ## The area interface unit -/

/-- The run states (R167). -/
inductive RunState where
  | stopped
  | running
  | draining
  | faulted
deriving DecidableEq, Repr

/-- The kinds of failed access that fault the part (R170). -/
inductive FaultKind where
  | tableRead
  | slotRead
  | cardWrite
  | slotWrite
  | statusWrite
  | bankWrite
deriving DecidableEq, Repr

/-- The AIU (R166 to R171). -/
structure Aiu where
  /-- AREA, the work area's base address (R166). -/
  area : BitVec 32
  /-- The attention mask, one bit per cause (R171). -/
  mask : BitVec 9
  /-- The run state (R167). -/
  run : RunState
  /-- AREA_INVALID (R168). -/
  areaInvalid : Bool
  /-- COUNT_END (R169). -/
  countEnd : Bool
  /-- The fault kind, absent when the part is not faulted (R170). -/
  faultKind : Option FaultKind
  /-- The attention causes, bits as in 12.7 (R171). -/
  causes : BitVec 9
  /-- The frame count, 0..4,294,967,295 (R169). -/
  frameCount : Nat
deriving DecidableEq, Repr

/-! ## The card intake unit -/

/-- The values a take reads from a card (R3, R14). -/
structure CardRequest where
  head : Nat
  cut : Bool
  notify : Bool
  gain : Nat
  frame : Nat
  tileCount : Nat
  tileAddr : Nat
deriving DecidableEq, Repr

/-- The six endings of a card (R4). -/
inductive Ending where
  | completed
  | late
  | stale
  | malformed
  | uncalibrated
  | busError
deriving DecidableEq, Repr

/-- The take in progress (R22): the values read, the failed check if any, and the last-taken frame before
the take, kept for R18. `next` is the stage the take runs next. -/
structure TakeJob where
  next : TakeStage
  req : CardRequest
  failed : Option Ending
  lastBefore : Option Nat
deriving DecidableEq, Repr

/-- The CIU (R22); its take in progress stands in the engine's condition. -/
structure Ciu where
  /-- The last-taken frame of each head, absent or a frame number (R17). -/
  lastTaken : Two (Option Nat)
  /-- Each head's candidate: the flag is set when a slot is present (R9, R12). -/
  candidate : Two (Option (Fin 8))
deriving DecidableEq, Repr

/-! ## The colour engine -/

/-- The accumulators of the tile pass (R47). -/
structure Accumulators where
  rSum : Nat
  gSum : Nat
  bSum : Nat
  accepted : Nat
deriving DecidableEq, Repr

/-- Why an estimate is WEAK (R48). -/
inductive WeakReason where
  | none
  | fewTiles
  | noChroma
deriving DecidableEq, Repr

/-- An estimate (R52): it is GOOD when the reason is `none`, and then the measured mired is present. -/
structure Estimate where
  reason : WeakReason
  accepted : Nat
  blueShare : Nat
  mired : Option Nat
deriving DecidableEq, Repr

/-- A row of a colour matrix. -/
structure Row3 where
  c0 : Int
  c1 : Int
  c2 : Int
deriving DecidableEq, Repr

/-- A 3×3 matrix, row by row. -/
structure Mat3 where
  r0 : Row3
  r1 : Row3
  r2 : Row3
deriving DecidableEq, Repr

/-- What a card's context read takes (R32). -/
structure ContextRead where
  index : Fin 4
  mired : Nat
  generation : BitVec 32
  trim : Int
deriving DecidableEq, Repr

/-- The grade proper (R98 to R104): head mired, segment and weight, gains, interpolated and desaturated
matrix, saturation factor. -/
structure Grade where
  headMired : Nat
  segment : Nat
  weight : Nat
  redGain : Int
  blueGain : Int
  interpolated : Mat3
  desaturated : Mat3
  saturation : Nat
deriving DecidableEq, Repr

/-- The pod snapshot of a card (R107), when present. -/
structure PodSnapshot where
  mired : Nat
  lux : Nat
  age : Nat
  quit : Bool
  dim : Bool
deriving DecidableEq, Repr

/-- The monitor snapshot of a card (R160). -/
structure MonitorSnapshot where
  values : Quad Nat
  frozen : Bool
deriving DecidableEq, Repr

/-- The card job in hand (R29 to R33): the values read at the take, the accumulators and tallies (R30), the
estimate (R31) and the grade record of R110, each holding its starting value until its stage fills it.
`next` is the stage the job runs next. -/
structure CardJob where
  next : CardStage
  req : CardRequest
  lastBefore : Option Nat
  acc : Accumulators
  tallies : Quad Nat
  estimate : Estimate
  context : ContextRead
  grade : Grade
  bank : Option BankIx
  marks : Nat
  pod : Option PodSnapshot
  monitors : MonitorSnapshot
deriving DecidableEq, Repr

/-- The result codes of a directive (R172). -/
inductive ResultCode where
  | done
  | refusedKind
  | refusedValue
  | refusedState
  | busError
deriving DecidableEq, Repr

/-- The fourteen kinds of directive (12.3). -/
inductive DirKind where
  | setOrder
  | setFilter
  | loadCalibration
  | setTracking
  | switchContext
  | snap
  | setGrade
  | bakeLut
  | abortBake
  | setCadence
  | setPod
  | setMonitor
  | setFreeze
  | clearMonitor
deriving DecidableEq, Repr

/-- The directive job in hand (R35, R172): the kind as read (an unknown kind reads as absent), the payload
bytes as one little-endian number, and the result code once it is decided. `next` is the stage the job runs
next; the kind has a meaning once that stage is past `kind`. -/
structure DirJob where
  next : DirStage
  kind : Option DirKind
  payload : Nat
  result : Option ResultCode
deriving DecidableEq, Repr

/-- The engine's condition (R23), with the job in hand. -/
inductive Engine where
  | free
  | take (head : Head) (slot : Fin 8) (job : TakeJob)
  | card (head : Head) (slot : Fin 8) (job : CardJob)
  | directive (job : DirJob)
  | bake (bank : BankIx)
deriving DecidableEq, Repr

/-- The endings of a job (R28). -/
inductive JobEnding where
  | completed
  | refused
  | partialJob
  | terminated
deriving DecidableEq, Repr

/-- The kinds of job (12.2); a take counts as a card job. -/
inductive JobKind where
  | card
  | directive
  | bake
deriving DecidableEq, Repr

/-- A match and mask pair of the key test (R43). -/
structure KeyPair where
  enable : Bool
  value : BitVec 8
  mask : BitVec 8
deriving DecidableEq, Repr

/-- The filter settings (R56). -/
structure FilterSettings where
  pairA : KeyPair
  pairB : KeyPair
  lLo : Nat
  lHi : Nat
  clipLimit : Nat
  aMin : Nat
deriving DecidableEq, Repr

/-- The grade settings (R96). -/
structure GradeSettings where
  gK : Nat
  gM : Nat
  sMin : Nat
deriving DecidableEq, Repr

/-- The colour engine and its arbiter (R23, R24, R26, R28, R56, R96). -/
structure Ce where
  /-- The condition, with the job in hand (R23). -/
  engine : Engine
  /-- The grant order code, 0..5 (R26). -/
  order : Fin 6
  /-- The directive claim (R24). -/
  directiveClaim : Bool
  /-- The most recent job ending and the kind of job it ended, absent after a reset (R28). -/
  lastEnding : Option (JobEnding × JobKind)
  /-- The filter settings (R56). -/
  filter : FilterSettings
  /-- The grade settings (R96). -/
  grading : GradeSettings
deriving DecidableEq, Repr

/-! ## The illuminant tracker -/

/-- How disagreeing sources are settled (R86). -/
inductive Policy where
  | coolBias
  | warmBias
  | agree
deriving DecidableEq, Repr

/-- The set of sources a context counts, or that counted at a step (R72, R90). -/
structure SourceSet where
  h0 : Bool
  h1 : Bool
  pod : Bool
deriving DecidableEq, Repr

/-- The settings of an initialised scene context (R72). -/
structure ContextSettings where
  policy : Policy
  holdBand : Nat
  stepLimit : Nat
  agreeSpread : Nat
  sources : SourceSet
  maxAge : Nat
  trims : Two Int
deriving DecidableEq, Repr

/-- An initialised scene context (R72). -/
structure Context where
  mired : Nat
  generation : BitVec 32
  settings : ContextSettings
deriving DecidableEq, Repr

/-- A head's latest estimate (R80). -/
structure Latest where
  mired : Nat
  frame : Nat
deriving DecidableEq, Repr

/-- The outcomes of a tracker step (R90). -/
inductive StepOutcome where
  | podHold
  | noSource
  | snapped
  | held
  | moved
deriving DecidableEq, Repr

/-- The record of a tracker step (R90). -/
structure StepResult where
  frameCount : Nat
  context : Fin 4
  outcome : StepOutcome
  target : Option Nat
  spread : Option Nat
  counted : SourceSet
deriving DecidableEq, Repr

/-- The illuminant tracker (R72, R73, R79, R80, R90, R92). -/
structure It where
  /-- The scene context table; an uninitialised record is absent (R72). -/
  contexts : Quad (Option Context)
  /-- The active context index (R73). -/
  active : Fin 4
  /-- The latest estimate of each head (R80). -/
  latest : Two (Option Latest)
  /-- The snap request (R79). -/
  snapRequest : Bool
  /-- The pending mark count of each head, 0..255 (R92). -/
  marks : Two Nat
  /-- The result of the latest step, absent after a reset (R90). -/
  lastStep : Option StepResult
deriving DecidableEq, Repr

/-! ## The calibration store -/

/-- A calibration point (R60). -/
structure CalPoint where
  beta : Nat
  mired : Nat
  redGain : Nat
  blueGain : Nat
  matrix : Mat3
deriving DecidableEq, Repr

/-- The calibration store (R60, R61, R63). -/
structure Cs where
  /-- The valid flag (R61). -/
  valid : Bool
  /-- The point list, point 0 first; empty while the store is not valid (R60, R61). -/
  points : List CalPoint
  /-- The load buffer (R63). -/
  loadBuffer : List CalPoint
deriving DecidableEq, Repr

/-! ## The LUT bank unit -/

/-- A look record as copied (R115). -/
structure Look where
  matrix : Mat3
  knee : Nat
  knots : List Nat
deriving DecidableEq, Repr

/-- A bank record (R111): each state holds the fields it uses. -/
inductive Bank where
  | empty
  | baking (cursor : Nat) (look : Look)
  | armed (swapFrame : Nat)
  | live (startFrame : Nat) (predecessor : Bool)
  | retiring (startFrame : Nat) (predecessor : Bool) (retireFrame : Nat)
deriving DecidableEq, Repr

/-- The LUT bank unit (R111, R123). -/
structure Lbu where
  /-- The two bank records (R111). -/
  banks : Two Bank
  /-- The pending query frame (R123). -/
  pendingQuery : Option Nat
deriving DecidableEq, Repr

/-! ## The cadence timers -/

/-- The cadence timers (R129). `trackerDue` and `pollDue` are the model's own: an expiry that the timer has
emitted at an advance and its consumer has not yet taken (notes/assumptions/3.md). -/
structure Ct where
  /-- N_t, 1..64. -/
  trackerLen : Nat
  /-- The tracker timer's remaining count, 1..N_t. -/
  trackerCount : Nat
  /-- N_p, 1..256. -/
  pollLen : Nat
  /-- The poll timer's remaining count, 1..N_p. -/
  pollCount : Nat
  /-- N_s, 0..255. -/
  settleLen : Nat
  /-- The settle mode: RETRIGGERABLE when set. -/
  retriggerable : Bool
  /-- The settle timer's running flag. -/
  settleRunning : Bool
  /-- The settle timer's remaining count, 0..N_s. -/
  settleCount : Nat
  /-- A tracker expiry not yet taken (the model's own). -/
  trackerDue : Bool
  /-- A poll expiry not yet taken (the model's own). -/
  pollDue : Bool
deriving DecidableEq, Repr

/-! ## The meter link controller -/

/-- The link states (R142). -/
inductive LinkState where
  | off
  | detect
  | linked
deriving DecidableEq, Repr

/-- The kinds of exchange (R139). -/
inductive ExchangeKind where
  | probe
  | read
deriving DecidableEq, Repr

/-- A received character: its data bits, and whether it is good (R138). -/
structure RxChar where
  data : BitVec 8
  good : Bool
deriving DecidableEq, Repr

/-- The phases of an exchange (R140); a receiving exchange holds the characters taken in, first first. -/
inductive ExchangePhase where
  | sending
  | awaiting
  | receiving (chars : List RxChar)
deriving DecidableEq, Repr

/-- The exchange in flight (R140, R142). -/
structure Exchange where
  kind : ExchangeKind
  phase : ExchangePhase
deriving DecidableEq, Repr

/-- A pod reading (R142, R147). -/
structure Reading where
  mired : Nat
  lux : Nat
  quit : Bool
  dim : Bool
  sequence : Nat
  stamp : Nat
deriving DecidableEq, Repr

/-- The meter link controller (R142). `finishing` is the character that it finishes once the request it was
sending has been abandoned (R151, R154); `abandons` is the model's own count of such requests
(notes/assumptions/30.md). -/
structure Mlc where
  link : LinkState
  enable : Bool
  luxFloor : Nat
  missCount : Nat
  podClass : Option Nat
  reading : Option Reading
  lastMark : Option Nat
  hold : Bool
  exchange : Option Exchange
  finishing : Option (BitVec 8)
  abandons : Nat
deriving DecidableEq, Repr

/-! ## The monitor counters -/

/-- The sources of a counter (R156). -/
inductive MonSource where
  | off
  | tileLevel
  | tileClip
  | estMired
  | weak
  | slew
  | spread
  | noSource
  | podMiss
  | late
deriving DecidableEq, Repr

/-- The head select of a counter (R155). -/
inductive HeadSelect where
  | only (head : Head)
  | both
deriving DecidableEq, Repr

/-- The settings of a counter (R155). -/
structure CounterSettings where
  source : MonSource
  level : Nat
  invert : Bool
  edge : Bool
  select : HeadSelect
  enable : Bool
deriving DecidableEq, Repr

/-- A monitor counter (R155). -/
structure Counter where
  value : Nat
  wrapped : Bool
  edgeMemory : Bool
  settings : CounterSettings
deriving DecidableEq, Repr

/-- The monitor block (R155). -/
structure Mon where
  counters : Quad Counter
  frozen : Bool
  freezeOnCut : Bool
deriving DecidableEq, Repr

/-! ## Shared memory as the part reaches it -/

/-- The bytes of shared memory that differ from what an unlisted address reads as, by rising address. -/
abbrev Memory := List Host.Cell

/-- Shared memory and its bus. `unbacked` (base and size of each range no memory answers at, R168) and
`failPlan` (for each coming access in turn, whether the bus fails it; an access beyond the list does not
fail) are the model's own: they hold what the outside decides (notes/assumptions/2.md). -/
structure Bus where
  mem : Memory
  unbacked : List (Nat × Nat)
  failPlan : List Bool
deriving DecidableEq, Repr

/-! ## The whole part -/

/-- The state of the part, its shared memory and the queue of waiting commands. `freeUses` is the model's
own count of free values used. -/
structure State where
  aiu : Aiu
  ciu : Ciu
  ce : Ce
  it : It
  cs : Cs
  lbu : Lbu
  ct : Ct
  mlc : Mlc
  mon : Mon
  bus : Bus
  freeUses : Nat
  pending : List Instr
deriving DecidableEq, Repr

/-! ## Reset values -/

/-- The AIU after a device reset (R174, 12.1). -/
def Aiu.reset : Aiu :=
  { area := 0, mask := 0x1FF#9, run := .stopped, areaInvalid := false, countEnd := false,
    faultKind := none, causes := 0, frameCount := 0 }

/-- The CIU after either reset (R22). -/
def Ciu.reset : Ciu :=
  { lastTaken := { i0 := none, i1 := none }, candidate := { i0 := none, i1 := none } }

/-- The filter settings after a device reset (R56). -/
def FilterSettings.reset : FilterSettings :=
  { pairA := { enable := true, value := 0, mask := 0 },
    pairB := { enable := false, value := 0, mask := 0 },
    lLo := 256, lHi := 60000, clipLimit := 16, aMin := 8 }

/-- The grade settings after a device reset (R96). -/
def GradeSettings.reset : GradeSettings := { gK := 180, gM := 420, sMin := 1638 }

/-- The engine and its arbiter after a device reset (R39, R56, R96). -/
def Ce.reset : Ce :=
  { engine := .free, order := 0, directiveClaim := false, lastEnding := none,
    filter := FilterSettings.reset, grading := GradeSettings.reset }

/-- Context 0 after a device reset (R73). -/
def Context.reset : Context :=
  { mired := 3200, generation := 0,
    settings :=
      { policy := .coolBias, holdBand := 32, stepLimit := 8, agreeSpread := 800,
        sources := { h0 := true, h1 := true, pod := true }, maxAge := 8,
        trims := { i0 := 0, i1 := 0 } } }

/-- The tracker after a device reset (R73, R95). -/
def It.reset : It :=
  { contexts := { q0 := some Context.reset, q1 := none, q2 := none, q3 := none }, active := 0,
    latest := { i0 := none, i1 := none }, snapRequest := false, marks := { i0 := 0, i1 := 0 },
    lastStep := none }

/-- The calibration store after a device reset (R61). -/
def Cs.reset : Cs := { valid := false, points := [], loadBuffer := [] }

/-- The LUT bank unit after a device reset (R126). -/
def Lbu.reset : Lbu := { banks := { i0 := .empty, i1 := .empty }, pendingQuery := none }

/-- The cadence timers after a device reset (R137). -/
def Ct.reset : Ct :=
  { trackerLen := 2, trackerCount := 2, pollLen := 4, pollCount := 4, settleLen := 12,
    retriggerable := true, settleRunning := false, settleCount := 0, trackerDue := false,
    pollDue := false }

/-- The meter link after a device reset (R154). -/
def Mlc.reset : Mlc :=
  { link := .off, enable := false, luxFloor := 16, missCount := 0, podClass := none, reading := none,
    lastMark := none, hold := false, exchange := none, finishing := none, abandons := 0 }

/-- A counter after a device reset (R165). -/
def Counter.reset : Counter :=
  { value := 0, wrapped := false, edgeMemory := false,
    settings :=
      { source := .off, level := 0, invert := false, edge := false, select := .both, enable := false } }

/-- The monitor block after a device reset (R165). -/
def Mon.reset : Mon :=
  { counters := Quad.const Counter.reset, frozen := false, freezeOnCut := false }

/-- Shared memory before anything is stored: nothing listed, all of it backed, no access failing. -/
def Bus.reset : Bus := { mem := [], unbacked := [], failPlan := [] }

/-- The machine right after a device reset, with nothing yet stored in shared memory and no command
waiting. -/
def State.reset : State :=
  { aiu := Aiu.reset, ciu := Ciu.reset, ce := Ce.reset, it := It.reset, cs := Cs.reset,
    lbu := Lbu.reset, ct := Ct.reset, mlc := Mlc.reset, mon := Mon.reset, bus := Bus.reset,
    freeUses := 0, pending := [] }

end Sys2Proof.Machine
end

