-- ==== Sys2Proof/Machine/Operands.lean ====
section
/-! DEFINITION. Fields of records and words: the little-endian field of a record, signed values, flag bits,
the codes of the tables of chapter 12, and the fields each directive carries (12.3). -/

namespace Sys2Proof.Machine

/-! ## Fields of a record -/

/-- Floor division by 4096, the right shift by 12 of section 1.5. -/
def shr12 (x : Int) : Int := x / 4096

/-- The field of `size` bytes at byte offset `off` of a little-endian record held as one number. -/
def field (record off size : Nat) : Nat := record / 256 ^ off % 256 ^ size

/-- A value of `bits` bits read as two's complement. -/
def signed (bits v : Nat) : Int := if v < 2 ^ (bits - 1) then (v : Int) else (v : Int) - 2 ^ bits

/-- A signed value as the number its two's complement of `bits` bits spells. -/
def unsignedOf (bits : Nat) (x : Int) : Nat := (x % 2 ^ bits).toNat

/-- Bit `i` of a field. -/
def bit (v i : Nat) : Bool := v / 2 ^ i % 2 == 1

/-- A flag as a number. -/
def flag (b : Bool) : Nat := if b then 1 else 0

/-- A value brought into `lo..hi`. -/
def clamp (lo hi v : Nat) : Nat := if v < lo then lo else if hi < v then hi else v

/-- A signed value brought into `lo..hi`. -/
def clampInt (lo hi v : Int) : Int := if v < lo then lo else if hi < v then hi else v

/-- An optional number, 0 when absent (R177). -/
def orZero (v : Option Nat) : Nat := v.getD 0

/-! ## Signed matrices -/

/-- Nine signed 16-bit coefficients at an offset of a record, row 0 first (12.5). -/
def matrixField (record off : Nat) : Mat3 :=
  let c (k : Nat) : Int := signed 16 (field record (off + 2 * k) 2)
  { r0 := { c0 := c 0, c1 := c 1, c2 := c 2 },
    r1 := { c0 := c 3, c1 := c 4, c2 := c 5 },
    r2 := { c0 := c 6, c1 := c 7, c2 := c 8 } }

/-! ## Records read by the part -/

/-- The request fields of a card (12.4, R3). -/
def cardRequest (record : Nat) : CardRequest :=
  { head := field record 0x04 1,
    cut := bit (field record 0x05 1) 0,
    notify := bit (field record 0x05 1) 1,
    gain := field record 0x06 2,
    frame := field record 0x08 4,
    tileCount := field record 0x0C 2,
    tileAddr := field record 0x10 4 }

/-- A tile record (R40). -/
structure Tile where
  rSum : Nat
  gSum : Nat
  bSum : Nat
  pixels : Nat
  clipped : Nat
  key : BitVec 8
deriving DecidableEq, Repr

/-- The fields of a tile record (12.5). -/
def tileRecord (record : Nat) : Tile :=
  { rSum := field record 0x00 4,
    gSum := field record 0x04 4,
    bSum := field record 0x08 4,
    pixels := field record 0x0C 2,
    clipped := field record 0x0E 1,
    key := BitVec.ofNat 8 (field record 0x0F 1) }

/-- The fields of a calibration point record (12.5); its last six bytes are not examined (R63). -/
def calPointRecord (record : Nat) : CalPoint :=
  { beta := field record 0x00 2,
    mired := field record 0x02 2,
    redGain := field record 0x04 2,
    blueGain := field record 0x06 2,
    matrix := matrixField record 0x08 }

/-- The fields of a look record (12.5), the knee brought into 2048..4096 (R115). -/
def lookRecord (record : Nat) : Look :=
  { matrix := matrixField record 0x00,
    knee := clamp 2048 4096 (field record 0x12 2),
    knots := (List.range 17).map (fun k => field record (0x14 + 2 * k) 2) }

/-! ## Codes -/

/-- The kind codes of directives, compared over the whole field (12.3, R176). -/
def dirKindOf : Nat → Option DirKind
  | 0x01 => some .setOrder
  | 0x02 => some .setFilter
  | 0x03 => some .loadCalibration
  | 0x04 => some .setTracking
  | 0x05 => some .switchContext
  | 0x06 => some .snap
  | 0x07 => some .setGrade
  | 0x08 => some .bakeLut
  | 0x09 => some .abortBake
  | 0x0A => some .setCadence
  | 0x0B => some .setPod
  | 0x0C => some .setMonitor
  | 0x0D => some .setFreeze
  | 0x0E => some .clearMonitor
  | _ => none

/-- The bytes of payload a kind uses, in spans of bytes (12.3); a byte that no field of the kind uses is not
read (R176), and a kind that takes no field reads none. -/
def payloadSpans : DirKind → List (Nat × Nat)
  | .setOrder => [(0, 2)]
  | .setFilter => [(0, 3), (4, 3), (8, 8)]
  | .loadCalibration => [(0, 6)]
  | .setTracking => [(0, 20)]
  | .switchContext => [(0, 2)]
  | .snap => []
  | .setGrade => [(0, 6)]
  | .bakeLut => [(0, 4)]
  | .abortBake => []
  | .setCadence => [(0, 6)]
  | .setPod => [(0, 6)]
  | .setMonitor => [(0, 6)]
  | .setFreeze => [(0, 1)]
  | .clearMonitor => []

/-- The result codes (12.3). -/
def resultCode : ResultCode → Nat
  | .done => 1
  | .refusedKind => 2
  | .refusedValue => 3
  | .refusedState => 4
  | .busError => 5

/-- The ending codes (12.4). -/
def endingCode : Ending → Nat
  | .completed => 1
  | .late => 2
  | .stale => 3
  | .malformed => 4
  | .uncalibrated => 5
  | .busError => 6

/-- The weak reason codes (12.4). -/
def weakReasonCode : WeakReason → Nat
  | .none => 0
  | .fewTiles => 1
  | .noChroma => 2

/-- The policy codes (12.3). -/
def policyOf : Nat → Option Policy
  | 0 => some .coolBias
  | 1 => some .warmBias
  | 2 => some .agree
  | _ => none

/-- The monitor source codes (12.3). -/
def monSourceOf : Nat → Option MonSource
  | 0 => some .off
  | 1 => some .tileLevel
  | 2 => some .tileClip
  | 3 => some .estMired
  | 4 => some .weak
  | 5 => some .slew
  | 6 => some .spread
  | 7 => some .noSource
  | 8 => some .podMiss
  | 9 => some .late
  | _ => none

/-- The head select codes (12.3). -/
def headSelectOf : Nat → Option HeadSelect
  | 0 => some (.only .i0)
  | 1 => some (.only .i1)
  | 2 => some .both
  | _ => none

/-- An index below 4 as a context or counter index; anything else is out of range. -/
def quadIndex (n : Nat) : Option (Fin 4) := if h : n < 4 then some ⟨n, h⟩ else none

/-- A grant order code, 0..5; anything else is out of range (R26). -/
def orderCode (n : Nat) : Option (Fin 6) := if h : n < 6 then some ⟨n, h⟩ else none

/-! ## Register words (12.1) -/

/-- The attention mask field of CONTROL, bits 24..16. -/
def controlMask (word : BitVec 32) : BitVec 9 := word.extractLsb' 16 9

/-- The cause field of ATTN, bits 8..0. -/
def attnCauses (word : BitVec 32) : BitVec 9 := word.extractLsb' 0 9

/-! ## Pod characters (R138) -/

/-- How many of the low `n` bits of a character are ones. -/
def onesBelow (b : BitVec 8) : Nat → Nat
  | 0 => 0
  | n + 1 => flag (b.getLsbD n) + onesBelow b n

/-- The parity bit of a character: with the eight data bits it makes the number of ones odd (R138). -/
def parityBit (data : BitVec 8) : Bool := onesBelow data 8 % 2 == 0

/-- A received character: good when its parity is odd and its stop bit is 1 (R138). -/
def rxChar (data : BitVec 8) (parity stop : Bool) : RxChar :=
  { data := data, good := parity == parityBit data && stop }

/-- The 11 bits of a character as the part sends it, first bit first: the start bit, the eight data bits from
the least significant, the parity bit, the stop bit (R138). The start bit is the 0 opposite to the stop
bit's 1 (DEDUCED, notes/assumptions/20.md). -/
def lineBits (data : BitVec 8) : List Bool :=
  false :: (List.range 8).map data.getLsbD ++ [parityBit data, true]

end Sys2Proof.Machine
end

