-- ==== Sys2Proof/Machine/Flags.lean ====
section
/-! DEFINITION. The attention causes and the ATTN line (R171, 12.7), and what each register reads
(R166, 12.1). -/

namespace Sys2Proof.Machine

/-- The nine attention causes (R171). -/
inductive Cause where
  | card
  | directive
  | bank
  | podFound
  | podLost
  | hold
  | monWrap
  | countEnd
  | fault
deriving DecidableEq, Repr

/-- The bit of a cause (12.7). -/
def causeBit : Cause → Nat
  | .card => 0
  | .directive => 1
  | .bank => 2
  | .podFound => 3
  | .podLost => 4
  | .hold => 5
  | .monWrap => 6
  | .countEnd => 7
  | .fault => 8

/-- Whether a cause is set. -/
def hasCause (causes : BitVec 9) (c : Cause) : Bool := causes.getLsbD (causeBit c)

/-- The causes with one set; one already set stays set (R171). -/
def withCause (causes : BitVec 9) (c : Cause) : BitVec 9 := causes ||| BitVec.twoPow 9 (causeBit c)

/-- The causes after a write to ATTN: each written 1 is cleared (R166, R171). -/
def clearCauses (causes : BitVec 9) (word : BitVec 32) : BitVec 9 := causes &&& ~~~ attnCauses word

/-- The ATTN output line: asserted while a set cause is unmasked (R171). -/
def attnLine (a : Aiu) : Bool := (a.causes &&& a.mask) != 0

/-- The six registers (R166). -/
inductive Register where
  | ident
  | area
  | control
  | state
  | attn
  | frame
deriving DecidableEq, Repr

/-- The run state code (12.2). -/
def runCode : RunState → Nat
  | .stopped => 0
  | .running => 1
  | .draining => 2
  | .faulted => 3

/-- The fault kind code (12.2). -/
def faultCode : Option FaultKind → Nat
  | none => 0
  | some .tableRead => 1
  | some .slotRead => 2
  | some .cardWrite => 3
  | some .slotWrite => 4
  | some .statusWrite => 5
  | some .bankWrite => 6

/-- What a read of a register answers (R166, 12.1); bits not named read 0 (R177). -/
def readRegister (r : Register) (a : Aiu) : BitVec 32 :=
  match r with
  | .ident => Config.ident
  | .area => a.area
  | .control => BitVec.ofNat 32 (flag (a.run == .running) + a.mask.toNat * 2 ^ 16)
  | .state =>
    BitVec.ofNat 32
      (runCode a.run + flag a.areaInvalid * 2 ^ 2 + flag a.countEnd * 2 ^ 3
        + faultCode a.faultKind * 2 ^ 8)
  | .attn => BitVec.ofNat 32 a.causes.toNat
  | .frame => BitVec.ofNat 32 a.frameCount

end Sys2Proof.Machine
end

