-- ==== Sys2Proof/Machine/Status.lean ====
section
/-! DEFINITION. What the status block shows (12.2) and what a bank header shows (12.5): the fields with
their offsets, sizes and values, by owner. Nothing here writes; Machine/Ops.lean does. -/

namespace Sys2Proof.Machine

/-- A value to be written: its offset (or address), its size in bytes, its value. -/
structure Field where
  off : Nat
  size : Nat
  val : Nat
deriving DecidableEq, Repr

/-- The owners of the status block's fields (12.2). -/
inductive Owner where
  | aiu
  | ce
  | ciu
  | cs
  | it
  | ct
  | mlc
  | mon
deriving DecidableEq, Repr

/-- The engine condition code (12.2). -/
def engineCode : Engine → Nat
  | .free => 0
  | .take _ _ _ => 1
  | .card _ _ _ => 2
  | .directive _ => 3
  | .bake _ => 4

/-- The engine detail: slot and head in TAKE and CARD, the bank in BAKE, otherwise 0 (12.2). -/
def engineDetail : Engine → Nat
  | .take h slot _ => slot.val + 8 * h.toNat
  | .card h slot _ => slot.val + 8 * h.toNat
  | .bake b => b.toNat
  | .free => 0
  | .directive _ => 0

/-- The job ending code (12.2). -/
def jobEndingCode : JobEnding → Nat
  | .completed => 1
  | .refused => 2
  | .partialJob => 3
  | .terminated => 4

/-- The job kind code (12.2). -/
def jobKindCode : JobKind → Nat
  | .card => 0
  | .directive => 1
  | .bake => 2

/-- The most recent job ending: ending in bits 2..0, kind in bits 5..4; 0 when there is none. -/
def lastEndingCode : Option (JobEnding × JobKind) → Nat
  | none => 0
  | some (e, k) => jobEndingCode e + 16 * jobKindCode k

/-- A candidate slot, 15 for none (R177). -/
def candidateCode : Option (Fin 8) → Nat
  | none => 15
  | some k => k.val

/-- The step outcome code, 0 for no step (12.2). -/
def outcomeCode : Option StepOutcome → Nat
  | none => 0
  | some .podHold => 1
  | some .noSource => 2
  | some .snapped => 3
  | some .held => 4
  | some .moved => 5

/-- The link state code (12.2). -/
def linkCode : LinkState → Nat
  | .off => 0
  | .detect => 1
  | .linked => 2

/-- The exchange in flight code (12.2). -/
def exchangeCode : Option Exchange → Nat
  | none => 0
  | some x => match x.kind with
    | .probe => 1
    | .read => 2

/-- The AIU's fields. -/
def aiuFields (a : Aiu) : List Field :=
  [⟨0x00, 1, runCode a.run⟩,
   ⟨0x01, 1, faultCode a.faultKind⟩,
   ⟨0x02, 1, flag a.countEnd + 2 * flag a.areaInvalid⟩,
   ⟨0x04, 4, a.frameCount⟩,
   ⟨0x08, 2, a.causes.toNat⟩]

/-- The engine's condition, with its head and slot or its bank (R23). -/
def conditionFields (c : Ce) : List Field :=
  [⟨0x03, 1, engineCode c.engine⟩, ⟨0x0A, 1, engineDetail c.engine⟩]

/-- The grant order (R26) and the most recent job ending (R28). -/
def arbiterFields (c : Ce) : List Field :=
  [⟨0x0B, 1, c.order.val⟩, ⟨0x0C, 1, lastEndingCode c.lastEnding⟩]

/-- The engine's fields. -/
def ceFields (c : Ce) : List Field := conditionFields c ++ arbiterFields c

/-- The CIU's fields (R22). -/
def ciuFields (c : Ciu) : List Field :=
  [⟨0x0D, 1, candidateCode c.candidate.i0 + 16 * candidateCode c.candidate.i1⟩,
   ⟨0x0E, 1, flag c.lastTaken.i0.isSome + 2 * flag c.lastTaken.i1.isSome⟩,
   ⟨0x10, 4, orZero c.lastTaken.i0⟩,
   ⟨0x14, 4, orZero c.lastTaken.i1⟩]

/-- The mired of point 0, 0 when there is none (R70). -/
def storeTop (c : Cs) : Nat := orZero (c.points.head?.map CalPoint.mired)

/-- The mired of the last point, 0 when there is none (R70). -/
def storeBottom (c : Cs) : Nat := orZero (c.points.getLast?.map CalPoint.mired)

/-- The calibration store's fields (R70): count, m_0 and m_last read 0 when the store is not valid. -/
def csFields (c : Cs) : List Field :=
  if c.valid then
    [⟨0x0F, 1, c.points.length + 128⟩, ⟨0x18, 2, storeTop c⟩, ⟨0x1A, 2, storeBottom c⟩]
  else
    [⟨0x0F, 1, 0⟩, ⟨0x18, 2, 0⟩, ⟨0x1A, 2, 0⟩]

/-- A source set as bits H0, H1, POD. -/
def sourceBits (s : SourceSet) : Nat := flag s.h0 + 2 * flag s.h1 + 4 * flag s.pod

/-- The fields of the last step (R94), 0 when no step has been taken since the last reset. -/
def stepFields (r : Option StepResult) : List Field :=
  [⟨0x1D, 1, outcomeCode (r.map StepResult.outcome) + 8 * orZero (r.map (fun x => x.context.val))
      + 32 * flag ((r.bind StepResult.target).isSome) + 64 * flag ((r.bind StepResult.spread).isSome)⟩,
   ⟨0x3C, 4, orZero (r.map StepResult.frameCount)⟩,
   ⟨0x40, 2, orZero (r.bind StepResult.target)⟩,
   ⟨0x42, 2, orZero (r.bind StepResult.spread)⟩]

/-- The fields of one context: its applied mired and its generation, 0 when uninitialised. -/
def contextFields (i : Nat) (c : Option Context) : List Field :=
  [⟨0x24 + 2 * i, 2, orZero (c.map Context.mired)⟩,
   ⟨0x2C + 4 * i, 4, orZero (c.map (fun x => x.generation.toNat))⟩]

/-- The tracker's fields (R94). -/
def itFields (t : It) : List Field :=
  [⟨0x1C, 1, t.active.val + 4 * flag t.snapRequest + 8 * flag t.latest.i0.isSome
      + 16 * flag t.latest.i1.isSome⟩,
   ⟨0x1E, 1, orZero (t.lastStep.map (fun r => sourceBits r.counted)) + 16 * flag t.contexts.q0.isSome
      + 32 * flag t.contexts.q1.isSome + 64 * flag t.contexts.q2.isSome
      + 128 * flag t.contexts.q3.isSome⟩,
   ⟨0x1F, 1, t.marks.i0⟩,
   ⟨0x20, 1, t.marks.i1⟩,
   ⟨0x44, 2, orZero (t.latest.i0.map Latest.mired)⟩,
   ⟨0x46, 2, orZero (t.latest.i1.map Latest.mired)⟩,
   ⟨0x48, 4, orZero (t.latest.i0.map Latest.frame)⟩,
   ⟨0x4C, 4, orZero (t.latest.i1.map Latest.frame)⟩]
    ++ stepFields t.lastStep
    ++ contextFields 0 t.contexts.q0 ++ contextFields 1 t.contexts.q1
    ++ contextFields 2 t.contexts.q2 ++ contextFields 3 t.contexts.q3

/-- The timers' fields (R136). -/
def ctFields (c : Ct) : List Field :=
  [⟨0x21, 1, c.trackerLen⟩,
   ⟨0x22, 1, c.trackerCount⟩,
   ⟨0x23, 1, c.settleLen⟩,
   ⟨0x50, 2, c.pollLen⟩,
   ⟨0x52, 2, c.pollCount⟩,
   ⟨0x54, 1, c.settleCount⟩,
   ⟨0x55, 1, flag c.settleRunning + 2 * flag c.retriggerable⟩]

/-- The meter link's fields (R153). -/
def mlcFields (m : Mlc) : List Field :=
  [⟨0x56, 1, linkCode m.link + 4 * m.missCount + 16 * exchangeCode m.exchange + 64 * flag m.enable
      + 128 * flag m.hold⟩,
   ⟨0x57, 1, flag m.podClass.isSome + 2 * flag m.reading.isSome + 4 * flag m.lastMark.isSome
      + 8 * flag ((m.reading.map Reading.quit).getD false)
      + 16 * flag ((m.reading.map Reading.dim).getD false)⟩,
   ⟨0x58, 2, m.luxFloor⟩,
   ⟨0x5A, 1, orZero m.podClass⟩,
   ⟨0x5B, 1, orZero m.lastMark⟩,
   ⟨0x5C, 2, orZero (m.reading.map Reading.mired)⟩,
   ⟨0x5E, 2, orZero (m.reading.map Reading.lux)⟩,
   ⟨0x60, 1, orZero (m.reading.map Reading.sequence)⟩,
   ⟨0x64, 4, orZero (m.reading.map Reading.stamp)⟩]

/-- The monitor block's fields (R164). -/
def monFields (m : Mon) : List Field :=
  [⟨0x61, 1, flag m.counters.q0.wrapped + 2 * flag m.counters.q1.wrapped
      + 4 * flag m.counters.q2.wrapped + 8 * flag m.counters.q3.wrapped + 16 * flag m.frozen
      + 32 * flag m.freezeOnCut⟩,
   ⟨0x68, 6, m.counters.q0.value⟩,
   ⟨0x6E, 6, m.counters.q1.value⟩,
   ⟨0x74, 6, m.counters.q2.value⟩,
   ⟨0x7A, 6, m.counters.q3.value⟩]

/-- The two bytes written as 0 whenever the MON owner rewrites its fields (R177). -/
def monPadding : Field := ⟨0x62, 2, 0⟩

/-- All the fields of an owner, from its current state. -/
def ownerFields (o : Owner) (s : State) : List Field :=
  match o with
  | .aiu => aiuFields s.aiu
  | .ce => ceFields s.ce
  | .ciu => ciuFields s.ciu
  | .cs => csFields s.cs
  | .it => itFields s.it
  | .ct => ctFields s.ct
  | .mlc => mlcFields s.mlc
  | .mon => monFields s.mon

/-- The fields of a list that differ from the fields in the same places of another. -/
def differing (new old : List Field) : List Field :=
  ((new.zip old).filter (fun p => p.1 ≠ p.2)).map Prod.fst

/-- The engine's fields after an update: at each change of its condition both fields that show it, whether
or not their values differ (R23), and of the others those that the update has changed. -/
def changedCeFields (before after : Ce) : List Field :=
  (if engineCode before.engine = engineCode after.engine then
    differing (conditionFields after) (conditionFields before)
  else conditionFields after)
    ++ differing (arbiterFields after) (arbiterFields before)

/-- The monitor block's fields after an update: those the update has changed, and the two zero bytes with
them (R164, R177). -/
def changedMonFields (before after : Mon) : List Field :=
  match differing (monFields after) (monFields before) with
  | [] => []
  | f :: fs => f :: fs ++ [monPadding]

/-- The fields an owner rewrites after an update: those the update has changed, with R23 for the engine and
R177 for MON. -/
def changedFields (o : Owner) (before after : State) : List Field :=
  match o with
  | .ce => changedCeFields before.ce after.ce
  | .mon => changedMonFields before.mon after.mon
  | .aiu => differing (aiuFields after.aiu) (aiuFields before.aiu)
  | .ciu => differing (ciuFields after.ciu) (ciuFields before.ciu)
  | .cs => differing (csFields after.cs) (csFields before.cs)
  | .it => differing (itFields after.it) (itFields before.it)
  | .ct => differing (ctFields after.ct) (ctFields before.ct)
  | .mlc => differing (mlcFields after.mlc) (mlcFields before.mlc)

/-- Every owner. -/
def Owner.all : List Owner := [.aiu, .ce, .ciu, .cs, .it, .ct, .mlc, .mon]

/-- The bank state code (12.5). -/
def bankCode : Bank → Nat
  | .empty => 0
  | .baking _ _ => 1
  | .armed _ => 2
  | .live _ _ => 3
  | .retiring _ _ _ => 4

/-- A bank's cursor (R111). -/
def bankCursor : Bank → Nat
  | .empty => 0
  | .baking c _ => c
  | .armed _ => lutEntries
  | .live _ _ => lutEntries
  | .retiring _ _ _ => lutEntries

/-- A bank's swap frame, when it has one. -/
def bankSwap : Bank → Option Nat
  | .armed f => some f
  | .empty => none
  | .baking _ _ => none
  | .live _ _ => none
  | .retiring _ _ _ => none

/-- A bank's start frame, when it has one. -/
def bankStart : Bank → Option Nat
  | .live f _ => some f
  | .retiring f _ _ => some f
  | .empty => none
  | .baking _ _ => none
  | .armed _ => none

/-- A bank's predecessor, no when it has none. -/
def bankPredecessor : Bank → Bool
  | .live _ p => p
  | .retiring _ p _ => p
  | .empty => false
  | .baking _ _ => false
  | .armed _ => false

/-- A bank's retire frame, when it has one. -/
def bankRetire : Bank → Option Nat
  | .retiring _ _ f => some f
  | .empty => none
  | .baking _ _ => none
  | .armed _ => none
  | .live _ _ => none

/-- The fields of a bank header (12.5, R113); those the state does not use are 0 (R177). -/
def headerFields (b : Bank) : List Field :=
  [⟨0x00, 1, bankCode b⟩,
   ⟨0x01, 1, flag (bankPredecessor b)⟩,
   ⟨0x02, 2, bankCursor b⟩,
   ⟨0x08, 8, orZero (bankSwap b)⟩,
   ⟨0x10, 4, orZero (bankStart b)⟩,
   ⟨0x18, 8, orZero (bankRetire b)⟩]

end Sys2Proof.Machine
end

