-- ==== Sys2Proof/Machine/Ops.lean ====
section
/-! DEFINITION. The shared operations: shared memory in canonical form, the bus and its failing accesses,
entering FAULTED (R170, R38), the rewriting of status fields (R175), bank headers (R113), attention causes
(R171), and the writing of a card's or a slot's fields. -/

namespace Sys2Proof.Machine

/-! ## Memory -/

/-- What an address that is not listed reads as (DESIGN CHOICE, notes/assumptions/1.md). -/
def unlistedByte : Byte := 0#8

/-- The byte at an address. -/
def Memory.readByte : Memory → Nat → Byte
  | [], _ => unlistedByte
  | (a, b) :: rest, k => if a = k then b else Memory.readByte rest k

/-- A byte put into its place in address order. -/
def Memory.insertByte : Memory → Nat → Byte → Memory
  | [], k, v => [(k, v)]
  | (a, b) :: rest, k, v =>
    if k < a then (k, v) :: (a, b) :: rest
    else if k = a then (k, v) :: rest
    else (a, b) :: Memory.insertByte rest k v

/-- One byte written; writing what an unlisted address reads as removes the entry. -/
def Memory.writeByte (m : Memory) (k : Nat) (v : Byte) : Memory :=
  if v = unlistedByte then m.filter (fun c => c.1 ≠ k) else m.insertByte k v

/-- The canonical form: addresses strictly rising, no entry equal to what an unlisted address reads as. -/
abbrev Memory.wf (m : Memory) : Prop :=
  m.Pairwise (fun c d => c.1 < d.1) ∧ ∀ c ∈ m, c.2 ≠ unlistedByte

/-- The little-endian number of the `n` bytes at an address (section 1.5). -/
def Memory.readLE (m : Memory) (a : Nat) : Nat → Nat
  | 0 => 0
  | n + 1 => (m.readByte a).toNat + 256 * m.readLE (a + 1) n

/-- The low `n` bytes of a number written little-endian. -/
def Memory.writeLE (m : Memory) (a v : Nat) : Nat → Memory
  | 0 => m
  | n + 1 => (m.writeByte a (BitVec.ofNat 8 v)).writeLE (a + 1) (v / 256) n

/-! ## The bus -/

/-- Whether memory answers at all of `n` bytes: they lie below the top of the 32-bit address space and
touch no unbacked range (R30, R168). -/
def Bus.answers (b : Bus) (a n : Nat) : Bool :=
  decide (a + n ≤ 2 ^ 32) && b.unbacked.all (fun r => decide (a + n ≤ r.1) || decide (r.1 + r.2 ≤ a))

/-- Whether the next access, of `n` bytes at `a`, succeeds. -/
def Bus.succeeds (b : Bus) (a n : Nat) : Bool := b.answers a n && !b.failPlan.headD false

/-- The bus after one access has used its place in the plan. -/
def Bus.spend (b : Bus) : Bus := { b with failPlan := b.failPlan.tail }

/-- The bus after a read or a failed write. -/
def State.spendAccess (s : State) : State := { s with bus := s.bus.spend }

/-- A read of `n` bytes: the number they hold, absent when the access fails. -/
def busRead (s : State) (a n : Nat) : Option Nat × State :=
  (if s.bus.succeeds a n then some (s.bus.mem.readLE a n) else none, s.spendAccess)

/-- A read of a record by the spans of bytes (offset and size) that it takes, one access a span: the number
the record's bytes spell with every other byte 0, absent from the first access that fails. A byte outside
the spans is not read (R176). -/
def readSpans (s : State) (a : Nat) : List (Nat × Nat) → Option Nat × State
  | [] => (some 0, s)
  | p :: ps =>
    match busRead s (a + p.1) p.2 with
    | (none, s) => (none, s)
    | (some v, s) =>
      match readSpans s a ps with
      | (none, s) => (none, s)
      | (some r, s) => (some (v * 256 ^ p.1 + r), s)

/-- A write of `n` bytes: whether it succeeded; a failed write leaves memory as it was. -/
def busWrite (s : State) (f : Field) : Bool × State :=
  if s.bus.succeeds f.off f.size then
    (true, { s with bus := { s.bus.spend with mem := s.bus.mem.writeLE f.off f.val f.size } })
  else (false, s.spendAccess)

/-- A store that some other party makes in shared memory, between commands. -/
def outsideStore (s : State) (a v n : Nat) : State :=
  { s with bus := { s.bus with mem := s.bus.mem.writeLE a v n } }

/-! ## Addresses of the work area -/

/-- The work area's base address. -/
def base (s : State) : Nat := s.aiu.area.toNat

/-- The address of a card slot (section 1.3). -/
def cardAddr (s : State) (h : Head) (slot : Fin 8) : Nat :=
  base s + Config.cardTable h + 256 * slot.val

/-- The address of the directive slot. -/
def slotAddr (s : State) : Nat := base s + Config.directiveSlot

/-- The address of an entry of a bank: entry e lies 8 × e bytes after the bank's start (R111). -/
def entryAddr (s : State) (b : BankIx) (e : Nat) : Nat := base s + Config.lutBank b + 8 * e

/-- Fields moved from offsets of a record to addresses. -/
def placed (addr : Nat) (fs : List Field) : List Field :=
  fs.map (fun f => { f with off := addr + f.off })

/-! ## Retirement -/

/-- The start frame of the LIVE bank beside a RETIRING one. -/
def liveStart (banks : Two Bank) : Option Nat :=
  match banks.i0, banks.i1 with
  | .live f _, _ => some f
  | _, .live f _ => some f
  | _, _ => none

/-- Whether a pending query holds a retirement back: it is below the LIVE bank's start frame (R124). -/
def queryHolds (l : Lbu) : Bool :=
  match l.pendingQuery, liveStart l.banks with
  | some q, some st => decide (q < st)
  | _, _ => false

/-- Whether a bank's retirement is to be made (R124). -/
def retirementDue (count : Nat) (l : Lbu) (i : BankIx) : Bool :=
  match bankRetire (l.banks.get i) with
  | none => false
  | some f => decide (f ≤ count) && !queryHolds l

/-- A bank after the retirement that is to be made, if it is the bank's: EMPTY (R124). -/
def retiredBank (count : Nat) (l : Lbu) (i : BankIx) : Bank :=
  if retirementDue count l i then .empty else l.banks.get i

/-- The LUT bank unit after the retirement that is to be made, if one is (R124). -/
def retiredLbu (count : Nat) (l : Lbu) : Lbu :=
  { l with banks := { i0 := retiredBank count l .i0, i1 := retiredBank count l .i1 } }

/-- The LUT bank unit once the pending query frame is absent, with the retirement that waited for it
(R123, R124). -/
def queryAbsent (count : Nat) (l : Lbu) : Lbu := retiredLbu count { l with pendingQuery := none }

/-! ## Entering FAULTED -/

/-- The kind of the job in hand. -/
def jobKind : Engine → Option JobKind
  | .free => none
  | .take _ _ _ => some .card
  | .card _ _ _ => some .card
  | .directive _ => some .directive
  | .bake _ => some .bake

/-- Writes in FAULTED: they are made, and one that fails changes nothing more (R170). -/
def emit : List Field → State → State
  | [], s => s
  | f :: fs, s => emit fs (busWrite s f).2

/-- The engine with the job in hand TERMINATED (R28, R38). -/
def terminatedCe (c : Ce) : Ce :=
  match jobKind c.engine with
  | none => c
  | some k => { c with engine := .free, lastEnding := some (.terminated, k) }

/-- The state at the entry to FAULTED, before its status fields are rewritten: the fault kind and the FAULT
cause (R170), the job TERMINATED (R38), the pending query absent (R123) with the retirement that waited for
it (R124), the load buffer discarded (R69). -/
def faultedState (k : FaultKind) (s : State) : State :=
  { s with
    aiu := { s.aiu with run := .faulted, faultKind := some k, causes := withCause s.aiu.causes .fault },
    ce := terminatedCe s.ce,
    lbu := queryAbsent s.aiu.frameCount s.lbu,
    cs := { s.cs with loadBuffer := [] } }

/-- The header fields of the banks that an update has changed, bank 0's first (R113). -/
def changedHeaders (before after : State) : List Field :=
  let of (b : BankIx) : List Field :=
    if before.lbu.banks.get b = after.lbu.banks.get b then []
    else placed (base after + Config.bankHeader b) (headerFields (after.lbu.banks.get b))
  of .i0 ++ of .i1

/-- An access of the given kind has failed (R170): the part enters FAULTED, unless it is FAULTED already,
when nothing changes. The AIU's and the engine's fields are rewritten, and the header of a bank that a waiting
retirement has made EMPTY (R124). A write among these that fails changes nothing more (R170); that the fields
after it are still written, the header's too, is the model's choice (DESIGN CHOICE, notes/assumptions/26.md). -/
def enterFault (k : FaultKind) (s : State) : State :=
  if s.aiu.run = .faulted then s
  else
    let t := faultedState k s
    emit (placed (base s) (changedFields .aiu s t ++ changedFields .ce s t) ++ changedHeaders s t) t

/-! ## Writes that can fault -/

/-- What an owner's field shows now: the value is rendered when it is written, so that a field which a fault
has changed meanwhile is not written stale. -/
def freshField (s : State) (o : Owner) (f : Field) : Field :=
  ((ownerFields o s).find? (fun g => g.off == f.off)).getD f

/-- One status field: not written while STOPPED (R175), a failed write is a STATUS_WRITE fault (R170). -/
def putStatusField (s : State) (o : Owner) (f : Field) : State :=
  if s.aiu.run = .stopped then s
  else
    match busWrite s { freshField s o f with off := base s + f.off } with
    | (true, t) => t
    | (false, t) => enterFault .statusWrite t

/-- An owner's fields in order; owners go on writing after one has failed (R170). -/
def putStatus (o : Owner) (fs : List Field) (s : State) : State :=
  fs.foldl (fun t f => putStatusField t o f) s

/-- The owners' rewrite after an update: each writes the fields that `after` shows otherwise than `before`
(R175). -/
def rewrite (os : List Owner) (before after : State) : State :=
  os.foldl (fun t o => putStatus o (changedFields o before after) t) after

/-- Every owner rewrites all of its fields (R175). -/
def rewriteAll (s : State) : State :=
  Owner.all.foldl
    (fun t o => putStatus o (ownerFields o s ++ (if o = .mon then [monPadding] else [])) t) s

/-- A record's fields written in order; the first failure is a fault of the given kind and ends the
writing. -/
def writeFields (k : FaultKind) : List Field → State → Bool × State
  | [], s => (true, s)
  | f :: fs, s =>
    match busWrite s f with
    | (true, t) => writeFields k fs t
    | (false, t) => (false, enterFault k t)

/-- A bank's header rewritten; a failed write is a BANK_WRITE fault (R113, R170), and that it ends the header's
writing is the model's choice (DESIGN CHOICE, notes/assumptions/26.md). -/
def writeHeader (b : BankIx) (s : State) : State :=
  (writeFields .bankWrite
    (placed (base s + Config.bankHeader b) (headerFields (s.lbu.banks.get b))) s).2

/-- The headers of the banks that an update has changed (R113). R113 orders the two headers in no way: the
model writes bank 0's first, and bank 1's also when a write of bank 0's has failed (DESIGN CHOICE,
notes/assumptions/26.md). -/
def rewriteHeaders (before after : State) : State :=
  let t := if before.lbu.banks.i0 = after.lbu.banks.i0 then after else writeHeader .i0 after
  if before.lbu.banks.i1 = after.lbu.banks.i1 then t else writeHeader .i1 t

/-- The retirement that is to be made, if one is: the RETIRING bank becomes EMPTY, and its header is written
(R124). -/
def retire (s : State) : State :=
  rewriteHeaders s { s with lbu := retiredLbu s.aiu.frameCount s.lbu }

/-- The pending query frame becomes absent (R123), and the retirement that waited for it is made at once
(R124). -/
def dropQuery (s : State) : State :=
  rewriteHeaders s { s with lbu := queryAbsent s.aiu.frameCount s.lbu }

/-! ## Attention causes -/

/-- A cause set by its owner, and the mirror rewritten (R171). -/
def setCause (c : Cause) (s : State) : State :=
  rewrite [.aiu] s { s with aiu := { s.aiu with causes := withCause s.aiu.causes c } }

/-- A cause set when a condition holds. -/
def setCauseIf (p : Bool) (c : Cause) (s : State) : State := if p then setCause c s else s

end Sys2Proof.Machine
end

