-- ==== Sys2Proof/Machine/Arbiter.lean ====
section
/-! DEFINITION. The sweep (R7 to R11), the claims and the grant (R24 to R27), and the engine falling free
(R28, R37). -/

namespace Sys2Proof.Machine

/-! ## The sweep -/

/-- The slots of a card table, in order. -/
def allSlots : List (Fin 8) := [0, 1, 2, 3, 4, 5, 6, 7]

/-- A sweep's reads of one table: the READY slots with their frame numbers, absent when a read fails (R8).
Each slot is read once. -/
def sweepTable (h : Head) : List (Fin 8) → State → Option (List (Fin 8 × Nat)) × State
  | [], s => (some [], s)
  | k :: ks, s =>
    match busRead s (cardAddr s h k) 4 with
    | (none, s) => (none, s)
    | (some st, s) =>
      if st = Config.cardReady then
        match busRead s (cardAddr s h k + 8) 4 with
        | (none, s) => (none, s)
        | (some f, s) =>
          match sweepTable h ks s with
          | (none, s) => (none, s)
          | (some rs, s) => (some ((k, f) :: rs), s)
      else sweepTable h ks s

/-- The better of the best card so far and a later slot's card: the smaller frame number, the lower slot on
a tie (R9, R11). -/
def betterCard (best : Option (Fin 8 × Nat)) (card : Fin 8 × Nat) : Option (Fin 8 × Nat) :=
  match best with
  | none => some card
  | some b => if card.2 < b.2 then some card else some b

/-- The candidate: the READY card with the smallest frame number at or below the frame count, the lower
slot on a tie (R9 to R11). -/
def chooseCandidate (count : Nat) (ready : List (Fin 8 × Nat)) : Option (Fin 8) :=
  ((ready.filter (fun c => c.2 ≤ count)).foldl betterCard none).map Prod.fst

/-- What a sweep leaves in the CIU and the arbiter: the two candidates and the directive claim. -/
def setClaims (c0 c1 : Option (Fin 8)) (claim : Bool) (s : State) : State :=
  rewrite [.ciu] s
    { s with ciu := { s.ciu with candidate := { i0 := c0, i1 := c1 } },
             ce := { s.ce with directiveClaim := claim } }

/-- The state with no candidate and no directive claim. -/
def clearedClaims (s : State) : State :=
  { s with ciu := { s.ciu with candidate := { i0 := none, i1 := none } },
           ce := { s.ce with directiveClaim := false } }

/-- A sweep whose read failed: both candidates and the directive claim are cleared and the part enters
FAULTED with the kind of that read (R8); the CIU's fields are then rewritten (R22). -/
def sweepFailed (k : FaultKind) (s : State) : State :=
  rewrite [.ciu] s (enterFault k (clearedClaims s))

/-- A sweep, made only in RUNNING (R7, R8). -/
def sweep (s : State) : State :=
  if s.aiu.run = .running then
    match sweepTable .i0 allSlots s with
    | (none, s) => sweepFailed .tableRead s
    | (some r0, s) =>
      match sweepTable .i1 allSlots s with
      | (none, s) => sweepFailed .tableRead s
      | (some r1, s) =>
        match busRead s (slotAddr s) 4 with
        | (none, s) => sweepFailed .slotRead s
        | (some st, s) =>
          setClaims (chooseCandidate s.aiu.frameCount r0) (chooseCandidate s.aiu.frameCount r1)
            (st == Config.slotPosted) s
  else s

/-! ## Claims and grants -/

/-- The claimants of the engine (R24). -/
inductive Claimant where
  | head (h : Head)
  | utility
deriving DecidableEq, Repr

/-- The grant orders (R26). -/
def ranking : Fin 6 → List Claimant
  | 0 => [.head .i0, .head .i1, .utility]
  | 1 => [.head .i0, .utility, .head .i1]
  | 2 => [.head .i1, .head .i0, .utility]
  | 3 => [.head .i1, .utility, .head .i0]
  | 4 => [.utility, .head .i0, .head .i1]
  | 5 => [.utility, .head .i1, .head .i0]

/-- Whether a bank is BAKING. -/
def isBaking : Bank → Bool
  | .baking _ _ => true
  | .empty => false
  | .armed _ => false
  | .live _ _ => false
  | .retiring _ _ _ => false

/-- The BAKING bank, if any (R24). -/
def bakingBank (banks : Two Bank) : Option BankIx :=
  if isBaking banks.i0 then some .i0 else if isBaking banks.i1 then some .i1 else none

/-- Whether a claimant claims (R12, R24). -/
def claims (s : State) : Claimant → Bool
  | .head h => (s.ciu.candidate.get h).isSome
  | .utility => s.ce.directiveClaim || (bakingBank s.lbu.banks).isSome

/-- Whether the engine is FREE (R23). -/
def Engine.isFree : Engine → Bool
  | .free => true
  | .take _ _ _ => false
  | .card _ _ _ => false
  | .directive _ => false
  | .bake _ => false

/-- Card request values before the re-read. -/
def CardRequest.blank : CardRequest :=
  { head := 0, cut := false, notify := false, gain := 0, frame := 0, tileCount := 0, tileAddr := 0 }

/-- A take as granted, nothing read yet. -/
def TakeJob.start : TakeJob :=
  { next := .reread, req := CardRequest.blank, failed := none, lastBefore := none }

/-- A directive job as granted, nothing read yet. -/
def DirJob.start : DirJob := { next := .take, kind := none, payload := 0, result := none }

/-- The state a grant to a claimant makes: its claim is cleared, but for the bake claim, and the engine
enters the job's condition (R12, R23, R25, R27). -/
def grantedState (c : Claimant) (s : State) : State :=
  match c with
  | .head h =>
    match s.ciu.candidate.get h with
    | none => s
    | some slot =>
      { s with ciu := { s.ciu with candidate := s.ciu.candidate.set h none },
               ce := { s.ce with engine := .take h slot TakeJob.start } }
  | .utility =>
    if s.ce.directiveClaim then
      { s with ce := { s.ce with directiveClaim := false, engine := .directive DirJob.start } }
    else
      match bakingBank s.lbu.banks with
      | none => s
      | some b => { s with ce := { s.ce with engine := .bake b } }

/-- The grant: with the engine FREE and the part RUNNING, to the highest-ranked claimant (R25). -/
def grant (s : State) : State :=
  if s.ce.engine.isFree ∧ s.aiu.run = .running then
    match (ranking s.ce.order).find? (claims s) with
    | none => s
    | some c => rewrite [.ciu, .ce] s (grantedState c s)
  else s

/-- A sweep and then a grant, in RUNNING (R25). -/
def sweepAndGrant (s : State) : State := grant (sweep s)

/-- The engine falls free: the job's ending, if it had one, is recorded (R28) and the engine's status fields
are rewritten (R23); the pending query frame becomes absent (R123), with the retirement that waited for it
(R124). -/
def releaseEngine (ending : Option (JobEnding × JobKind)) (s : State) : State :=
  dropQuery
    (rewrite [.ce] s { s with ce := { s.ce with engine := .free, lastEnding := ending.or s.ce.lastEnding } })

/-- The engine falls free, and in RUNNING a sweep and a grant follow (R7, R25, R37). -/
def fallFree (ending : Option (JobEnding × JobKind)) (s : State) : State :=
  sweepAndGrant (releaseEngine ending s)

/-- Whether a claimant ranked above UT in the order in force claims (R36). -/
def outrankedUtility (s : State) : Bool :=
  ((ranking s.ce.order).takeWhile (fun c => c ≠ .utility)).any (claims s)

end Sys2Proof.Machine
end

