-- ==== Sys2Proof/Machine/Directive.lean ====
section
/-! DEFINITION. The directive job shared by every directive row (R27, R35, R172, R173): re-read and TAKEN,
the kind, the payload, the owner's work, the result code, ENDED and the DIRECTIVE cause. -/

namespace Sys2Proof.Machine

/-- What one kind of directive does with its payload: `prepare` may decide a refusal before any effect,
`effect` carries the directive out and gives the result code (R172.4). -/
structure DirBody where
  prepare : Nat → State → Option ResultCode × State
  effect : Nat → State → ResultCode × State

/-- No work before the effect. -/
def noPreparation (_ : Nat) (s : State) : Option ResultCode × State := (none, s)

/-- The state with the directive job in hand replaced. -/
def putDirJob (j : DirJob) (s : State) : State :=
  { s with ce := { s.ce with engine := .directive j } }

/-- The job, if one is still in hand, with its next stage and a result code decided. -/
def advanceDir (next : DirStage) (r : Option ResultCode) (s : State) : State :=
  match s.ce.engine with
  | .directive j => putDirJob { j with next := next, result := r.or j.result } s
  | .free => s
  | .take _ _ _ => s
  | .card _ _ _ => s
  | .bake _ => s

/-- Re-read and TAKEN (R27, R172.1): a slot that is not POSTED lets the grant lapse. -/
def dirTake (j : DirJob) (s : State) : State :=
  match busRead s (slotAddr s) 4 with
  | (none, s) => enterFault .slotRead s
  | (some st, s) =>
    if st = Config.slotPosted then
      match writeFields .slotWrite [⟨slotAddr s, 4, Config.slotTaken⟩] s with
      | (false, s) => s
      | (true, s) => putDirJob { j with next := .kind } s
    else fallFree none s

/-- The kind is read (R172.2): an unknown kind is refused. -/
def dirReadKind (j : DirJob) (s : State) : State :=
  match busRead s (slotAddr s + 4) 2 with
  | (none, s) => enterFault .slotRead s
  | (some k, s) =>
    putDirJob
      { j with next := .payload, kind := dirKindOf k,
               result := if (dirKindOf k).isNone then some .refusedKind else none } s

/-- The payload is read, once (R172.3): a failed read is BUS_ERROR; a kind that takes no field reads
none. -/
def dirReadPayload (j : DirJob) (s : State) : State :=
  match j.kind with
  | none => putDirJob { j with next := .prepare } s
  | some k =>
    match readSpans s (slotAddr s + 0x10) (payloadSpans k) with
    | (none, s) => putDirJob { j with next := .prepare, result := some .busError } s
    | (some p, s) => putDirJob { j with next := .prepare, payload := p } s

/-- The work before the effect, unless the result is decided already. -/
def dirPrepare (body : DirBody) (j : DirJob) (s : State) : State :=
  if j.result.isSome then putDirJob { j with next := .effect } s
  else advanceDir .effect (body.prepare j.payload s).1 (body.prepare j.payload s).2

/-- The effect, unless the result is decided already (R172.4). -/
def dirEffect (body : DirBody) (j : DirJob) (s : State) : State :=
  if j.result.isSome then putDirJob { j with next := .result } s
  else advanceDir .result (some (body.effect j.payload s).1) (body.effect j.payload s).2

/-- The write of ENDED that may still come after a failed write of the result code (R173): the free value
says whether it does. -/
def staleEnded (s : State) : State :=
  let t := { s with freeUses := s.freeUses + 1 }
  if Config.endedAfterFailedResult s.freeUses then
    (busWrite t ⟨slotAddr t, 4, Config.slotEnded⟩).2
  else t

/-- The result code is written (R172.5). -/
def dirWriteResult (j : DirJob) (s : State) : State :=
  match writeFields .slotWrite [⟨slotAddr s + 6, 2, resultCode (j.result.getD .done)⟩] s with
  | (false, s) => staleEnded s
  | (true, s) => putDirJob { j with next := .finish } s

/-- How the engine ends a directive job (R28, R35). -/
def dirEnding (r : ResultCode) : JobEnding := if r = .done then .completed else .refused

/-- ENDED, with which the job ends (R28), the DIRECTIVE cause, and in RUNNING a sweep and a grant
(R172.6, R172.7, R25). -/
def dirFinish (j : DirJob) (s : State) : State :=
  match writeFields .slotWrite [⟨slotAddr s, 4, Config.slotEnded⟩] s with
  | (false, s) => s
  | (true, s) =>
    sweepAndGrant
      (setCause .directive (releaseEngine (some (dirEnding (j.result.getD .done), .directive)) s))

/-- One stage of the job in hand, if it is the stage the job runs next. -/
def dirStage (body : DirBody) (s : State) (st : DirStage) : State :=
  match s.ce.engine with
  | .directive j =>
    if j.next = st then
      match st with
      | .take => dirTake j s
      | .kind => dirReadKind j s
      | .payload => dirReadPayload j s
      | .prepare => dirPrepare body j s
      | .effect => dirEffect body j s
      | .result => dirWriteResult j s
      | .finish => dirFinish j s
    else s
  | .free => s
  | .take _ _ _ => s
  | .card _ _ _ => s
  | .bake _ => s

/-- Whether a row of the table is the one the directive job goes on with: the row of the kind read, and
before the kind is read the row of the kind in the slot, or any row when the slot is not POSTED, since the
grant then lapses (R27). -/
def dirRowApplies (row : Option DirKind) (j : DirJob) (s : State) : Bool :=
  match j.next with
  | .take =>
    s.bus.mem.readLE (slotAddr s) 4 != Config.slotPosted
      || dirKindOf (s.bus.mem.readLE (slotAddr s + 4) 2) == row
  | .kind => dirKindOf (s.bus.mem.readLE (slotAddr s + 4) 2) == row
  | .payload => j.kind == row
  | .prepare => j.kind == row
  | .effect => j.kind == row
  | .result => j.kind == row
  | .finish => j.kind == row

/-- A directive row: the job in hand runs its stages up to `upTo`. A row that is not the job's, or that
finds no directive job in hand, is no event of the part and changes nothing (notes/assumptions/6.md). -/
def runDirective (row : Option DirKind) (body : DirBody) (upTo : DirStage) (s : State) : State :=
  match s.ce.engine with
  | .directive j =>
    if dirRowApplies row j s then
      (DirStage.all.filter (fun st => st.rank ≤ upTo.rank)).foldl (dirStage body) s
    else s
  | .free => s
  | .take _ _ _ => s
  | .card _ _ _ => s
  | .bake _ => s

/-- A kind that carries nothing out. -/
def emptyBody : DirBody := { prepare := noPreparation, effect := fun _ s => (.refusedKind, s) }

/-- REFUSED_KIND (R172): a directive of an unknown kind ends with no payload read. -/
def execRefusedKind (upTo : DirStage) (s : State) : Host.Outcome State Fault Refusal :=
  .next (runDirective none emptyBody upTo s)

/-! ## SET_ORDER -/

/-- SET_ORDER's effect (R26). -/
def setOrderEffect (p : Nat) (s : State) : ResultCode × State :=
  match orderCode (field p 0x00 2) with
  | none => (.refusedValue, s)
  | some o => (.done, rewrite [.ce] s { s with ce := { s.ce with order := o } })

/-- SET_ORDER (R26). -/
def execSetOrder (upTo : DirStage) (s : State) : Host.Outcome State Fault Refusal :=
  .next (runDirective (some .setOrder) { prepare := noPreparation, effect := setOrderEffect } upTo s)

end Sys2Proof.Machine
end

