-- ==== Sys2Proof/Machine/Banks.lean ====
section
/-! DEFINITION. The LUT bank unit: BAKE_LUT (R114, R115), the bake's arithmetic and its rows (R116 to R120,
R36), ABORT_BAKE (R121), the swap (R122), the bank of a frame (R123) and the retirement (R124). -/

namespace Sys2Proof.Machine

/-! ## BAKE_LUT -/

/-- Whether a bank is BAKING or ARMED. -/
def bakingOrArmed : Bank → Bool
  | .baking _ _ => true
  | .armed _ => true
  | .empty => false
  | .live _ _ => false
  | .retiring _ _ _ => false

/-- The bank BAKE_LUT chooses: the lower EMPTY bank, none while a bank is BAKING or ARMED or neither is
EMPTY (R114). -/
def chooseBank (banks : Two Bank) : Option BankIx :=
  if bakingOrArmed banks.i0 || bakingOrArmed banks.i1 then none
  else if banks.i0 = .empty then some .i0
  else if banks.i1 = .empty then some .i1
  else none

/-- The state with one bank record replaced. -/
def putBank (i : BankIx) (b : Bank) (s : State) : State :=
  { s with lbu := { s.lbu with banks := s.lbu.banks.set i b } }

/-- BAKE_LUT's effect: the bank check, the read of the look record, and the bank BAKING at cursor 0 with its
header written (R114, R115). -/
def bakeLutEffect (p : Nat) (s : State) : ResultCode × State :=
  match chooseBank s.lbu.banks with
  | none => (.refusedState, s)
  | some i =>
    match busRead s (field p 0x00 4) 54 with
    | (none, s) => (.busError, s)
    | (some r, s) => (.done, rewriteHeaders s (putBank i (.baking 0 (lookRecord r)) s))

/-- BAKE_LUT (R114). -/
def execBakeLut (upTo : DirStage) (s : State) : Host.Outcome State Fault Refusal :=
  .next (runDirective (some .bakeLut) { prepare := noPreparation, effect := bakeLutEffect } upTo s)

/-! ## The bake -/

/-- The linear value of a channel, clamped into 0..8191 (R117). -/
def lutLinear (c : Row3) (x0 x1 x2 : Nat) : Nat :=
  (clampInt 0 8191 (shr12 (c.c0 * x0 + c.c1 * x1 + c.c2 * x2 + 2048))).toNat

/-- The soft clip above the knee (R118). -/
def softClip (knee y : Nat) : Nat :=
  if y ≤ knee then y else knee + (y - knee) * (4096 - knee) / (8191 - knee)

/-- The tone curve (R119). -/
def toneCurve (knots : List Nat) (v : Nat) : Nat :=
  let j := v / 256
  let f := v % 256
  if j = 16 then knots.getD 16 0
  else
    let a : Int := knots.getD j 0
    let b : Int := knots.getD (j + 1) 0
    (a + ((b - a) * f + 128) / 256).toNat

/-- One channel's output at a node's input (R117 to R119). -/
def lutOutput (look : Look) (c : Row3) (x0 x1 x2 : Nat) : Nat :=
  toneCurve look.knots (softClip look.knee (lutLinear c x0 x1 x2))

/-- The input of an entry: its indices, the blue fastest, times 256 (R116, R117). -/
def entryInput (e : Nat) : Nat × Nat × Nat := (e / 289 * 256, e / 17 % 17 * 256, e % 17 * 256)

/-- An entry's eight bytes: red, green and blue output and a zero (R119, 12.5). -/
def lutEntry (look : Look) (e : Nat) : Nat :=
  let x := entryInput e
  lutOutput look look.matrix.r0 x.1 x.2.1 x.2.2
    + lutOutput look look.matrix.r1 x.1 x.2.1 x.2.2 * 2 ^ 16
    + lutOutput look look.matrix.r2 x.1 x.2.1 x.2.2 * 2 ^ 32

/-- The 17 entry writes of the row that begins at an entry, in entry order (R116). -/
def rowFields (s : State) (b : BankIx) (look : Look) (e : Nat) : List Field :=
  (List.range 17).map (fun k => ⟨entryAddr s b (e + k), 8, lutEntry look (e + k)⟩)

/-- A bank after a row's entries are written: the cursor raised by 17, and with the last row ARMED with a
swap frame two above the frame count (R116, R120). -/
def raisedBank (count cursor : Nat) (look : Look) : Bank :=
  if lutEntries ≤ cursor + 17 then .armed (count + 2) else .baking (cursor + 17) look

/-- Whether a bank is ARMED. -/
def isArmed : Bank → Bool
  | .armed _ => true
  | .empty => false
  | .baking _ _ => false
  | .live _ _ => false
  | .retiring _ _ _ => false

/-- The row boundary (R36): done, yield, or on to the next row. A job that a failed header write has
terminated decides nothing. -/
def rowBoundary (b : BankIx) (s : State) : State :=
  if s.ce.engine = .bake b then
    if isBaking (s.lbu.banks.get b) then
      if s.aiu.run = .draining ∨ outrankedUtility s then fallFree (some (.partialJob, .bake)) s
      else s
    else
      sweepAndGrant (setCause .bank (releaseEngine (some (.completed, .bake)) s))
  else if isArmed (s.lbu.banks.get b) then setCause .bank s
  else s

/-- One bake row with the engine in BAKE (R36, R116, R120): the entries, the raise with its header write, and
the boundary. -/
def bakeRow (s : State) : State :=
  match s.ce.engine with
  | .bake b =>
    match s.lbu.banks.get b with
    | .baking cursor look =>
      match writeFields .bankWrite (rowFields s b look cursor) s with
      | (false, s) => s
      | (true, s) =>
        rowBoundary b (writeHeader b (putBank b (raisedBank s.aiu.frameCount cursor look) s))
    | .empty => s
    | .armed _ => s
    | .live _ _ => s
    | .retiring _ _ _ => s
  | .free => s
  | .take _ _ _ => s
  | .card _ _ _ => s
  | .directive _ => s

/-- BAKE_ROW (R36). -/
def execBakeRow (s : State) : Host.Outcome State Fault Refusal := .next (bakeRow s)

/-! ## Swap, retirement, abort -/

/-- The bank records after bank `i`, ARMED with a swap frame, goes live (R122). -/
def swappedBanks (banks : Two Bank) (i : BankIx) (swap : Nat) : Two Bank :=
  match banks.get i.other with
  | .live st pr => (banks.set i (.live swap true)).set i.other (.retiring st pr (swap + 8))
  | .empty => banks.set i (.live swap false)
  | .baking _ _ => banks.set i (.live swap false)
  | .armed _ => banks.set i (.live swap false)
  | .retiring _ _ _ => banks.set i (.live swap false)

/-- The ARMED bank whose swap frame the frame count has reached, with that frame (R122). -/
def dueSwap (count : Nat) (banks : Two Bank) : Option (BankIx × Nat) :=
  match bankSwap banks.i0, bankSwap banks.i1 with
  | some f, none => if f ≤ count then some (.i0, f) else none
  | some f, some g => if f ≤ count then some (.i0, f) else if g ≤ count then some (.i1, g) else none
  | none, some g => if g ≤ count then some (.i1, g) else none
  | none, none => none

/-- The swap, when due: the records, the headers of the banks that changed, the BANK cause (R122). -/
def swap (s : State) : State :=
  match dueSwap s.aiu.frameCount s.lbu.banks with
  | none => s
  | some (i, f) =>
    setCause .bank
      (rewriteHeaders s { s with lbu := { s.lbu with banks := swappedBanks s.lbu.banks i f } })

/-- RETIREMENT (R124): the retirement that is to be made. The part makes it at once within the command that
brings it (`frameSync`, `dropQuery`, `enterFault`), so this row finds one only in a state that stands with one
due (notes/assumptions/11.md). -/
def execRetirement (s : State) : Host.Outcome State Fault Refusal := .next (retire s)

/-- The banks after an abort (R121): a BAKING bank or an ARMED bank becomes EMPTY. -/
def abortedBank (b : Bank) : Bank := if bakingOrArmed b then .empty else b

/-- ABORT_BAKE's effect (R121): a swap that is due is made first. -/
def abortBakeEffect (_ : Nat) (s : State) : ResultCode × State :=
  let t := swap s
  if bakingOrArmed t.lbu.banks.i0 || bakingOrArmed t.lbu.banks.i1 then
    (.done, rewriteHeaders t { t with lbu := { t.lbu with banks := t.lbu.banks.map abortedBank } })
  else (.refusedState, t)

/-- ABORT_BAKE (R121). -/
def execAbortBake (upTo : DirStage) (s : State) : Host.Outcome State Fault Refusal :=
  .next (runDirective (some .abortBake) { prepare := noPreparation, effect := abortBakeEffect } upTo s)

/-! ## The bank of a frame -/

/-- Case 1 of R123: a bank ARMED with its swap frame at or below the frame. -/
def armedFor (f : Nat) (b : Bank) : Bool :=
  match bankSwap b with
  | some sw => decide (sw ≤ f)
  | none => false

/-- Case 2 of R123: a bank LIVE with its start frame at or below the frame. -/
def liveFor (f : Nat) : Bank → Bool
  | .live st _ => decide (st ≤ f)
  | .empty => false
  | .baking _ _ => false
  | .armed _ => false
  | .retiring _ _ _ => false

/-- Case 3 of R123: a bank RETIRING. -/
def isRetiring : Bank → Bool
  | .retiring _ _ _ => true
  | .empty => false
  | .baking _ _ => false
  | .armed _ => false
  | .live _ _ => false

/-- Case 4 of R123: a bank LIVE whose predecessor is yes. -/
def liveAfterOther : Bank → Bool
  | .live _ p => p
  | .empty => false
  | .baking _ _ => false
  | .armed _ => false
  | .retiring _ _ _ => false

/-- The first bank that meets a condition. -/
def firstBank (p : Bank → Bool) (banks : Two Bank) : Option BankIx :=
  if p banks.i0 then some .i0 else if p banks.i1 then some .i1 else none

/-- The bank in force for a frame number, from the first case that holds (R123). -/
def bankForFrame (banks : Two Bank) (f : Nat) : Option BankIx :=
  (firstBank (armedFor f) banks).or
    ((firstBank (liveFor f) banks).or
      ((firstBank isRetiring banks).or (firstBank liveAfterOther banks)))

/-! ## The engine reset -/

/-- A bank after an engine reset, given whether the other bank is ARMED (R125). -/
def resetBank (otherArmed : Bool) : Bank → Bank
  | .empty => .empty
  | .baking _ _ => .empty
  | .armed _ => .live 0 true
  | .live _ p => if otherArmed then .empty else .live 0 p
  | .retiring _ _ _ => .empty

/-- The LUT bank unit after an engine reset (R125). -/
def engineResetLbu (l : Lbu) : Lbu :=
  { banks := { i0 := resetBank (isArmed l.banks.i1) l.banks.i0,
               i1 := resetBank (isArmed l.banks.i0) l.banks.i1 },
    pendingQuery := none }

end Sys2Proof.Machine
end

