-- ==== Sys2Proof/Machine/Monitor.lean ====
section
/-! DEFINITION. The monitor counters: the amount an event yields to a counter (R156), its evaluation (R157,
R158), the freeze on cut (R161), and the events' delivery with the status rewrite (R164). -/

namespace Sys2Proof.Machine

/-- An event handed to the counters (R159). A card's event carries its tallies, one per counter, and its
estimate. -/
inductive MonEvent where
  | card (head : Head) (tallies : Quad Nat) (estimate : Estimate)
  | step (slewLimited noSource : Bool) (spread : Option Nat)
  | podMiss
  | late (head : Head)
deriving DecidableEq, Repr

/-- The level test: at or above the level, or below it with invert on (R156). -/
def levelTest (c : CounterSettings) (v : Nat) : Bool :=
  if c.invert then decide (v < c.level) else decide (c.level ≤ v)

/-- Whether a head is selected (R157). -/
def selects (c : CounterSettings) (h : Head) : Bool :=
  match c.select with
  | .both => true
  | .only k => k == h

/-- The amount x an event yields to counter `i`, absent when the counter's source does not serve the event
or its head is not selected (R156, R157). -/
def amount (i : Fin 4) (c : CounterSettings) (e : MonEvent) : Option Nat :=
  match e with
  | .card h tallies est =>
    if selects c h then
      match c.source with
      | .tileLevel => some (tallies.get i)
      | .tileClip => some (tallies.get i)
      | .estMired => est.mired.map (fun m => flag (levelTest c m))
      | .weak => some (flag (est.reason != .none))
      | .off | .slew | .spread | .noSource | .podMiss | .late => none
    else none
  | .step slewLimited noSource spread =>
    match c.source with
    | .slew => some (flag slewLimited)
    | .noSource => some (flag noSource)
    | .spread => spread.map (fun v => flag (levelTest c v))
    | .off | .tileLevel | .tileClip | .estMired | .weak | .podMiss | .late => none
  | .podMiss => if c.source = .podMiss then some 1 else none
  | .late h => if c.source = .late ∧ selects c h then some 1 else none

/-- The amount added to the value (R157): x, or on a rising edge 1. -/
def added (c : Counter) (x : Nat) : Nat :=
  if c.settings.edge then (if 1 ≤ x ∧ c.edgeMemory = false then 1 else 0) else x

/-- A counter after an evaluation with amount x: the sum wraps at 2^48 (R157, R158). -/
def evaluated (c : Counter) (x : Nat) : Counter :=
  let sum := c.value + added c x
  { c with value := sum % 2 ^ 48, wrapped := c.wrapped || decide (2 ^ 48 ≤ sum),
           edgeMemory := decide (1 ≤ x) }

/-- A counter after an event: a counter that is not enabled, or is frozen, or whose source the event does
not serve, is left as it was (R157). -/
def counterAfter (frozen : Bool) (e : MonEvent) (i : Fin 4) (c : Counter) : Counter :=
  if c.settings.enable ∧ frozen = false then
    match amount i c.settings e with
    | none => c
    | some x => evaluated c x
  else c

/-- Whether an event makes a counter wrap (R158). -/
def wrapsOn (frozen : Bool) (e : MonEvent) (i : Fin 4) (c : Counter) : Bool :=
  if c.settings.enable ∧ frozen = false then
    match amount i c.settings e with
    | none => false
    | some x => decide (2 ^ 48 ≤ c.value + added c x)
  else false

/-- The monitor block after an event. -/
def monAfter (e : MonEvent) (m : Mon) : Mon :=
  { m with counters := m.counters.mapIdx (counterAfter m.frozen e) }

/-- An event handed to the counters: evaluated as one update, the status fields rewritten, and MON_WRAP set
if a counter wrapped (R157, R158, R164). -/
def deliver (e : MonEvent) (s : State) : State :=
  setCauseIf ((s.mon.counters.mapIdx (wrapsOn s.mon.frozen e)).toList.any id) .monWrap
    (rewrite [.mon] s { s with mon := monAfter e s.mon })

/-- The freeze on cut (R161). -/
def freezeOnCut (s : State) : State :=
  if s.mon.freezeOnCut then rewrite [.mon] s { s with mon := { s.mon with frozen := true } } else s

end Sys2Proof.Machine
end

