-- ==== Sys2Proof/Machine/Estimate.lean ====
section
/-! DEFINITION. Tile selection and the estimate (R40 to R52), and SET_FILTER (R57, R58). -/

namespace Sys2Proof.Machine

/-! ## The filter -/

/-- A key passes an enabled pair when the bits its mask selects are equal (R43). -/
def pairPasses (p : KeyPair) (key : BitVec 8) : Bool :=
  p.enable && key &&& p.mask == p.value &&& p.mask

/-- The mean green of a tile with pixels (R40). -/
def meanGreen (t : Tile) : Nat := t.gSum / t.pixels

/-- The filter (R43 to R46); a tile without pixels is skipped before it (R42). -/
def accepts (f : FilterSettings) (t : Tile) : Bool :=
  (pairPasses f.pairA t.key || pairPasses f.pairB t.key)
    && decide (f.lLo ≤ meanGreen t) && decide (meanGreen t ≤ f.lHi)
    && decide (t.clipped * 256 ≤ f.clipLimit * t.pixels)

/-! ## The tile pass -/

/-- No tile summed yet (R47). -/
def Accumulators.zero : Accumulators := { rSum := 0, gSum := 0, bSum := 0, accepted := 0 }

/-- The accumulators after a tile: a skipped or rejected tile adds nothing (R42, R47). -/
def addTile (f : FilterSettings) (a : Accumulators) (t : Tile) : Accumulators :=
  if t.pixels ≠ 0 ∧ accepts f t then
    { rSum := a.rSum + t.rSum, gSum := a.gSum + t.gSum, bSum := a.bSum + t.bSum,
      accepted := a.accepted + 1 }
  else a

/-- Whether a tile is in a counter's tally (R156): a tile without pixels is in none (R42). -/
def tallied (c : CounterSettings) (t : Tile) : Bool :=
  t.pixels != 0 &&
    match c.source with
    | .tileLevel => levelTest c (meanGreen t)
    | .tileClip => levelTest c (t.clipped * 256 / t.pixels)
    | .off | .estMired | .weak | .slew | .spread | .noSource | .podMiss | .late => false

/-- The tallies after a tile, one per counter (R30, R156). -/
def addTallies (counters : Quad Counter) (ts : Quad Nat) (t : Tile) : Quad Nat :=
  ts.mapIdx (fun i n => n + flag (tallied (counters.get i).settings t))

/-- The tile pass over the tiles still to read: the accumulators and tallies, absent when a read fails
(R30). -/
def tilePass (f : FilterSettings) (counters : Quad Counter) :
    Nat → Nat → Accumulators → Quad Nat → State → Option (Accumulators × Quad Nat) × State
  | 0, _, a, ts, s => (some (a, ts), s)
  | n + 1, addr, a, ts, s =>
    match busRead s addr 16 with
    | (none, s) => (none, s)
    | (some r, s) =>
      tilePass f counters n (addr + 16) (addTile f a (tileRecord r)) (addTallies counters ts (tileRecord r)) s

/-! ## The estimate -/

/-- The quality's weak reason (R48). -/
def weakReason (f : FilterSettings) (a : Accumulators) : WeakReason :=
  if a.accepted < f.aMin then .fewTiles
  else if a.rSum + a.bSum = 0 then .noChroma
  else .none

/-- The blue share (R49). -/
def blueShare (a : Accumulators) : Nat :=
  if a.rSum + a.bSum = 0 then 0 else 4096 * a.bSum / (a.rSum + a.bSum)

/-- The measured mired within the list, between a point and the next (R51). -/
def betweenPoints (p q : CalPoint) (b : Nat) : Nat :=
  p.mired - (p.mired - q.mired) * (b - p.beta) / (q.beta - p.beta)

/-- The measured mired from a blue share (R50, R51): m_0 at or below β_0, m_last at or above β_last, and
between two points the interpolation. -/
def measuredMired : List CalPoint → Nat → Nat
  | [], _ => 0
  | [p], _ => p.mired
  | p :: q :: rest, b =>
    if b ≤ p.beta then p.mired
    else if b < q.beta then betweenPoints p q b
    else measuredMired (q :: rest) b

/-- The estimate (R48 to R52). -/
def formEstimate (f : FilterSettings) (points : List CalPoint) (a : Accumulators) : Estimate :=
  { reason := weakReason f a, accepted := a.accepted, blueShare := blueShare a,
    mired := if weakReason f a = .none then some (measuredMired points (blueShare a)) else none }

/-! ## SET_FILTER -/

/-- The filter settings SET_FILTER carries, with the clamps of R58 (12.3). -/
def carriedFilter (p : Nat) : FilterSettings :=
  { pairA := { enable := bit (field p 0x00 1) 0, value := BitVec.ofNat 8 (field p 0x01 1),
               mask := BitVec.ofNat 8 (field p 0x02 1) },
    pairB := { enable := bit (field p 0x04 1) 0, value := BitVec.ofNat 8 (field p 0x05 1),
               mask := BitVec.ofNat 8 (field p 0x06 1) },
    lLo := field p 0x08 2, lHi := field p 0x0A 2,
    clipLimit := clamp 0 256 (field p 0x0C 2), aMin := clamp 1 256 (field p 0x0E 2) }

/-- SET_FILTER's effect (R57, R58). -/
def setFilterEffect (p : Nat) (s : State) : ResultCode × State :=
  if field p 0x0A 2 < field p 0x08 2 then (.refusedValue, s)
  else (.done, { s with ce := { s.ce with filter := carriedFilter p } })

/-- SET_FILTER (R57). -/
def execSetFilter (upTo : DirStage) (s : State) : Host.Outcome State Fault Refusal :=
  .next (runDirective (some .setFilter) { prepare := noPreparation, effect := setFilterEffect } upTo s)

end Sys2Proof.Machine
end

