-- ==== Sys2Proof/Machine/Grading.lean ====
section
/-! DEFINITION. The grade computation (R98 to R104) and SET_GRADE (R97). -/

namespace Sys2Proof.Machine

/-- A calibration point of zeros, read only where a list has no such point. -/
def CalPoint.zero : CalPoint :=
  { beta := 0, mired := 0, redGain := 0, blueGain := 0,
    matrix := { r0 := ⟨0, 0, 0⟩, r1 := ⟨0, 0, 0⟩, r2 := ⟨0, 0, 0⟩ } }

/-- The head mired (R98): the applied mired plus the trim, clamped into the calibrated range. -/
def headMired (c : Cs) (r : ContextRead) : Nat :=
  (clampInt (storeBottom c) (storeTop c) (r.mired + r.trim)).toNat

/-- The largest index of a point whose mired is at or above a value, 0 when there is none (R99.1). -/
def lastAtOrAbove (points : List CalPoint) (m : Nat) : Nat :=
  ((List.range points.length).filter (fun i => m ≤ (points.getD i CalPoint.zero).mired)).getLastD 0

/-- The segment index and the weight (R99). -/
def segmentWeight (points : List CalPoint) (m : Nat) : Nat × Nat :=
  let i := lastAtOrAbove points m
  if i + 1 = points.length then (points.length - 2, 4096)
  else
    let p := points.getD i CalPoint.zero
    let q := points.getD (i + 1) CalPoint.zero
    (i, 4096 * (p.mired - m) / (p.mired - q.mired))

/-- One interpolated value (R100). -/
def interpolate (w : Nat) (a b : Int) : Int := a + shr12 ((b - a) * w + 2048)

/-- A row interpolated, coefficient by coefficient. -/
def interpolateRow (w : Nat) (a b : Row3) : Row3 :=
  { c0 := interpolate w a.c0 b.c0, c1 := interpolate w a.c1 b.c1, c2 := interpolate w a.c2 b.c2 }

/-- A matrix interpolated, row by row. -/
def interpolateMatrix (w : Nat) (a b : Mat3) : Mat3 :=
  { r0 := interpolateRow w a.r0 b.r0, r1 := interpolateRow w a.r1 b.r1,
    r2 := interpolateRow w a.r2 b.r2 }

/-- The exposure gain as used: above 480 it is used as 480 (R3). -/
def usedGain (g : Nat) : Nat := clamp 0 480 g

/-- The saturation factor (R102). -/
def saturation (gs : GradeSettings) (g : Nat) : Nat :=
  if g ≤ gs.gK then 4096
  else if gs.gM ≤ g then gs.sMin
  else 4096 - (4096 - gs.sMin) * (g - gs.gK) / (gs.gM - gs.gK)

/-- The sum of a row. -/
def rowSum (r : Row3) : Int := r.c0 + r.c1 + r.c2

/-- One coefficient pulled toward the row's grey value (R103). -/
def towardGrey (s : Nat) (k c : Int) : Int := k + shr12 ((c - k) * s + 2048)

/-- A row desaturated, before the balance (R103). -/
def desaturateRow (s : Nat) (r : Row3) : Row3 :=
  let k := rowSum r / 3
  { c0 := towardGrey s k r.c0, c1 := towardGrey s k r.c1, c2 := towardGrey s k r.c2 }

/-- What the balance adds to the diagonal coefficient of a row (R104). -/
def rowBalance (s : Nat) (r : Row3) : Int := rowSum r - rowSum (desaturateRow s r)

/-- The desaturated matrix with its rows balanced on the diagonal (R103, R104). -/
def desaturate (s : Nat) (m : Mat3) : Mat3 :=
  let a := desaturateRow s m.r0
  let b := desaturateRow s m.r1
  let c := desaturateRow s m.r2
  { r0 := { a with c0 := a.c0 + rowBalance s m.r0 },
    r1 := { b with c1 := b.c1 + rowBalance s m.r1 },
    r2 := { c with c2 := c.c2 + rowBalance s m.r2 } }

/-- The grade proper of a card (R33.1): head mired, segment and weight, gains, matrix and saturation. -/
def formGrade (c : Cs) (gs : GradeSettings) (r : ContextRead) (gain : Nat) : Grade :=
  let m := headMired c r
  let sw := segmentWeight c.points m
  let p := c.points.getD sw.1 CalPoint.zero
  let q := c.points.getD (sw.1 + 1) CalPoint.zero
  let sat := saturation gs (usedGain gain)
  let mat := interpolateMatrix sw.2 p.matrix q.matrix
  { headMired := m, segment := sw.1, weight := sw.2,
    redGain := interpolate sw.2 p.redGain q.redGain,
    blueGain := interpolate sw.2 p.blueGain q.blueGain,
    interpolated := mat, desaturated := desaturate sat mat, saturation := sat }

/-! ## SET_GRADE -/

/-- SET_GRADE's effect (R97). -/
def setGradeEffect (p : Nat) (s : State) : ResultCode × State :=
  if field p 0x02 2 ≤ field p 0x00 2 ∨ 480 < field p 0x02 2 then (.refusedValue, s)
  else
    (.done,
      { s with ce := { s.ce with grading :=
          { gK := field p 0x00 2, gM := field p 0x02 2, sMin := clamp 0 4096 (field p 0x04 2) } } })

/-- SET_GRADE (R97). -/
def execSetGrade (upTo : DirStage) (s : State) : Host.Outcome State Fault Refusal :=
  .next (runDirective (some .setGrade) { prepare := noPreparation, effect := setGradeEffect } upTo s)

end Sys2Proof.Machine
end

