-- ==== Sys2Proof/Machine/Timers.lean ====
section
/-! DEFINITION. The cadence timers' counting (R130, R132) and the start of the settle timer (R131). -/

namespace Sys2Proof.Machine

/-- The timers at an advance of the frame count: the two modulo-n timers count down, emit an expiry and
reload at 0 (R130), and a running settle timer counts down (R132). The settle timer whose count has reached
0 has its expiry due; SETTLE_EXPIRY clears its running flag. -/
def tick (c : Ct) : Ct :=
  { c with
    trackerCount := if c.trackerCount ≤ 1 then c.trackerLen else c.trackerCount - 1,
    trackerDue := c.trackerDue || decide (c.trackerCount ≤ 1),
    pollCount := if c.pollCount ≤ 1 then c.pollLen else c.pollCount - 1,
    pollDue := c.pollDue || decide (c.pollCount ≤ 1),
    settleCount := if c.settleRunning then c.settleCount - 1 else c.settleCount }

/-- Whether the settle timer's count has reached 0 and its running flag has not yet cleared (R132). -/
def settleDue (c : Ct) : Bool := c.settleRunning && c.settleCount == 0

/-- The settle expiry: the running flag clears, the count stays 0 (R132). -/
def settleExpired (c : Ct) : Ct :=
  if settleDue c then { c with settleRunning := false } else c

/-- A start of the settle timer whose due expiry, if it has one, is taken (R131). -/
def settleTriggered (c : Ct) : Ct :=
  if c.settleRunning then
    if c.retriggerable then { c with settleCount := c.settleLen } else c
  else if c.settleLen = 0 then c
  else { c with settleRunning := true, settleCount := c.settleLen }

/-- The start of the settle timer by a CUT card (R131): an expiry that an earlier advance brought comes
first (R132), so the start finds the timer stopped. -/
def settleStarted (c : Ct) : Ct := settleTriggered (settleExpired c)

/-- The settle timer started or retriggered, and the timer fields rewritten (R131, R136). -/
def startSettle (s : State) : State := rewrite [.ct] s { s with ct := settleStarted s.ct }

/-- A modulo-n timer's remaining count under a new length: reloaded when the length differs (R134, R135). -/
def reloadedCount (oldLen newLen count : Nat) : Nat := if newLen = oldLen then count else newLen

end Sys2Proof.Machine
end

