-- ==== Sys2Proof/Machine/Intake.lean ====
section
/-! DEFINITION. The take (R13 to R20) and the writing of a card's ending (R5). -/

namespace Sys2Proof.Machine

/-! ## Endings -/

/-- The two fields every ending writes: its code and the frame count (R4). -/
def endingFields (s : State) (addr : Nat) (e : Ending) : List Field :=
  [⟨addr + 0x20, 1, endingCode e⟩, ⟨addr + 0x24, 4, s.aiu.frameCount⟩]

/-- ENDED, written last (R5). -/
def endedField (addr : Nat) : Field := ⟨addr, 4, Config.cardEnded⟩

/-- How the engine ends a card's job (R28). -/
def cardEnding (e : Ending) : JobEnding := if e = .completed then .completed else .refused

/-- What follows ENDED: the job ends (R28), the CARD cause is set if the card carries NOTIFY (R5), a LATE
card hands its event to the monitors (R20), and in RUNNING a sweep and a grant follow (R25). -/
def afterEnded (h : Head) (e : Ending) (notify : Bool) (s : State) : State :=
  let s := setCauseIf notify .card (releaseEngine (some (cardEnding e, .card)) s)
  sweepAndGrant (if e = .late then deliver (.late h) s else s)

/-- A refused card ended: ending code and frame count, ENDED, and what follows (R4, R5). -/
def endCard (h : Head) (slot : Fin 8) (e : Ending) (notify : Bool) (s : State) : State :=
  match writeFields .cardWrite
      (endingFields s (cardAddr s h slot) e ++ [endedField (cardAddr s h slot)]) s with
  | (false, s) => s
  | (true, s) => afterEnded h e notify s

/-! ## The take -/

/-- The state with the take in hand replaced. -/
def putTake (h : Head) (slot : Fin 8) (j : TakeJob) (s : State) : State :=
  { s with ce := { s.ce with engine := .take h slot j } }

/-- The bytes of a card that the re-read takes: the state and the request group (12.4), but for 0x0E and 0x0F,
which are not read (R176). -/
def cardSpans : List (Nat × Nat) := [(0x00, 0x0E), (0x10, 4)]

/-- The re-read (R14): the grant lapses when the card is not READY or is held; else the take goes on with
the values read, and they set the pending query frame (R123). -/
def takeReread (h : Head) (slot : Fin 8) (j : TakeJob) (s : State) : State :=
  match readSpans s (cardAddr s h slot) cardSpans with
  | (none, s) => enterFault .tableRead s
  | (some r, s) =>
    if field r 0x00 4 = Config.cardReady ∧ field r 0x08 4 ≤ s.aiu.frameCount then
      putTake h slot { j with next := .writeTaken, req := cardRequest r }
        { s with lbu := { s.lbu with pendingQuery := some (field r 0x08 4) } }
    else fallFree none s

/-- TAKEN (R15). -/
def takeWriteTaken (h : Head) (slot : Fin 8) (j : TakeJob) (s : State) : State :=
  match writeFields .cardWrite [⟨cardAddr s h slot, 4, Config.cardTaken⟩] s with
  | (false, s) => s
  | (true, s) => putTake h slot { j with next := .checks } s

/-- The intake checks: the first that fails decides the ending (R16). -/
def intakeCheck (h : Head) (count : Nat) (last : Option Nat) (req : CardRequest) : Option Ending :=
  if req.tileCount = 0 ∨ 256 < req.tileCount ∨ req.head ≠ h.toNat then some .malformed
  else if req.frame + 8 < count then some .late
  else
    match last with
    | some l => if req.frame ≤ l then some .stale else none
    | none => none

/-- The checks applied to the values read at the take (R16). -/
def takeChecks (h : Head) (slot : Fin 8) (j : TakeJob) (s : State) : State :=
  putTake h slot
    { j with next := .lastTaken,
             failed := intakeCheck h s.aiu.frameCount (s.ciu.lastTaken.get h) j.req } s

/-- The last-taken frame after a take of a frame number: the larger of the two (R17). -/
def raisedFrame (last : Option Nat) (frame : Nat) : Nat :=
  match last with
  | none => frame
  | some l => max l frame

/-- The state with a head's last-taken frame replaced. -/
def putLastTaken (h : Head) (f : Option Nat) (s : State) : State :=
  { s with ciu := { s.ciu with lastTaken := s.ciu.lastTaken.set h f } }

/-- The last-taken frame, at every take but a MALFORMED one; its value before is kept (R17, R18). -/
def takeLastTaken (h : Head) (slot : Fin 8) (j : TakeJob) (s : State) : State :=
  let t := putTake h slot { j with next := .finish, lastBefore := s.ciu.lastTaken.get h } s
  if j.failed = some .malformed then t
  else
    rewrite [.ciu] s (putLastTaken h (some (raisedFrame (s.ciu.lastTaken.get h) j.req.frame)) t)

/-- No accumulator, tally, estimate, grade or snapshot yet. -/
def CardJob.start (req : CardRequest) (lastBefore : Option Nat) : CardJob :=
  { next := .calibration, req := req, lastBefore := lastBefore,
    acc := { rSum := 0, gSum := 0, bSum := 0, accepted := 0 },
    tallies := Quad.const 0,
    estimate := { reason := .fewTiles, accepted := 0, blueShare := 0, mired := none },
    context := { index := 0, mired := 0, generation := 0, trim := 0 },
    grade :=
      { headMired := 0, segment := 0, weight := 0, redGain := 0, blueGain := 0,
        interpolated := { r0 := ⟨0, 0, 0⟩, r1 := ⟨0, 0, 0⟩, r2 := ⟨0, 0, 0⟩ },
        desaturated := { r0 := ⟨0, 0, 0⟩, r1 := ⟨0, 0, 0⟩, r2 := ⟨0, 0, 0⟩ }, saturation := 0 },
    bank := none, marks := 0, pod := none,
    monitors := { values := Quad.const 0, frozen := false } }

/-- The hand-over to the engine (R13.5, R23). -/
def handOver (h : Head) (slot : Fin 8) (j : TakeJob) (s : State) : State :=
  rewrite [.ce] s
    { s with ce := { s.ce with engine := .card h slot (CardJob.start j.req j.lastBefore) } }

/-- Whether the engine still holds a take. -/
def holdsTake : Engine → Bool
  | .take _ _ _ => true
  | .free => false
  | .card _ _ _ => false
  | .directive _ => false
  | .bake _ => false

/-- The CUT actions of a card that has passed intake: the settle timer and the freeze on cut (R19). R19 hands
both to other blocks; where the settle timer's status write fails and terminates the take (R38), the counters
are frozen all the same (DESIGN CHOICE, notes/assumptions/27.md). -/
def cutActions (cut : Bool) (s : State) : State := if cut then freezeOnCut (startSettle s) else s

/-- The end of the take: the card is ended with its failed check, or, having passed intake, is handed to the
engine after the CUT actions (R16, R19). A take that a failed status write has terminated hands nothing
over. R19 puts the CUT actions before the hand-over only; that they come after the last-taken frame's stage
(R17) is the model's choice (DESIGN CHOICE, notes/assumptions/27.md). -/
def takeFinish (h : Head) (slot : Fin 8) (j : TakeJob) (s : State) : State :=
  match j.failed with
  | some e => endCard h slot e j.req.notify s
  | none =>
    let t := cutActions j.req.cut s
    if holdsTake t.ce.engine then handOver h slot j t else t

/-- One stage of the take in hand, if it is the stage the take runs next. -/
def takeStage (s : State) (st : TakeStage) : State :=
  match s.ce.engine with
  | .take h slot j =>
    if j.next = st then
      match st with
      | .reread => takeReread h slot j s
      | .writeTaken => takeWriteTaken h slot j s
      | .checks => takeChecks h slot j s
      | .lastTaken => takeLastTaken h slot j s
      | .finish => takeFinish h slot j s
    else s
  | .free => s
  | .card _ _ _ => s
  | .directive _ => s
  | .bake _ => s

/-- The take in hand run up to a stage (R13). -/
def runTake (upTo : TakeStage) (s : State) : State :=
  (TakeStage.all.filter (fun st => st.rank ≤ upTo.rank)).foldl takeStage s

/-- TAKE (R13). -/
def execTake (upTo : TakeStage) (s : State) : Host.Outcome State Fault Refusal := .next (runTake upTo s)

end Sys2Proof.Machine
end

