-- ==== Sys2Proof/Machine/PodLink.lean ====
section
/-! DEFINITION. The meter pod link: frames (R139), exchanges (R140, R141), the link states (R143 to R146),
readings, marks and hold (R147 to R150), and SET_POD (R135, R151). -/

namespace Sys2Proof.Machine

/-! ## Frames -/

/-- SYNC, the first character of every frame (R139). -/
def syncChar : Nat := 0x5A

/-- The KIND of a request (R139). -/
def requestKind : ExchangeKind → Nat
  | .probe => 0x01
  | .read => 0x02

/-- The LEN a reply must carry (R139). -/
def replyLen : ExchangeKind → Nat
  | .probe => 2
  | .read => 7

/-- The length of a reply in characters: SYNC, KIND, LEN, the payload, CHECK (R139). -/
def replyLength (k : ExchangeKind) : Nat := replyLen k + 4

/-- CHECK for the characters from KIND on: their sum with it is 0 modulo 256 (R139). -/
def checkOf (cs : List Nat) : Nat := (256 - cs.sum % 256) % 256

/-- The characters of a request, as the part sends them (R139, 12.6). -/
def requestChars (k : ExchangeKind) : List Nat :=
  [syncChar, requestKind k, 0, checkOf [requestKind k, 0]]

/-- The bits of a request on the line, in the order the part sends them, its four characters without a break
(R138, R140.1). -/
def requestBits (k : ExchangeKind) : List Bool :=
  (requestChars k).flatMap (fun c => lineBits (BitVec.ofNat 8 c))

/-- What the part drives on the pod line: the bits of the request while it sends one, those of the character in
progress while it finishes one of an abandoned request (R151, R154), and at any other time nothing, since it then
listens (R138). -/
def drivenBits (m : Mlc) : Option (List Bool) :=
  match m.exchange with
  | some ⟨k, .sending⟩ => some (requestBits k)
  | some ⟨_, .awaiting⟩ => m.finishing.map lineBits
  | some ⟨_, .receiving _⟩ => m.finishing.map lineBits
  | none => m.finishing.map lineBits

/-- The character of a request that is in progress when it is abandoned, a free value among the four (R151.1,
notes/assumptions/30.md). -/
def characterInProgress (k : ExchangeKind) (n : Nat) : BitVec 8 :=
  BitVec.ofNat 8 ((requestChars k).getD (Config.characterInProgress n).val 0)

/-- The link with its exchange abandoned, by SET_POD (R151.1) or by a reset (R154): a request still being sent
leaves its character in progress to be finished, and no more of it is sent. -/
def abandoned (m : Mlc) : Mlc :=
  match m.exchange with
  | some ⟨k, .sending⟩ =>
    { m with exchange := none, finishing := some (characterInProgress k m.abandons),
             abandons := m.abandons + 1 }
  | some ⟨_, .awaiting⟩ => { m with exchange := none }
  | some ⟨_, .receiving _⟩ => { m with exchange := none }
  | none => m

/-- Character `i` of a reply, 0 beyond its end. -/
def charAt (cs : List RxChar) (i : Nat) : Nat := (cs.map (fun c => c.data.toNat)).getD i 0

/-- Whether an ended reply is valid (R141). -/
def replyValid (k : ExchangeKind) (cs : List RxChar) : Bool :=
  cs.length == replyLength k
    && cs.all RxChar.good
    && charAt cs 0 == syncChar
    && charAt cs 1 == requestKind k + 0x80
    && charAt cs 2 == replyLen k
    && ((cs.drop 1).map (fun c => c.data.toNat)).sum % 256 == 0
    && (match k with
        | .probe => charAt cs 4 == 1
        | .read => true)

/-! ## Marks and readings -/

/-- A head's pending marks raised, saturating at 255 (R92). -/
def addMarks (n : Nat) (m : Nat) : Nat := min 255 (m + n)

/-- The presses a READ reply reports: the difference modulo 256, none when no count is held (R148). -/
def newMarks (last : Option Nat) (count : Nat) : Nat :=
  match last with
  | none => 0
  | some l => (count + 256 - l) % 256

/-- The reading a READ reply carries, stamped (R139, R147). -/
def replyReading (cs : List RxChar) (stamp : Nat) : Reading :=
  { mired := charAt cs 5 + 256 * charAt cs 6, lux := charAt cs 7 + 256 * charAt cs 8,
    quit := bit (charAt cs 3) 0, dim := bit (charAt cs 3) 2, sequence := charAt cs 9, stamp := stamp }

/-- The reading held after a reply's reading: an equal sequence keeps the held one (R147). -/
def storedReading (held : Option Reading) (r : Reading) : Option Reading :=
  match held with
  | none => some r
  | some h => if h.sequence = r.sequence then some h else some r

/-- The HOLD flag of a READ reply. -/
def replyHold (cs : List RxChar) : Bool := bit (charAt cs 3) 1

/-! ## The end of an exchange -/

/-- The link after a valid PROBE reply (R144). -/
def probedMlc (cs : List RxChar) (m : Mlc) : Mlc :=
  { m with exchange := none, link := .linked, missCount := 0, podClass := some (charAt cs 3),
           reading := none, lastMark := none }

/-- The link after a valid READ reply (R145, R147 to R149). -/
def readMlc (cs : List RxChar) (stamp : Nat) (m : Mlc) : Mlc :=
  { m with exchange := none, missCount := 0,
           reading := storedReading m.reading (replyReading cs stamp),
           lastMark := some (charAt cs 4), hold := replyHold cs }

/-- Whether a miss loses the link: the third in LINKED (R146). -/
def missLoses (m : Mlc) : Bool := m.link == .linked && decide (2 ≤ m.missCount)

/-- The link after a miss (R145, R146). -/
def missedMlc (m : Mlc) : Mlc :=
  if missLoses m then
    { m with exchange := none, link := .detect, missCount := 0, reading := none, lastMark := none,
             hold := false }
  else if m.link = .linked then { m with exchange := none, missCount := m.missCount + 1 }
  else { m with exchange := none }

/-- A miss: the update, the status rewrite, the causes, the POD_MISS event (R141, R145, R146). -/
def endMiss (s : State) : State :=
  let t := rewrite [.mlc] s { s with mlc := missedMlc s.mlc }
  let t := setCauseIf (missLoses s.mlc) .podLost t
  let t := setCauseIf (missLoses s.mlc && s.mlc.hold) .hold t
  deliver .podMiss t

/-- A valid PROBE reply (R144). -/
def endProbe (cs : List RxChar) (s : State) : State :=
  setCause .podFound (rewrite [.mlc] s { s with mlc := probedMlc cs s.mlc })

/-- A valid READ reply: reading, marks and hold as one update (R150), the status rewrite, the HOLD cause
when hold changed (R149). The rules do not order what the owners then write: the model has the link's fields
first, then the tracker's, then the HOLD cause with its mirror (DESIGN CHOICE, notes/assumptions/29.md). -/
def endRead (cs : List RxChar) (s : State) : State :=
  setCauseIf (replyHold cs != s.mlc.hold) .hold
    (rewrite [.mlc, .it] s
      { s with
        mlc := readMlc cs s.aiu.frameCount s.mlc,
        it := { s.it with marks := s.it.marks.map (addMarks (newMarks s.mlc.lastMark (charAt cs 4))) } })

/-- An ended reply judged and acted on (R141). -/
def judge (k : ExchangeKind) (cs : List RxChar) (s : State) : State :=
  if replyValid k cs then
    match k with
    | .probe => endProbe cs s
    | .read => endRead cs s
  else endMiss s

/-! ## The exchange -/

/-- The state with the exchange in flight replaced. -/
def putExchange (x : Option Exchange) (s : State) : State := { s with mlc := { s.mlc with exchange := x } }

/-- The exchange a poll expiry begins (R143). -/
def pollBegins (m : Mlc) : Option ExchangeKind :=
  match m.exchange, m.link with
  | some _, _ => none
  | none, .off => none
  | none, .detect => some .probe
  | none, .linked => some .read

/-- The link once an exchange has begun, in its sending phase (R143): the line carries the request, and a
character of an earlier request is finished by then (notes/assumptions/30.md). -/
def begunMlc (k : ExchangeKind) (m : Mlc) : Mlc :=
  { m with exchange := some { kind := k, phase := .sending }, finishing := none }

/-- A due poll expiry taken by the meter link, only in RUNNING (R143): it begins an exchange in its sending
phase, or is skipped. R143 does not say what becomes of an expiry not yet taken when the part leaves RUNNING:
it stays due, and may be taken after the next entry into RUNNING (DESIGN CHOICE, notes/assumptions/3.md). -/
def pollExpiry (s : State) : State :=
  if s.ct.pollDue ∧ s.aiu.run = .running then
    let t := { s with ct := { s.ct with pollDue := false } }
    match pollBegins s.mlc with
    | none => t
    | some k => rewrite [.mlc] s { t with mlc := begunMlc k t.mlc }
  else s

/-- POLL_EXPIRY (R143). -/
def execPollExpiry (s : State) : Host.Outcome State Fault Refusal := .next (pollExpiry s)

/-- The state with the pod line quiet: no character is still being finished (R151.1). -/
def lineQuiet (s : State) : State := { s with mlc := { s.mlc with finishing := none } }

/-- The last stop bit that the part sends: of a request, and the reply window opens (R140.2); of an abandoned
request's character in progress, and the line is left quiet (R151.1, R154, notes/assumptions/30.md). -/
def requestSent (s : State) : State :=
  match s.mlc.exchange with
  | some ⟨k, .sending⟩ => putExchange (some { kind := k, phase := .awaiting }) s
  | some ⟨_, .awaiting⟩ => lineQuiet s
  | some ⟨_, .receiving _⟩ => lineQuiet s
  | none => lineQuiet s

/-- REQUEST_SENT (R140). -/
def execRequestSent (s : State) : Host.Outcome State Fault Refusal := .next (requestSent s)

/-- The window runs out with no reply: a miss (R140.2, R141). -/
def replyWindowExpiry (s : State) : State :=
  match s.mlc.exchange with
  | some ⟨_, .awaiting⟩ => endMiss s
  | some ⟨_, .sending⟩ => s
  | some ⟨_, .receiving _⟩ => s
  | none => s

/-- REPLY_WINDOW_EXPIRY (R140). -/
def execReplyWindowExpiry (s : State) : Host.Outcome State Fault Refusal := .next (replyWindowExpiry s)

/-- A character taken into the reply of an exchange; at the reply length the reply ends and is judged
(R140.3). -/
def takeChar (k : ExchangeKind) (cs : List RxChar) (s : State) : State :=
  if replyLength k ≤ cs.length then judge k cs s
  else putExchange (some { kind := k, phase := .receiving cs }) s

/-- A received character (R138, R140): taken in while awaiting or receiving, discarded otherwise. -/
def replyCharacter (c : RxChar) (s : State) : State :=
  match s.mlc.exchange with
  | some ⟨k, .awaiting⟩ => takeChar k [c] s
  | some ⟨k, .receiving cs⟩ => takeChar k (cs ++ [c]) s
  | some ⟨_, .sending⟩ => s
  | none => s

/-- REPLY_CHARACTER (R138). -/
def execReplyCharacter (data : BitVec 8) (parity stop : Bool) (s : State) :
    Host.Outcome State Fault Refusal :=
  .next (replyCharacter (rxChar data parity stop) s)

/-- More than 0.5 ms without another character: the reply ends and is judged (R140.3). -/
def replyGapTimeout (s : State) : State :=
  match s.mlc.exchange with
  | some ⟨k, .receiving cs⟩ => judge k cs s
  | some ⟨_, .sending⟩ => s
  | some ⟨_, .awaiting⟩ => s
  | none => s

/-- REPLY_GAP_TIMEOUT (R140). -/
def execReplyGapTimeout (s : State) : Host.Outcome State Fault Refusal := .next (replyGapTimeout s)

/-! ## SET_POD -/

/-- The link after SET_POD (R151.1 to R151.3). -/
def podSet (enable : Bool) (floor : Nat) (m : Mlc) : Mlc :=
  { abandoned m with enable := enable, luxFloor := floor,
                     link := if enable then .detect else .off, missCount := 0, reading := none,
                     lastMark := none, hold := false }

/-- The poll timer under SET_POD's length, clamped (R135). -/
def repolled (c : Ct) (len : Nat) : Ct :=
  { c with pollLen := len, pollCount := reloadedCount c.pollLen len c.pollCount }

/-- The causes after SET_POD: HOLD is set if pod hold was on (R151.4). -/
def podCauses (hold : Bool) (causes : BitVec 9) : BitVec 9 := if hold then withCause causes .hold else causes

/-- SET_POD's effect (R135, R151): one update of the exchange, the settings, the link and the HOLD cause, then
the status rewrite. R151 does not order the owners' rewrites among themselves: the model has the mirror of the
causes first, then the timers' fields, then the link's (DESIGN CHOICE, notes/assumptions/29.md). -/
def setPodEffect (p : Nat) (s : State) : ResultCode × State :=
  (.done,
    rewrite [.aiu, .ct, .mlc] s
      { s with
        aiu := { s.aiu with causes := podCauses s.mlc.hold s.aiu.causes },
        mlc := podSet (bit (field p 0x00 2) 0) (field p 0x04 2) s.mlc,
        ct := repolled s.ct (clamp 1 256 (field p 0x02 2)) })

/-- SET_POD (R151). -/
def execSetPod (upTo : DirStage) (s : State) : Host.Outcome State Fault Refusal :=
  .next (runDirective (some .setPod) { prepare := noPreparation, effect := setPodEffect } upTo s)

end Sys2Proof.Machine
end

