-- ==== Sys2Proof/Machine/Calibration.lean ====
section
/-! DEFINITION. LOAD_CALIBRATION (R62 to R67, R70). -/

namespace Sys2Proof.Machine

/-- A mired brought into the calibrated range of a point list (R66). -/
def intoRange (c : Cs) (m : Nat) : Nat :=
  if storeTop c < m then storeTop c else if m < storeBottom c then storeBottom c else m

/-- A point's own checks (R64). -/
def pointInRange (p : CalPoint) : Bool :=
  decide (p.beta ≤ 4096) && decide (16 ≤ p.mired) && decide (p.mired ≤ 16383)
    && decide (1024 ≤ p.redGain) && decide (p.redGain ≤ 16383)
    && decide (1024 ≤ p.blueGain) && decide (p.blueGain ≤ 16383)

/-- Each point against the one before it: β rising and mired falling, both strictly (R64). -/
def pointsOrdered : List CalPoint → Bool
  | [] => true
  | [_] => true
  | p :: q :: rest => decide (p.beta < q.beta) && decide (q.mired < p.mired) && pointsOrdered (q :: rest)

/-- The validation phase (R64). -/
def validPoints (ps : List CalPoint) : Bool := ps.all pointInRange && pointsOrdered ps

/-- The read of one record: of its 32 bytes the first 26 are read, and a record that would run past the top
of the address space counts as a failed read (R63); no access is then made. -/
def readPoint (addr : Nat) (s : State) : Option Nat × State :=
  if addr + 32 ≤ 2 ^ 32 then busRead s addr 26 else (none, s)

/-- The read phase: the points from `n` records at an address, absent when a read fails (R63). -/
def readPoints : Nat → Nat → State → Option (List CalPoint) × State
  | 0, _, s => (some [], s)
  | n + 1, addr, s =>
    match readPoint addr s with
    | (none, s) => (none, s)
    | (some r, s) =>
      match readPoints n (addr + 32) s with
      | (none, s) => (none, s)
      | (some ps, s) => (some (calPointRecord r :: ps), s)

/-- Count check, read and validation (R62 to R64): a failure discards the load buffer and leaves everything
else as it was; otherwise the load buffer holds the list to be installed. -/
def prepareLoad (p : Nat) (s : State) : Option ResultCode × State :=
  let count := field p 0x04 2
  if count < 2 ∨ 12 < count then (some .refusedValue, s)
  else
    match readPoints count (field p 0x00 4) s with
    | (none, s) => (some .busError, { s with cs := { s.cs with loadBuffer := [] } })
    | (some ps, s) =>
      if validPoints ps then (none, { s with cs := { s.cs with loadBuffer := ps } })
      else (some .refusedValue, { s with cs := { s.cs with loadBuffer := [] } })

/-- A context clamped into a store's range: its generation advances when the clamp changes its applied
mired (R66). -/
def clampContext (c : Cs) (x : Context) : Context :=
  if intoRange c x.mired = x.mired then x
  else { x with mired := intoRange c x.mired, generation := x.generation + 1 }

/-- The store after the commit (R65). -/
def committedStore (c : Cs) : Cs := { valid := true, points := c.loadBuffer, loadBuffer := [] }

/-- The commit's one update: the store replaced, every initialised context clamped, both latest estimates
discarded (R65 to R67). -/
def commitState (s : State) : State :=
  { s with
    cs := committedStore s.cs,
    it := { s.it with
      contexts := s.it.contexts.mapIdx (fun _ x => x.map (clampContext (committedStore s.cs))),
      latest := { i0 := none, i1 := none } } }

/-- The commit with its status writes: the tracker's changed fields, and the store's fields last
(R70, R94). -/
def commitEffect (_ : Nat) (s : State) : ResultCode × State :=
  let t := rewrite [.it] s (commitState s)
  (.done, putStatus .cs (ownerFields .cs t) t)

/-- LOAD_CALIBRATION (R62). -/
def execLoadCalibration (upTo : DirStage) (s : State) : Host.Outcome State Fault Refusal :=
  .next (runDirective (some .loadCalibration) { prepare := prepareLoad, effect := commitEffect } upTo s)

end Sys2Proof.Machine
end

