-- ==== Sys2Proof/Machine/Tracker.lean ====
section
/-! DEFINITION. The illuminant tracker: SET_TRACKING (R75 to R77), SWITCH_CONTEXT (R78), SNAP (R79), the
sources (R81, R82) and the step (R83 to R91). -/

namespace Sys2Proof.Machine

/-! ## The tracker's directives -/

/-- The settings SET_TRACKING carries, with the clamps of R76 (12.3). -/
def carriedSettings (policy : Policy) (p : Nat) : ContextSettings :=
  { policy := policy,
    holdBand := clamp 0 1023 (field p 0x04 2),
    stepLimit := clamp 1 1023 (field p 0x06 2),
    agreeSpread := clamp 0 4095 (field p 0x08 2),
    sources := { h0 := bit (field p 0x0A 2) 0, h1 := bit (field p 0x0A 2) 1,
                 pod := bit (field p 0x0A 2) 2 },
    maxAge := clamp 1 255 (field p 0x0C 2),
    trims := { i0 := clampInt (-1024) 1023 (signed 16 (field p 0x0E 2)),
               i1 := clampInt (-1024) 1023 (signed 16 (field p 0x10 2)) } }

/-- The initial mired SET_TRACKING carries: at most 16383, and in the calibrated range of a valid store
(R76). -/
def initialMired (c : Cs) (p : Nat) : Nat :=
  let m := clamp 0 16383 (field p 0x12 2)
  if c.valid then intoRange c m else m

/-- The context SET_TRACKING leaves: a new one with generation 0 (R76), or the old one under the new
settings (R77). -/
def trackedContext (c : Cs) (st : ContextSettings) (p : Nat) : Option Context → Context
  | none => { mired := initialMired c p, generation := 0, settings := st }
  | some x => { x with settings := st }

/-- The state with one context record replaced. -/
def putContext (i : Fin 4) (x : Context) (s : State) : State :=
  { s with it := { s.it with contexts := s.it.contexts.set i (some x) } }

/-- SET_TRACKING's effect (R75 to R77). -/
def setTrackingEffect (p : Nat) (s : State) : ResultCode × State :=
  match quadIndex (field p 0x00 2), policyOf (field p 0x02 2) with
  | some i, some policy =>
    (.done,
      rewrite [.it] s
        (putContext i (trackedContext s.cs (carriedSettings policy p) p (s.it.contexts.get i)) s))
  | none, _ => (.refusedValue, s)
  | some _, none => (.refusedValue, s)

/-- SET_TRACKING (R75). -/
def execSetTracking (upTo : DirStage) (s : State) : Host.Outcome State Fault Refusal :=
  .next
    (runDirective (some .setTracking) { prepare := noPreparation, effect := setTrackingEffect } upTo s)

/-- SWITCH_CONTEXT's effect (R78). -/
def switchContextEffect (p : Nat) (s : State) : ResultCode × State :=
  match quadIndex (field p 0x00 2) with
  | none => (.refusedValue, s)
  | some i =>
    match s.it.contexts.get i with
    | none => (.refusedState, s)
    | some x =>
      (.done,
        rewrite [.it] s
          { s with it := { s.it with
              contexts := s.it.contexts.set i (some { x with generation := x.generation + 1 }),
              active := i } })

/-- SWITCH_CONTEXT (R78). -/
def execSwitchContext (upTo : DirStage) (s : State) : Host.Outcome State Fault Refusal :=
  .next
    (runDirective (some .switchContext) { prepare := noPreparation, effect := switchContextEffect } upTo s)

/-- SNAP's effect (R79). -/
def snapEffect (_ : Nat) (s : State) : ResultCode × State :=
  (.done, rewrite [.it] s { s with it := { s.it with snapRequest := true } })

/-- SNAP (R79). -/
def execSnap (upTo : DirStage) (s : State) : Host.Outcome State Fault Refusal :=
  .next (runDirective (some .snap) { prepare := noPreparation, effect := snapEffect } upTo s)

/-! ## Sources -/

/-- The value a head contributes at a step, absent when it does not count (R81). -/
def headSource (inSet : Bool) (maxAge count : Nat) (l : Option Latest) : Option Nat :=
  match l with
  | none => none
  | some e => if inSet ∧ count - e.frame ≤ maxAge then some e.mired else none

/-- The value the pod contributes at a step, absent when it does not count (R82). -/
def podSource (inSet : Bool) (maxAge count : Nat) (m : Mlc) : Option Nat :=
  match m.reading with
  | none => none
  | some r =>
    if inSet ∧ m.link = .linked ∧ r.quit = false ∧ r.dim = false ∧ m.luxFloor ≤ r.lux
        ∧ count - r.stamp ≤ maxAge then some (min r.mired 16383)
    else none

/-- What each of the three sources contributes (R81, R82). -/
structure Sources where
  h0 : Option Nat
  h1 : Option Nat
  pod : Option Nat
deriving DecidableEq, Repr

/-- The sources at a step under a context's settings. -/
def sourcesAt (st : ContextSettings) (s : State) : Sources :=
  { h0 := headSource st.sources.h0 st.maxAge s.aiu.frameCount s.it.latest.i0,
    h1 := headSource st.sources.h1 st.maxAge s.aiu.frameCount s.it.latest.i1,
    pod := podSource st.sources.pod st.maxAge s.aiu.frameCount s.mlc }

/-- The values of the sources that count. -/
def sourceValues (x : Sources) : List Nat := [x.h0, x.h1, x.pod].filterMap id

/-- The set of sources that count. -/
def countedSet (x : Sources) : SourceSet :=
  { h0 := x.h0.isSome, h1 := x.h1.isSome, pod := x.pod.isSome }

/-- The smallest of the values, 0 of none. -/
def smallest (vs : List Nat) : Nat := vs.min?.getD 0

/-- The largest of the values, 0 of none. -/
def largest (vs : List Nat) : Nat := vs.max?.getD 0

/-- The spread (R86). -/
def spreadOf (vs : List Nat) : Nat := largest vs - smallest vs

/-- The target by policy, before the clamp (R86). -/
def policyTarget (st : ContextSettings) (vs : List Nat) : Nat :=
  match st.policy with
  | .coolBias => smallest vs
  | .warmBias => largest vs
  | .agree => if spreadOf vs < st.agreeSpread then vs.sum / vs.length else smallest vs

/-- The target, clamped into the calibrated range of a valid store (R87). -/
def targetOf (c : Cs) (st : ContextSettings) (vs : List Nat) : Nat :=
  if c.valid then intoRange c (policyTarget st vs) else policyTarget st vs

/-! ## The step -/

/-- How a step ends: its outcome, the new applied mired, target and spread when formed, the sources that
counted and the slew-limited item (R90, R91). -/
structure StepDecision where
  outcome : StepOutcome
  mired : Nat
  target : Option Nat
  spread : Option Nat
  counted : SourceSet
  slewLimited : Bool
deriving DecidableEq, Repr

/-- The distance between two mireds. -/
def apart (a b : Nat) : Nat := max a b - min a b

/-- The slew (R89): inside the hold band nothing moves, beyond it the applied mired moves toward the target
by at most the step. -/
def slewed (st : ContextSettings) (mired target : Nat) : Nat :=
  if apart target mired ≤ st.holdBand then mired
  else if mired < target then mired + min st.stepLimit (target - mired)
  else mired - min st.stepLimit (mired - target)

/-- No source counted. -/
def SourceSet.none : SourceSet := { h0 := false, h1 := false, pod := false }

/-- The five stages of a step (R84 to R89), for the active context. -/
def decideStep (x : Context) (s : State) : StepDecision :=
  let vs := sourceValues (sourcesAt x.settings s)
  let counted := countedSet (sourcesAt x.settings s)
  if s.mlc.hold then
    { outcome := .podHold, mired := x.mired, target := none, spread := none,
      counted := SourceSet.none, slewLimited := false }
  else if vs = [] then
    { outcome := .noSource, mired := x.mired, target := none, spread := none,
      counted := SourceSet.none, slewLimited := false }
  else
    let t := targetOf s.cs x.settings vs
    if s.ct.settleRunning ∨ s.it.snapRequest then
      { outcome := .snapped, mired := t, target := some t, spread := some (spreadOf vs),
        counted := counted, slewLimited := false }
    else
      { outcome := if apart t x.mired ≤ x.settings.holdBand then .held else .moved,
        mired := slewed x.settings x.mired t, target := some t, spread := some (spreadOf vs),
        counted := counted,
        slewLimited := decide (x.settings.holdBand < apart t x.mired)
          && decide (x.settings.stepLimit + x.settings.holdBand < apart t x.mired) }

/-- The active context after a step: its generation advances when its applied mired changed (R90). -/
def steppedContext (x : Context) (d : StepDecision) : Context :=
  if d.mired = x.mired then x else { x with mired := d.mired, generation := x.generation + 1 }

/-- The one update of a step (R83, R90): the active context, the snap request, the step result. -/
def steppedState (x : Context) (d : StepDecision) (s : State) : State :=
  { s with it := { s.it with
      contexts := s.it.contexts.set s.it.active (some (steppedContext x d)),
      snapRequest := s.it.snapRequest && d.outcome != .snapped,
      lastStep := some
        { frameCount := s.aiu.frameCount, context := s.it.active, outcome := d.outcome,
          target := d.target, spread := d.spread, counted := d.counted } } }

/-- The event a step hands to the monitors (R91). -/
def stepEvent (d : StepDecision) : MonEvent :=
  .step d.slewLimited (d.outcome == .noSource) d.spread

/-- A step taken whole in the active context: the update, the status rewrite, the monitor event. R91 and R94
put both after the step and do not order them; the model rewrites the status first (DESIGN CHOICE,
notes/assumptions/29.md). The active index always names an initialised record (R73); where it does not, no
state the part reaches, no step is taken. -/
def takeStep (s : State) : State :=
  match s.it.contexts.get s.it.active with
  | none => s
  | some x =>
    deliver (stepEvent (decideStep x s)) (rewrite [.it] s (steppedState x (decideStep x s) s))

/-- A due tracker expiry taken by the tracker: a step at each expiry, only in RUNNING (R83). An expiry not yet
taken when the part leaves RUNNING stays due, and may be taken after the next entry into RUNNING (DESIGN CHOICE,
notes/assumptions/3.md). -/
def trackerStep (s : State) : State :=
  if s.ct.trackerDue ∧ s.aiu.run = .running then
    takeStep { s with ct := { s.ct with trackerDue := false } }
  else s

/-- TRACKER_STEP (R83). -/
def execTrackerStep (s : State) : Host.Outcome State Fault Refusal := .next (trackerStep s)

end Sys2Proof.Machine
end

