-- ==== Sys2Proof/Machine/Card.lean ====
section
/-! DEFINITION. The card job (R29 to R33, R105 to R109, R160) and the result it writes (12.4). -/

namespace Sys2Proof.Machine

/-- The state with the card job in hand replaced. -/
def putCard (h : Head) (slot : Fin 8) (j : CardJob) (s : State) : State :=
  { s with ce := { s.ce with engine := .card h slot j } }

/-! ## The stages -/

/-- The calibration check (R29): with no valid store the head's last-taken frame goes back to its value
before the take (R18), and the card ends UNCALIBRATED. -/
def cardCalibration (h : Head) (slot : Fin 8) (j : CardJob) (s : State) : State :=
  if s.cs.valid then putCard h slot { j with next := .tilePass } s
  else
    let t := rewrite [.ciu] s (putLastTaken h j.lastBefore s)
    match t.ce.engine with
    | .card _ _ _ => endCard h slot .uncalibrated j.req.notify t
    | .free => t
    | .take _ _ _ => t
    | .directive _ => t
    | .bake _ => t

/-- The tile pass (R30): a failed read ends the card BUS_ERROR. -/
def cardTilePass (h : Head) (slot : Fin 8) (j : CardJob) (s : State) : State :=
  match tilePass s.ce.filter s.mon.counters j.req.tileCount j.req.tileAddr Accumulators.zero
      (Quad.const 0) s with
  | (none, s) => endCard h slot .busError j.req.notify s
  | (some (a, ts), s) => putCard h slot { j with next := .estimate, acc := a, tallies := ts } s

/-- The estimate, and the hand-over of a GOOD one to the tracker (R31, R53, R54). -/
def cardEstimate (h : Head) (slot : Fin 8) (j : CardJob) (s : State) : State :=
  let e := formEstimate s.ce.filter s.cs.points j.acc
  let t := putCard h slot { j with next := .contextRead, estimate := e } s
  match e.mired with
  | none => t
  | some m =>
    rewrite [.it] s
      { t with it := { t.it with latest := t.it.latest.set h (some { mired := m, frame := j.req.frame }) } }

/-- What the context read takes of a context (R32). -/
def contextReadOf (i : Fin 4) (h : Head) (x : Context) : ContextRead :=
  { index := i, mired := x.mired, generation := x.generation, trim := x.settings.trims.get h }

/-- The one read of the active context (R32). The active index always names an initialised record (R73);
where it does not, no state the part reaches, nothing is read. -/
def cardContextRead (h : Head) (slot : Fin 8) (j : CardJob) (s : State) : State :=
  putCard h slot
    { j with next := .grade,
             context := ((s.it.contexts.get s.it.active).map (contextReadOf s.it.active h)).getD j.context }
    s

/-- The grade proper (R33.1). -/
def cardGrade (h : Head) (slot : Fin 8) (j : CardJob) (s : State) : State :=
  putCard h slot
    { j with next := .bankQuery, grade := formGrade s.cs s.ce.grading j.context j.req.gain } s

/-- The bank query (R33.2, R105), which makes the pending query frame absent (R123); a retirement that waited
for it is made at once, after the answer (R124). -/
def cardBankQuery (h : Head) (slot : Fin 8) (j : CardJob) (s : State) : State :=
  dropQuery (putCard h slot { j with next := .marks, bank := bankForFrame s.lbu.banks j.req.frame } s)

/-- The marks (R33.3, R93): the head's pending count is taken and becomes 0. -/
def cardMarks (h : Head) (slot : Fin 8) (j : CardJob) (s : State) : State :=
  rewrite [.it] s
    (putCard h slot { j with next := .podSnapshot, marks := s.it.marks.get h }
      { s with it := { s.it with marks := s.it.marks.set h 0 } })

/-- The pod snapshot (R107): present when the link is LINKED and holds a reading. -/
def podSnapshot (count : Nat) (m : Mlc) : Option PodSnapshot :=
  if m.link = .linked then
    m.reading.map
      (fun r => { mired := r.mired, lux := r.lux, age := min 255 (count - r.stamp), quit := r.quit,
                  dim := r.dim })
  else none

/-- The pod snapshot taken (R33.4). -/
def cardPodSnapshot (h : Head) (slot : Fin 8) (j : CardJob) (s : State) : State :=
  putCard h slot { j with next := .monitorEvents, pod := podSnapshot s.aiu.frameCount s.mlc } s

/-- The card's monitor events (R33.5, R55, R108). -/
def cardMonitorEvents (h : Head) (slot : Fin 8) (j : CardJob) (s : State) : State :=
  deliver (.card h j.tallies j.estimate) (putCard h slot { j with next := .monitorSnapshot } s)

/-- The monitor snapshot (R160). -/
def monitorSnapshot (m : Mon) : MonitorSnapshot :=
  { values := m.counters.mapIdx (fun _ c => c.value), frozen := m.frozen }

/-- The monitor snapshot taken (R33.5). -/
def cardMonitorSnapshot (h : Head) (slot : Fin 8) (j : CardJob) (s : State) : State :=
  putCard h slot { j with next := .writeResult, monitors := monitorSnapshot s.mon } s

/-! ## The result -/

/-- The estimate section (R52, 12.4). -/
def estimateFields (e : Estimate) : List Field :=
  [⟨0x21, 1, if e.reason = .none then 1 else 2⟩,
   ⟨0x22, 1, weakReasonCode e.reason⟩,
   ⟨0x23, 1, flag e.mired.isSome⟩,
   ⟨0x28, 2, e.accepted⟩,
   ⟨0x2A, 2, e.blueShare⟩,
   ⟨0x2C, 2, orZero e.mired⟩]

/-- The bank field: 0, 1 or 0xFF for NONE (12.4). -/
def bankField : Option BankIx → Nat
  | none => 0xFF
  | some b => b.toNat

/-- The context section (R32, R98, 12.4). -/
def contextSection (j : CardJob) : List Field :=
  [⟨0x2E, 1, j.context.index.val⟩,
   ⟨0x30, 4, j.context.generation.toNat⟩,
   ⟨0x34, 2, j.context.mired⟩,
   ⟨0x36, 2, j.grade.headMired⟩]

/-- The gains section, each gain signed 16-bit (R101, 12.4). -/
def gainFields (g : Grade) : List Field :=
  [⟨0x38, 2, unsignedOf 16 g.redGain⟩, ⟨0x3A, 2, unsignedOf 16 g.blueGain⟩]

/-- A row of the desaturated matrix, each coefficient signed 32-bit (12.4). -/
def rowFieldsAt (off : Nat) (r : Row3) : List Field :=
  [⟨off, 4, unsignedOf 32 r.c0⟩, ⟨off + 4, 4, unsignedOf 32 r.c1⟩, ⟨off + 8, 4, unsignedOf 32 r.c2⟩]

/-- The matrix section, row by row (R104, 12.4). -/
def matrixFields (m : Mat3) : List Field :=
  rowFieldsAt 0x40 m.r0 ++ rowFieldsAt 0x4C m.r1 ++ rowFieldsAt 0x58 m.r2

/-- The saturation, LUT bank and marks sections (R102, R105, R106, 12.4). -/
def tailFields (j : CardJob) : List Field :=
  [⟨0x3C, 2, j.grade.saturation⟩, ⟨0x2F, 1, bankField j.bank⟩, ⟨0x3E, 1, j.marks⟩]

/-- The pod section; an absent snapshot is written as 0 (R107, R177, 12.4). -/
def podFields (p : Option PodSnapshot) : List Field :=
  [⟨0x3F, 1, flag p.isSome + 2 * flag ((p.map PodSnapshot.quit).getD false)
      + 4 * flag ((p.map PodSnapshot.dim).getD false)⟩,
   ⟨0x64, 2, orZero (p.map PodSnapshot.mired)⟩,
   ⟨0x66, 2, orZero (p.map PodSnapshot.lux)⟩,
   ⟨0x68, 1, orZero (p.map PodSnapshot.age)⟩]

/-- The monitor section, and the two bytes written as 0 at every COMPLETED ending (R160, R177, 12.4). -/
def monitorFields (m : MonitorSnapshot) : List Field :=
  [⟨0x69, 1, flag m.frozen⟩,
   ⟨0x6A, 2, 0⟩,
   ⟨0x6C, 6, m.values.q0⟩,
   ⟨0x72, 6, m.values.q1⟩,
   ⟨0x78, 6, m.values.q2⟩,
   ⟨0x7E, 6, m.values.q3⟩]

/-- The result sections of a COMPLETED card (R109). They are written in the order of R109's table, each
section's fields by rising offset. R5 and R109 put all of them before the ending code and do not order them
among themselves: the order, seen when a write fails, is the model's (DESIGN CHOICE,
notes/assumptions/28.md). -/
def resultFields (j : CardJob) : List Field :=
  estimateFields j.estimate ++ contextSection j ++ gainFields j.grade ++ matrixFields j.grade.desaturated
    ++ tailFields j ++ podFields j.pod ++ monitorFields j.monitors

/-- The result sections written (R5, R109). -/
def cardWriteResult (h : Head) (slot : Fin 8) (j : CardJob) (s : State) : State :=
  match writeFields .cardWrite (placed (cardAddr s h slot) (resultFields j)) s with
  | (false, s) => s
  | (true, s) => putCard h slot { j with next := .writeEnding } s

/-- The ending code and the frame count at the ending written (R5). -/
def cardWriteEnding (h : Head) (slot : Fin 8) (j : CardJob) (s : State) : State :=
  match writeFields .cardWrite (endingFields s (cardAddr s h slot) .completed) s with
  | (false, s) => s
  | (true, s) => putCard h slot { j with next := .finish } s

/-- ENDED, and what follows it (R5, R33). -/
def cardFinish (h : Head) (slot : Fin 8) (j : CardJob) (s : State) : State :=
  match writeFields .cardWrite [endedField (cardAddr s h slot)] s with
  | (false, s) => s
  | (true, s) => afterEnded h .completed j.req.notify s

/-! ## The job -/

/-- One stage of the card job in hand, if it is the stage the job runs next. -/
def cardStage (s : State) (st : CardStage) : State :=
  match s.ce.engine with
  | .card h slot j =>
    if j.next = st then
      match st with
      | .calibration => cardCalibration h slot j s
      | .tilePass => cardTilePass h slot j s
      | .estimate => cardEstimate h slot j s
      | .contextRead => cardContextRead h slot j s
      | .grade => cardGrade h slot j s
      | .bankQuery => cardBankQuery h slot j s
      | .marks => cardMarks h slot j s
      | .podSnapshot => cardPodSnapshot h slot j s
      | .monitorEvents => cardMonitorEvents h slot j s
      | .monitorSnapshot => cardMonitorSnapshot h slot j s
      | .writeResult => cardWriteResult h slot j s
      | .writeEnding => cardWriteEnding h slot j s
      | .finish => cardFinish h slot j s
    else s
  | .free => s
  | .take _ _ _ => s
  | .directive _ => s
  | .bake _ => s

/-- The card job in hand run up to a stage (R33). -/
def runCard (upTo : CardStage) (s : State) : State :=
  (CardStage.all.filter (fun st => st.rank ≤ upTo.rank)).foldl cardStage s

/-- CARD_JOB (R33). -/
def execCardJob (upTo : CardStage) (s : State) : Host.Outcome State Fault Refusal := .next (runCard upTo s)

end Sys2Proof.Machine
end

