-- ==== Sys2Proof/Machine/Cadence.lean ====
section
/-! DEFINITION. SET_CADENCE (R133, R134) and the settle expiry (R132). -/

namespace Sys2Proof.Machine

/-- The settle timer under a new length (R134): unchanged by an equal length, reloaded while it runs,
stopped by a length of 0. -/
def resettled (c : Ct) (len : Nat) : Ct :=
  if len = c.settleLen then c
  else if c.settleRunning then
    if len = 0 then { c with settleLen := 0, settleRunning := false, settleCount := 0 }
    else { c with settleLen := len, settleCount := len }
  else { c with settleLen := len }

/-- The tracker timer under a new length (R134). -/
def retracked (c : Ct) (len : Nat) : Ct :=
  { c with trackerLen := len, trackerCount := reloadedCount c.trackerLen len c.trackerCount }

/-- The timers under a SET_CADENCE payload, the lengths clamped (R133, R134, 12.3): an expiry that an earlier
advance brought to the settle timer comes first, so that the update finds it stopped (R132, R134). -/
def cadenced (p : Nat) (c : Ct) : Ct :=
  { resettled (retracked (settleExpired c) (clamp 1 64 (field p 0x00 2))) (clamp 0 255 (field p 0x02 2)) with
    retriggerable := bit (field p 0x04 2) 0 }

/-- SET_CADENCE's effect (R133, R134). -/
def setCadenceEffect (p : Nat) (s : State) : ResultCode × State :=
  (.done, rewrite [.ct] s { s with ct := cadenced p s.ct })

/-- SET_CADENCE (R133). -/
def execSetCadence (upTo : DirStage) (s : State) : Host.Outcome State Fault Refusal :=
  .next (runDirective (some .setCadence) { prepare := noPreparation, effect := setCadenceEffect } upTo s)

/-- A due settle expiry taken: the running flag clears (R132). -/
def settleExpiry (s : State) : State := rewrite [.ct] s { s with ct := settleExpired s.ct }

/-- SETTLE_EXPIRY (R132). -/
def execSettleExpiry (s : State) : Host.Outcome State Fault Refusal := .next (settleExpiry s)

end Sys2Proof.Machine
end

