-- ==== Sys2Proof/WellFormed.lean ====
section
/-! DEFINITION. Well-formed commands: the CONTROL rows carry a whole 32-bit word, whose RUN and
ENGINE_RESET bits must be those the row stands for (R166, 12.1). Every other operand is well formed by its
type. -/

namespace Sys2Proof

/-- RUN, bit 0 of CONTROL (12.1). -/
def controlRun (word : BitVec 32) : Bool := word.getLsbD 0

/-- ENGINE_RESET, bit 1 of CONTROL (12.1). -/
def controlReset (word : BitVec 32) : Bool := word.getLsbD 1

/-- Whether the operands of a command are those its row can carry. -/
def Instr.wellFormed : Instr → Bool
  | .runSet w => controlRun w && !controlReset w
  | .runClear w => !controlRun w && !controlReset w
  | .engineReset w => controlReset w
  | .attentionMaskWrite w => !controlReset w
  | .frameSync | .retirement | .trackerStep | .pollExpiry | .settleExpiry | .requestSent
  | .replyWindowExpiry | .replyCharacter _ _ _ | .replyGapTimeout | .take _ | .cardJob _
  | .refusedKind _ | .setOrder _ | .setFilter _ | .loadCalibration _ | .setTracking _
  | .switchContext _ | .snap _ | .setGrade _ | .bakeLut _ | .abortBake _ | .setCadence _
  | .setPod _ | .setMonitor _ | .setFreeze _ | .clearMonitor _ | .bakeRow | .drainComplete
  | .areaWrite _ | .attnWrite _ | .registerWriteIgnored _ _ | .deviceReset => true

end Sys2Proof
end

