-- ==== Sys2Proof/Machine/Control.lean ====
section
/-! DEFINITION. The frame sync (R169), the run states (R167, R168, R37), the register writes (R166, R171) and
the two resets (R174). -/

namespace Sys2Proof.Machine

/-! ## The frame sync -/

/-- The events that earlier advances made due and that no command has taken yet, taken before the next
advance: a step ages its sources against the count of the advance that brought it (R130), so no later
advance overtakes it (notes/assumptions/3.md). -/
def takeDue (s : State) : State := settleExpiry (pollExpiry (trackerStep s))

/-- The count raised by 1; at 4,294,967,295 COUNT_END and its cause are set in the same update (R169). -/
def advancedAiu (a : Aiu) : Aiu :=
  if a.frameCount + 1 = maxFrame then
    { a with frameCount := a.frameCount + 1, countEnd := true, causes := withCause a.causes .countEnd }
  else { a with frameCount := a.frameCount + 1 }

/-- The advance of the frame count, with the AIU's and the timers' reactions (R130, R136, R169). -/
def countAdvance (s : State) : State :=
  let t := rewrite [.aiu] s { s with aiu := advancedAiu s.aiu }
  rewrite [.ct] t { t with ct := tick t.ct }

/-- A frame sync (R169): counted only in RUNNING and below saturation, where the blocks react to the advance
(R122, R124, R130); with a sweep and a grant (R7, R25), which a saturated count's sync brings too. -/
def frameSync (s : State) : State :=
  if s.aiu.run = .running then
    let t := takeDue s
    if t.aiu.run = .running then
      if t.aiu.frameCount < maxFrame then sweepAndGrant (retire (swap (countAdvance t))) else sweepAndGrant t
    else t
  else s

/-- FRAME_SYNC (R169). -/
def execFrameSync (s : State) : Host.Outcome State Fault Refusal := .next (frameSync s)

/-! ## Run states -/

/-- The state with the mask field of a CONTROL word taken (R166, R171). -/
def putMask (word : BitVec 32) (s : State) : State :=
  { s with aiu := { s.aiu with mask := controlMask word } }

/-- Whether the AREA check fails (R168). -/
def areaInvalid (area : BitVec 32) : Bool := area == 0 || area.toNat % 4096 != 0

/-- The entry into RUNNING: the status block and the bank headers rewritten, then the sweep and the grant
(R167, R113, R175, R7, R25). R167 puts both rewrites before the sweep and does not order them: that the status
block comes before the headers, and bank 0's header before bank 1's, is the model's (DESIGN CHOICE,
notes/assumptions/26.md). -/
def enterRunning (s : State) : State :=
  sweepAndGrant
    (writeHeader .i1 (writeHeader .i0
      (rewriteAll { s with aiu := { s.aiu with run := .running, areaInvalid := false } })))

/-- RUN written 1 (R167, R168). -/
def runSet (word : BitVec 32) (s : State) : State :=
  let t := putMask word s
  if t.aiu.run = .stopped then
    if areaInvalid t.aiu.area then { t with aiu := { t.aiu with areaInvalid := true } }
    else enterRunning t
  else t

/-- RUN_SET (R168). -/
def execRunSet (word : BitVec 32) (s : State) : Host.Outcome State Fault Refusal := .next (runSet word s)

/-- RUN written 0 (R167): to DRAINING, or at once to STOPPED when the engine is FREE. -/
def runClear (word : BitVec 32) (s : State) : State :=
  let t := putMask word s
  if t.aiu.run = .running then
    if t.ce.engine.isFree then { t with aiu := { t.aiu with run := .stopped } }
    else rewrite [.aiu] t { t with aiu := { t.aiu with run := .draining } }
  else t

/-- RUN_CLEAR (R167). -/
def execRunClear (word : BitVec 32) (s : State) : Host.Outcome State Fault Refusal :=
  .next (runClear word s)

/-- The engine idle in DRAINING: the run state goes to STOPPED (R37). -/
def drainComplete (s : State) : State :=
  if s.aiu.run = .draining ∧ s.ce.engine.isFree then
    { s with aiu := { s.aiu with run := .stopped } }
  else s

/-- DRAIN_COMPLETE (R37). -/
def execDrainComplete (s : State) : Host.Outcome State Fault Refusal := .next (drainComplete s)

/-! ## The other register writes -/

/-- ATTENTION_MASK_WRITE (R171): a write to CONTROL, whose mask field replaces the mask and whose RUN bit acts
as R167 states (R166, notes/assumptions/8.md). -/
def execAttentionMaskWrite (word : BitVec 32) (s : State) : Host.Outcome State Fault Refusal :=
  .next (if controlRun word then runSet word s else runClear word s)

/-- A write to AREA: only in STOPPED (R166). -/
def areaWrite (word : BitVec 32) (s : State) : State :=
  if s.aiu.run = .stopped then { s with aiu := { s.aiu with area := word } } else s

/-- AREA_WRITE (R166). -/
def execAreaWrite (word : BitVec 32) (s : State) : Host.Outcome State Fault Refusal :=
  .next (areaWrite word s)

/-- A write to ATTN: each cause written 1 is cleared, and the mirror is rewritten (R171). -/
def attnWrite (word : BitVec 32) (s : State) : State :=
  rewrite [.aiu] s { s with aiu := { s.aiu with causes := clearCauses s.aiu.causes word } }

/-- ATTN_WRITE (R171). -/
def execAttnWrite (word : BitVec 32) (s : State) : Host.Outcome State Fault Refusal :=
  .next (attnWrite word s)

/-- REGISTER_WRITE_IGNORED (R166): IDENT, STATE and FRAME take no write. -/
def execRegisterWriteIgnored (_ : ReadOnlyRegister) (_ : BitVec 32) (s : State) :
    Host.Outcome State Fault Refusal :=
  .next s

/-! ## The resets -/

/-- The AIU after an engine reset: AREA is kept, the mask is that of the write (R166, R174). -/
def engineResetAiu (word : BitVec 32) (a : Aiu) : Aiu :=
  { Aiu.reset with area := a.area, mask := controlMask word }

/-- The engine after an engine reset: order and settings are kept (R39, R56, R96). -/
def engineResetCe (c : Ce) : Ce :=
  { c with engine := .free, directiveClaim := false, lastEnding := none }

/-- The tracker after an engine reset: contexts and active index are kept (R73, R95). -/
def engineResetIt (t : It) : It :=
  { t with latest := { i0 := none, i1 := none }, snapRequest := false,
           marks := { i0 := 0, i1 := 0 }, lastStep := none }

/-- The timers after an engine reset: lengths and mode are kept (R137). -/
def engineResetCt (c : Ct) : Ct :=
  { c with trackerCount := c.trackerLen, pollCount := c.pollLen, settleRunning := false,
           settleCount := 0, trackerDue := false, pollDue := false }

/-- The meter link after an engine reset: enable, floor and pod class are kept, and an exchange in flight is
abandoned (R154). -/
def engineResetMlc (m : Mlc) : Mlc :=
  { abandoned m with link := if m.enable then .detect else .off, missCount := 0, reading := none,
                     lastMark := none, hold := false }

/-- The meter link after a device reset: an exchange in flight is abandoned (R154), and a character in progress
is finished, as in R151. -/
def deviceResetMlc (m : Mlc) : Mlc :=
  { Mlc.reset with finishing := (abandoned m).finishing, abandons := (abandoned m).abandons }

/-- An engine reset: one update across all blocks, with nothing written to shared memory (R174). The
calibration store but for its load buffer (R61), and the monitor block (R165), are kept. -/
def engineReset (word : BitVec 32) (s : State) : State :=
  { s with
    aiu := engineResetAiu word s.aiu,
    ciu := Ciu.reset,
    ce := engineResetCe s.ce,
    it := engineResetIt s.it,
    cs := { s.cs with loadBuffer := [] },
    lbu := engineResetLbu s.lbu,
    ct := engineResetCt s.ct,
    mlc := engineResetMlc s.mlc }

/-- ENGINE_RESET (R174). -/
def execEngineReset (word : BitVec 32) (s : State) : Host.Outcome State Fault Refusal :=
  .next (engineReset word s)

/-- A device reset: every block at its device-reset values, with nothing written to shared memory (R174).
What is outside the part (shared memory and its bus, the queue) and the model's own counts stay, and a
character in progress on the pod line is finished (R154). -/
def deviceReset (s : State) : State :=
  { State.reset with mlc := deviceResetMlc s.mlc, bus := s.bus, freeUses := s.freeUses,
                     pending := s.pending }

/-- DEVICE_RESET (R174). -/
def execDeviceReset (s : State) : Host.Outcome State Fault Refusal := .next (deviceReset s)

end Sys2Proof.Machine
end

