-- ==== Sys2Proof/Machine/MonitorDirectives.lean ====
section
/-! DEFINITION. SET_MONITOR (R162), SET_FREEZE (R161) and CLEAR_MONITOR (R163). -/

namespace Sys2Proof.Machine

/-- A counter cleared: value, wrap flag and edge memory (R162, R163). -/
def clearedCounter (c : Counter) : Counter :=
  { c with value := 0, wrapped := false, edgeMemory := false }

/-- The settings SET_MONITOR carries, absent when a code is not known (R162, 12.3). -/
def carriedCounter (p : Nat) : Option CounterSettings :=
  match monSourceOf (field p 0x01 1), headSelectOf (field p 0x05 1) with
  | some src, some sel =>
    some { source := src, level := field p 0x02 2, invert := bit (field p 0x04 1) 0,
           edge := bit (field p 0x04 1) 1, select := sel, enable := bit (field p 0x04 1) 2 }
  | none, _ => none
  | some _, none => none

/-- The state with one counter replaced. -/
def putCounter (i : Fin 4) (c : Counter) (s : State) : State :=
  { s with mon := { s.mon with counters := s.mon.counters.set i c } }

/-- SET_MONITOR's effect (R162). -/
def setMonitorEffect (p : Nat) (s : State) : ResultCode × State :=
  match quadIndex (field p 0x00 1), carriedCounter p with
  | some i, some st =>
    (.done,
      rewrite [.mon] s
        (putCounter i { value := 0, wrapped := false, edgeMemory := false, settings := st } s))
  | none, _ => (.refusedValue, s)
  | some _, none => (.refusedValue, s)

/-- SET_MONITOR (R162). -/
def execSetMonitor (upTo : DirStage) (s : State) : Host.Outcome State Fault Refusal :=
  .next (runDirective (some .setMonitor) { prepare := noPreparation, effect := setMonitorEffect } upTo s)

/-- SET_FREEZE's effect (R161). -/
def setFreezeEffect (p : Nat) (s : State) : ResultCode × State :=
  (.done, rewrite [.mon] s { s with mon := { s.mon with freezeOnCut := bit (field p 0x00 1) 0 } })

/-- SET_FREEZE (R161). -/
def execSetFreeze (upTo : DirStage) (s : State) : Host.Outcome State Fault Refusal :=
  .next (runDirective (some .setFreeze) { prepare := noPreparation, effect := setFreezeEffect } upTo s)

/-- CLEAR_MONITOR's effect (R163). -/
def clearMonitorEffect (_ : Nat) (s : State) : ResultCode × State :=
  (.done,
    rewrite [.mon] s
      { s with mon := { s.mon with
          counters := s.mon.counters.mapIdx (fun _ c => clearedCounter c), frozen := false } })

/-- CLEAR_MONITOR (R163). -/
def execClearMonitor (upTo : DirStage) (s : State) : Host.Outcome State Fault Refusal :=
  .next
    (runDirective (some .clearMonitor) { prepare := noPreparation, effect := clearMonitorEffect } upTo s)

end Sys2Proof.Machine
end

