-- ==== Sys2Proof/Machine/Dispatch.lean ====
section
/-! DEFINITION. One arm per command: its meaning, called by its full name. -/

namespace Sys2Proof.Machine

/-- What each command does to everything but the queue. -/
def exec (i : Instr) (s : State) : Host.Outcome State Fault Refusal :=
  match i with
  | .frameSync => Sys2Proof.Machine.execFrameSync s
  | .retirement => Sys2Proof.Machine.execRetirement s
  | .trackerStep => Sys2Proof.Machine.execTrackerStep s
  | .pollExpiry => Sys2Proof.Machine.execPollExpiry s
  | .settleExpiry => Sys2Proof.Machine.execSettleExpiry s
  | .requestSent => Sys2Proof.Machine.execRequestSent s
  | .replyWindowExpiry => Sys2Proof.Machine.execReplyWindowExpiry s
  | .replyCharacter data parity stop => Sys2Proof.Machine.execReplyCharacter data parity stop s
  | .replyGapTimeout => Sys2Proof.Machine.execReplyGapTimeout s
  | .take upTo => Sys2Proof.Machine.execTake upTo s
  | .cardJob upTo => Sys2Proof.Machine.execCardJob upTo s
  | .refusedKind upTo => Sys2Proof.Machine.execRefusedKind upTo s
  | .setOrder upTo => Sys2Proof.Machine.execSetOrder upTo s
  | .setFilter upTo => Sys2Proof.Machine.execSetFilter upTo s
  | .loadCalibration upTo => Sys2Proof.Machine.execLoadCalibration upTo s
  | .setTracking upTo => Sys2Proof.Machine.execSetTracking upTo s
  | .switchContext upTo => Sys2Proof.Machine.execSwitchContext upTo s
  | .snap upTo => Sys2Proof.Machine.execSnap upTo s
  | .setGrade upTo => Sys2Proof.Machine.execSetGrade upTo s
  | .bakeLut upTo => Sys2Proof.Machine.execBakeLut upTo s
  | .abortBake upTo => Sys2Proof.Machine.execAbortBake upTo s
  | .setCadence upTo => Sys2Proof.Machine.execSetCadence upTo s
  | .setPod upTo => Sys2Proof.Machine.execSetPod upTo s
  | .setMonitor upTo => Sys2Proof.Machine.execSetMonitor upTo s
  | .setFreeze upTo => Sys2Proof.Machine.execSetFreeze upTo s
  | .clearMonitor upTo => Sys2Proof.Machine.execClearMonitor upTo s
  | .bakeRow => Sys2Proof.Machine.execBakeRow s
  | .drainComplete => Sys2Proof.Machine.execDrainComplete s
  | .runSet word => Sys2Proof.Machine.execRunSet word s
  | .runClear word => Sys2Proof.Machine.execRunClear word s
  | .engineReset word => Sys2Proof.Machine.execEngineReset word s
  | .attentionMaskWrite word => Sys2Proof.Machine.execAttentionMaskWrite word s
  | .areaWrite word => Sys2Proof.Machine.execAreaWrite word s
  | .attnWrite word => Sys2Proof.Machine.execAttnWrite word s
  | .registerWriteIgnored register word => Sys2Proof.Machine.execRegisterWriteIgnored register word s
  | .deviceReset => Sys2Proof.Machine.execDeviceReset s

end Sys2Proof.Machine
end

