-- ==== Sys2Proof/Safety.lean ====
section
/-! DEFINITION. The terms in which claims about the part are stated: which bytes of shared memory the part
writes, when no access fails, what a sweep and a tile pass find in memory, and the laws that every step
keeps. -/

namespace Sys2Proof.Machine

/-! ## Shared memory -/

/-- The state with another bus. -/
def State.onBus (s : State) (b : Bus) : State := { s with bus := b }

/-- Every access to the work area succeeds: memory answers at all of its 0x16000 bytes (section 1.3) and no
failure is planned. -/
def Clear (s : State) : Prop := s.bus.failPlan = [] ∧ s.bus.answers (base s) 0x16000 = true

/-- One bus has become another by accesses that write only addresses of a set. -/
def Bus.Within (P : Nat → Prop) (b c : Bus) : Prop :=
  c.unbacked = b.unbacked ∧ (b.failPlan = [] → c.failPlan = []) ∧ (b.mem.wf → c.mem.wf)
    ∧ ∀ a, ¬ P a → c.mem.readByte a = b.mem.readByte a

/-- The `n` bytes at an address. -/
def Bytes (addr n : Nat) (a : Nat) : Prop := addr ≤ a ∧ a < addr + n

/-- The status block (12.2). -/
def StatusBytes (s : State) (a : Nat) : Prop := Bytes (base s) 0x80 a

/-- A bank's header (12.5). -/
def HeaderBytes (s : State) (b : BankIx) (a : Nat) : Prop :=
  Bytes (base s + Config.bankHeader b) 0x40 a

/-- The status block and both headers. -/
def FrontBytes (s : State) (a : Nat) : Prop := StatusBytes s a ∨ HeaderBytes s .i0 a ∨ HeaderBytes s .i1 a

/-- The fields of a card that the part writes: the state and the result group (12.4). -/
def CardBytes (s : State) (h : Head) (slot : Fin 8) (a : Nat) : Prop :=
  Bytes (cardAddr s h slot) 4 a ∨ Bytes (cardAddr s h slot + 0x20) 0x64 a

/-- The fields of a card that a refusal writes: the state, the ending code and the frame count (R4). -/
def RefusalBytes (s : State) (h : Head) (slot : Fin 8) (a : Nat) : Prop :=
  Bytes (cardAddr s h slot) 4 a ∨ Bytes (cardAddr s h slot + 0x20) 1 a ∨ Bytes (cardAddr s h slot + 0x24) 4 a

/-- The fields of the directive slot that the part writes: the state and the result code (12.3). -/
def SlotBytes (s : State) (a : Nat) : Prop := Bytes (slotAddr s) 4 a ∨ Bytes (slotAddr s + 6) 2 a

/-- The storage of a bank (R111). -/
def BankBytes (s : State) (b : BankIx) (a : Nat) : Prop := Bytes (base s + Config.lutBank b) 39304 a

/-- What the engine's falling free may write: the status block, and the header of a bank whose retire frame the
count has reached, since a retirement may have waited for the pending query (R124). -/
def ReleaseBytes (s : State) (a : Nat) : Prop :=
  StatusBytes s a
    ∨ ∃ i f, bankRetire (s.lbu.banks.get i) = some f ∧ f ≤ s.aiu.frameCount ∧ HeaderBytes s i a

/-- Every byte that the part ever writes. -/
def PartBytes (s : State) (a : Nat) : Prop :=
  StatusBytes s a ∨ SlotBytes s a ∨ (∃ h slot, CardBytes s h slot a) ∨ (∃ b, HeaderBytes s b a)
    ∨ ∃ b, BankBytes s b a

/-! ## What the part finds in memory -/

/-- The READY cards of a head's table, by rising slot, with their frame numbers (R8). -/
def readyCards (s : State) (h : Head) : List (Fin 8 × Nat) :=
  allSlots.filterMap fun k =>
    if s.bus.mem.readLE (cardAddr s h k) 4 = Config.cardReady then
      some (k, s.bus.mem.readLE (cardAddr s h k + 8) 4)
    else none

/-- The state of the directive slot. -/
def slotState (s : State) : Nat := s.bus.mem.readLE (slotAddr s) 4

/-- The candidate of a head after a sweep (R9). -/
def sweptCandidate (s : State) (h : Head) : Option (Fin 8) :=
  chooseCandidate s.aiu.frameCount (readyCards s h)

/-- The state a sweep leaves, but for the status block (R8, R9, R24). -/
def sweptState (s : State) : State :=
  { s with
    ciu := { s.ciu with candidate := { i0 := sweptCandidate s .i0, i1 := sweptCandidate s .i1 } },
    ce := { s.ce with directiveClaim := slotState s == Config.slotPosted } }

/-- The tile records of a list (R30). -/
def tilesAt (s : State) (addr n : Nat) : List Tile :=
  (List.range n).map fun i => tileRecord (s.bus.mem.readLE (addr + 16 * i) 16)

/-- The calibration point records of a list, from the 26 bytes of each that are read (R63). -/
def pointsAt (s : State) (addr n : Nat) : List CalPoint :=
  (List.range n).map fun i => calPointRecord (s.bus.mem.readLE (addr + 32 * i) 26)

/-- Every record of a calibration list can be read (R63): memory answers at its first 26 bytes, and its 32
bytes do not run past the top of the address space. -/
def PointsAnswer (s : State) (addr n : Nat) : Prop :=
  ∀ i, i < n → addr + 32 * i + 32 ≤ 2 ^ 32 ∧ s.bus.answers (addr + 32 * i) 26 = true

/-- The number that spans of bytes (offset and size) of a record spell, every other byte 0. -/
def spansAt (s : State) (addr : Nat) (ps : List (Nat × Nat)) : Nat :=
  (ps.map fun p => s.bus.mem.readLE (addr + p.1) p.2 * 256 ^ p.1).sum

/-- The checks of a point list (R64): the ranges, β rising and mired falling from each point to the next. -/
def PointsPass (ps : List CalPoint) : Prop :=
  (∀ p ∈ ps, p.beta ≤ 4096 ∧ 16 ≤ p.mired ∧ p.mired ≤ 16383 ∧ 1024 ≤ p.redGain ∧ p.redGain ≤ 16383
      ∧ 1024 ≤ p.blueGain ∧ p.blueGain ≤ 16383)
    ∧ ps.Pairwise (fun p q => p.beta < q.beta ∧ q.mired < p.mired)

/-- Each of `n` records of a size is answered by memory. -/
def ListAnswers (s : State) (addr size n : Nat) : Prop :=
  ∀ i, i < n → s.bus.answers (addr + size * i) size = true

/-- The row of the table for a directive of a kind; an unknown kind has the row REFUSED_KIND. -/
def directiveRow : Option DirKind → DirStage → Instr
  | none, u => .refusedKind u
  | some .setOrder, u => .setOrder u
  | some .setFilter, u => .setFilter u
  | some .loadCalibration, u => .loadCalibration u
  | some .setTracking, u => .setTracking u
  | some .switchContext, u => .switchContext u
  | some .snap, u => .snap u
  | some .setGrade, u => .setGrade u
  | some .bakeLut, u => .bakeLut u
  | some .abortBake, u => .abortBake u
  | some .setCadence, u => .setCadence u
  | some .setPod, u => .setPod u
  | some .setMonitor, u => .setMonitor u
  | some .setFreeze, u => .setFreeze u
  | some .clearMonitor, u => .clearMonitor u

/-- A directive of a kind is in hand, about to be carried out with a payload (R172.4). -/
def AtEffect (s : State) (k : DirKind) (p : Nat) (j : DirJob) : Prop :=
  s.ce.engine = .directive j ∧ j.next = .effect ∧ j.kind = some k ∧ j.payload = p ∧ j.result = none

/-- The directive job once its result is decided. -/
def decidedJob (j : DirJob) (r : ResultCode) : DirJob := { j with next := .result, result := some r }

/-- No tracker step, pod exchange or settle expiry of an earlier advance is still to be taken. -/
def NothingDue (s : State) : Prop :=
  s.ct.trackerDue = false ∧ s.ct.pollDue = false ∧ settleDue s.ct = false

/-- Whether a command is one of the two resets. -/
def IsReset (c : Instr) : Prop := c = .deviceReset ∨ ∃ w, c = .engineReset w

/-! ## Where an update leaves the part, but for shared memory -/

/-- The causes after one is set when a condition holds (R171). -/
def causesIf (p : Bool) (c : Cause) (causes : BitVec 9) : BitVec 9 :=
  if p then withCause causes c else causes

/-- The state with a cause set when a condition holds. -/
def causedState (p : Bool) (c : Cause) (s : State) : State :=
  { s with aiu := { s.aiu with causes := causesIf p c s.aiu.causes } }

/-- Whether an event makes some counter wrap (R158). -/
def wrapsAny (e : MonEvent) (m : Mon) : Bool :=
  (m.counters.mapIdx (wrapsOn m.frozen e)).toList.any id

/-- The state after an event handed to the counters (R157, R158). -/
def deliveredState (e : MonEvent) (s : State) : State :=
  causedState (wrapsAny e s.mon) .monWrap { s with mon := monAfter e s.mon }

/-- The counters after a CUT card passes intake (R161). -/
def cutMon (m : Mon) : Mon := { m with frozen := m.frozen || m.freezeOnCut }

/-- The state after the CUT actions of a card that has passed intake (R19). -/
def cutState (cut : Bool) (s : State) : State :=
  { s with ct := if cut then settleStarted s.ct else s.ct, mon := if cut then cutMon s.mon else s.mon }

/-- The state after the swap that is due, if one is (R122). -/
def swappedState (s : State) : State :=
  match dueSwap s.aiu.frameCount s.lbu.banks with
  | none => s
  | some (i, f) =>
    causedState true .bank { s with lbu := { s.lbu with banks := swappedBanks s.lbu.banks i f } }

/-- The state after the retirement that is to be made, if one is (R124). -/
def retiredState (s : State) : State := { s with lbu := retiredLbu s.aiu.frameCount s.lbu }

/-- The state after the engine has fallen free, before the sweep (R28, R123, R124). -/
def releasedState (ending : Option (JobEnding × JobKind)) (s : State) : State :=
  { s with
    ce := { s.ce with engine := .free, lastEnding := ending.or s.ce.lastEnding },
    lbu := queryAbsent s.aiu.frameCount s.lbu }

/-- The exchange a poll expiry opens in a link state that has none in flight (R143). -/
def openedExchange : LinkState → Option Exchange
  | .off => none
  | .detect => some { kind := .probe, phase := .sending }
  | .linked => some { kind := .read, phase := .sending }

/-- The latest estimates after a card's hand-over: a WEAK estimate hands nothing over (R31, R53, R54). -/
def handedOver (h : Head) (frame : Nat) (e : Estimate) (latest : Two (Option Latest)) : Two (Option Latest) :=
  match e.mired with
  | none => latest
  | some m => latest.set h (some { mired := m, frame := frame })

/-- The state after a miss (R141, R145, R146). -/
def missedState (s : State) : State :=
  deliveredState .podMiss
    (causedState (missLoses s.mlc && s.mlc.hold) .hold
      (causedState (missLoses s.mlc) .podLost { s with mlc := missedMlc s.mlc }))

/-- The state after a valid PROBE reply (R144). -/
def probedState (cs : List RxChar) (s : State) : State :=
  causedState true .podFound { s with mlc := probedMlc cs s.mlc }

/-- The state after a valid READ reply (R145, R147 to R150). -/
def readState (cs : List RxChar) (s : State) : State :=
  causedState (replyHold cs != s.mlc.hold) .hold
    { s with
      mlc := readMlc cs s.aiu.frameCount s.mlc,
      it := { s.it with marks := s.it.marks.map (addMarks (newMarks s.mlc.lastMark (charAt cs 4))) } }

/-- The state after a card has been ended, before the sweep (R5, R20, R28). -/
def endedState (h : Head) (e : Ending) (notify : Bool) (s : State) : State :=
  let t := causedState notify .card (releasedState (some (cardEnding e, .card)) s)
  if e = .late then deliveredState (.late h) t else t

/-- The last-taken frames after a take of a card's frame number (R17). -/
def takenFrames (h : Head) (frame : Nat) (s : State) : State :=
  putLastTaken h (some (raisedFrame (s.ciu.lastTaken.get h) frame)) s

/-- The claimant the arbiter grants to: the first in the order in force that claims (R25, R26). -/
def grantChoice (s : State) : Option Claimant := (ranking s.ce.order).find? (claims s)

/-- The state after the grant that the arbiter makes, if it makes one (R25). -/
def afterGrant (s : State) : State :=
  if s.ce.engine.isFree = true ∧ s.aiu.run = .running then
    match grantChoice s with
    | none => s
    | some c => grantedState c s
  else s

/-- The state after the sweep and the grant that are made in RUNNING (R7, R25). -/
def afterSweep (s : State) : State :=
  if s.aiu.run = .running then afterGrant (sweptState s) else afterGrant s

/-- `t` is `s` after a sweep and a grant, but for the status block. -/
def SweptTo (s t : State) : Prop :=
  ∃ b, s.bus.Within (StatusBytes s) b ∧ t = (afterSweep s).onBus b

/-! ## The status block as a mirror -/

/-- The status block shows an owner's fields as they stand (R175). -/
def Shows (s : State) (o : Owner) : Prop :=
  ∀ f ∈ ownerFields o s, s.bus.mem.readLE (base s + f.off) f.size = f.val % 256 ^ f.size

/-- A bank's header shows its record as it stands (R113). -/
def ShowsBank (s : State) (i : BankIx) : Prop :=
  ∀ f ∈ headerFields (s.lbu.banks.get i),
    s.bus.mem.readLE (base s + Config.bankHeader i + f.off) f.size = f.val % 256 ^ f.size

/-- The status block and the bank headers show the part as it stands. -/
def Mirrors (s : State) : Prop := (∀ o, Shows s o) ∧ ∀ i, ShowsBank s i

/-! ## Laws -/

/-- The frame count stays a 32-bit count, and COUNT_END says that it stands at its end (R169). -/
def CountLaw (s : State) : Prop :=
  s.aiu.frameCount ≤ maxFrame ∧ (s.aiu.countEnd = true ↔ s.aiu.frameCount = maxFrame)

/-- FAULTED has a fault kind and no other run state has one (R170); in FAULTED and in STOPPED the engine is
FREE (R38, R37). -/
def FaultLaw (s : State) : Prop :=
  (s.aiu.run = .faulted ↔ s.aiu.faultKind.isSome = true)
    ∧ (s.aiu.run = .faulted ∨ s.aiu.run = .stopped → s.ce.engine = .free)

/-- Whether a bank is LIVE. -/
def isLive : Bank → Bool
  | .live _ _ => true
  | .empty => false
  | .baking _ _ => false
  | .armed _ => false
  | .retiring _ _ _ => false

/-- At most one bank is LIVE, at most one is BAKING or ARMED, and a bank is RETIRING only beside a LIVE one
(R112); a bake's cursor is a row boundary below 4913 (R116). -/
def BankLaw (l : Lbu) : Prop :=
  ¬ (isLive l.banks.i0 = true ∧ isLive l.banks.i1 = true)
    ∧ ¬ (bakingOrArmed l.banks.i0 = true ∧ bakingOrArmed l.banks.i1 = true)
    ∧ (∀ i, isRetiring (l.banks.get i) = true → isLive (l.banks.get i.other) = true)
    ∧ ∀ i c k, l.banks.get i = .baking c k → c % 17 = 0 ∧ c < lutEntries

/-- The engine in BAKE holds a BAKING bank (R23), and a query is pending only for a take or a card job
(R123). -/
def EngineLaw (s : State) : Prop :=
  (∀ b, s.ce.engine = .bake b → isBaking (s.lbu.banks.get b) = true)
    ∧ (s.lbu.pendingQuery ≠ none → (∃ h k j, s.ce.engine = .take h k j) ∨ ∃ h k j, s.ce.engine = .card h k j)

/-- The ranges of the timers (R129). The running flag with a count of 0 is a settle expiry still to be
taken (R132). -/
def TimerLaw (c : Ct) : Prop :=
  1 ≤ c.trackerLen ∧ c.trackerLen ≤ 64 ∧ 1 ≤ c.trackerCount ∧ c.trackerCount ≤ c.trackerLen
    ∧ 1 ≤ c.pollLen ∧ c.pollLen ≤ 256 ∧ 1 ≤ c.pollCount ∧ c.pollCount ≤ c.pollLen
    ∧ c.settleLen ≤ 255 ∧ c.settleCount ≤ c.settleLen
    ∧ (c.settleRunning = false → c.settleCount = 0) ∧ (c.settleRunning = true → 1 ≤ c.settleLen)

/-- The link (R142 to R146, R149): a miss count of 0, 1 or 2 while LINKED and of 0 otherwise; hold, a reading
and a mark count only while LINKED; PROBE exchanges only in DETECT and READ exchanges only in LINKED; OFF
exactly while the enable is clear. The last clause is the model's (notes/assumptions/30.md): a character of an
abandoned request (R151, R154) is finished only with no exchange in flight. -/
def LinkLaw (m : Mlc) : Prop :=
  m.missCount ≤ 2
    ∧ (m.link ≠ .linked → m.missCount = 0 ∧ m.hold = false ∧ m.reading = none ∧ m.lastMark = none)
    ∧ (∀ x, m.exchange = some x → (x.kind = .probe ↔ m.link = .detect) ∧ (x.kind = .read ↔ m.link = .linked))
    ∧ (m.link = .off ↔ m.enable = false)
    ∧ (m.finishing ≠ none → m.exchange = none)

/-- A list that a load may install (R62, R64). -/
def GoodList (ps : List CalPoint) : Prop := 2 ≤ ps.length ∧ ps.length ≤ 12 ∧ PointsPass ps

/-- The store: a valid store holds a list that met the checks, and one that is not valid holds none (R60,
R61); a load about to commit has such a list in its buffer (R64). -/
def StoreLaw (s : State) : Prop :=
  (s.cs.valid = true → GoodList s.cs.points) ∧ (s.cs.valid = false → s.cs.points = [])
    ∧ ∀ j p, AtEffect s .loadCalibration p j → GoodList s.cs.loadBuffer

/-- While the store is valid, the applied mired of every initialised context lies in the calibrated range
(R66). -/
def TrackedLaw (s : State) : Prop :=
  s.cs.valid = true →
    ∀ i x, s.it.contexts.get i = some x → storeBottom s.cs ≤ x.mired ∧ x.mired ≤ storeTop s.cs

/-- The settings of a context lie in the ranges of R72. -/
def InTrackingRange (st : ContextSettings) : Prop :=
  st.holdBand ≤ 1023 ∧ 1 ≤ st.stepLimit ∧ st.stepLimit ≤ 1023 ∧ st.agreeSpread ≤ 4095
    ∧ 1 ≤ st.maxAge ∧ st.maxAge ≤ 255 ∧ ∀ h, -1024 ≤ st.trims.get h ∧ st.trims.get h ≤ 1023

/-- The applied mired and the settings of every initialised context lie in the ranges of R72, and the latest
estimates, which a step may take up, in that of a measured mired (R51, R80). -/
def ContextLaw (t : It) : Prop :=
  (∀ i x, t.contexts.get i = some x → x.mired ≤ 16383 ∧ InTrackingRange x.settings)
    ∧ ∀ h e, t.latest.get h = some e → e.mired ≤ 16383

/-- The active context index names an initialised record (R73). -/
def ActiveLaw (t : It) : Prop := (t.contexts.get t.active).isSome = true

/-- The pending mark counts lie in 0..255 (R92). -/
def MarkLaw (t : It) : Prop := t.marks.i0 ≤ 255 ∧ t.marks.i1 ≤ 255

/-- No latest estimate and no pod reading is of a frame above the frame count (R80, R147), nor is the card in
hand (R9, R14). -/
def AgeLaw (s : State) : Prop :=
  (∀ h e, s.it.latest.get h = some e → e.frame ≤ s.aiu.frameCount)
    ∧ (∀ r, s.mlc.reading = some r → r.stamp ≤ s.aiu.frameCount)
    ∧ (∀ h k j, s.ce.engine = .take h k j → j.req.frame ≤ s.aiu.frameCount)
    ∧ ∀ h k j, s.ce.engine = .card h k j → j.req.frame ≤ s.aiu.frameCount

/-- Every counter value is below 2^48 (R155). -/
def CounterLaw (m : Mon) : Prop := ∀ i, (m.counters.get i).value < 2 ^ 48

/-- The grade settings stay in the ranges of R96, the filter settings in those of R56. -/
def SettingsLaw (c : Ce) : Prop :=
  c.grading.gK < c.grading.gM ∧ c.grading.gM ≤ 480 ∧ c.grading.sMin ≤ 4096
    ∧ c.filter.lLo ≤ c.filter.lHi ∧ c.filter.lHi ≤ 65535 ∧ c.filter.clipLimit ≤ 256
    ∧ 1 ≤ c.filter.aMin ∧ c.filter.aMin ≤ 256

end Sys2Proof.Machine
end

