-- ==== Sys2Proof/Certificates/Slice0/Obligations.lean ====
section
/-! DEFINITION. The statements for the provers. A next state is written `X.onBus b`: X is the whole state, field
by field, but for shared memory, and `s.bus.Within P b` says that of shared memory only bytes of P changed, so
each such statement is also the command's frame. -/

open Sys2Proof Sys2Proof.Machine

/-! ## The queue -/

/-- A step takes the command at the front of the queue and runs it on the rest. That the part idles on an
empty queue is the model's choice (notes/assumptions/5.md). -/
def Obligations.StepTakesFrontCommand : Prop :=
  ∀ (c : Instr) (rest : List Instr) (s : State),
    step { s with pending := c :: rest } = exec c { s with pending := rest }
      ∧ step { s with pending := [] } = .next { s with pending := [] }

/-- Every command, from every state, has an effect: none stops the part, none touches the queue, and each free value,
that of R173 and that of R151, is drawn at most once (the counts are the model's, notes/assumptions/4.md,
notes/assumptions/30.md). -/
def Obligations.EveryCommandAnswers : Prop :=
  ∀ (c : Instr) (s : State), ∃ t, exec c s = .next t ∧ t.pending = s.pending
    ∧ (t.freeUses = s.freeUses ∨ t.freeUses = s.freeUses + 1)
    ∧ (t.mlc.abandons = s.mlc.abandons ∨ t.mlc.abandons = s.mlc.abandons + 1)

/-! ## Registers (R166, R167, R168, R171) -/

/-- Writes to AREA, to the mask field and to the read-only registers, and what each register reads, bit for bit
for CONTROL (R166, 12.1). The row for the mask field stands for a whole word written to CONTROL, so its RUN bit acts as
R167 states; that reading is the model's (notes/assumptions/8.md). -/
def Obligations.RegisterWritesAndReads : Prop :=
  (∀ (w : BitVec 32) (r : ReadOnlyRegister) (s : State),
    (s.aiu.run = .stopped → exec (.areaWrite w) s = .next { s with aiu := { s.aiu with area := w } })
      ∧ (s.aiu.run ≠ .stopped → exec (.areaWrite w) s = .next s)
      ∧ ((w.getLsbD 0 = true ∧ s.aiu.run ≠ .stopped ∨ w.getLsbD 0 = false ∧ s.aiu.run ≠ .running) →
        exec (.attentionMaskWrite w) s
          = .next { s with aiu := { s.aiu with mask := w.extractLsb' 16 9 } })
      ∧ (w.getLsbD 0 = true → exec (.attentionMaskWrite w) s = exec (.runSet w) s)
      ∧ (w.getLsbD 0 = false → exec (.attentionMaskWrite w) s = exec (.runClear w) s)
      ∧ exec (.registerWriteIgnored r w) s = .next s)
  ∧ ∀ a : Aiu,
    readRegister .ident a = 0x0DC25201#32 ∧ readRegister .area a = a.area
      ∧ (∀ i, (readRegister .control a).getLsbD i
          = if i = 0 then a.run == .running else if 16 ≤ i then a.mask.getLsbD (i - 16) else false)
      ∧ readRegister .attn a = a.causes.setWidth 32
      ∧ (readRegister .state a).toNat
          = runCode a.run + 4 * flag a.areaInvalid + 8 * flag a.countEnd + 256 * faultCode a.faultKind
      ∧ (a.frameCount ≤ maxFrame → (readRegister .frame a).toNat = a.frameCount)

/-- A write to ATTN clears each cause written 1, leaves the others, and changes nothing else but the status
block (R166, R171); the line is asserted while a set cause is unmasked (R171). -/
def Obligations.AttentionCausesAndLine : Prop :=
  (∀ (w : BitVec 32) (s : State), Clear s →
    ∃ causes b, s.bus.Within (StatusBytes s) b
      ∧ exec (.attnWrite w) s = .next (({ s with aiu := { s.aiu with causes := causes } } : State).onBus b)
      ∧ ∀ c, hasCause causes c = (hasCause s.aiu.causes c && !w.getLsbD (causeBit c)))
    ∧ ∀ a : Aiu, attnLine a = true ↔ ∃ c, hasCause a.causes c = true ∧ hasCause a.mask c = true

/-- RUN written 1 (R167, R168): only STOPPED heeds it; a base of 0 or not a multiple of 4096 sets
AREA_INVALID; else the part enters RUNNING, rewrites the status block and the headers, sweeps and grants. That the
word's mask field is taken in the same write is R166 as the model reads it (notes/assumptions/8.md). -/
def Obligations.RunSetChecksAndStarts : Prop :=
  ∀ (w : BitVec 32) (s : State),
    (s.aiu.run ≠ .stopped →
      exec (.runSet w) s = .next { s with aiu := { s.aiu with mask := controlMask w } })
    ∧ (s.aiu.run = .stopped → (s.aiu.area = 0 ∨ s.aiu.area.toNat % 4096 ≠ 0) →
      exec (.runSet w) s
        = .next { s with aiu := { s.aiu with mask := controlMask w, areaInvalid := true } })
    ∧ (s.aiu.run = .stopped → s.aiu.area ≠ 0 → s.aiu.area.toNat % 4096 = 0 → Clear s →
      ∃ b t, s.bus.Within (FrontBytes s) b ∧ exec (.runSet w) s = .next t
        ∧ SweptTo
            (({ s with aiu := { s.aiu with
                mask := controlMask w, run := .running, areaInvalid := false } } : State).onBus b) t)

/-- RUN written 0, and the engine idle in DRAINING (R167, R37). Three clauses rest on the model's reading: the mask
field of the word is taken (R166, notes/assumptions/8.md); the change to STOPPED writes nothing to the status block
(notes/assumptions/9.md); DRAIN_COMPLETE changes nothing where the engine is not idle in DRAINING
(notes/assumptions/6.md). -/
def Obligations.RunClearDrainsAndStops : Prop :=
  ∀ (w : BitVec 32) (s : State),
    (s.aiu.run ≠ .running →
      exec (.runClear w) s = .next { s with aiu := { s.aiu with mask := controlMask w } })
    ∧ (s.aiu.run = .running → s.ce.engine = .free →
      exec (.runClear w) s
        = .next { s with aiu := { s.aiu with mask := controlMask w, run := .stopped } })
    ∧ (s.aiu.run = .running → s.ce.engine ≠ .free → Clear s →
      ∃ b, s.bus.Within (StatusBytes s) b ∧ exec (.runClear w) s
        = .next (({ s with aiu := { s.aiu with
            mask := controlMask w, run := .draining } } : State).onBus b))
    ∧ (s.aiu.run = .draining → s.ce.engine = .free →
      exec .drainComplete s = .next { s with aiu := { s.aiu with run := .stopped } })
    ∧ ((s.aiu.run ≠ .draining ∨ s.ce.engine ≠ .free) → exec .drainComplete s = .next s)

/-! ## The two resets (R174) -/

/-- An engine reset, block by block (R22, R39, R61, R73, R95, R137, R154, R165, R174), under the mask of its write
(R166); what it makes of each bank; and that afterwards every frame number is given the LIVE bank if there is
one, else none (R125). A character in progress on the pod line is left to be finished (R154; SetPodDirective says
which). The mask and the expiries still to be taken are the model's reading (notes/assumptions/8.md,
notes/assumptions/3.md). -/
def Obligations.EngineResetLeaves : Prop :=
  (∀ (w : BitVec 32) (s : State),
    exec (.engineReset w) s = .next
      { s with
        aiu := { area := s.aiu.area, mask := controlMask w, run := .stopped, areaInvalid := false,
                 countEnd := false, faultKind := none, causes := 0, frameCount := 0 },
        ciu := { lastTaken := { i0 := none, i1 := none }, candidate := { i0 := none, i1 := none } },
        ce := { s.ce with engine := .free, directiveClaim := false, lastEnding := none },
        it := { s.it with latest := { i0 := none, i1 := none }, snapRequest := false,
                          marks := { i0 := 0, i1 := 0 }, lastStep := none },
        cs := { s.cs with loadBuffer := [] },
        lbu := { banks := { i0 := resetBank (isArmed s.lbu.banks.i1) s.lbu.banks.i0,
                            i1 := resetBank (isArmed s.lbu.banks.i0) s.lbu.banks.i1 },
                 pendingQuery := none },
        ct := { s.ct with trackerCount := s.ct.trackerLen, pollCount := s.ct.pollLen,
                          settleRunning := false, settleCount := 0, trackerDue := false, pollDue := false },
        mlc := { s.mlc with link := if s.mlc.enable then .detect else .off, missCount := 0,
                            reading := none, lastMark := none, hold := false, exchange := none,
                            finishing := (abandoned s.mlc).finishing,
                            abandons := (abandoned s.mlc).abandons } })
  ∧ (∀ (l : Lbu) (i : BankIx),
    let after := (engineResetLbu l).banks.get i
    match l.banks.get i with
    | .empty => after = .empty
    | .baking _ _ => after = .empty
    | .armed _ => after = .live 0 true
    | .live _ p => after = if isArmed (l.banks.get i.other) then .empty else .live 0 p
    | .retiring _ _ _ => after = .empty)
  ∧ ∀ (l : Lbu) (q : Nat), BankLaw l →
    (∀ i, isLive ((engineResetLbu l).banks.get i) = true →
      bankForFrame (engineResetLbu l).banks q = some i)
    ∧ ((∀ i, isLive ((engineResetLbu l).banks.get i) = false) →
      bankForFrame (engineResetLbu l).banks q = none)

/-- A device reset leaves every block at its device-reset values (R22, R26, R56, R61, R73, R95, R96, R126, R137, R154,
R165, R174), with a character in progress on the pod line left to be finished (R154; SetPodDirective says which). That
shared memory, the queue and the model's own counts stay, and that no expiry is left to be taken, is the model's
(notes/assumptions/5.md, notes/assumptions/3.md). -/
def Obligations.DeviceResetValues : Prop :=
  ∀ s : State,
    exec .deviceReset s = .next
      { s with
        aiu := { area := 0, mask := 0x1FF#9, run := .stopped, areaInvalid := false, countEnd := false,
                 faultKind := none, causes := 0, frameCount := 0 },
        ciu := { lastTaken := { i0 := none, i1 := none }, candidate := { i0 := none, i1 := none } },
        ce := { engine := .free, order := 0, directiveClaim := false, lastEnding := none,
                filter := { pairA := { enable := true, value := 0, mask := 0 },
                            pairB := { enable := false, value := 0, mask := 0 },
                            lLo := 256, lHi := 60000, clipLimit := 16, aMin := 8 },
                grading := { gK := 180, gM := 420, sMin := 1638 } },
        it := { contexts :=
                  { q0 := some { mired := 3200, generation := 0, settings :=
                      { policy := .coolBias, holdBand := 32, stepLimit := 8, agreeSpread := 800,
                        sources := { h0 := true, h1 := true, pod := true }, maxAge := 8,
                        trims := { i0 := 0, i1 := 0 } } },
                    q1 := none, q2 := none, q3 := none },
                active := 0, latest := { i0 := none, i1 := none }, snapRequest := false,
                marks := { i0 := 0, i1 := 0 }, lastStep := none },
        cs := { valid := false, points := [], loadBuffer := [] },
        lbu := { banks := { i0 := .empty, i1 := .empty }, pendingQuery := none },
        ct := { trackerLen := 2, trackerCount := 2, pollLen := 4, pollCount := 4, settleLen := 12,
                retriggerable := true, settleRunning := false, settleCount := 0, trackerDue := false,
                pollDue := false },
        mlc := { link := .off, enable := false, luxFloor := 16, missCount := 0, podClass := none,
                 reading := none, lastMark := none, hold := false, exchange := none,
                 finishing := (abandoned s.mlc).finishing, abandons := (abandoned s.mlc).abandons },
        mon := { counters := Quad.const
                   { value := 0, wrapped := false, edgeMemory := false, settings :=
                       { source := .off, level := 0, invert := false, edge := false, select := .both,
                         enable := false } },
                 frozen := false, freezeOnCut := false } }

/-- The laws of Safety.lean hold at the state after reset. That memory is then canonical and that no character of an
abandoned request is being finished are the model's (notes/assumptions/1.md, notes/assumptions/30.md). -/
def Obligations.LawsHoldAtReset : Prop :=
  State.reset.bus.mem.wf ∧ CountLaw State.reset ∧ FaultLaw State.reset ∧ BankLaw State.reset.lbu
    ∧ EngineLaw State.reset ∧ TimerLaw State.reset.ct ∧ LinkLaw State.reset.mlc ∧ StoreLaw State.reset
    ∧ TrackedLaw State.reset ∧ ActiveLaw State.reset.it ∧ ContextLaw State.reset.it ∧ MarkLaw State.reset.it ∧ AgeLaw State.reset
    ∧ CounterLaw State.reset.mon ∧ SettingsLaw State.reset.ce

/-! ## The frame sync (R169, R130, R132, R122, R124, R7, R25) -/

/-- A frame sync outside RUNNING changes nothing. In RUNNING below saturation it advances: the count rises by 1,
COUNT_END and its cause are set at 4,294,967,295, the timers count and reload, a due swap and a due retirement are
made, and a sweep and a grant follow; at the saturated count it brings the sweep and the grant alone (R169, R130, R132,
R122, R124, R7, R25). That no event of an earlier advance is still to be taken is the model's way of saying so
(notes/assumptions/3.md). -/
def Obligations.FrameSyncAdvances : Prop :=
  ∀ s : State,
    (s.aiu.run ≠ .running → exec .frameSync s = .next s)
    ∧ (s.aiu.run = .running → maxFrame ≤ s.aiu.frameCount → NothingDue s → Clear s →
      ∃ t, exec .frameSync s = .next t ∧ SweptTo s t)
    ∧ (s.aiu.run = .running → s.aiu.frameCount < maxFrame → NothingDue s → Clear s →
      ∃ b t, s.bus.Within (FrontBytes s) b ∧ exec .frameSync s = .next t
        ∧ SweptTo
            ((retiredState (swappedState
              { s with
                aiu := { s.aiu with
                  frameCount := s.aiu.frameCount + 1,
                  countEnd := s.aiu.countEnd || decide (s.aiu.frameCount + 1 = maxFrame),
                  causes := causesIf (decide (s.aiu.frameCount + 1 = maxFrame)) .countEnd s.aiu.causes },
                ct := { s.ct with
                  trackerCount := if s.ct.trackerCount ≤ 1 then s.ct.trackerLen else s.ct.trackerCount - 1,
                  trackerDue := decide (s.ct.trackerCount ≤ 1),
                  pollCount := if s.ct.pollCount ≤ 1 then s.ct.pollLen else s.ct.pollCount - 1,
                  pollDue := decide (s.ct.pollCount ≤ 1),
                  settleCount := if s.ct.settleRunning then s.ct.settleCount - 1 else s.ct.settleCount } })).onBus
              b) t)

/-- A frame sync takes the events that earlier advances made due before it advances, in a fixed order. This is
the model's choice (notes/assumptions/3.md). -/
def Obligations.FrameSyncTakesOverdueFirst : Prop :=
  ∀ s t1 t2 t3 : State, s.aiu.run = .running →
    exec .trackerStep s = .next t1 → exec .pollExpiry t1 = .next t2 → exec .settleExpiry t2 = .next t3 →
    exec .frameSync s = exec .frameSync t3

/-- The candidate of a sweep: the READY card with the smallest frame number at or below the frame count, the
lower slot on a tie; none when there is no such card (R9 to R11). -/
def Obligations.CandidateIsSmallestEligible : Prop :=
  ∀ (count : Nat) (ready : List (Fin 8 × Nat)), ready.Pairwise (fun c d => c.1 < d.1) →
    (chooseCandidate count ready = none ↔ ∀ c ∈ ready, count < c.2)
      ∧ ∀ k, chooseCandidate count ready = some k →
          ∃ f, (k, f) ∈ ready ∧ f ≤ count
            ∧ ∀ c ∈ ready, c.2 ≤ count → f < c.2 ∨ (f = c.2 ∧ k ≤ c.1)

/-! ## The bank of a frame, the swap and the retirement (R122 to R124) -/

/-- The records after a swap (R122), and that no swap changes the bank in force for a frame number that a LIVE
bank covered before it, or that no LIVE bank could cover (R123). -/
def Obligations.SwapKeepsTheBankOfAFrame : Prop :=
  ∀ (l : Lbu) (i : BankIx) (f q : Nat), BankLaw l → l.banks.get i = .armed f →
    (swappedBanks l.banks i f).get i = .live f (isLive (l.banks.get i.other))
      ∧ (∀ st p, l.banks.get i.other = .live st p →
          (swappedBanks l.banks i f).get i.other = .retiring st p (f + 8))
      ∧ (isLive (l.banks.get i.other) = false →
          (swappedBanks l.banks i f).get i.other = l.banks.get i.other)
      ∧ ((∀ st p, l.banks.get i.other = .live st p → st ≤ q ∨ p = true) →
          bankForFrame (swappedBanks l.banks i f) q = bankForFrame l.banks q)

/-- The retirement (R124): a RETIRING bank whose retire frame the count has reached becomes EMPTY, unless a query is
pending below the LIVE bank's start frame; otherwise nothing changes. The first clause says it of the update that the
frame sync, the bank query and the end of a job make at once, the others of the row RETIREMENT. That the row is a
command of its own, which acts in every run state on a retirement that stands due, is the model's reading
(notes/assumptions/11.md), and that it otherwise changes nothing its choice (notes/assumptions/6.md). -/
def Obligations.RetirementWaitsForTheQuery : Prop :=
  (∀ (l : Lbu) (count : Nat) (i : BankIx) (st r start : Nat) (p pl : Bool),
    l.banks.get i = .retiring st p r → l.banks.get i.other = .live start pl →
    ((r ≤ count ∧ ∀ q, l.pendingQuery = some q → start ≤ q) →
      retiredLbu count l = { l with banks := l.banks.set i .empty })
    ∧ ((count < r ∨ ∃ q, l.pendingQuery = some q ∧ q < start) → retiredLbu count l = l)
    ∧ (r ≤ count → queryAbsent count l = { banks := l.banks.set i .empty, pendingQuery := none })
    ∧ (count < r → queryAbsent count l = { l with pendingQuery := none }))
  ∧ (∀ (l : Lbu) (count : Nat), (∀ i, isRetiring (l.banks.get i) = false) →
    retiredLbu count l = l ∧ queryAbsent count l = { l with pendingQuery := none })
  ∧ (∀ (s : State) (i : BankIx) (st r start : Nat) (p pl : Bool), Clear s →
    s.lbu.banks.get i = .retiring st p r → s.lbu.banks.get i.other = .live start pl →
    ((r ≤ s.aiu.frameCount ∧ ∀ q, s.lbu.pendingQuery = some q → start ≤ q) →
      ∃ b, s.bus.Within (HeaderBytes s i) b ∧ exec .retirement s = .next ((putBank i .empty s).onBus b))
    ∧ ((s.aiu.frameCount < r ∨ ∃ q, s.lbu.pendingQuery = some q ∧ q < start) →
      exec .retirement s = .next s))
  ∧ ∀ s : State, (∀ i, isRetiring (s.lbu.banks.get i) = false) → exec .retirement s = .next s

/-! ## The tracker (R83 to R91) -/

/-- TRACKER_STEP: at a due expiry in RUNNING one step is taken in the active context, its record kept and its
event handed to the monitors (R83, R90, R91). The due flag is the model's (notes/assumptions/3.md), and that
TRACKER_STEP changes nothing where no expiry is due or the part is not RUNNING is the model's choice
(notes/assumptions/6.md, notes/assumptions/3.md). -/
def Obligations.TrackerStepTaken : Prop :=
  ∀ (s : State) (x : Context),
    (s.ct.trackerDue = true → s.aiu.run = .running → s.it.contexts.get s.it.active = some x → Clear s →
      ∃ b, s.bus.Within (StatusBytes s) b ∧ exec .trackerStep s = .next
        ((deliveredState (stepEvent (decideStep x s))
          (steppedState x (decideStep x s) { s with ct := { s.ct with trackerDue := false } })).onBus b))
    ∧ ((s.ct.trackerDue = false ∨ s.aiu.run ≠ .running) → exec .trackerStep s = .next s)

/-- How a step ends (R84, R85, R88, R89), by pod hold, by the sources that count, by the snap and by the distance of
the target from the applied mired; that only a snap moves by more than the step S and only a snap clears the
snap request; and the record it leaves. -/
def Obligations.StepOutcomes : Prop :=
  ∀ (x : Context) (s : State),
    let vs := sourceValues (sourcesAt x.settings s)
    let d := decideStep x s
    let t := targetOf s.cs x.settings vs
    let gap : Int := (t : Int) - x.mired
    (s.mlc.hold = true →
      d = { outcome := .podHold, mired := x.mired, target := none, spread := none,
            counted := SourceSet.none, slewLimited := false })
    ∧ (s.mlc.hold = false → vs = [] →
      d = { outcome := .noSource, mired := x.mired, target := none, spread := none,
            counted := SourceSet.none, slewLimited := false })
    ∧ (s.mlc.hold = false → vs ≠ [] → (s.ct.settleRunning = true ∨ s.it.snapRequest = true) →
      d.outcome = .snapped ∧ d.mired = t ∧ d.slewLimited = false)
    ∧ (s.mlc.hold = false → vs ≠ [] → s.ct.settleRunning = false → s.it.snapRequest = false →
      (-(x.settings.holdBand : Int) ≤ gap ∧ gap ≤ x.settings.holdBand →
        d.outcome = .held ∧ d.mired = x.mired ∧ d.slewLimited = false)
      ∧ ((x.settings.holdBand : Int) < gap →
        d.outcome = .moved ∧ (d.mired : Int) = x.mired + min (x.settings.stepLimit : Int) gap
          ∧ (d.slewLimited = true ↔ (x.settings.stepLimit + x.settings.holdBand : Int) < gap))
      ∧ (gap < -(x.settings.holdBand : Int) →
        d.outcome = .moved ∧ (d.mired : Int) = x.mired - min (x.settings.stepLimit : Int) (-gap)
          ∧ (d.slewLimited = true ↔ (x.settings.stepLimit + x.settings.holdBand : Int) < -gap)))
    ∧ (s.mlc.hold = false → vs ≠ [] →
      d.target = some t ∧ d.spread = some (spreadOf vs) ∧ d.counted = countedSet (sourcesAt x.settings s))
    ∧ (d.outcome ≠ .snapped →
      x.mired ≤ d.mired + x.settings.stepLimit ∧ d.mired ≤ x.mired + x.settings.stepLimit)
    ∧ (steppedState x d s).it.snapRequest = (if d.outcome = .snapped then false else s.it.snapRequest)
    ∧ (steppedState x d s).it.lastStep
        = some { frameCount := s.aiu.frameCount, context := s.it.active, outcome := d.outcome,
                 target := d.target, spread := d.spread, counted := d.counted }

/-- Which sources count and what they contribute (R81, R82): at a step, head 0's and head 1's latest estimates and the
pod's reading, each under its own flag of the context's source set, the context's maximum age and the frame count;
their values and the set of those that count; and the target they form (R86, R87). -/
def Obligations.SourcesAndTarget : Prop :=
  (∀ (st : ContextSettings) (s : State),
    let x := sourcesAt st s
    x.h0 = headSource st.sources.h0 st.maxAge s.aiu.frameCount s.it.latest.i0
      ∧ x.h1 = headSource st.sources.h1 st.maxAge s.aiu.frameCount s.it.latest.i1
      ∧ x.pod = podSource st.sources.pod st.maxAge s.aiu.frameCount s.mlc
      ∧ countedSet x = { h0 := x.h0.isSome, h1 := x.h1.isSome, pod := x.pod.isSome }
      ∧ sourceValues x = x.h0.toList ++ x.h1.toList ++ x.pod.toList)
  ∧ (∀ (inSet : Bool) (maxAge count : Nat) (l : Option Latest) (v : Nat),
    headSource inSet maxAge count l = some v
      ↔ ∃ e, l = some e ∧ inSet = true ∧ count - e.frame ≤ maxAge ∧ v = e.mired)
  ∧ (∀ (inSet : Bool) (maxAge count : Nat) (m : Mlc) (v : Nat),
    podSource inSet maxAge count m = some v
      ↔ ∃ r, m.reading = some r ∧ inSet = true ∧ m.link = .linked ∧ r.quit = false ∧ r.dim = false
          ∧ m.luxFloor ≤ r.lux ∧ count - r.stamp ≤ maxAge ∧ v = min r.mired 16383)
  ∧ ∀ (c : Cs) (st : ContextSettings) (vs : List Nat), vs ≠ [] →
    (smallest vs ∈ vs ∧ largest vs ∈ vs ∧ ∀ v ∈ vs, smallest vs ≤ v ∧ v ≤ largest vs)
    ∧ policyTarget st vs
        = (match st.policy with
          | .coolBias => smallest vs
          | .warmBias => largest vs
          | .agree =>
            if largest vs - smallest vs < st.agreeSpread then vs.sum / vs.length else smallest vs)
    ∧ (c.valid = false → targetOf c st vs = policyTarget st vs)
    ∧ (c.valid = true → storeBottom c ≤ storeTop c →
        targetOf c st vs = max (storeBottom c) (min (storeTop c) (policyTarget st vs)))

/-- A step that is not a snap changes the applied mired by at most the step S (R89); the generation rises by 1
exactly when the applied mired changes (R90); no other context changes (R83). This holds whatever accesses
fail. -/
def Obligations.StepChangesAtMostS : Prop :=
  ∀ (s t : State) (x : Context), s.it.contexts.get s.it.active = some x → exec .trackerStep s = .next t →
    ∃ y, t.it.contexts.get s.it.active = some y
      ∧ (s.ct.settleRunning = false → s.it.snapRequest = false →
          x.mired ≤ y.mired + x.settings.stepLimit ∧ y.mired ≤ x.mired + x.settings.stepLimit)
      ∧ y.generation = (if y.mired = x.mired then x.generation else x.generation + 1)
      ∧ y.settings = x.settings
      ∧ ∀ i, i ≠ s.it.active → t.it.contexts.get i = s.it.contexts.get i

/-! ## Timers and the pod link (R132, R138 to R149) -/

/-- POLL_EXPIRY and SETTLE_EXPIRY at a due expiry (R143, R132), nothing without one; and the start of the settle
timer at a cut (R131), which finds the timer stopped once an advance has brought its count to 0. That such an expiry
waits for its own command is the model's (notes/assumptions/3.md), as is that nothing is done without one
(notes/assumptions/6.md, notes/assumptions/3.md), and that a request that begins leaves no character of an abandoned one to be finished (notes/assumptions/30.md). -/
def Obligations.TimerExpiries : Prop :=
  (∀ s : State, Clear s →
    (s.ct.pollDue = true → s.aiu.run = .running →
      ∃ b, s.bus.Within (StatusBytes s) b ∧ exec .pollExpiry s = .next
        (({ s with
            ct := { s.ct with pollDue := false },
            mlc := { s.mlc with
              exchange := s.mlc.exchange.or (openedExchange s.mlc.link),
              finishing := if s.mlc.exchange = none ∧ s.mlc.link ≠ .off then none
                           else s.mlc.finishing } } : State).onBus b))
    ∧ ((s.ct.pollDue = false ∨ s.aiu.run ≠ .running) → exec .pollExpiry s = .next s)
    ∧ (s.ct.settleRunning = true → s.ct.settleCount = 0 →
      ∃ b, s.bus.Within (StatusBytes s) b ∧ exec .settleExpiry s
        = .next (({ s with ct := { s.ct with settleRunning := false } } : State).onBus b))
    ∧ ((s.ct.settleRunning = false ∨ s.ct.settleCount ≠ 0) → exec .settleExpiry s = .next s))
  ∧ ∀ c : Ct,
    (c.settleRunning = false → c.settleLen = 0 → settleStarted c = c)
    ∧ ((c.settleRunning = false ∨ c.settleCount = 0) → 1 ≤ c.settleLen →
      settleStarted c = { c with settleRunning := true, settleCount := c.settleLen })
    ∧ (c.settleRunning = true → 1 ≤ c.settleCount → c.retriggerable = true →
      settleStarted c = { c with settleCount := c.settleLen })
    ∧ (c.settleRunning = true → 1 ≤ c.settleCount → c.retriggerable = false → settleStarted c = c)

/-- The exchange up to its end (R138, R140): the line is driven while a request is sent, or one character of an
abandoned one is finished (R151), and only then, with each character of a request (R139) as a start bit, the data bits
least significant first, the odd parity and a stop bit; the request's end opens the window; a character is taken in
while awaiting or receiving, short of the reply length, and discarded otherwise; the window and the gap run out only
where they are running. That REPLY_WINDOW_EXPIRY and REPLY_GAP_TIMEOUT change nothing in any other phase is the model's
choice (notes/assumptions/6.md), and so is that REQUEST_SENT then ends the character being finished
(notes/assumptions/30.md); the start bit's level is its reading (notes/assumptions/20.md). -/
def Obligations.ReplyIsCollected : Prop :=
  (∀ m : Mlc,
    (∀ k, m.exchange = some ⟨k, .sending⟩ →
      drivenBits m = some ((match k with
        | .probe => [0x5A#8, 0x01#8, 0x00#8, 0xFF#8]
        | .read => [0x5A#8, 0x02#8, 0x00#8, 0xFE#8]).flatMap lineBits))
    ∧ ((∀ k, m.exchange ≠ some ⟨k, .sending⟩) →
      (m.finishing = none → drivenBits m = none)
        ∧ ∀ c, m.finishing = some c → drivenBits m = some (lineBits c)))
  ∧ (∀ data : BitVec 8, ∃ parity,
    lineBits data
        = [false, data.getLsbD 0, data.getLsbD 1, data.getLsbD 2, data.getLsbD 3, data.getLsbD 4,
            data.getLsbD 5, data.getLsbD 6, data.getLsbD 7, parity, true]
      ∧ (((lineBits data).drop 1).take 9).count true % 2 = 1)
  ∧ (∀ (data : BitVec 8) (parity stop : Bool),
    (rxChar data parity stop).data = data
      ∧ ((rxChar data parity stop).good = true
        ↔ (((List.range 8).map data.getLsbD).count true + if parity = true then 1 else 0) % 2 = 1
            ∧ stop = true))
  ∧ ∀ (data : BitVec 8) (parity stop : Bool) (k : ExchangeKind) (cs : List RxChar) (s : State),
    (s.mlc.exchange = some ⟨k, .sending⟩ →
      exec .requestSent s = .next { s with mlc := { s.mlc with exchange := some ⟨k, .awaiting⟩ } })
    ∧ ((∀ k', s.mlc.exchange ≠ some ⟨k', .sending⟩) →
      exec .requestSent s = .next { s with mlc := { s.mlc with finishing := none } })
    ∧ ((s.mlc.exchange = none ∨ s.mlc.exchange = some ⟨k, .sending⟩) →
      exec (.replyCharacter data parity stop) s = .next s ∧ exec .replyWindowExpiry s = .next s
        ∧ exec .replyGapTimeout s = .next s)
    ∧ (s.mlc.exchange = some ⟨k, .awaiting⟩ →
      exec (.replyCharacter data parity stop) s
        = .next { s with mlc := { s.mlc with
            exchange := some ⟨k, .receiving [rxChar data parity stop]⟩ } }
        ∧ exec .replyGapTimeout s = .next s)
    ∧ (s.mlc.exchange = some ⟨k, .receiving cs⟩ →
      exec .replyWindowExpiry s = .next s
      ∧ (cs.length + 1 < replyLength k →
        exec (.replyCharacter data parity stop) s
          = .next { s with mlc := { s.mlc with
              exchange := some ⟨k, .receiving (cs ++ [rxChar data parity stop])⟩ } }))

/-- The end of an exchange (R140, R141, R144 to R149): when a reply is valid (R139, R141); by its last character the
reply is judged valid or a miss; by the window or by a gap it is a miss. -/
def Obligations.ReplyIsJudged : Prop :=
  (∀ (k : ExchangeKind) (cs : List RxChar),
    replyValid k cs = true ↔
      cs.length = (match k with | .probe => 6 | .read => 11)
      ∧ (∀ c ∈ cs, c.good = true)
      ∧ charAt cs 0 = 0x5A
      ∧ charAt cs 1 = (match k with | .probe => 0x81 | .read => 0x82)
      ∧ charAt cs 2 = (match k with | .probe => 2 | .read => 7)
      ∧ ((cs.drop 1).map fun c => c.data.toNat).sum % 256 = 0
      ∧ (k = .probe → charAt cs 4 = 1))
  ∧ (∀ (cs : List RxChar) (i : Nat),
    (∀ c, cs[i]? = some c → charAt cs i = c.data.toNat) ∧ (cs.length ≤ i → charAt cs i = 0))
  ∧ ∀ (data : BitVec 8) (parity stop : Bool) (k : ExchangeKind) (cs : List RxChar) (s : State), Clear s →
    (s.mlc.exchange = some ⟨k, .receiving cs⟩ → cs.length + 1 = replyLength k →
      ∃ b, s.bus.Within (StatusBytes s) b ∧ exec (.replyCharacter data parity stop) s = .next
        ((if replyValid k (cs ++ [rxChar data parity stop]) then
            (match k with
              | .probe => probedState (cs ++ [rxChar data parity stop]) s
              | .read => readState (cs ++ [rxChar data parity stop]) s)
          else missedState s).onBus b))
    ∧ (s.mlc.exchange = some ⟨k, .awaiting⟩ →
      ∃ b, s.bus.Within (StatusBytes s) b ∧ exec .replyWindowExpiry s = .next ((missedState s).onBus b))
    ∧ (s.mlc.exchange = some ⟨k, .receiving cs⟩ → cs.length < replyLength k →
      ∃ b, s.bus.Within (StatusBytes s) b ∧ exec .replyGapTimeout s = .next ((missedState s).onBus b))

/-- What each end of an exchange makes of the link (R144 to R149): a miss counts, the third loses the link and
everything held from the pod but its class; a valid PROBE finds the pod and holds no reading and no mark count
of it yet; a valid READ takes the hold flag and the mark count, and a reading only under a new sequence; each
ends the exchange. The presses a READ adds (R148, R92): none when no mark count is held, else the difference
modulo 256, and a pending count saturates at 255. -/
def Obligations.LinkAfterAReply : Prop :=
  (∀ (m : Mlc) (cs : List RxChar) (stamp : Nat),
    (m.link = .linked → m.missCount < 2 →
      missedMlc m = { m with exchange := none, missCount := m.missCount + 1 })
    ∧ (m.link = .linked → 2 ≤ m.missCount →
      missedMlc m = { m with exchange := none, link := .detect, missCount := 0, reading := none,
                             lastMark := none, hold := false })
    ∧ (m.link ≠ .linked → missedMlc m = { m with exchange := none })
    ∧ probedMlc cs m
        = { m with exchange := none, link := .linked, missCount := 0, podClass := some (charAt cs 3),
                   reading := none, lastMark := none }
    ∧ (∀ r, m.reading = some r → r.sequence = charAt cs 9 →
      readMlc cs stamp m
        = { m with exchange := none, missCount := 0, lastMark := some (charAt cs 4),
                   hold := bit (charAt cs 3) 1 })
    ∧ ((∀ r, m.reading = some r → r.sequence ≠ charAt cs 9) →
      readMlc cs stamp m
        = { m with exchange := none, missCount := 0, lastMark := some (charAt cs 4),
                   hold := bit (charAt cs 3) 1,
                   reading := some
                     { mired := charAt cs 5 + 256 * charAt cs 6, lux := charAt cs 7 + 256 * charAt cs 8,
                       quit := bit (charAt cs 3) 0, dim := bit (charAt cs 3) 2,
                       sequence := charAt cs 9, stamp := stamp } }))
  ∧ (∀ count, newMarks none count = 0)
    ∧ (∀ last count, last < 256 → count < 256 →
        newMarks (some last) count < 256 ∧ (last + newMarks (some last) count) % 256 = count)
    ∧ ∀ n m, addMarks n m = if 255 < m + n then 255 else m + n

/-! ## The take (R13 to R20) -/

/-- A take whose re-read finds the card not READY, or above the frame count, lapses: nothing is written into the
card, the engine falls free with no ending, and a sweep and a grant follow (R14, R28). -/
def Obligations.TakeLapses : Prop :=
  ∀ (s : State) (h : Head) (k : Fin 8) (u : TakeStage),
    s.ce.engine = .take h k TakeJob.start → Clear s →
    (s.bus.mem.readLE (cardAddr s h k) 4 ≠ 1 ∨ s.aiu.frameCount < s.bus.mem.readLE (cardAddr s h k + 8) 4) →
    ∃ b t, s.bus.Within (ReleaseBytes s) b ∧ exec (.take u) s = .next t
      ∧ SweptTo ((releasedState none s).onBus b) t

/-- A card that passes the three checks (R16) is TAKEN, its head's last-taken frame rises to its frame number
(R17), a CUT acts (R19), its frame is the pending query (R123), and the engine holds the card job (R13, R23)
with the last-taken frame before the take (R18). -/
def Obligations.TakePassesACard : Prop :=
  ∀ (s : State) (h : Head) (k : Fin 8) (req : CardRequest),
    s.ce.engine = .take h k TakeJob.start → Clear s →
    s.bus.mem.readLE (cardAddr s h k) 4 = 1 → req = cardRequest (s.bus.mem.readLE (cardAddr s h k) 0x14) →
    req.frame ≤ s.aiu.frameCount → 1 ≤ req.tileCount → req.tileCount ≤ 256 → req.head = h.toNat →
    s.aiu.frameCount ≤ req.frame + 8 → (∀ l, s.ciu.lastTaken.get h = some l → l < req.frame) →
    ∃ b, s.bus.Within (fun a => StatusBytes s a ∨ Bytes (cardAddr s h k) 4 a) b
      ∧ b.mem.readLE (cardAddr s h k) 4 = 2
      ∧ exec (.take .finish) s = .next
          ((cutState req.cut
            { s with
              ciu := { s.ciu with lastTaken := s.ciu.lastTaken.set h (some req.frame) },
              ce := { s.ce with engine := .card h k (CardJob.start req (s.ciu.lastTaken.get h)) },
              lbu := { s.lbu with pendingQuery := some req.frame } }).onBus b)

/-- A card that fails a check ends with that check's ending, in the order MALFORMED, LATE, STALE (R16); its
ending code, the frame count and ENDED are written and nothing else of the card (R4, R5); the last-taken frame
rises but for MALFORMED (R17); the job ends REFUSED, the CARD cause is set under NOTIFY, a LATE event is
delivered (R20), and a sweep and a grant follow (R25). -/
def Obligations.TakeRefusesACard : Prop :=
  ∀ (s : State) (h : Head) (k : Fin 8) (req : CardRequest) (e : Ending),
    s.ce.engine = .take h k TakeJob.start → Clear s →
    s.bus.mem.readLE (cardAddr s h k) 4 = 1 → req = cardRequest (s.bus.mem.readLE (cardAddr s h k) 0x14) →
    req.frame ≤ s.aiu.frameCount →
    ((req.tileCount = 0 ∨ 256 < req.tileCount ∨ req.head ≠ h.toNat) ∧ e = .malformed
      ∨ ¬ (req.tileCount = 0 ∨ 256 < req.tileCount ∨ req.head ≠ h.toNat)
          ∧ req.frame + 8 < s.aiu.frameCount ∧ e = .late
      ∨ ¬ (req.tileCount = 0 ∨ 256 < req.tileCount ∨ req.head ≠ h.toNat)
          ∧ s.aiu.frameCount ≤ req.frame + 8 ∧ (∃ l, s.ciu.lastTaken.get h = some l ∧ req.frame ≤ l)
          ∧ e = .stale) →
    ∃ b t, s.bus.Within (fun a => ReleaseBytes s a ∨ RefusalBytes s h k a) b
      ∧ b.mem.readLE (cardAddr s h k) 4 = 3
      ∧ b.mem.readLE (cardAddr s h k + 0x20) 1 = endingCode e
      ∧ b.mem.readLE (cardAddr s h k + 0x24) 4 = s.aiu.frameCount % 2 ^ 32
      ∧ exec (.take .finish) s = .next t
      ∧ SweptTo
          ((endedState h e req.notify (if e = .malformed then s else takenFrames h req.frame s)).onBus b) t

/-! ## The card job (R29 to R33) -/

/-- With no valid store a card ends UNCALIBRATED and its head's last-taken frame goes back (R29, R18); a failed
tile read ends it BUS_ERROR (R30). Either way the ending code, the frame count and ENDED are written and nothing else
of the card (R4, R5), and no tracker, bank or monitor state but the ending's changes. -/
def Obligations.CardJobRefused : Prop :=
  ∀ (s : State) (h : Head) (k : Fin 8) (j : CardJob) (u : CardStage) (e : Ending),
    s.ce.engine = .card h k j → j.next = .calibration → Clear s →
    (s.cs.valid = false ∧ e = .uncalibrated
      ∨ s.cs.valid = true ∧ ¬ ListAnswers s j.req.tileAddr 16 j.req.tileCount ∧ 1 ≤ u.rank
          ∧ e = .busError) →
    ∃ b t, s.bus.Within (fun a => ReleaseBytes s a ∨ RefusalBytes s h k a) b
      ∧ b.mem.readLE (cardAddr s h k) 4 = 3
      ∧ b.mem.readLE (cardAddr s h k + 0x20) 1 = endingCode e
      ∧ b.mem.readLE (cardAddr s h k + 0x24) 4 = s.aiu.frameCount % 2 ^ 32
      ∧ exec (.cardJob u) s = .next t
      ∧ SweptTo
          ((endedState h e j.req.notify
            (if e = .uncalibrated then putLastTaken h j.lastBefore s else s)).onBus b) t

/-- The tile pass and the estimate of a card whose tiles are read (R30, R31, R47, R53, R54): the accumulators, the
tallies, and the hand-over of a GOOD estimate with the card's frame number. -/
def Obligations.CardJobEstimates : Prop :=
  ∀ (s : State) (h : Head) (k : Fin 8) (j : CardJob) (a : Accumulators) (ts : Quad Nat) (e : Estimate),
    s.ce.engine = .card h k j → j.next = .calibration → Clear s → s.cs.valid = true →
    ListAnswers s j.req.tileAddr 16 j.req.tileCount →
    a = (tilesAt s j.req.tileAddr j.req.tileCount).foldl (addTile s.ce.filter) Accumulators.zero →
    ts = (tilesAt s j.req.tileAddr j.req.tileCount).foldl (addTallies s.mon.counters) (Quad.const 0) →
    e = formEstimate s.ce.filter s.cs.points a →
    ∃ b, s.bus.Within (StatusBytes s) b ∧ exec (.cardJob .estimate) s = .next
      (({ s with
          it := { s.it with latest := handedOver h j.req.frame e s.it.latest },
          ce := { s.ce with engine :=
            (.card h k { j with next := .contextRead, acc := a, tallies := ts, estimate := e }) } } :
        State).onBus b)

/-- From the context read to the monitor snapshot (R32, R33, R105 to R108, R160): one read of the active context, the
grade, the bank of the frame with the pending query made absent (R123, R124), the marks taken, the pod snapshot
(R107), and the monitor snapshot after the card's own events. The second clause gives the bank of a frame number, from
the first case that holds (R123). -/
def Obligations.CardJobGrades : Prop :=
  (∀ (s : State) (h : Head) (k : Fin 8) (j : CardJob) (x : Context) (r : ContextRead),
    s.ce.engine = .card h k j → j.next = .contextRead → Clear s →
    s.it.contexts.get s.it.active = some x →
    r = { index := s.it.active, mired := x.mired, generation := x.generation,
          trim := x.settings.trims.get h } →
    ∃ b, s.bus.Within (ReleaseBytes s) b ∧ exec (.cardJob .monitorSnapshot) s = .next
      ((deliveredState (.card h j.tallies j.estimate)
        { s with
          ce := { s.ce with engine :=
            (.card h k
              { j with
                next := .writeResult, context := r,
                grade := formGrade s.cs s.ce.grading r j.req.gain,
                bank := bankForFrame s.lbu.banks j.req.frame,
                marks := s.it.marks.get h,
                pod :=
                  if s.mlc.link = .linked then
                    s.mlc.reading.map fun y =>
                      { mired := y.mired, lux := y.lux, age := min 255 (s.aiu.frameCount - y.stamp),
                        quit := y.quit, dim := y.dim }
                  else none,
                monitors :=
                  { values := (monAfter (.card h j.tallies j.estimate) s.mon).counters.mapIdx
                      fun _ c => c.value,
                    frozen := s.mon.frozen } }) },
          it := { s.it with marks := s.it.marks.set h 0 },
          lbu := queryAbsent s.aiu.frameCount s.lbu }).onBus b))
  ∧ ∀ (l : Lbu) (f : Nat), BankLaw l →
    let armed (i : BankIx) : Prop := ∃ sw, l.banks.get i = .armed sw ∧ sw ≤ f
    let live (i : BankIx) : Prop := ∃ st p, l.banks.get i = .live st p ∧ st ≤ f
    let retiring (i : BankIx) : Prop := ∃ st p r, l.banks.get i = .retiring st p r
    let successor (i : BankIx) : Prop := ∃ st, l.banks.get i = .live st true
    (∀ i, armed i → bankForFrame l.banks f = some i)
    ∧ ((∀ k, ¬ armed k) →
      (∀ i, live i → bankForFrame l.banks f = some i)
      ∧ ((∀ k, ¬ live k) →
        (∀ i, retiring i → bankForFrame l.banks f = some i)
        ∧ ((∀ k, ¬ retiring k) →
          (∀ i, successor i → bankForFrame l.banks f = some i)
          ∧ ((∀ k, ¬ successor k) → bankForFrame l.banks f = none))))

/-- The end of a COMPLETED card (R5, R109): every result field of 12.4 reads, at its offset and in its size, as the job
holds it, the ending code is COMPLETED, the frame count is that of the ending, the state is ENDED; then the CARD cause
under NOTIFY, and a sweep and a grant. -/
def Obligations.CardJobWritesItsResult : Prop :=
  ∀ (s : State) (h : Head) (k : Fin 8) (j : CardJob),
    s.ce.engine = .card h k j → j.next = .writeResult → Clear s →
    ∃ b t, s.bus.Within (fun a => ReleaseBytes s a ∨ CardBytes s h k a) b
      ∧ (let at' (off size : Nat) : Nat := b.mem.readLE (cardAddr s h k + off) size
         let signed' (off size : Nat) (v : Int) : Prop := (at' off size : Int) = v % 256 ^ size
         let row (off : Nat) (r : Row3) : Prop :=
           signed' off 4 r.c0 ∧ signed' (off + 4) 4 r.c1 ∧ signed' (off + 8) 4 r.c2
         (at' 0x21 1 = (if j.estimate.reason = .none then 1 else 2)
           ∧ at' 0x22 1 = (match j.estimate.reason with | .none => 0 | .fewTiles => 1 | .noChroma => 2)
           ∧ at' 0x23 1 = (if j.estimate.mired.isSome then 1 else 0)
           ∧ at' 0x28 2 = j.estimate.accepted % 2 ^ 16 ∧ at' 0x2A 2 = j.estimate.blueShare % 2 ^ 16
           ∧ at' 0x2C 2 = j.estimate.mired.getD 0 % 2 ^ 16)
         ∧ (at' 0x2E 1 = j.context.index.val ∧ at' 0x30 4 = j.context.generation.toNat
           ∧ at' 0x34 2 = j.context.mired % 2 ^ 16 ∧ at' 0x36 2 = j.grade.headMired % 2 ^ 16)
         ∧ signed' 0x38 2 j.grade.redGain ∧ signed' 0x3A 2 j.grade.blueGain
         ∧ row 0x40 j.grade.desaturated.r0 ∧ row 0x4C j.grade.desaturated.r1
         ∧ row 0x58 j.grade.desaturated.r2
         ∧ at' 0x3C 2 = j.grade.saturation % 2 ^ 16
         ∧ at' 0x2F 1 = (match j.bank with | none => 0xFF | some .i0 => 0 | some .i1 => 1)
         ∧ at' 0x3E 1 = j.marks % 2 ^ 8
         ∧ (j.pod = none → at' 0x3F 1 = 0 ∧ at' 0x64 2 = 0 ∧ at' 0x66 2 = 0 ∧ at' 0x68 1 = 0)
         ∧ (∀ p, j.pod = some p →
           at' 0x3F 1 = 1 + (if p.quit then 2 else 0) + (if p.dim then 4 else 0)
             ∧ at' 0x64 2 = p.mired % 2 ^ 16 ∧ at' 0x66 2 = p.lux % 2 ^ 16 ∧ at' 0x68 1 = p.age % 2 ^ 8)
         ∧ at' 0x69 1 = (if j.monitors.frozen then 1 else 0) ∧ at' 0x6A 2 = 0
         ∧ ∀ i : Fin 4, at' (0x6C + 6 * i.val) 6 = j.monitors.values.get i % 2 ^ 48)
      ∧ b.mem.readLE (cardAddr s h k) 4 = 3
      ∧ b.mem.readLE (cardAddr s h k + 0x20) 1 = 1
      ∧ b.mem.readLE (cardAddr s h k + 0x24) 4 = s.aiu.frameCount % 2 ^ 32
      ∧ exec (.cardJob .finish) s = .next t
      ∧ SweptTo ((endedState h .completed j.req.notify s).onBus b) t

/-- A take, a card job or a directive that is paused after a stage and then run on does what it does when run
without the pause. The stages are the model's (notes/assumptions/7.md). -/
def Obligations.PausesChangeNothing : Prop :=
  (∀ (s m : State) (u v : TakeStage) (h : Head) (k : Fin 8) (j : TakeJob), FaultLaw s → u.rank ≤ v.rank →
    exec (.take u) s = .next m → m.ce.engine = .take h k j → j.next ≠ .reread →
    exec (.take v) m = exec (.take v) s)
  ∧ (∀ (s m : State) (u v : CardStage) (h : Head) (k : Fin 8) (j : CardJob), FaultLaw s → u.rank ≤ v.rank →
    exec (.cardJob u) s = .next m → m.ce.engine = .card h k j →
    exec (.cardJob v) m = exec (.cardJob v) s)
  ∧ ∀ (s m : State) (row : Option DirKind) (u v : DirStage) (j : DirJob), FaultLaw s → u.rank ≤ v.rank →
    exec (directiveRow row u) s = .next m → m.ce.engine = .directive j → j.next ≠ .take →
    exec (directiveRow row v) m = exec (directiveRow row v) s

/-! ## Directives (R27, R172, R173) -/

/-- The opening of a directive job: a slot no longer POSTED lets the grant lapse (R27); else TAKEN is written, the
kind is read and the payload bytes its kind uses are read once (R172, 12.3). A payload read that fails decides
BUS_ERROR with nothing else changed (R172). How the opening is cut into accesses is the model's choice
(notes/assumptions/15.md): in the clause of the failed payload read the fourth access, named by its place in the
failure plan, is the first of the payload, and in the last clause a kind's payload is read in these spans, SET_FILTER's
in three. -/
def Obligations.DirectiveOpens : Prop :=
  (∀ (s : State), s.ce.engine = .directive DirJob.start → Clear s →
    (∀ row u, s.bus.mem.readLE (slotAddr s) 4 ≠ 1 →
      ∃ b t, s.bus.Within (ReleaseBytes s) b ∧ exec (directiveRow row u) s = .next t
        ∧ SweptTo ((releasedState none s).onBus b) t)
    ∧ ∀ row, s.bus.mem.readLE (slotAddr s) 4 = 1 → dirKindOf (s.bus.mem.readLE (slotAddr s + 4) 2) = row →
      ∃ b, s.bus.Within (Bytes (slotAddr s) 4) b ∧ b.mem.readLE (slotAddr s) 4 = 2
        ∧ exec (directiveRow row .payload) s = .next
          (({ s with ce := { s.ce with engine := (.directive
              { next := .prepare, kind := row,
                payload := spansAt s (slotAddr s + 0x10) (row.elim [] payloadSpans),
                result := if row = none then some .refusedKind else none }) } } : State).onBus b))
  ∧ (∀ (s : State) (k : DirKind), s.ce.engine = .directive DirJob.start →
    s.bus.mem.readLE (slotAddr s) 4 = 1 → dirKindOf (s.bus.mem.readLE (slotAddr s + 4) 2) = some k →
    s.bus.answers (slotAddr s) 6 = true →
    (s.bus.failPlan = [] ∧ (∃ p ∈ payloadSpans k, s.bus.answers (slotAddr s + 0x10 + p.1) p.2 = false)
      ∨ payloadSpans k ≠ [] ∧ ∃ plan, s.bus.failPlan = [false, false, false, true] ++ plan) →
    ∃ b, s.bus.Within (Bytes (slotAddr s) 4) b ∧ b.mem.readLE (slotAddr s) 4 = 2
      ∧ exec (directiveRow (some k) .payload) s = .next
        (({ s with ce := { s.ce with engine := (.directive
            { next := .prepare, kind := some k, payload := 0, result := some .busError }) } } :
          State).onBus b))
  ∧ ∀ k, payloadSpans k
      = (match k with
        | .snap | .abortBake | .clearMonitor => []
        | .setFreeze => [(0, 1)]
        | .setOrder | .switchContext => [(0, 2)]
        | .bakeLut => [(0, 4)]
        | .loadCalibration | .setGrade | .setCadence | .setPod | .setMonitor => [(0, 6)]
        | .setTracking => [(0, 20)]
        | .setFilter => [(0, 3), (4, 3), (8, 8)])

/-- The ending of a directive job: the result code, ENDED, the DIRECTIVE cause, COMPLETED for DONE and REFUSED for
any other code, then a sweep and a grant (R172, R28, R25). A POSTED directive of an unknown kind comes from its
grant to that ending with REFUSED_KIND and nothing else changed. -/
def Obligations.DirectiveEnds : Prop :=
  (∀ (s : State) (j : DirJob) (r : ResultCode),
    s.ce.engine = .directive j → j.next = .result → j.result = some r → Clear s →
    ∃ b t, s.bus.Within (fun a => ReleaseBytes s a ∨ SlotBytes s a) b
      ∧ b.mem.readLE (slotAddr s) 4 = 3 ∧ b.mem.readLE (slotAddr s + 6) 2 = resultCode r
      ∧ exec (directiveRow j.kind .finish) s = .next t
      ∧ SweptTo
          ((causedState true .directive
            (releasedState (some (if r = .done then .completed else .refused, .directive)) s)).onBus b) t)
  ∧ ∀ s : State, s.ce.engine = .directive DirJob.start → Clear s →
    s.bus.mem.readLE (slotAddr s) 4 = 1 → dirKindOf (s.bus.mem.readLE (slotAddr s + 4) 2) = none →
    ∃ b t, s.bus.Within (fun a => ReleaseBytes s a ∨ SlotBytes s a) b
      ∧ b.mem.readLE (slotAddr s) 4 = 3 ∧ b.mem.readLE (slotAddr s + 6) 2 = 2
      ∧ exec (.refusedKind .finish) s = .next t
      ∧ SweptTo
          ((causedState true .directive (releasedState (some (.refused, .directive)) s)).onBus b) t

/-- A failed write of the result code (R173, R170): the part is FAULTED with the kind SLOT_WRITE, the slot keeps its
state or reads ENDED, its result code is stale, and the DIRECTIVE cause is not set. Which of the two the slot
reads is a free value (notes/assumptions/4.md). -/
def Obligations.ResultWriteFault : Prop :=
  ∀ (s : State) (j : DirJob) (r : ResultCode) (plan : List Bool),
    s.ce.engine = .directive j → j.next = .result → j.result = some r → s.aiu.run ≠ .faulted →
    s.bus.failPlan = true :: plan →
    ∃ t, exec (directiveRow j.kind .finish) s = .next t
      ∧ t.aiu.run = .faulted ∧ t.aiu.faultKind = some .slotWrite
      ∧ t.aiu.causes = withCause s.aiu.causes .fault
      ∧ t.ce.engine = .free ∧ t.ce.lastEnding = some (.terminated, .directive)
      ∧ t.bus.mem.readLE (slotAddr s + 6) 2 = s.bus.mem.readLE (slotAddr s + 6) 2
      ∧ (slotState t = slotState s ∨ slotState t = 3)

/-! ## What each directive does (R172.4) -/

/-- SET_ORDER, SET_FILTER and SET_GRADE (R26, R57, R58, R97); and what the order in force decides. A head claims with
its candidate, UT with the directive claim or a BAKING bank (R12, R24); the grant goes to the first claimant of the
order (R25, R26); it clears that head's candidate or the directive claim and no other, and UT serves the directive
before the bake, whose claim stands (R12, R27); a bake yields to a claimant ranked above UT (R36). -/
def Obligations.EngineSettingsDirectives : Prop :=
  (∀ (s : State),
    let order : List Claimant :=
      match s.ce.order with
      | 0 => [.head .i0, .head .i1, .utility]
      | 1 => [.head .i0, .utility, .head .i1]
      | 2 => [.head .i1, .head .i0, .utility]
      | 3 => [.head .i1, .utility, .head .i0]
      | 4 => [.utility, .head .i0, .head .i1]
      | 5 => [.utility, .head .i1, .head .i0]
    let baking (i : BankIx) : Prop := ∃ c look, s.lbu.banks.get i = .baking c look
    let claiming : Claimant → Prop
      | .head h => s.ciu.candidate.get h ≠ none
      | .utility => s.ce.directiveClaim = true ∨ ∃ i, baking i
    let first (c : Claimant) : Prop :=
      claiming c ∧ ∃ above below, order = above ++ c :: below ∧ ∀ d ∈ above, ¬ claiming d
    (outrankedUtility s = true ↔ ∃ above below, order = above ++ .utility :: below ∧ ∃ d ∈ above, claiming d)
    ∧ ((s.ce.engine ≠ .free ∨ s.aiu.run ≠ .running ∨ ∀ c, ¬ claiming c) → afterGrant s = s)
    ∧ (s.ce.engine = .free → s.aiu.run = .running →
      (∀ h k, first (.head h) → s.ciu.candidate.get h = some k →
        afterGrant s
          = { s with ciu := { s.ciu with candidate := s.ciu.candidate.set h none },
                     ce := { s.ce with engine := .take h k TakeJob.start } })
      ∧ (first .utility → s.ce.directiveClaim = true →
        afterGrant s
          = { s with ce := { s.ce with directiveClaim := false, engine := .directive DirJob.start } })
      ∧ ∀ i, first .utility → s.ce.directiveClaim = false → baking i → (i = .i1 → ¬ baking .i0) →
        afterGrant s = { s with ce := { s.ce with engine := .bake i } }))
  ∧ ∀ (s : State) (p : Nat) (j : DirJob), Clear s →
    (AtEffect s .setOrder p j →
      (∀ o : Fin 6, field p 0 2 = o.val →
        ∃ b, s.bus.Within (StatusBytes s) b ∧ exec (.setOrder .effect) s = .next
          ((putDirJob (decidedJob j .done) { s with ce := { s.ce with order := o } }).onBus b))
      ∧ (5 < field p 0 2 →
        exec (.setOrder .effect) s = .next (putDirJob (decidedJob j .refusedValue) s)))
    ∧ (AtEffect s .setFilter p j →
      (field p 8 2 ≤ field p 0xA 2 →
        exec (.setFilter .effect) s = .next
          (putDirJob (decidedJob j .done)
            { s with ce := { s.ce with filter :=
              { pairA := { enable := bit (field p 0 1) 0, value := BitVec.ofNat 8 (field p 1 1),
                           mask := BitVec.ofNat 8 (field p 2 1) },
                pairB := { enable := bit (field p 4 1) 0, value := BitVec.ofNat 8 (field p 5 1),
                           mask := BitVec.ofNat 8 (field p 6 1) },
                lLo := field p 8 2, lHi := field p 0xA 2, clipLimit := min 256 (field p 0xC 2),
                aMin := max 1 (min 256 (field p 0xE 2)) } } }))
      ∧ (field p 0xA 2 < field p 8 2 →
        exec (.setFilter .effect) s = .next (putDirJob (decidedJob j .refusedValue) s)))
    ∧ (AtEffect s .setGrade p j →
      (field p 0 2 < field p 2 2 → field p 2 2 ≤ 480 →
        exec (.setGrade .effect) s = .next
          (putDirJob (decidedJob j .done)
            { s with ce := { s.ce with grading :=
              { gK := field p 0 2, gM := field p 2 2, sMin := min 4096 (field p 4 2) } } }))
      ∧ ((field p 2 2 ≤ field p 0 2 ∨ 480 < field p 2 2) →
        exec (.setGrade .effect) s = .next (putDirJob (decidedJob j .refusedValue) s)))

/-- SET_TRACKING (R75 to R77): refused for an index above 3 or an unknown policy; else the named context takes the
clamped settings, and a new one its clamped initial mired and generation 0. -/
def Obligations.SetTrackingDirective : Prop :=
  ∀ (s : State) (p : Nat) (j : DirJob), AtEffect s .setTracking p j → Clear s →
    (∀ (i : Fin 4) (policy : Policy) (st : ContextSettings),
      field p 0 2 = i.val →
      field p 2 2 = (match policy with | .coolBias => 0 | .warmBias => 1 | .agree => 2) →
      st = { policy := policy, holdBand := min 1023 (field p 4 2),
             stepLimit := max 1 (min 1023 (field p 6 2)), agreeSpread := min 4095 (field p 8 2),
             sources := { h0 := bit (field p 0xA 2) 0, h1 := bit (field p 0xA 2) 1,
                          pod := bit (field p 0xA 2) 2 },
             maxAge := max 1 (min 255 (field p 0xC 2)),
             trims := { i0 := max (-1024) (min 1023 (BitVec.ofNat 16 (field p 0xE 2)).toInt),
                        i1 := max (-1024) (min 1023 (BitVec.ofNat 16 (field p 0x10 2)).toInt) } } →
      ∃ b, s.bus.Within (StatusBytes s) b ∧ exec (.setTracking .effect) s = .next
        ((putDirJob (decidedJob j .done)
          (putContext i
            (match s.it.contexts.get i with
              | some x => { x with settings := st }
              | none =>
                { mired := if s.cs.valid then intoRange s.cs (min 16383 (field p 0x12 2))
                           else min 16383 (field p 0x12 2),
                  generation := 0, settings := st }) s)).onBus b))
    ∧ ((3 < field p 0 2 ∨ 2 < field p 2 2) →
      exec (.setTracking .effect) s = .next (putDirJob (decidedJob j .refusedValue) s))

/-- SWITCH_CONTEXT and SNAP (R78, R79). -/
def Obligations.SwitchAndSnapDirectives : Prop :=
  ∀ (s : State) (p : Nat) (j : DirJob), Clear s →
    (AtEffect s .switchContext p j →
      (3 < field p 0 2 →
        exec (.switchContext .effect) s = .next (putDirJob (decidedJob j .refusedValue) s))
      ∧ ∀ i : Fin 4, field p 0 2 = i.val →
        (s.it.contexts.get i = none →
          exec (.switchContext .effect) s = .next (putDirJob (decidedJob j .refusedState) s))
        ∧ ∀ x, s.it.contexts.get i = some x →
          ∃ b, s.bus.Within (StatusBytes s) b ∧ exec (.switchContext .effect) s = .next
            ((putDirJob (decidedJob j .done)
              { s with it := { s.it with
                active := i,
                contexts := s.it.contexts.set i (some { x with generation := x.generation + 1 }) } }).onBus
              b))
    ∧ (AtEffect s .snap p j →
      ∃ b, s.bus.Within (StatusBytes s) b ∧ exec (.snap .effect) s = .next
        ((putDirJob (decidedJob j .done) { s with it := { s.it with snapRequest := true } }).onBus b))

/-- LOAD_CALIBRATION up to its commit (R62 to R64): the count check, the read phase and the validation. A record
whose 32 bytes would run past the top of the address space counts as a failed read; its last six bytes are not read
(R63, R176). -/
def Obligations.LoadCalibrationChecks : Prop :=
  ∀ (s : State) (j : DirJob) (addr n : Nat),
    s.ce.engine = .directive j → j.next = .prepare → j.kind = some .loadCalibration → j.result = none →
    s.bus.failPlan = [] → addr = field j.payload 0 4 → n = field j.payload 4 2 →
    let decided (r : Option ResultCode) (s : State) : State :=
      putDirJob { j with next := .effect, result := r } s
    ((n < 2 ∨ 12 < n) →
      exec (.loadCalibration .prepare) s = .next (decided (some .refusedValue) s))
    ∧ (2 ≤ n → n ≤ 12 → ¬ PointsAnswer s addr n →
      exec (.loadCalibration .prepare) s
        = .next (decided (some .busError) { s with cs := { s.cs with loadBuffer := [] } }))
    ∧ (2 ≤ n → n ≤ 12 → PointsAnswer s addr n → ¬ PointsPass (pointsAt s addr n) →
      exec (.loadCalibration .prepare) s
        = .next (decided (some .refusedValue) { s with cs := { s.cs with loadBuffer := [] } }))
    ∧ (2 ≤ n → n ≤ 12 → PointsAnswer s addr n → PointsPass (pointsAt s addr n) →
      exec (.loadCalibration .prepare) s
        = .next (decided none { s with cs := { s.cs with loadBuffer := pointsAt s addr n } }))

/-- The commit (R65 to R67): the list replaced, the store valid, every initialised context clamped with its
generation advanced when its applied mired changed, both latest estimates discarded, the rest of the tracker
kept. -/
def Obligations.LoadCalibrationCommits : Prop :=
  ∀ (s : State) (p : Nat) (j : DirJob) (c : Cs), AtEffect s .loadCalibration p j → Clear s →
    c = { valid := true, points := s.cs.loadBuffer, loadBuffer := [] } →
    ∃ b, s.bus.Within (StatusBytes s) b ∧ exec (.loadCalibration .effect) s = .next
      ((putDirJob (decidedJob j .done)
        { s with
          cs := c,
          it := { s.it with
            latest := { i0 := none, i1 := none },
            contexts := s.it.contexts.mapIdx fun _ x => x.map fun y =>
              if storeBottom c ≤ y.mired ∧ y.mired ≤ storeTop c then y
              else { y with mired := if storeTop c < y.mired then storeTop c else storeBottom c,
                            generation := y.generation + 1 } } }).onBus b)

/-- BAKE_LUT (R114, R115): the busy refusals, the choice of the lower EMPTY bank, the failed read of the look
record, and the bank BAKING at cursor 0 with its header written. ABORT_BAKE (R121): a BAKING bank, or an ARMED
one whose swap is not due, becomes EMPTY; a due swap is made first and the directive refused; else it is
refused. -/
def Obligations.BakeDirectives : Prop :=
  (∀ (s : State) (p : Nat) (j : DirJob), AtEffect s .bakeLut p j → Clear s →
    ((∃ i, bakingOrArmed (s.lbu.banks.get i) = true) ∨ (∀ i, s.lbu.banks.get i ≠ .empty) →
      exec (.bakeLut .effect) s = .next (putDirJob (decidedJob j .refusedState) s))
    ∧ ∀ i, (∀ k, bakingOrArmed (s.lbu.banks.get k) = false) → s.lbu.banks.get i = .empty →
        (i = .i1 → s.lbu.banks.get .i0 ≠ .empty) →
      (s.bus.answers (field p 0 4) 54 = false →
        exec (.bakeLut .effect) s = .next (putDirJob (decidedJob j .busError) s))
      ∧ (s.bus.answers (field p 0 4) 54 = true →
        ∃ b, s.bus.Within (HeaderBytes s i) b ∧ exec (.bakeLut .effect) s = .next
          ((putDirJob (decidedJob j .done)
            (putBank i (.baking 0 (lookRecord (s.bus.mem.readLE (field p 0 4) 54))) s)).onBus b)))
  ∧ ∀ (s : State) (p : Nat) (j : DirJob), AtEffect s .abortBake p j → Clear s → BankLaw s.lbu →
    (∀ i, ((∃ c k, s.lbu.banks.get i = .baking c k)
          ∨ ∃ f, s.lbu.banks.get i = .armed f ∧ s.aiu.frameCount < f) →
      ∃ b, s.bus.Within (HeaderBytes s i) b ∧ exec (.abortBake .effect) s
        = .next ((putDirJob (decidedJob j .done) (putBank i .empty s)).onBus b))
    ∧ (∀ i f, s.lbu.banks.get i = .armed f → f ≤ s.aiu.frameCount →
      ∃ b, s.bus.Within (FrontBytes s) b ∧ exec (.abortBake .effect) s
        = .next ((putDirJob (decidedJob j .refusedState) (swappedState s)).onBus b))
    ∧ ((∀ i, bakingOrArmed (s.lbu.banks.get i) = false) →
      exec (.abortBake .effect) s = .next (putDirJob (decidedJob j .refusedState) s))

/-- SET_CADENCE (R133, R134): a length that differs reloads its timer, an equal one does not; a settle length of 0
stops the settle timer. A settle timer whose count an advance has brought to 0 is stopped, whether or not its
SETTLE_EXPIRY has been taken (R132, notes/assumptions/3.md). -/
def Obligations.SetCadenceDirective : Prop :=
  ∀ (s : State) (p : Nat) (j : DirJob) (n m : Nat) (running : Bool), AtEffect s .setCadence p j → Clear s →
    n = max 1 (min 64 (field p 0 2)) → m = min 255 (field p 2 2) →
    running = (s.ct.settleRunning && s.ct.settleCount != 0) →
    ∃ b, s.bus.Within (StatusBytes s) b ∧ exec (.setCadence .effect) s = .next
      ((putDirJob (decidedJob j .done)
        { s with ct := { s.ct with
            trackerLen := n,
            trackerCount := if n = s.ct.trackerLen then s.ct.trackerCount else n,
            settleLen := m,
            settleRunning := if m = s.ct.settleLen then running else running && m != 0,
            settleCount := if m = s.ct.settleLen ∨ running = false then s.ct.settleCount else m,
            retriggerable := bit (field p 4 2) 0 } }).onBus b)

/-- SET_POD (R151, R135): the exchange abandoned, the settings taken, the link restarted in DETECT or OFF, the HOLD
cause if hold was on, the poll timer reloaded when its length differs. An abandoned request that was still being sent
leaves one of its four characters to be finished (R151, R139); which one is a free value (notes/assumptions/30.md). -/
def Obligations.SetPodDirective : Prop :=
  (∀ m : Mlc,
    (∀ k, m.exchange = some ⟨k, .sending⟩ →
      ∃ c ∈ (match k with
        | .probe => [0x5A#8, 0x01#8, 0x00#8, 0xFF#8]
        | .read => [0x5A#8, 0x02#8, 0x00#8, 0xFE#8]),
      abandoned m = { m with exchange := none, finishing := some c, abandons := m.abandons + 1 })
    ∧ ((∀ k, m.exchange ≠ some ⟨k, .sending⟩) → abandoned m = { m with exchange := none }))
  ∧ ∀ (s : State) (p : Nat) (j : DirJob) (n : Nat), AtEffect s .setPod p j → Clear s →
    n = max 1 (min 256 (field p 2 2)) →
    ∃ b, s.bus.Within (StatusBytes s) b ∧ exec (.setPod .effect) s = .next
      ((putDirJob (decidedJob j .done)
        (causedState s.mlc.hold .hold
          { s with
            mlc := { s.mlc with
              link := if bit (field p 0 2) 0 then .detect else .off, enable := bit (field p 0 2) 0,
              luxFloor := field p 4 2, missCount := 0, reading := none, lastMark := none, hold := false,
              exchange := none, finishing := (abandoned s.mlc).finishing,
              abandons := (abandoned s.mlc).abandons },
            ct := { s.ct with
              pollLen := n,
              pollCount := if n = s.ct.pollLen then s.ct.pollCount else n } })).onBus b)

/-- SET_MONITOR, SET_FREEZE and CLEAR_MONITOR (R161 to R163). -/
def Obligations.MonitorDirectives : Prop :=
  ∀ (s : State) (p : Nat) (j : DirJob), Clear s →
    (AtEffect s .setMonitor p j →
      (∀ (i : Fin 4) (src : MonSource) (sel : HeadSelect),
        field p 0 1 = i.val → monSourceOf (field p 1 1) = some src →
        headSelectOf (field p 5 1) = some sel →
        ∃ b, s.bus.Within (StatusBytes s) b ∧ exec (.setMonitor .effect) s = .next
          ((putDirJob (decidedJob j .done)
            (putCounter i
              { value := 0, wrapped := false, edgeMemory := false, settings :=
                  { source := src, level := field p 2 2, invert := bit (field p 4 1) 0,
                    edge := bit (field p 4 1) 1, select := sel, enable := bit (field p 4 1) 2 } }
              s)).onBus b))
      ∧ ((3 < field p 0 1 ∨ 9 < field p 1 1 ∨ 2 < field p 5 1) →
        exec (.setMonitor .effect) s = .next (putDirJob (decidedJob j .refusedValue) s)))
    ∧ (AtEffect s .setFreeze p j →
      ∃ b, s.bus.Within (StatusBytes s) b ∧ exec (.setFreeze .effect) s = .next
        ((putDirJob (decidedJob j .done)
          { s with mon := { s.mon with freezeOnCut := bit (field p 0 1) 0 } }).onBus b))
    ∧ (AtEffect s .clearMonitor p j →
      ∃ b, s.bus.Within (StatusBytes s) b ∧ exec (.clearMonitor .effect) s = .next
        ((putDirJob (decidedJob j .done)
          { s with mon := { s.mon with
              frozen := false,
              counters := s.mon.counters.mapIdx fun _ c =>
                { c with value := 0, wrapped := false, edgeMemory := false } } }).onBus b))

/-! ## The bake (R36, R116 to R120) -/

/-- A bake row: the 17 entries of the row are written and nothing else of the bank, the cursor rises by 17 and the
header is rewritten; at the boundary the bake goes on, yields PARTIAL in DRAINING or to a claimant ranked
above UT, or, after the last row, is ARMED two above the frame count with the BANK cause set (R36, R116,
R120). -/
def Obligations.BakeRowRaisesTheCursor : Prop :=
  ∀ (s : State) (i : BankIx) (c : Nat) (look : Look),
    s.ce.engine = .bake i → s.lbu.banks.get i = .baking c look → Clear s → c + 17 ≤ lutEntries →
    ∃ b t, exec .bakeRow s = .next t
      ∧ s.bus.Within
          (fun a => ReleaseBytes s a ∨ HeaderBytes s i a ∨ Bytes (entryAddr s i c) 136 a) b
      ∧ (∀ k, k < 17 → b.mem.readLE (entryAddr s i (c + k)) 8 = lutEntry look (c + k) % 2 ^ 64)
      ∧ (c + 17 < lutEntries →
          (s.aiu.run = .draining ∨ outrankedUtility s = true →
            SweptTo
              ((releasedState (some (.partialJob, .bake)) (putBank i (.baking (c + 17) look) s)).onBus b) t)
          ∧ (s.aiu.run ≠ .draining → outrankedUtility s = false →
            t = (putBank i (.baking (c + 17) look) s).onBus b))
      ∧ (c + 17 = lutEntries →
          SweptTo
            ((causedState true .bank
              (releasedState (some (.completed, .bake))
                (putBank i (.armed (s.aiu.frameCount + 2)) s))).onBus b) t)

/-- The arithmetic of an entry (R117 to R119): the linear value from the entry's input, clamped into 0..8191; the
soft clip between the knee and full white; the tone curve between two knots; the place of the three outputs,
each a halfword, with the fourth zero. -/
def Obligations.LutEntryArithmetic : Prop :=
  (∀ (c : Row3) (x0 x1 x2 : Nat),
    (lutLinear c x0 x1 x2 : Int) = max 0 (min 8191 ((c.c0 * x0 + c.c1 * x1 + c.c2 * x2 + 2048) / 4096)))
  ∧ (∀ knee y, 2048 ≤ knee → knee ≤ 4096 → y ≤ 8191 →
    (y ≤ knee → softClip knee y = y)
      ∧ (knee < y → softClip knee y = knee + (y - knee) * (4096 - knee) / (8191 - knee))
      ∧ softClip knee y ≤ 4096 ∧ softClip knee 8191 = 4096
      ∧ (knee = 4096 → 4096 < y → softClip knee y = 4096))
  ∧ (∀ (knots : List Nat) (v : Nat), v ≤ 4096 →
    let a := knots.getD (v / 256) 0
    let b := knots.getD (v / 256 + 1) 0
    (v = 4096 → toneCurve knots v = knots.getD 16 0)
    ∧ (v < 4096 →
      (toneCurve knots v : Int) = a + (((b : Int) - a) * ((v % 256 : Nat) : Int) + 128) / 256
        ∧ min a b ≤ toneCurve knots v ∧ toneCurve knots v ≤ max a b
        ∧ (v % 256 = 0 → toneCurve knots v = a)))
  ∧ ∀ (look : Look) (r g b : Nat), r < 17 → g < 17 → b < 17 → 2048 ≤ look.knee → look.knee ≤ 4096 →
    (∀ k ∈ look.knots, k < 2 ^ 16) →
    let out (c : Row3) : Nat :=
      toneCurve look.knots (softClip look.knee (lutLinear c (r * 256) (g * 256) (b * 256)))
    let e := lutEntry look (r * 289 + g * 17 + b)
    e % 2 ^ 16 = out look.matrix.r0 ∧ e / 2 ^ 16 % 2 ^ 16 = out look.matrix.r1
      ∧ e / 2 ^ 32 % 2 ^ 16 = out look.matrix.r2 ∧ e / 2 ^ 48 = 0

/-! ## The estimate and the grade (R43 to R51, R98 to R104) -/

/-- Which tiles are accepted and what each adds (R42 to R47). -/
def Obligations.TileFilter : Prop :=
  (∀ (f : FilterSettings) (t : Tile), t.pixels ≠ 0 →
    (accepts f t = true ↔
      ((f.pairA.enable = true ∧ t.key &&& f.pairA.mask = f.pairA.value &&& f.pairA.mask)
        ∨ (f.pairB.enable = true ∧ t.key &&& f.pairB.mask = f.pairB.value &&& f.pairB.mask))
      ∧ f.lLo ≤ t.gSum / t.pixels ∧ t.gSum / t.pixels ≤ f.lHi
      ∧ t.clipped * 256 ≤ f.clipLimit * t.pixels))
  ∧ (∀ (f : FilterSettings) (t : Tile), t.pixels < t.clipped → f.clipLimit ≤ 256 → accepts f t = false)
  ∧ (∀ (f : FilterSettings) (a : Accumulators) (t : Tile), (t.pixels = 0 ∨ accepts f t = false) →
      addTile f a t = a)
  ∧ (∀ (f : FilterSettings) (a : Accumulators) (t : Tile), t.pixels ≠ 0 → accepts f t = true →
      addTile f a t = { rSum := a.rSum + t.rSum, gSum := a.gSum + t.gSum, bSum := a.bSum + t.bSum,
                        accepted := a.accepted + 1 })
  ∧ ∀ (f : FilterSettings) (ts us : List Tile), ts.Perm us →
      ts.foldl (addTile f) Accumulators.zero = us.foldl (addTile f) Accumulators.zero

/-- The quality with its reason (R48), and the blue share, formed for every estimate (R49). -/
def Obligations.QualityAndBlueShare : Prop :=
  ∀ (f : FilterSettings) (ps : List CalPoint) (a : Accumulators),
    let e := formEstimate f ps a
    (e.reason = .fewTiles ↔ a.accepted < f.aMin)
    ∧ (e.reason = .noChroma ↔ f.aMin ≤ a.accepted ∧ a.rSum + a.bSum = 0)
    ∧ (e.mired.isSome = true ↔ e.reason = .none)
    ∧ e.accepted = a.accepted ∧ e.blueShare ≤ 4096
    ∧ (0 < a.rSum + a.bSum → e.blueShare = 4096 * a.bSum / (a.rSum + a.bSum))
    ∧ (a.rSum + a.bSum = 0 → e.blueShare = 0)
    ∧ (e.blueShare = 4096 ↔ a.rSum = 0 ∧ a.bSum ≠ 0)
    ∧ (e.blueShare = 0 ↔ a.rSum + a.bSum = 0 ∨ 4096 * a.bSum < a.rSum + a.bSum)
    ∧ (⟨0x2A, 2, e.blueShare⟩ : Field) ∈ estimateFields e

/-- The measured mired of a GOOD estimate, absent in a WEAK one (R50, R51): the ends of the list beyond it, the
interpolation within it, always in the list's range and so in 16..16383. -/
def Obligations.MeasuredMiredFollowsTheList : Prop :=
  ∀ (ps : List CalPoint) (b : Nat) (p0 pl : CalPoint), GoodList ps → ps.head? = some p0 →
    ps.getLast? = some pl →
    (b ≤ p0.beta → measuredMired ps b = p0.mired)
    ∧ (pl.beta ≤ b → measuredMired ps b = pl.mired)
    ∧ (∀ i p q, ps[i]? = some p → ps[i + 1]? = some q → p.beta ≤ b → b < q.beta →
        measuredMired ps b = p.mired - (p.mired - q.mired) * (b - p.beta) / (q.beta - p.beta)
          ∧ q.mired < measuredMired ps b ∧ measuredMired ps b ≤ p.mired
          ∧ (b = p.beta → measuredMired ps b = p.mired))
    ∧ pl.mired ≤ measuredMired ps b ∧ measuredMired ps b ≤ p0.mired
    ∧ 16 ≤ measuredMired ps b ∧ measuredMired ps b ≤ 16383
    ∧ ∀ (f : FilterSettings) (a : Accumulators),
        let e := formEstimate f ps a
        (e.reason = .none → e.mired = some (measuredMired ps e.blueShare))
          ∧ (e.reason ≠ .none → e.mired = none)

/-- The head mired (R98), the segment and the weight (R99), and the eleven interpolated values, each between those
of the segment's two points (R100). -/
def Obligations.InterpolationStaysBetween : Prop :=
  (∀ (c : Cs) (r : ContextRead), storeBottom c ≤ storeTop c →
    (headMired c r : Int) = max (storeBottom c : Int) (min (storeTop c) (r.mired + r.trim)))
  ∧ (∀ (c : Cs) (gs : GradeSettings) (r : ContextRead) (gain : Nat), GoodList c.points →
    let g := formGrade c gs r gain
    g.headMired = headMired c r
    ∧ ∃ p q, c.points[g.segment]? = some p ∧ c.points[g.segment + 1]? = some q
      ∧ q.mired ≤ g.headMired ∧ g.headMired ≤ p.mired
      ∧ (g.headMired = storeBottom c → g.segment + 2 = c.points.length ∧ g.weight = 4096)
      ∧ (g.headMired ≠ storeBottom c → q.mired < g.headMired ∧ g.weight < 4096
          ∧ g.weight = 4096 * (p.mired - g.headMired) / (p.mired - q.mired))
      ∧ g.redGain = interpolate g.weight p.redGain q.redGain
      ∧ g.blueGain = interpolate g.weight p.blueGain q.blueGain
      ∧ 1024 ≤ g.redGain ∧ g.redGain ≤ 16383 ∧ 1024 ≤ g.blueGain ∧ g.blueGain ≤ 16383
      ∧ ∀ row ∈ [Mat3.r0, Mat3.r1, Mat3.r2], ∀ col ∈ [Row3.c0, Row3.c1, Row3.c2],
          col (row g.interpolated) = interpolate g.weight (col (row p.matrix)) (col (row q.matrix)))
  ∧ ∀ (w : Nat) (a b : Int), w ≤ 4096 →
    interpolate w a b = a + ((b - a) * w + 2048) / 4096
      ∧ min a b ≤ interpolate w a b ∧ interpolate w a b ≤ max a b
      ∧ interpolate 0 a b = a ∧ interpolate 4096 a b = b

/-- The saturation factor, between s_min and 4096 (R102, R3); the pull of each coefficient toward its row's grey
value, between the two (R103); and the balance on the diagonal, in -1..3, which keeps every row's sum and the
range of the card's fields (R104). -/
def Obligations.SaturationAndDesaturation : Prop :=
  (∀ (gs : GradeSettings) (gain : Nat), gs.gK < gs.gM → gs.gM ≤ 480 → gs.sMin ≤ 4096 →
    let s := saturation gs (usedGain gain)
    (gain ≤ gs.gK → s = 4096)
    ∧ (gs.gM ≤ gain → s = gs.sMin)
    ∧ (gs.gK < gain → gain < gs.gM →
        s = 4096 - (4096 - gs.sMin) * (gain - gs.gK) / (gs.gM - gs.gK))
    ∧ gs.sMin ≤ s ∧ s ≤ 4096)
  ∧ (∀ (c : Cs) (gs : GradeSettings) (r : ContextRead) (gain : Nat),
    let g := formGrade c gs r gain
    g.saturation = saturation gs (usedGain gain) ∧ g.desaturated = desaturate g.saturation g.interpolated)
  ∧ (∀ j : CardJob, (⟨0x3C, 2, j.grade.saturation⟩ : Field) ∈ resultFields j
    ∧ (∀ f ∈ rowFieldsAt 0x40 j.grade.desaturated.r0, f ∈ resultFields j)
    ∧ (∀ f ∈ rowFieldsAt 0x4C j.grade.desaturated.r1, f ∈ resultFields j)
    ∧ ∀ f ∈ rowFieldsAt 0x58 j.grade.desaturated.r2, f ∈ resultFields j)
  ∧ (∀ (s : Nat) (k c : Int), s ≤ 4096 →
    towardGrey s k c = k + ((c - k) * s + 2048) / 4096
      ∧ min k c ≤ towardGrey s k c ∧ towardGrey s k c ≤ max k c
      ∧ towardGrey 4096 k c = c ∧ towardGrey 0 k c = k)
  ∧ ∀ (s : Nat) (m : Mat3), s ≤ 4096 →
    let d := desaturate s m
    let pulled (r : Row3) (c : Int) : Int := towardGrey s ((r.c0 + r.c1 + r.c2) / 3) c
    let balance (r : Row3) : Int :=
      r.c0 + r.c1 + r.c2 - (pulled r r.c0 + pulled r r.c1 + pulled r r.c2)
    (d.r0.c0 = pulled m.r0 m.r0.c0 + balance m.r0 ∧ d.r0.c1 = pulled m.r0 m.r0.c1
        ∧ d.r0.c2 = pulled m.r0 m.r0.c2)
    ∧ (d.r1.c0 = pulled m.r1 m.r1.c0 ∧ d.r1.c1 = pulled m.r1 m.r1.c1 + balance m.r1
        ∧ d.r1.c2 = pulled m.r1 m.r1.c2)
    ∧ (d.r2.c0 = pulled m.r2 m.r2.c0 ∧ d.r2.c1 = pulled m.r2 m.r2.c1
        ∧ d.r2.c2 = pulled m.r2 m.r2.c2 + balance m.r2)
    ∧ (∀ r : Row3, -1 ≤ balance r ∧ balance r ≤ 3 ∧ (s = 4096 → balance r = 0))
    ∧ rowSum d.r0 = rowSum m.r0 ∧ rowSum d.r1 = rowSum m.r1 ∧ rowSum d.r2 = rowSum m.r2
    ∧ (∀ r : Row3, ∀ c ∈ [r.c0, r.c1, r.c2],
        (∀ x ∈ [r.c0, r.c1, r.c2], -32768 ≤ x ∧ x ≤ 32767) →
        (-32768 ≤ pulled r c ∧ pulled r c ≤ 32767)
          ∧ -32769 ≤ pulled r c + balance r ∧ pulled r c + balance r ≤ 32770)

/-- The amount an event yields to a counter, by its source (R156): the tallies of the tile pass, the level test
with its inversion, the head select; none where the source does not serve the event. -/
def Obligations.EventAmounts : Prop :=
  ∀ (i : Fin 4) (c : CounterSettings) (h : Head) (ts : Quad Nat) (e : Estimate) (slew idle : Bool)
    (spread : Option Nat),
    let test (v : Nat) : Bool := if c.invert then decide (v < c.level) else decide (c.level ≤ v)
    let picked : Prop := c.select = .both ∨ c.select = .only h
    let card := amount i c (.card h ts e)
    let step := amount i c (.step slew idle spread)
    (¬ picked → card = none ∧ amount i c (.late h) = none)
    ∧ (picked →
      (c.source = .tileLevel ∨ c.source = .tileClip → card = some (ts.get i))
      ∧ (c.source = .estMired → card = e.mired.map fun m => if test m = true then 1 else 0)
      ∧ (c.source = .weak → card = some (if e.reason = .none then 0 else 1))
      ∧ (c.source = .late → amount i c (.late h) = some 1))
    ∧ (c.source = .slew → step = some (if slew = true then 1 else 0))
    ∧ (c.source = .noSource → step = some (if idle = true then 1 else 0))
    ∧ (c.source = .spread → step = spread.map fun v => if test v = true then 1 else 0)
    ∧ (c.source = .podMiss → amount i c .podMiss = some 1)
    ∧ (c.source ∉ [.tileLevel, .tileClip, .estMired, .weak] → card = none)
    ∧ (c.source ∉ [.slew, .noSource, .spread] → step = none)
    ∧ (c.source ≠ .podMiss → amount i c .podMiss = none)
    ∧ (c.source ≠ .late → amount i c (.late h) = none)
    ∧ ∀ (counters : Quad Counter) (tiles : List Tile), (counters.get i).settings = c →
        let n := (tiles.foldl (addTallies counters) (Quad.const 0)).get i
        (c.source = .tileLevel →
          n = tiles.countP fun t => decide (t.pixels ≠ 0) && test (t.gSum / t.pixels))
        ∧ (c.source = .tileClip →
          n = tiles.countP fun t => decide (t.pixels ≠ 0) && test (t.clipped * 256 / t.pixels))

/-- A counter under an event (R157, R158): left as it was when it is off, frozen or not served; else the amount,
or 1 on a rising edge, is added modulo 2^48, the wrap flag follows, and the edge memory says whether the amount
was 1 or more. A counter wraps, and MON_WRAP is set by an event under which some counter does, exactly when it
evaluates the event and the sum is 2^48 or more, whatever its wrap flag (R158). -/
def Obligations.CounterEvaluation : Prop :=
  (∀ (frozen : Bool) (e : MonEvent) (i : Fin 4) (c : Counter), c.value < 2 ^ 48 →
    ((c.settings.enable = false ∨ frozen = true ∨ amount i c.settings e = none) →
      counterAfter frozen e i c = c)
    ∧ ∀ x, c.settings.enable = true → frozen = false → amount i c.settings e = some x → x ≤ 2 ^ 48 →
      let n := if c.settings.edge = false then x else if 1 ≤ x ∧ c.edgeMemory = false then 1 else 0
      (c.value + n < 2 ^ 48 →
        counterAfter frozen e i c = { c with value := c.value + n, edgeMemory := decide (1 ≤ x) })
      ∧ (2 ^ 48 ≤ c.value + n →
        counterAfter frozen e i c
          = { c with value := c.value + n - 2 ^ 48, wrapped := true, edgeMemory := decide (1 ≤ x) }))
  ∧ (∀ (frozen : Bool) (e : MonEvent) (i : Fin 4) (c : Counter),
    wrapsOn frozen e i c = true ↔
      c.settings.enable = true ∧ frozen = false ∧ ∃ x, amount i c.settings e = some x
        ∧ 2 ^ 48 ≤ c.value
            + if c.settings.edge = false then x else if 1 ≤ x ∧ c.edgeMemory = false then 1 else 0)
  ∧ ∀ (e : MonEvent) (s : State),
    (deliveredState e s).aiu.causes = s.aiu.causes
        ∧ (∀ i, wrapsOn s.mon.frozen e i (s.mon.counters.get i) = false)
      ∨ (deliveredState e s).aiu.causes = withCause s.aiu.causes .monWrap
        ∧ ∃ i, wrapsOn s.mon.frozen e i (s.mon.counters.get i) = true

/-! ## Faults (R8, R38, R170, R175) -/

/-- Three failed accesses: a sweep's first read (TABLE_READ, the claims cleared, R8; that the model's sweep begins with
a card table is notes/assumptions/14.md), a status write (STATUS_WRITE, R175), an entry of a bake row (BANK_WRITE, the
cursor kept, R36). Each records its kind and sets FAULT, and a job in the engine ends TERMINATED (R170, R38). -/
def Obligations.FailedAccessesFault : Prop :=
  ∀ (s : State) (plan : List Bool), s.bus.failPlan = true :: plan →
    (s.aiu.run = .running → maxFrame ≤ s.aiu.frameCount → NothingDue s →
      ∃ t, exec .frameSync s = .next t ∧ t.aiu.run = .faulted ∧ t.aiu.faultKind = some .tableRead
        ∧ t.aiu.causes = withCause s.aiu.causes .fault ∧ t.ciu.candidate = { i0 := none, i1 := none }
        ∧ t.ce.directiveClaim = false ∧ t.ce.engine = .free
        ∧ (∀ k, jobKind s.ce.engine = some k → t.ce.lastEnding = some (.terminated, k)))
    ∧ (∀ w, s.aiu.run ≠ .stopped → s.aiu.run ≠ .faulted →
      clearCauses s.aiu.causes w ≠ s.aiu.causes →
      ∃ t, exec (.attnWrite w) s = .next t ∧ t.aiu.run = .faulted
        ∧ t.aiu.faultKind = some .statusWrite
        ∧ t.aiu.causes = withCause (clearCauses s.aiu.causes w) .fault ∧ t.ce.engine = .free
        ∧ (∀ k, jobKind s.ce.engine = some k → t.ce.lastEnding = some (.terminated, k))
        ∧ t.it = s.it ∧ t.mlc = s.mlc ∧ t.ct = s.ct ∧ t.mon = s.mon
        ∧ t.lbu = queryAbsent s.aiu.frameCount s.lbu)
    ∧ (∀ i c look, s.ce.engine = .bake i → s.lbu.banks.get i = .baking c look → s.aiu.run ≠ .faulted →
      ∃ t, exec .bakeRow s = .next t ∧ t.aiu.run = .faulted ∧ t.aiu.faultKind = some .bankWrite
        ∧ t.aiu.causes = withCause s.aiu.causes .fault
        ∧ t.lbu.banks.get i = s.lbu.banks.get i ∧ t.ce.engine = .free
        ∧ t.ce.lastEnding = some (.terminated, .bake))

/-- Between resets: FAULTED is not left, and meanwhile the fault kind and the frame count stand and no job is
granted (R170); the frame count never decreases, rises by at most 1 in a command, rises only at a frame sync in
RUNNING, and never exceeds 4,294,967,295 (R169). -/
def Obligations.BetweenResets : Prop :=
  (∀ (c : Instr) (s t : State), s.aiu.run = .faulted → s.ce.engine = .free → ¬ IsReset c →
    exec c s = .next t →
    t.aiu.run = .faulted ∧ t.aiu.faultKind = s.aiu.faultKind ∧ t.ce.engine = .free
      ∧ t.aiu.frameCount = s.aiu.frameCount)
  ∧ ∀ (c : Instr) (s t : State), exec c s = .next t → ¬ IsReset c →
    s.aiu.frameCount ≤ t.aiu.frameCount ∧ t.aiu.frameCount ≤ s.aiu.frameCount + 1
      ∧ (t.aiu.frameCount ≠ s.aiu.frameCount → c = .frameSync ∧ s.aiu.run = .running)
      ∧ (s.aiu.frameCount ≤ maxFrame → t.aiu.frameCount ≤ maxFrame)

/-! ## What every command keeps -/

/-- Every step keeps the laws of R145 and R149 with those of the exchange (R144). LinkLaw's last clause, that a character
of an abandoned request is finished only with no exchange in flight, is the model's choice: a poll that begins an
exchange takes that character as finished (notes/assumptions/30.md). -/
def Obligations.EveryStepKeepsLinkLaw : Prop :=
  ∀ s t : State, LinkLaw s.mlc → step s = .next t → LinkLaw t.mlc

/-- Every step keeps the law of R66, with the store's own relations (R60, R61). -/
def Obligations.EveryStepKeepsTrackedLaw : Prop :=
  ∀ s t : State, StoreLaw s → TrackedLaw s → step s = .next t → StoreLaw t ∧ TrackedLaw t

/-- Every step keeps these ranges: the timers (R129), the counter values (R155), the filter and grade settings (R56, R96),
the marks (R92), the active context (R73), the applied mired and settings of every initialised context (R72) with the
latest estimates (R51), given the store's relations (R60, R64), the frame count with COUNT_END (R169), the frames that
estimates, reading and card carry (R80, R147), and the memory's canonical form. -/
def Obligations.EveryStepKeepsRanges : Prop :=
  ∀ s t : State, step s = .next t →
    (s.bus.mem.wf → t.bus.mem.wf) ∧ (TimerLaw s.ct → TimerLaw t.ct) ∧ (CounterLaw s.mon → CounterLaw t.mon)
      ∧ (SettingsLaw s.ce → SettingsLaw t.ce) ∧ (MarkLaw s.it → MarkLaw t.it)
      ∧ (ActiveLaw s.it → ActiveLaw t.it) ∧ (StoreLaw s → ContextLaw s.it → ContextLaw t.it)
      ∧ (CountLaw s → CountLaw t) ∧ (AgeLaw s → AgeLaw t)

/-- Every step keeps the law of R112 with the row boundary of R116, and the engine's laws: FREE in STOPPED and in
FAULTED, a fault kind exactly in FAULTED, a BAKING bank under a BAKE job, a pending query only for a take or a
card job (R23, R38, R123, R170). -/
def Obligations.EveryStepKeepsBankAndEngineLaws : Prop :=
  ∀ s t : State, BankLaw s.lbu → FaultLaw s → EngineLaw s → step s = .next t →
    BankLaw t.lbu ∧ FaultLaw t ∧ EngineLaw t

/-- While the counters are frozen no counter changes but by SET_MONITOR, CLEAR_MONITOR or a device reset (R161). -/
def Obligations.FrozenCountersStand : Prop :=
  ∀ (c : Instr) (s t : State), exec c s = .next t → s.mon.frozen = true →
    (∀ u, c ≠ .setMonitor u ∧ c ≠ .clearMonitor u) → c ≠ .deviceReset →
    t.mon.counters = s.mon.counters ∧ t.mon.frozen = true

/-- No command writes shared memory outside the bytes the part owns: the status block, the slot's state and result
code, the cards' states and result groups, the headers and the banks (1.3, 12.2 to 12.5); and a card's state
word becomes TAKEN or ENDED or stays (R2). The banks are in a state that R112 and R116 allow. -/
def Obligations.OnlyPartBytesAreWritten : Prop :=
  ∀ (c : Instr) (s t : State), BankLaw s.lbu → exec c s = .next t →
    s.bus.Within (PartBytes s) t.bus
      ∧ ∀ h k, t.bus.mem.readLE (cardAddr s h k) 4 = s.bus.mem.readLE (cardAddr s h k) 4
          ∨ t.bus.mem.readLE (cardAddr s h k) 4 = 2 ∨ t.bus.mem.readLE (cardAddr s h k) 4 = 3

/-- Out of STOPPED, with no failing access, the status block and the bank headers show the part as it stands after
every command, once they do; and entering RUNNING makes them do so (R113, R175). -/
def Obligations.StatusBlockMirrorsThePart : Prop :=
  ∀ (c : Instr) (s t : State), Clear s → FaultLaw s → BankLaw s.lbu →
    (s.aiu.run ≠ .stopped → Mirrors s) → exec c s = .next t → t.aiu.run ≠ .stopped → Mirrors t
end

