-- ==== Sys2Proof/Laws/Memory.lean ====
section
/-! SUPPORT. Laws of shared memory: reading back what was written, leaving every other byte alone, and keeping
the canonical form. -/

namespace Sys2Proof.Machine

theorem Memory.readByte_filter_ne (m : Memory) (k j : Nat) (h : j ≠ k) :
    Memory.readByte (m.filter (fun c => c.1 ≠ k)) j = Memory.readByte m j := by
  induction m with
  | nil => rfl
  | cons c rest ih =>
    obtain ⟨a, b⟩ := c
    by_cases hk : a = k
    · subst hk
      have hj : a ≠ j := fun e => h e.symm
      simp [Memory.readByte, hj] at ih ⊢
      exact ih
    · simp [Memory.readByte, hk] at ih ⊢
      simp [ih]

theorem Memory.readByte_filter_eq (m : Memory) (k : Nat) :
    Memory.readByte (m.filter (fun c => c.1 ≠ k)) k = unlistedByte := by
  induction m with
  | nil => rfl
  | cons c rest ih =>
    obtain ⟨a, b⟩ := c
    by_cases hk : a = k
    · subst hk
      simpa using ih
    · simp [Memory.readByte, hk] at ih ⊢
      exact ih

theorem Memory.readByte_insert_eq (m : Memory) (k : Nat) (v : Byte) :
    (m.insertByte k v).readByte k = v := by
  induction m with
  | nil => simp [Memory.insertByte, Memory.readByte]
  | cons c rest ih =>
    obtain ⟨a, b⟩ := c
    unfold Memory.insertByte
    split
    · simp [Memory.readByte]
    · split
      · simp [Memory.readByte]
      · have hk : a ≠ k := by omega
        simp [Memory.readByte, hk, ih]

theorem Memory.readByte_insert_ne (m : Memory) (k j : Nat) (v : Byte) (h : j ≠ k) :
    (m.insertByte k v).readByte j = m.readByte j := by
  have hkj : k ≠ j := fun e => h e.symm
  induction m with
  | nil => simp [Memory.insertByte, Memory.readByte, hkj]
  | cons c rest ih =>
    obtain ⟨a, b⟩ := c
    unfold Memory.insertByte
    split
    · simp [Memory.readByte, hkj]
    · split
      · rename_i hka
        subst hka
        simp [Memory.readByte, hkj]
      · simp [Memory.readByte, ih]

/-- A byte written reads back. -/
@[simp] theorem Memory.readByte_writeByte_eq (m : Memory) (k : Nat) (v : Byte) :
    (m.writeByte k v).readByte k = v := by
  unfold Memory.writeByte
  split
  · rename_i h
    rw [Memory.readByte_filter_eq, h]
  · exact Memory.readByte_insert_eq m k v

/-- A write leaves every other byte alone. -/
theorem Memory.readByte_writeByte_ne (m : Memory) (k j : Nat) (v : Byte) (h : j ≠ k) :
    (m.writeByte k v).readByte j = m.readByte j := by
  unfold Memory.writeByte
  split
  · exact Memory.readByte_filter_ne m k j h
  · exact Memory.readByte_insert_ne m k j v h

theorem Memory.mem_insertByte {m : Memory} {k : Nat} {v : Byte} {c : Host.Cell}
    (h : c ∈ m.insertByte k v) : c = (k, v) ∨ c ∈ m := by
  induction m with
  | nil => simpa [Memory.insertByte] using h
  | cons d rest ih =>
    obtain ⟨a, b⟩ := d
    unfold Memory.insertByte at h
    split at h
    · simpa using h
    · split at h
      · rename_i hka
        subst hka
        rcases List.mem_cons.1 h with h | h
        · exact .inl h
        · exact .inr (List.mem_cons_of_mem _ h)
      · rcases List.mem_cons.1 h with h | h
        · exact .inr (by simp [h])
        · rcases ih h with h | h
          · exact .inl h
          · exact .inr (List.mem_cons_of_mem _ h)

theorem Memory.wf_insertByte {m : Memory} {k : Nat} {v : Byte} (hv : v ≠ unlistedByte) (h : m.wf) :
    (m.insertByte k v).wf := by
  obtain ⟨hs, hn⟩ := h
  refine ⟨?_, fun c hc => ?_⟩
  · clear hn
    induction m with
    | nil => simp [Memory.insertByte]
    | cons d rest ih =>
      obtain ⟨a, b⟩ := d
      rw [List.pairwise_cons] at hs
      unfold Memory.insertByte
      split
      · rename_i hka
        refine List.pairwise_cons.2 ⟨fun c hc => ?_, List.pairwise_cons.2 hs⟩
        rcases List.mem_cons.1 hc with rfl | hc
        · exact hka
        · exact hka.trans (hs.1 c hc)
      · split
        · rename_i hka
          subst hka
          exact List.pairwise_cons.2 ⟨fun c hc => hs.1 c hc, hs.2⟩
        · refine List.pairwise_cons.2 ⟨fun c hc => ?_, ih hs.2⟩
          rcases Memory.mem_insertByte hc with rfl | hc
          · show a < k
            omega
          · exact hs.1 c hc
  · rcases Memory.mem_insertByte hc with rfl | hc
    · exact hv
    · exact hn c hc

/-- A byte's write keeps the canonical form. -/
theorem Memory.wf_writeByte {m : Memory} {k : Nat} {v : Byte} (h : m.wf) : (m.writeByte k v).wf := by
  unfold Memory.writeByte
  split
  · exact ⟨h.1.filter _, fun c hc => h.2 c (List.mem_filter.1 hc).1⟩
  · exact Memory.wf_insertByte (by assumption) h

/-- A number's write keeps the canonical form. -/
theorem Memory.wf_writeLE {m : Memory} {a v n : Nat} (h : m.wf) : (m.writeLE a v n).wf := by
  induction n generalizing m a v with
  | zero => exact h
  | succ n ih => exact ih (Memory.wf_writeByte h)

/-- A number's write leaves every byte outside it alone. -/
theorem Memory.readByte_writeLE_of_outside (m : Memory) (a v n j : Nat) (h : j < a ∨ a + n ≤ j) :
    (m.writeLE a v n).readByte j = m.readByte j := by
  induction n generalizing m a v with
  | zero => rfl
  | succ n ih =>
    rw [Memory.writeLE, ih _ _ _ (by omega), Memory.readByte_writeByte_ne _ _ _ _ (by omega)]

/-- Two memories that agree on the bytes read read alike. -/
theorem Memory.readLE_congr {m m' : Memory} {a n : Nat}
    (h : ∀ j, a ≤ j → j < a + n → m'.readByte j = m.readByte j) : m'.readLE a n = m.readLE a n := by
  induction n generalizing a with
  | zero => rfl
  | succ n ih =>
    rw [Memory.readLE, Memory.readLE, h a (le_refl a) (by omega),
      ih (fun j h1 h2 => h j (by omega) (by omega))]

/-- A number written reads back, cut to its width. -/
theorem Memory.readLE_writeLE_eq (m : Memory) (a v n : Nat) :
    (m.writeLE a v n).readLE a n = v % 256 ^ n := by
  induction n generalizing m a v with
  | zero => simp [Memory.readLE, Nat.mod_one]
  | succ n ih =>
    rw [Memory.readLE, Memory.writeLE, ih,
      Memory.readByte_writeLE_of_outside _ _ _ _ _ (by omega), Memory.readByte_writeByte_eq,
      BitVec.toNat_ofNat]
    have h := Nat.mod_mul (x := v) (a := 256) (b := 256 ^ n)
    rw [← Nat.pow_succ'] at h
    exact h.symm

/-- A number's write leaves a number outside it alone. -/
theorem Memory.readLE_writeLE_of_disjoint (m : Memory) (a v n b k : Nat) (h : b + k ≤ a ∨ a + n ≤ b) :
    (m.writeLE a v n).readLE b k = m.readLE b k :=
  Memory.readLE_congr fun j h1 h2 =>
    Memory.readByte_writeLE_of_outside _ _ _ _ _ (by omega)

/-- A read is below the limit of its width. -/
theorem Memory.readLE_lt (m : Memory) (a n : Nat) : m.readLE a n < 256 ^ n := by
  induction n generalizing a with
  | zero => simp [Memory.readLE]
  | succ n ih =>
    have h1 := (m.readByte a).isLt
    have h2 := ih (a + 1)
    rw [Memory.readLE, pow_succ]
    omega

/-! ## Fields of a record in memory -/

/-- The bytes of a read, in two parts. -/
theorem Memory.readLE_add (m : Memory) (a n k : Nat) :
    m.readLE a (n + k) = m.readLE a n + 256 ^ n * m.readLE (a + n) k := by
  induction n generalizing a with
  | zero => simp [Memory.readLE]
  | succ n ih =>
    rw [show n + 1 + k = (n + k) + 1 by omega]
    show (m.readByte a).toNat + 256 * m.readLE (a + 1) (n + k)
      = (m.readByte a).toNat + 256 * m.readLE (a + 1) n + 256 ^ (n + 1) * m.readLE (a + (n + 1)) k
    rw [ih, show a + 1 + n = a + (n + 1) by omega, pow_succ]
    ring

/-- What stands above a field's bytes does not matter to it. -/
theorem field_add_mul (x z n off size : Nat) (h : off + size ≤ n) :
    field (x + 256 ^ n * z) off size = field x off size := by
  obtain ⟨d, rfl⟩ := Nat.exists_eq_add_of_le h
  unfold field
  rw [show 256 ^ (off + size + d) * z = 256 ^ off * (256 ^ size * (256 ^ d * z)) by
      rw [pow_add, pow_add]; ring,
    Nat.add_mul_div_left _ _ (by positivity), Nat.add_mul_mod_self_left]

/-- A field of a record that has been read is the read of the field. -/
theorem field_readLE (m : Memory) (a n off size : Nat) (h : off + size ≤ n) :
    field (m.readLE a n) off size = m.readLE (a + off) size := by
  obtain ⟨d, rfl⟩ := Nat.exists_eq_add_of_le h
  rw [Memory.readLE_add, field_add_mul _ _ _ _ _ le_rfl, Memory.readLE_add]
  unfold field
  rw [Nat.add_mul_div_left _ _ (by positivity), Nat.div_eq_of_lt (Memory.readLE_lt m a off), Nat.zero_add,
    Nat.mod_eq_of_lt (Memory.readLE_lt m (a + off) size)]

end Sys2Proof.Machine
end

