-- ==== Sys2Proof/Laws/State.lean ====
section
/-! SUPPORT. The fields after each named update of the state, and the laws of the small tables. -/

namespace Sys2Proof.Machine

/-! ## Two and four like things -/

theorem Two.get_set_eq {α : Type} (t : Two α) (i : Ix2) (a : α) : (t.set i a).get i = a := by
  cases i <;> rfl

theorem Two.get_set_ne {α : Type} (t : Two α) (i k : Ix2) (a : α) (h : k ≠ i) :
    (t.set i a).get k = t.get k := by
  cases i <;> cases k <;> first | rfl | exact absurd rfl h

theorem Quad.get_set_eq {α : Type} (t : Quad α) (i : Fin 4) (a : α) : (t.set i a).get i = a := by
  fin_cases i <;> rfl

theorem Quad.get_set_ne {α : Type} (t : Quad α) (i k : Fin 4) (a : α) (h : k ≠ i) :
    (t.set i a).get k = t.get k := by
  fin_cases i <;> fin_cases k <;> first | rfl | exact absurd rfl h

theorem Quad.get_mapIdx {α β : Type} (f : Fin 4 → α → β) (t : Quad α) (i : Fin 4) :
    (t.mapIdx f).get i = f i (t.get i) := by
  fin_cases i <;> rfl

/-! ## One access -/

@[simp] theorem spendAccess_mem (s : State) : s.spendAccess.bus.mem = s.bus.mem := rfl
@[simp] theorem spendAccess_unbacked (s : State) : s.spendAccess.bus.unbacked = s.bus.unbacked := rfl
@[simp] theorem spendAccess_plan (s : State) : s.spendAccess.bus.failPlan = s.bus.failPlan.tail := rfl
@[simp] theorem spendAccess_aiu (s : State) : s.spendAccess.aiu = s.aiu := rfl
@[simp] theorem spendAccess_ciu (s : State) : s.spendAccess.ciu = s.ciu := rfl
@[simp] theorem spendAccess_ce (s : State) : s.spendAccess.ce = s.ce := rfl
@[simp] theorem spendAccess_it (s : State) : s.spendAccess.it = s.it := rfl
@[simp] theorem spendAccess_cs (s : State) : s.spendAccess.cs = s.cs := rfl
@[simp] theorem spendAccess_lbu (s : State) : s.spendAccess.lbu = s.lbu := rfl
@[simp] theorem spendAccess_ct (s : State) : s.spendAccess.ct = s.ct := rfl
@[simp] theorem spendAccess_mlc (s : State) : s.spendAccess.mlc = s.mlc := rfl
@[simp] theorem spendAccess_mon (s : State) : s.spendAccess.mon = s.mon := rfl
@[simp] theorem spendAccess_freeUses (s : State) : s.spendAccess.freeUses = s.freeUses := rfl
@[simp] theorem spendAccess_pending (s : State) : s.spendAccess.pending = s.pending := rfl

/-! ## The entry to FAULTED -/

@[simp] theorem faultedState_run (k : FaultKind) (s : State) : (faultedState k s).aiu.run = .faulted := rfl
@[simp] theorem faultedState_kind (k : FaultKind) (s : State) :
    (faultedState k s).aiu.faultKind = some k := rfl
@[simp] theorem faultedState_area (k : FaultKind) (s : State) : (faultedState k s).aiu.area = s.aiu.area := rfl
@[simp] theorem faultedState_mask (k : FaultKind) (s : State) : (faultedState k s).aiu.mask = s.aiu.mask := rfl
@[simp] theorem faultedState_frameCount (k : FaultKind) (s : State) :
    (faultedState k s).aiu.frameCount = s.aiu.frameCount := rfl
@[simp] theorem faultedState_countEnd (k : FaultKind) (s : State) :
    (faultedState k s).aiu.countEnd = s.aiu.countEnd := rfl
@[simp] theorem faultedState_causes (k : FaultKind) (s : State) :
    (faultedState k s).aiu.causes = withCause s.aiu.causes .fault := rfl
@[simp] theorem faultedState_ciu (k : FaultKind) (s : State) : (faultedState k s).ciu = s.ciu := rfl
@[simp] theorem faultedState_it (k : FaultKind) (s : State) : (faultedState k s).it = s.it := rfl
@[simp] theorem faultedState_points (k : FaultKind) (s : State) :
    (faultedState k s).cs.points = s.cs.points := rfl
@[simp] theorem faultedState_valid (k : FaultKind) (s : State) :
    (faultedState k s).cs.valid = s.cs.valid := rfl
@[simp] theorem faultedState_loadBuffer (k : FaultKind) (s : State) :
    (faultedState k s).cs.loadBuffer = [] := rfl
@[simp] theorem faultedState_lbu (k : FaultKind) (s : State) :
    (faultedState k s).lbu = queryAbsent s.aiu.frameCount s.lbu := rfl
theorem faultedState_query (k : FaultKind) (s : State) :
    (faultedState k s).lbu.pendingQuery = none := rfl
@[simp] theorem faultedState_ct (k : FaultKind) (s : State) : (faultedState k s).ct = s.ct := rfl
@[simp] theorem faultedState_mlc (k : FaultKind) (s : State) : (faultedState k s).mlc = s.mlc := rfl
@[simp] theorem faultedState_mon (k : FaultKind) (s : State) : (faultedState k s).mon = s.mon := rfl
@[simp] theorem faultedState_bus (k : FaultKind) (s : State) : (faultedState k s).bus = s.bus := rfl
@[simp] theorem faultedState_freeUses (k : FaultKind) (s : State) :
    (faultedState k s).freeUses = s.freeUses := rfl
@[simp] theorem faultedState_pending (k : FaultKind) (s : State) :
    (faultedState k s).pending = s.pending := rfl

/-- The engine at the entry to FAULTED is FREE (R38). -/
@[simp] theorem faultedState_engine (k : FaultKind) (s : State) : (faultedState k s).ce.engine = .free := by
  show (terminatedCe s.ce).engine = .free
  unfold terminatedCe
  cases h : s.ce.engine <;> simp [jobKind, h]

/-- What a fault leaves of the engine's settings and claim (R170, R39). -/
theorem terminatedCe_kept (c : Ce) :
    (terminatedCe c).order = c.order ∧ (terminatedCe c).directiveClaim = c.directiveClaim
      ∧ (terminatedCe c).filter = c.filter ∧ (terminatedCe c).grading = c.grading := by
  unfold terminatedCe
  cases jobKind c.engine <;> exact ⟨rfl, rfl, rfl, rfl⟩

/-! ## Retirement -/

@[simp] theorem retiredLbu_query (n : Nat) (l : Lbu) : (retiredLbu n l).pendingQuery = l.pendingQuery := rfl
@[simp] theorem queryAbsent_query (n : Nat) (l : Lbu) : (queryAbsent n l).pendingQuery = none := rfl

theorem retiredLbu_get (n : Nat) (l : Lbu) (i : BankIx) :
    (retiredLbu n l).banks.get i = retiredBank n l i := by
  cases i <;> rfl

/-- What a retirement makes of a bank: EMPTY, of a RETIRING bank whose retire frame is reached, or what it
was. -/
theorem retiredBank_cases (n : Nat) (l : Lbu) (i : BankIx) :
    retiredBank n l i = l.banks.get i
      ∨ retiredBank n l i = .empty ∧ ∃ st p f, l.banks.get i = .retiring st p f ∧ f ≤ n := by
  unfold retiredBank
  by_cases hd : retirementDue n l i = true
  · rw [if_pos hd]
    refine .inr ⟨rfl, ?_⟩
    unfold retirementDue at hd
    cases h : l.banks.get i <;> rw [h] at hd <;> simp [bankRetire] at hd
    exact ⟨_, _, _, rfl, hd.1⟩
  · rw [if_neg hd]
    exact .inl rfl

/-- With no retirement due nothing changes. -/
theorem retiredLbu_of_not_due {n : Nat} {l : Lbu} (h : ∀ i, retirementDue n l i = false) :
    retiredLbu n l = l := by
  unfold retiredLbu retiredBank
  simp only [h, Bool.false_eq_true, if_false]
  rfl

/-- With no query pending a retirement waits for its frame alone. -/
theorem retirementDue_absent (n : Nat) (l : Lbu) (i : BankIx) (h : l.pendingQuery = none) :
    retirementDue n l i = (bankRetire (l.banks.get i)).any (fun f => decide (f ≤ n)) := by
  unfold retirementDue queryHolds
  rw [h]
  cases bankRetire (l.banks.get i) <;> simp

theorem retirementDue_congr (n : Nat) {l m : Lbu} (i : BankIx) (hl : l.pendingQuery = none)
    (hm : m.pendingQuery = none) (h : l.banks.get i = m.banks.get i) :
    retirementDue n l i = retirementDue n m i := by
  rw [retirementDue_absent n l i hl, retirementDue_absent n m i hm, h]

/-- A bank after the pending query has become absent. -/
theorem queryAbsent_get (n : Nat) (l : Lbu) (i : BankIx) :
    (queryAbsent n l).banks.get i
      = if (bankRetire (l.banks.get i)).any (fun f => decide (f ≤ n)) then .empty else l.banks.get i := by
  unfold queryAbsent
  rw [retiredLbu_get, retiredBank, retirementDue_absent _ _ _ rfl]

theorem lbu_ext {l m : Lbu} (h : ∀ i, l.banks.get i = m.banks.get i) (hq : l.pendingQuery = m.pendingQuery) :
    l = m := by
  obtain ⟨⟨a, b⟩, q⟩ := l
  obtain ⟨⟨c, d⟩, r⟩ := m
  have h0 : a = c := h .i0
  have h1 : b = d := h .i1
  have h2 : q = r := hq
  rw [h0, h1, h2]

theorem retiredBank_retire (n : Nat) (l : Lbu) (i : BankIx) :
    (if (bankRetire (retiredBank n l i)).any (fun f => decide (f ≤ n)) then .empty else retiredBank n l i)
      = if (bankRetire (l.banks.get i)).any (fun f => decide (f ≤ n)) then .empty else l.banks.get i := by
  rcases retiredBank_cases n l i with h | ⟨h, st, p, f, hl, hf⟩
  · rw [h]
  · rw [h, hl]
    simp [bankRetire, hf]

/-- A retirement before the pending query becomes absent is none beside it. -/
@[simp] theorem queryAbsent_retiredLbu (n : Nat) (l : Lbu) :
    queryAbsent n (retiredLbu n l) = queryAbsent n l :=
  lbu_ext (fun i => by rw [queryAbsent_get, queryAbsent_get, retiredLbu_get, retiredBank_retire]) rfl

@[simp] theorem queryAbsent_queryAbsent (n : Nat) (l : Lbu) :
    queryAbsent n (queryAbsent n l) = queryAbsent n l :=
  queryAbsent_retiredLbu n { l with pendingQuery := none }

/-- Once the pending query is absent no retirement is left to be made. -/
@[simp] theorem retiredLbu_queryAbsent (n : Nat) (l : Lbu) :
    retiredLbu n (queryAbsent n l) = queryAbsent n l :=
  queryAbsent_queryAbsent n l

/-! ## The job in hand -/

@[simp] theorem putDirJob_engine (j : DirJob) (s : State) : (putDirJob j s).ce.engine = .directive j := rfl
@[simp] theorem putDirJob_order (j : DirJob) (s : State) : (putDirJob j s).ce.order = s.ce.order := rfl
@[simp] theorem putDirJob_claim (j : DirJob) (s : State) :
    (putDirJob j s).ce.directiveClaim = s.ce.directiveClaim := rfl
@[simp] theorem putDirJob_filter (j : DirJob) (s : State) : (putDirJob j s).ce.filter = s.ce.filter := rfl
@[simp] theorem putDirJob_grading (j : DirJob) (s : State) : (putDirJob j s).ce.grading = s.ce.grading := rfl
@[simp] theorem putDirJob_aiu (j : DirJob) (s : State) : (putDirJob j s).aiu = s.aiu := rfl
@[simp] theorem putDirJob_ciu (j : DirJob) (s : State) : (putDirJob j s).ciu = s.ciu := rfl
@[simp] theorem putDirJob_it (j : DirJob) (s : State) : (putDirJob j s).it = s.it := rfl
@[simp] theorem putDirJob_cs (j : DirJob) (s : State) : (putDirJob j s).cs = s.cs := rfl
@[simp] theorem putDirJob_lbu (j : DirJob) (s : State) : (putDirJob j s).lbu = s.lbu := rfl
@[simp] theorem putDirJob_ct (j : DirJob) (s : State) : (putDirJob j s).ct = s.ct := rfl
@[simp] theorem putDirJob_mlc (j : DirJob) (s : State) : (putDirJob j s).mlc = s.mlc := rfl
@[simp] theorem putDirJob_mon (j : DirJob) (s : State) : (putDirJob j s).mon = s.mon := rfl
@[simp] theorem putDirJob_bus (j : DirJob) (s : State) : (putDirJob j s).bus = s.bus := rfl

@[simp] theorem putTake_engine (h : Head) (k : Fin 8) (j : TakeJob) (s : State) :
    (putTake h k j s).ce.engine = .take h k j := rfl
@[simp] theorem putTake_aiu (h : Head) (k : Fin 8) (j : TakeJob) (s : State) :
    (putTake h k j s).aiu = s.aiu := rfl
@[simp] theorem putTake_ciu (h : Head) (k : Fin 8) (j : TakeJob) (s : State) :
    (putTake h k j s).ciu = s.ciu := rfl
@[simp] theorem putTake_it (h : Head) (k : Fin 8) (j : TakeJob) (s : State) :
    (putTake h k j s).it = s.it := rfl
@[simp] theorem putTake_cs (h : Head) (k : Fin 8) (j : TakeJob) (s : State) :
    (putTake h k j s).cs = s.cs := rfl
@[simp] theorem putTake_lbu (h : Head) (k : Fin 8) (j : TakeJob) (s : State) :
    (putTake h k j s).lbu = s.lbu := rfl
@[simp] theorem putTake_ct (h : Head) (k : Fin 8) (j : TakeJob) (s : State) :
    (putTake h k j s).ct = s.ct := rfl
@[simp] theorem putTake_mlc (h : Head) (k : Fin 8) (j : TakeJob) (s : State) :
    (putTake h k j s).mlc = s.mlc := rfl
@[simp] theorem putTake_mon (h : Head) (k : Fin 8) (j : TakeJob) (s : State) :
    (putTake h k j s).mon = s.mon := rfl
@[simp] theorem putTake_bus (h : Head) (k : Fin 8) (j : TakeJob) (s : State) :
    (putTake h k j s).bus = s.bus := rfl

@[simp] theorem putCard_engine (h : Head) (k : Fin 8) (j : CardJob) (s : State) :
    (putCard h k j s).ce.engine = .card h k j := rfl
@[simp] theorem putCard_aiu (h : Head) (k : Fin 8) (j : CardJob) (s : State) :
    (putCard h k j s).aiu = s.aiu := rfl
@[simp] theorem putCard_ciu (h : Head) (k : Fin 8) (j : CardJob) (s : State) :
    (putCard h k j s).ciu = s.ciu := rfl
@[simp] theorem putCard_it (h : Head) (k : Fin 8) (j : CardJob) (s : State) :
    (putCard h k j s).it = s.it := rfl
@[simp] theorem putCard_cs (h : Head) (k : Fin 8) (j : CardJob) (s : State) :
    (putCard h k j s).cs = s.cs := rfl
@[simp] theorem putCard_lbu (h : Head) (k : Fin 8) (j : CardJob) (s : State) :
    (putCard h k j s).lbu = s.lbu := rfl
@[simp] theorem putCard_ct (h : Head) (k : Fin 8) (j : CardJob) (s : State) :
    (putCard h k j s).ct = s.ct := rfl
@[simp] theorem putCard_mlc (h : Head) (k : Fin 8) (j : CardJob) (s : State) :
    (putCard h k j s).mlc = s.mlc := rfl
@[simp] theorem putCard_mon (h : Head) (k : Fin 8) (j : CardJob) (s : State) :
    (putCard h k j s).mon = s.mon := rfl
@[simp] theorem putCard_bus (h : Head) (k : Fin 8) (j : CardJob) (s : State) :
    (putCard h k j s).bus = s.bus := rfl

/-! ## One record of a block -/

@[simp] theorem putLastTaken_lastTaken (h : Head) (f : Option Nat) (s : State) :
    (putLastTaken h f s).ciu.lastTaken = s.ciu.lastTaken.set h f := rfl
@[simp] theorem putLastTaken_candidate (h : Head) (f : Option Nat) (s : State) :
    (putLastTaken h f s).ciu.candidate = s.ciu.candidate := rfl
@[simp] theorem putLastTaken_ce (h : Head) (f : Option Nat) (s : State) :
    (putLastTaken h f s).ce = s.ce := rfl
@[simp] theorem putLastTaken_aiu (h : Head) (f : Option Nat) (s : State) :
    (putLastTaken h f s).aiu = s.aiu := rfl
@[simp] theorem putLastTaken_bus (h : Head) (f : Option Nat) (s : State) :
    (putLastTaken h f s).bus = s.bus := rfl

@[simp] theorem putContext_contexts (i : Fin 4) (x : Context) (s : State) :
    (putContext i x s).it.contexts = s.it.contexts.set i (some x) := rfl
@[simp] theorem putContext_active (i : Fin 4) (x : Context) (s : State) :
    (putContext i x s).it.active = s.it.active := rfl
@[simp] theorem putContext_latest (i : Fin 4) (x : Context) (s : State) :
    (putContext i x s).it.latest = s.it.latest := rfl
@[simp] theorem putContext_marks (i : Fin 4) (x : Context) (s : State) :
    (putContext i x s).it.marks = s.it.marks := rfl
@[simp] theorem putContext_snap (i : Fin 4) (x : Context) (s : State) :
    (putContext i x s).it.snapRequest = s.it.snapRequest := rfl
@[simp] theorem putContext_lastStep (i : Fin 4) (x : Context) (s : State) :
    (putContext i x s).it.lastStep = s.it.lastStep := rfl

@[simp] theorem putBank_banks (i : BankIx) (b : Bank) (s : State) :
    (putBank i b s).lbu.banks = s.lbu.banks.set i b := rfl
@[simp] theorem putBank_query (i : BankIx) (b : Bank) (s : State) :
    (putBank i b s).lbu.pendingQuery = s.lbu.pendingQuery := rfl
@[simp] theorem putBank_aiu (i : BankIx) (b : Bank) (s : State) : (putBank i b s).aiu = s.aiu := rfl
@[simp] theorem putBank_ce (i : BankIx) (b : Bank) (s : State) : (putBank i b s).ce = s.ce := rfl
@[simp] theorem putBank_bus (i : BankIx) (b : Bank) (s : State) : (putBank i b s).bus = s.bus := rfl

@[simp] theorem putExchange_exchange (x : Option Exchange) (s : State) :
    (putExchange x s).mlc.exchange = x := rfl
@[simp] theorem putExchange_link (x : Option Exchange) (s : State) :
    (putExchange x s).mlc.link = s.mlc.link := rfl
@[simp] theorem putExchange_missCount (x : Option Exchange) (s : State) :
    (putExchange x s).mlc.missCount = s.mlc.missCount := rfl
@[simp] theorem putExchange_finishing (x : Option Exchange) (s : State) :
    (putExchange x s).mlc.finishing = s.mlc.finishing := rfl
@[simp] theorem putExchange_abandons (x : Option Exchange) (s : State) :
    (putExchange x s).mlc.abandons = s.mlc.abandons := rfl
@[simp] theorem lineQuiet_finishing (s : State) : (lineQuiet s).mlc.finishing = none := rfl
@[simp] theorem lineQuiet_exchange (s : State) : (lineQuiet s).mlc.exchange = s.mlc.exchange := rfl
@[simp] theorem lineQuiet_link (s : State) : (lineQuiet s).mlc.link = s.mlc.link := rfl
@[simp] theorem lineQuiet_bus (s : State) : (lineQuiet s).bus = s.bus := rfl
/-- All that abandoning an exchange changes: the exchange, the character being finished and the count. -/
theorem abandoned_eq (m : Mlc) :
    abandoned m = { m with exchange := none, finishing := (abandoned m).finishing,
                           abandons := (abandoned m).abandons } := by
  obtain ⟨link, en, floor, miss, cls, rd, last, hold, x, fin, n⟩ := m
  rcases x with _ | ⟨k, _ | _ | _⟩ <;> rfl

@[simp] theorem abandoned_exchange (m : Mlc) : (abandoned m).exchange = none := by rw [abandoned_eq]
@[simp] theorem abandoned_enable (m : Mlc) : (abandoned m).enable = m.enable := by rw [abandoned_eq]
@[simp] theorem abandoned_luxFloor (m : Mlc) : (abandoned m).luxFloor = m.luxFloor := by rw [abandoned_eq]
@[simp] theorem abandoned_podClass (m : Mlc) : (abandoned m).podClass = m.podClass := by rw [abandoned_eq]

@[simp] theorem begunMlc_exchange (k : ExchangeKind) (m : Mlc) :
    (begunMlc k m).exchange = some { kind := k, phase := .sending } := rfl
@[simp] theorem begunMlc_finishing (k : ExchangeKind) (m : Mlc) : (begunMlc k m).finishing = none := rfl
@[simp] theorem begunMlc_link (k : ExchangeKind) (m : Mlc) : (begunMlc k m).link = m.link := rfl
@[simp] theorem begunMlc_missCount (k : ExchangeKind) (m : Mlc) :
    (begunMlc k m).missCount = m.missCount := rfl

@[simp] theorem putExchange_bus (x : Option Exchange) (s : State) : (putExchange x s).bus = s.bus := rfl

@[simp] theorem putCounter_counters (i : Fin 4) (c : Counter) (s : State) :
    (putCounter i c s).mon.counters = s.mon.counters.set i c := rfl
@[simp] theorem putCounter_frozen (i : Fin 4) (c : Counter) (s : State) :
    (putCounter i c s).mon.frozen = s.mon.frozen := rfl
@[simp] theorem putCounter_freezeOnCut (i : Fin 4) (c : Counter) (s : State) :
    (putCounter i c s).mon.freezeOnCut = s.mon.freezeOnCut := rfl

@[simp] theorem putMask_mask (w : BitVec 32) (s : State) : (putMask w s).aiu.mask = controlMask w := rfl
@[simp] theorem putMask_run (w : BitVec 32) (s : State) : (putMask w s).aiu.run = s.aiu.run := rfl
@[simp] theorem putMask_area (w : BitVec 32) (s : State) : (putMask w s).aiu.area = s.aiu.area := rfl
@[simp] theorem putMask_ce (w : BitVec 32) (s : State) : (putMask w s).ce = s.ce := rfl
@[simp] theorem putMask_bus (w : BitVec 32) (s : State) : (putMask w s).bus = s.bus := rfl

/-! ## The base address -/

/-- The work area's base is that of AREA, whatever else differs. -/
theorem base_eq_of_area {s t : State} (h : t.aiu.area = s.aiu.area) : base t = base s := by
  unfold base
  rw [h]

@[simp] theorem base_with_bus (s : State) (b : Bus) : base { s with bus := b } = base s := rfl
@[simp] theorem base_spendAccess (s : State) : base s.spendAccess = base s := rfl
@[simp] theorem base_faultedState (k : FaultKind) (s : State) : base (faultedState k s) = base s := rfl

end Sys2Proof.Machine
end

