-- ==== Sys2Proof/Laws/Shown.lean ====
section
/-! SUPPORT. What an access to shared memory can do, said once: a read or a write, the entry to FAULTED, the
rewriting of status fields and bank headers, and the setting of a cause. Each leaves the state as it was
but for bytes of a named set, or, when an access fails, enters FAULTED. -/

namespace Sys2Proof.Machine

/-! ## Another bus -/

@[simp] theorem onBus_bus (s : State) (b : Bus) : (s.onBus b).bus = b := rfl
@[simp] theorem onBus_aiu (s : State) (b : Bus) : (s.onBus b).aiu = s.aiu := rfl
@[simp] theorem onBus_ciu (s : State) (b : Bus) : (s.onBus b).ciu = s.ciu := rfl
@[simp] theorem onBus_ce (s : State) (b : Bus) : (s.onBus b).ce = s.ce := rfl
@[simp] theorem onBus_it (s : State) (b : Bus) : (s.onBus b).it = s.it := rfl
@[simp] theorem onBus_cs (s : State) (b : Bus) : (s.onBus b).cs = s.cs := rfl
@[simp] theorem onBus_lbu (s : State) (b : Bus) : (s.onBus b).lbu = s.lbu := rfl
@[simp] theorem onBus_ct (s : State) (b : Bus) : (s.onBus b).ct = s.ct := rfl
@[simp] theorem onBus_mlc (s : State) (b : Bus) : (s.onBus b).mlc = s.mlc := rfl
@[simp] theorem onBus_mon (s : State) (b : Bus) : (s.onBus b).mon = s.mon := rfl
@[simp] theorem onBus_freeUses (s : State) (b : Bus) : (s.onBus b).freeUses = s.freeUses := rfl
@[simp] theorem onBus_pending (s : State) (b : Bus) : (s.onBus b).pending = s.pending := rfl
@[simp] theorem onBus_onBus (s : State) (b c : Bus) : (s.onBus b).onBus c = s.onBus c := rfl
@[simp] theorem onBus_self (s : State) : s.onBus s.bus = s := rfl
@[simp] theorem cardAddr_onBus (s : State) (b : Bus) (h : Head) (k : Fin 8) :
    cardAddr (s.onBus b) h k = cardAddr s h k := rfl
@[simp] theorem slotAddr_onBus (s : State) (b : Bus) : slotAddr (s.onBus b) = slotAddr s := rfl
@[simp] theorem entryAddr_onBus (s : State) (b : Bus) (i : BankIx) (e : Nat) :
    entryAddr (s.onBus b) i e = entryAddr s i e := rfl
theorem spendAccess_eq (s : State) : s.spendAccess = s.onBus s.bus.spend := rfl
@[simp] theorem spend_mem (b : Bus) : b.spend.mem = b.mem := rfl
@[simp] theorem base_onBus (s : State) (b : Bus) : base (s.onBus b) = base s := rfl
@[simp] theorem faultedState_onBus (k : FaultKind) (s : State) (b : Bus) :
    faultedState k (s.onBus b) = (faultedState k s).onBus b := rfl

/-! ## One bus and another -/

theorem Bus.Within.refl (P : Nat → Prop) (b : Bus) : b.Within P b := ⟨rfl, id, id, fun _ _ => rfl⟩

theorem Bus.Within.trans {P : Nat → Prop} {b c d : Bus} (h : b.Within P c) (k : c.Within P d) :
    b.Within P d :=
  ⟨k.1.trans h.1, k.2.1 ∘ h.2.1, k.2.2.1 ∘ h.2.2.1,
    fun a ha => (k.2.2.2 a ha).trans (h.2.2.2 a ha)⟩

theorem Bus.Within.mono {P Q : Nat → Prop} {b c : Bus} (h : b.Within P c) (hPQ : ∀ a, P a → Q a) :
    b.Within Q c :=
  ⟨h.1, h.2.1, h.2.2.1, fun a ha => h.2.2.2 a fun hp => ha (hPQ a hp)⟩

theorem Bus.Within.spend (P : Nat → Prop) (b : Bus) : b.Within P b.spend :=
  ⟨rfl, fun h => by simp [Bus.spend, h], id, fun _ _ => rfl⟩

theorem Bus.Within.answers {P : Nat → Prop} {b c : Bus} (h : b.Within P c) (a n : Nat) :
    c.answers a n = b.answers a n := by
  simp only [Bus.answers, h.1]

/-- Bytes outside the set read as before. -/
theorem Bus.Within.readLE {P : Nat → Prop} {b c : Bus} (h : b.Within P c) {a n : Nat}
    (hd : ∀ j, a ≤ j → j < a + n → ¬ P j) : c.mem.readLE a n = b.mem.readLE a n :=
  Memory.readLE_congr fun j h1 h2 => h.2.2.2 j (hd j h1 h2)

/-! ## Accesses -/

theorem Bus.answers_sub {b : Bus} {a n a' n' : Nat} (h : b.answers a n = true) (h1 : a ≤ a')
    (h2 : a' + n' ≤ a + n) : b.answers a' n' = true := by
  simp only [Bus.answers, Bool.and_eq_true, decide_eq_true_eq, List.all_eq_true, Bool.or_eq_true] at h ⊢
  refine ⟨by omega, fun r hr => ?_⟩
  rcases h.2 r hr with h | h
  · left; omega
  · right; omega

/-- An access of the work area succeeds when the area is clear. -/
theorem Clear.succeeds {s : State} (h : Clear s) {a n : Nat} (h1 : base s ≤ a)
    (h2 : a + n ≤ base s + 0x16000) : s.bus.succeeds a n = true := by
  simp [Bus.succeeds, Bus.answers_sub h.2 h1 h2, h.1]

theorem Clear.of_within {P : Nat → Prop} {s t : State} (h : Clear s) (hb : s.bus.Within P t.bus)
    (ha : base t = base s) : Clear t :=
  ⟨hb.2.1 h.1, by rw [hb.answers, ha]; exact h.2⟩

theorem not_clear_of_fails {s : State} {a n : Nat} (h : s.bus.succeeds a n = false) (h1 : base s ≤ a)
    (h2 : a + n ≤ base s + 0x16000) : ¬ Clear s := fun hc => by
  rw [hc.succeeds h1 h2] at h
  cases h

/-- What a write does: its bytes are written when it succeeds, and nothing but the plan moves otherwise. -/
theorem busWrite_spec (s : State) (f : Field) :
    ∃ c, (busWrite s f).2 = s.onBus c ∧ s.bus.Within (Bytes f.off f.size) c
      ∧ (busWrite s f).1 = s.bus.succeeds f.off f.size
      ∧ c.failPlan = s.bus.failPlan.tail
      ∧ c.mem = if s.bus.succeeds f.off f.size then s.bus.mem.writeLE f.off f.val f.size else s.bus.mem := by
  unfold busWrite
  split
  · rename_i h
    refine ⟨_, rfl, ⟨rfl, fun h => by simp [Bus.spend, h], fun h => Memory.wf_writeLE h, fun a ha => ?_⟩,
      h.symm, rfl, rfl⟩
    exact Memory.readByte_writeLE_of_outside _ _ _ _ _ (by unfold Bytes at ha; omega)
  · rename_i h
    exact ⟨_, rfl, Bus.Within.spend _ _, by simp at h; simp [h], rfl, rfl⟩

/-- What a read does: it leaves memory alone, and answers what memory holds when it succeeds. -/
theorem busRead_spec (s : State) (a n : Nat) :
    (busRead s a n).2 = s.onBus s.bus.spend
      ∧ (busRead s a n).1 = if s.bus.succeeds a n then some (s.bus.mem.readLE a n) else none :=
  ⟨rfl, rfl⟩

/-! ## The relation -/

/-- `t` is `s` but for bytes of a set, or, where an access of the area failed, `s` as FAULTED leaves it, with
bytes of the status block and the headers written too. -/
def Shown (P : Nat → Prop) (s t : State) : Prop :=
  (∃ c, s.bus.Within P c ∧ t = s.onBus c)
    ∨ (¬ Clear s ∧ s.aiu.run ≠ .faulted
      ∧ ∃ k c, s.bus.Within (fun a => P a ∨ FrontBytes s a) c ∧ t = (faultedState k s).onBus c)

theorem Shown.refl (P : Nat → Prop) (s : State) : Shown P s s := .inl ⟨_, Bus.Within.refl P _, rfl⟩

theorem Shown.mono {P Q : Nat → Prop} {s t : State} (h : Shown P s t) (hPQ : ∀ a, P a → Q a) :
    Shown Q s t := by
  obtain ⟨c, hw, e⟩ | ⟨hn, hr, k, c, hw, e⟩ := h
  · exact .inl ⟨c, hw.mono hPQ, e⟩
  · exact .inr ⟨hn, hr, k, c, hw.mono fun a => Or.imp_left (hPQ a), e⟩

theorem Shown.area {P : Nat → Prop} {s t : State} (h : Shown P s t) : t.aiu.area = s.aiu.area := by
  obtain ⟨c, -, rfl⟩ | ⟨-, -, k, c, -, rfl⟩ := h <;> rfl

theorem Shown.base_eq {P : Nat → Prop} {s t : State} (h : Shown P s t) : base t = base s :=
  base_eq_of_area h.area

theorem Shown.within {P : Nat → Prop} {s t : State} (h : Shown P s t) :
    s.bus.Within (fun a => P a ∨ FrontBytes s a) t.bus := by
  obtain ⟨c, hw, rfl⟩ | ⟨-, -, k, c, hw, rfl⟩ := h
  · exact hw.mono fun _ => .inl
  · exact hw

theorem Shown.clear {P : Nat → Prop} {s t : State} (h : Shown P s t) (hc : Clear s) : Clear t :=
  hc.of_within h.within h.base_eq

/-- With no failing access nothing but bytes of the set changes. -/
theorem Shown.of_clear {P : Nat → Prop} {s t : State} (h : Shown P s t) (hc : Clear s) :
    ∃ c, s.bus.Within P c ∧ t = s.onBus c :=
  h.resolve_right fun hn => hn.1 hc

theorem Shown.trans {P : Nat → Prop} {s t u : State} (h : Shown P s t) (k : Shown P t u) : Shown P s u := by
  have hcl := h.clear
  obtain ⟨c, hw, rfl⟩ | ⟨hn, hr, x, c, hw, rfl⟩ := h
  · obtain ⟨d, hd, rfl⟩ | ⟨hn', hr', y, d, hd, rfl⟩ := k
    · exact .inl ⟨d, hw.trans hd, rfl⟩
    · exact .inr ⟨fun hc => hn' (hcl hc), hr', y, d, (hw.mono fun _ => .inl).trans hd, rfl⟩
  · obtain ⟨d, hd, rfl⟩ | ⟨-, hr', -⟩ := k
    · exact .inr ⟨hn, hr, x, d, hw.trans (hd.mono fun _ => .inl), rfl⟩
    · exact absurd rfl hr'

/-- A run of operations, each of which is shown. -/
theorem Shown.foldl {α : Type} {P : Nat → Prop} {f : State → α → State}
    (h : ∀ s a, Shown P s (f s a)) (l : List α) (s : State) : Shown P s (l.foldl f s) := by
  induction l generalizing s with
  | nil => exact Shown.refl P s
  | cons a l ih => exact (h s a).trans (ih _)

/-! ## Entering FAULTED -/

theorem emit_spec (P : Nat → Prop) (fs : List Field) (s : State)
    (h : ∀ f ∈ fs, ∀ a, Bytes f.off f.size a → P a) :
    ∃ c, s.bus.Within P c ∧ emit fs s = s.onBus c := by
  induction fs generalizing s with
  | nil => exact ⟨_, Bus.Within.refl P _, rfl⟩
  | cons f fs ih =>
    obtain ⟨c, hc, hw, -⟩ := busWrite_spec s f
    obtain ⟨d, hd, he⟩ := ih (s.onBus c) fun g hg => h g (List.mem_cons_of_mem _ hg)
    refine ⟨d, (hw.mono (h f List.mem_cons_self)).trans hd, ?_⟩
    rw [emit, hc, he, onBus_onBus]

theorem mem_differing {f : Field} {new old : List Field} (h : f ∈ differing new old) : f ∈ new := by
  unfold differing at h
  obtain ⟨p, hp, rfl⟩ := List.mem_map.1 h
  exact (List.of_mem_zip (List.mem_filter.1 hp).1).1

/-- Every field of every owner lies in the status block. -/
theorem ownerFields_bound (o : Owner) (s : State) (f : Field) (h : f ∈ ownerFields o s) :
    f.off + f.size ≤ 0x80 := by
  cases o
  case cs =>
    simp only [ownerFields, csFields] at h
    split at h <;> simp only [List.mem_cons, List.not_mem_nil, or_false] at h <;>
      rcases h with rfl | rfl | rfl <;> simp
  all_goals
    simp only [ownerFields, aiuFields, ceFields, conditionFields, arbiterFields, ciuFields, itFields,
      stepFields, contextFields, ctFields,
      mlcFields, monFields, List.cons_append, List.nil_append, List.mem_cons,
      List.not_mem_nil, or_false] at h
    repeat' (first | (rcases h with rfl | h) | subst h)
    all_goals simp

/-- What an owner rewrites is among its fields, or the monitors' padding. -/
theorem mem_changedFields {o : Owner} {s t : State} {f : Field} (h : f ∈ changedFields o s t) :
    f ∈ ownerFields o t ∨ o = .mon ∧ f = monPadding := by
  cases o
  case ce =>
    rcases List.mem_append.1 h with h | h
    · refine .inl (List.mem_append_left _ ?_)
      split at h
      · exact mem_differing h
      · exact h
    · exact .inl (List.mem_append_right _ (mem_differing h))
  case mon =>
    simp only [changedFields, changedMonFields] at h
    split at h
    · simp at h
    · rename_i heq
      rcases List.mem_append.1 h with h | h
      · exact .inl (mem_differing (heq ▸ h))
      · exact .inr ⟨rfl, List.mem_singleton.1 h⟩
  all_goals exact .inl (mem_differing h)

theorem changedFields_bound (o : Owner) (s t : State) (f : Field) (h : f ∈ changedFields o s t) :
    f.off + f.size ≤ 0x80 := by
  rcases mem_changedFields h with h | ⟨-, rfl⟩
  · exact ownerFields_bound _ _ _ h
  · decide

theorem placed_bound {b n : Nat} {fs : List Field} (h : ∀ f ∈ fs, f.off + f.size ≤ n) :
    ∀ f ∈ placed b fs, ∀ a, Bytes f.off f.size a → Bytes b n a := by
  intro f hf a ha
  obtain ⟨g, hg, rfl⟩ := List.mem_map.1 hf
  have := h g hg
  unfold Bytes at *
  simp only at ha
  omega

theorem headerFields_bound (b : Bank) (f : Field) (h : f ∈ headerFields b) : f.off + f.size ≤ 0x40 := by
  simp only [headerFields, List.mem_cons, List.not_mem_nil, or_false] at h
  rcases h with rfl | rfl | rfl | rfl | rfl | rfl <;> simp

theorem bankHeader_range (b : BankIx) : 0x1100 ≤ Config.bankHeader b ∧ Config.bankHeader b + 0x40 ≤ 0x1180 := by
  cases b <;> decide

theorem frontBytes_eq {s t : State} (h : base t = base s) : FrontBytes t = FrontBytes s := by
  unfold FrontBytes StatusBytes HeaderBytes
  rw [h]

/-- The headers rewritten lie in the two headers' places. -/
theorem changedHeaders_bound (s t : State) (f : Field) (h : f ∈ changedHeaders s t) (a : Nat)
    (ha : Bytes f.off f.size a) : FrontBytes t a := by
  have key : ∀ b, f ∈ (if s.lbu.banks.get b = t.lbu.banks.get b then []
      else placed (base t + Config.bankHeader b) (headerFields (t.lbu.banks.get b))) → HeaderBytes t b a := by
    intro b hf
    split at hf
    · simp at hf
    · exact placed_bound (headerFields_bound (t.lbu.banks.get b)) f hf a ha
  rcases List.mem_append.1 h with h | h
  · exact .inr (.inl (key .i0 h))
  · exact .inr (.inr (key .i1 h))

/-- What a failed access of a listed kind does (R170). -/
theorem enterFault_spec (k : FaultKind) (s : State) :
    ∃ c, s.bus.Within (FrontBytes s) c ∧
      enterFault k s = if s.aiu.run = .faulted then s.onBus c
        else (faultedState k s).onBus c := by
  unfold enterFault
  split
  · exact ⟨_, Bus.Within.refl _ _, rfl⟩
  · refine emit_spec (FrontBytes s) _ (faultedState k s) fun f hf a ha => ?_
    rcases List.mem_append.1 hf with hf | hf
    · refine .inl (placed_bound (fun g hg => ?_) f hf a ha)
      rcases List.mem_append.1 hg with hg | hg <;> exact changedFields_bound _ _ _ _ hg
    · exact changedHeaders_bound s (faultedState k s) f hf a ha

/-- A failed access of the area is shown. -/
theorem Shown.fault {P : Nat → Prop} {s : State} (k : FaultKind) {b : Bus} (hn : ¬ Clear s)
    (hb : s.bus.Within P b) (hr : s.aiu.run ≠ .faulted) : Shown P s (enterFault k (s.onBus b)) := by
  obtain ⟨c, hc, he⟩ := enterFault_spec k (s.onBus b)
  rw [he, onBus_aiu, if_neg hr]
  exact .inr ⟨hn, hr, k, c, (hb.mono fun _ => .inl).trans (hc.mono fun _ => .inr), rfl⟩

/-- A failed access of the area, whatever the run state. -/
theorem Shown.failed {P : Nat → Prop} {s : State} (k : FaultKind) {b : Bus} (hn : ¬ Clear s)
    (hb : s.bus.Within P b) : Shown P s (enterFault k (s.onBus b)) := by
  by_cases hr : s.aiu.run = .faulted
  · exact .inl ⟨b, hb, if_pos hr⟩
  · exact Shown.fault k hn hb hr

/-! ## Status fields, headers, causes -/

theorem freshField_bound (s : State) (o : Owner) (f : Field) (h : f.off + f.size ≤ 0x80) :
    f.off + (freshField s o f).size ≤ 0x80 := by
  unfold freshField
  cases hf : (ownerFields o s).find? (fun g => g.off == f.off) with
  | none => exact h
  | some g =>
    have h1 := ownerFields_bound o s g (List.mem_of_find?_eq_some hf)
    have h2 := List.find?_some hf
    simp only [beq_iff_eq] at h2
    simp only [Option.getD_some]
    omega

theorem putStatusField_shown (s : State) (o : Owner) (f : Field) (h : f.off + f.size ≤ 0x80) :
    Shown (StatusBytes s) s (putStatusField s o f) := by
  unfold putStatusField
  split
  · exact Shown.refl _ _
  · have hf := freshField_bound s o f h
    obtain ⟨c, hc, hw, hb, -⟩ := busWrite_spec s { freshField s o f with off := base s + f.off }
    have hw' : s.bus.Within (StatusBytes s) c := hw.mono fun a ha => by
      unfold StatusBytes Bytes at *
      simp only at ha
      omega
    split
    · rename_i t heq
      rw [heq] at hc
      exact .inl ⟨c, hw', hc⟩
    · rename_i t heq
      rw [heq] at hc hb
      simp only at hc hb
      subst hc
      exact Shown.failed _ (not_clear_of_fails hb.symm (Nat.le_add_right _ _) (by omega)) hw'

theorem statusBytes_eq {s t : State} (h : base t = base s) : StatusBytes t = StatusBytes s := by
  unfold StatusBytes
  rw [h]

/-- The rewriting of an owner's fields. -/
theorem putStatus_shown (o : Owner) (fs : List Field) (s : State) (h : ∀ f ∈ fs, f.off + f.size ≤ 0x80) :
    Shown (StatusBytes s) s (putStatus o fs s) := by
  unfold putStatus
  induction fs generalizing s with
  | nil => exact Shown.refl _ _
  | cons f fs ih =>
    have h1 := putStatusField_shown s o f (h f List.mem_cons_self)
    have h2 := ih (putStatusField s o f) fun g hg => h g (List.mem_cons_of_mem _ hg)
    rw [statusBytes_eq h1.base_eq] at h2
    exact h1.trans h2

/-- The rewriting of several owners' fields, once a predicate of the state is known to follow. -/
theorem owners_shown (os : List Owner) (s : State) (g : State → Owner → State)
    (h : ∀ t o, Shown (StatusBytes t) t (g t o)) : Shown (StatusBytes s) s (os.foldl g s) := by
  induction os generalizing s with
  | nil => exact Shown.refl _ _
  | cons o os ih =>
    have h1 := h s o
    have h2 := ih (g s o)
    rw [statusBytes_eq h1.base_eq] at h2
    exact h1.trans h2

/-- What a rewrite does (R175): status bytes, or FAULTED. -/
theorem rewrite_shown (os : List Owner) (before after : State) :
    Shown (StatusBytes after) after (rewrite os before after) :=
  owners_shown os after _ fun t o => putStatus_shown o _ t fun f hf => changedFields_bound _ _ _ f hf

/-- The same, in terms of the area before the update. -/
theorem rewrite_from (os : List Owner) (before after : State) (h : base after = base before) :
    Shown (StatusBytes before) after (rewrite os before after) := by
  rw [← statusBytes_eq h]
  exact rewrite_shown os before after

/-- What the rewrite of every field does (R175). -/
theorem rewriteAll_shown (s : State) : Shown (StatusBytes s) s (rewriteAll s) := by
  refine owners_shown Owner.all s _ fun t o => putStatus_shown o _ t fun f hf => ?_
  rcases List.mem_append.1 hf with hf | hf
  · exact ownerFields_bound _ _ _ hf
  · split at hf
    · simp only [List.mem_singleton] at hf
      subst hf
      decide
    · simp at hf

/-- What the writing of a record's fields does: the fields' bytes, or FAULTED with the kind given. -/
theorem writeFields_shown (P : Nat → Prop) (k : FaultKind) (fs : List Field) (s : State)
    (h : ∀ f ∈ fs, ∀ a, Bytes f.off f.size a → P a)
    (hin : ∀ f ∈ fs, base s ≤ f.off ∧ f.off + f.size ≤ base s + 0x16000) :
    Shown P s (writeFields k fs s).2 ∧ (Clear s → (writeFields k fs s).1 = true)
      ∧ ((writeFields k fs s).1 = true → ∃ c, (writeFields k fs s).2 = s.onBus c) := by
  induction fs generalizing s with
  | nil => exact ⟨Shown.refl _ _, fun _ => rfl, fun _ => ⟨s.bus, rfl⟩⟩
  | cons f fs ih =>
    obtain ⟨c, hc, hw, hb, -⟩ := busWrite_spec s f
    have hw' := hw.mono (h f List.mem_cons_self)
    obtain ⟨h1, h2⟩ := hin f List.mem_cons_self
    unfold writeFields
    split
    · rename_i t heq
      rw [heq] at hc
      simp only at hc
      subst hc
      obtain ⟨i1, i2, i3⟩ := ih (s.onBus c) (fun g hg => h g (List.mem_cons_of_mem _ hg))
        (fun g hg => hin g (List.mem_cons_of_mem _ hg))
      have hs : Shown P s (s.onBus c) := .inl ⟨c, hw', rfl⟩
      exact ⟨hs.trans i1, fun hcl => i2 (hs.clear hcl), i3⟩
    · rename_i t heq
      rw [heq] at hc hb
      simp only at hc hb
      subst hc
      have hn := not_clear_of_fails hb.symm h1 h2
      exact ⟨Shown.failed k hn hw', fun hcl => absurd hcl hn, fun hf => by simp at hf⟩

/-- What the rewriting of a header does (R113). -/
theorem writeHeader_shown (b : BankIx) (s : State) :
    Shown (HeaderBytes s b) s (writeHeader b s) := by
  have hr := bankHeader_range b
  refine (writeFields_shown _ .bankWrite _ s
    (fun f hf a ha => placed_bound (headerFields_bound (s.lbu.banks.get b)) f hf a ha)
    fun f hf => ?_).1
  obtain ⟨g, hg, rfl⟩ := List.mem_map.1 hf
  have := headerFields_bound _ g hg
  exact ⟨by show _ ≤ _ + _; omega, by show _ + _ + g.size ≤ _; omega⟩

theorem writeHeader_front (b : BankIx) (s : State) : Shown (FrontBytes s) s (writeHeader b s) := by
  refine (writeHeader_shown b s).mono fun a ha => ?_
  cases b
  · exact .inr (.inl ha)
  · exact .inr (.inr ha)

theorem Shown.front {s t u : State} (h : Shown (FrontBytes s) s t) (k : Shown (FrontBytes t) t u) :
    Shown (FrontBytes s) s u := by
  rw [frontBytes_eq h.base_eq] at k
  exact h.trans k

theorem Shown.status {s t u : State} (h : Shown (StatusBytes s) s t) (k : Shown (StatusBytes t) t u) :
    Shown (StatusBytes s) s u := by
  rw [statusBytes_eq h.base_eq] at k
  exact h.trans k

/-- The headers of the banks in which two states differ. -/
def ChangedHeaderBytes (before after : State) (a : Nat) : Prop :=
  ∃ i, before.lbu.banks.get i ≠ after.lbu.banks.get i ∧ HeaderBytes after i a

/-- What the rewriting of the changed headers does (R113). -/
theorem rewriteHeaders_shown (before after : State) :
    Shown (ChangedHeaderBytes before after) after (rewriteHeaders before after) := by
  have h0 : Shown (ChangedHeaderBytes before after) after
      (if before.lbu.banks.i0 = after.lbu.banks.i0 then after else writeHeader .i0 after) := by
    split
    · exact Shown.refl _ _
    · rename_i h
      exact (writeHeader_shown .i0 after).mono fun a ha => ⟨.i0, h, ha⟩
  show Shown _ _ (if _ then _ else _)
  split
  · exact h0
  · rename_i h
    refine h0.trans ((writeHeader_shown .i1 _).mono fun a ha => ⟨.i1, h, ?_⟩)
    unfold HeaderBytes at ha ⊢
    rwa [h0.base_eq] at ha

theorem changedHeaderBytes_front {before after : State} (a : Nat) (h : ChangedHeaderBytes before after a) :
    FrontBytes after a := by
  obtain ⟨i, -, h⟩ := h
  cases i
  · exact .inr (.inl h)
  · exact .inr (.inr h)

/-- What setting a cause does (R171). -/
theorem setCause_shown (c : Cause) (s : State) :
    Shown (StatusBytes s) { s with aiu := { s.aiu with causes := withCause s.aiu.causes c } } (setCause c s) :=
  rewrite_shown [.aiu] s { s with aiu := { s.aiu with causes := withCause s.aiu.causes c } }

theorem setCauseIf_shown (p : Bool) (c : Cause) (s : State) :
    Shown (StatusBytes s) (causedState p c s) (setCauseIf p c s) := by
  cases p
  · exact Shown.refl _ _
  · exact setCause_shown c s

end Sys2Proof.Machine
end

