-- ==== Sys2Proof/Laws/Blocks.lean ====
section
/-! SUPPORT. What each block's shared operation does, said once: the sweep, the grant, the engine falling free,
an event handed to the counters, a timer's start, a tracker step, a swap, a retirement. Each is its update
of the state, but for bytes of the status block and the bank headers, or FAULTED. -/

namespace Sys2Proof.Machine

/-! ## Moving a shown step along -/

theorem Shown.from_bus {P : Nat → Prop} {s t : State} {b : Bus} (hb : s.bus.Within P b)
    (h : Shown P (s.onBus b) t) : Shown P s t :=
  Shown.trans (.inl ⟨b, hb, rfl⟩) h

/-- A failed access of the area after some writing. -/
theorem Shown.then_fault {P : Nat → Prop} {s t : State} (k : FaultKind) (hn : ¬ Clear s)
    (h : Shown P s t) : Shown P s (enterFault k t) := by
  obtain ⟨c, hc, rfl⟩ | ⟨_, hr, x, c, hc, rfl⟩ := h
  · exact Shown.failed k hn hc
  · rw [enterFault, if_pos (by rfl)]
    exact .inr ⟨hn, hr, x, c, hc, rfl⟩

theorem frontBytes_of_status {s : State} : ∀ a, StatusBytes s a → FrontBytes s a := fun _ h => .inl h

/-- Status bytes are among the front bytes. -/
theorem Shown.to_front {s t u : State} (h : Shown (StatusBytes t) t u) (hb : base t = base s) :
    Shown (FrontBytes s) t u :=
  h.mono fun a ha => .inl (by rwa [statusBytes_eq hb] at ha)

/-- An update that touches neither the bus nor the run state nor what a fault changes. -/
structure Update (f : State → State) : Prop where
  onBus : ∀ s b, f (s.onBus b) = (f s).onBus b
  fault : ∀ k s, f (faultedState k s) = faultedState k (f s)
  bus : ∀ s, (f s).bus = s.bus
  area : ∀ s, (f s).aiu.area = s.aiu.area
  run : ∀ s, (f s).aiu.run = s.aiu.run

theorem Update.base {f : State → State} (hf : Update f) (s : State) : base (f s) = base s :=
  base_eq_of_area (hf.area s)

theorem Update.clear {f : State → State} (hf : Update f) (s : State) : Clear (f s) ↔ Clear s := by
  unfold Clear
  rw [hf.bus, hf.base]

/-- An update of a shown step is a shown step of the update. -/
theorem Shown.map {P : Nat → Prop} {s t : State} {f : State → State} (hf : Update f) (h : Shown P s t) :
    Shown P (f s) (f t) := by
  obtain ⟨c, hc, rfl⟩ | ⟨hn, hr, k, c, hc, rfl⟩ := h
  · exact .inl ⟨c, by rwa [hf.bus], hf.onBus s c⟩
  · refine .inr ⟨by rwa [hf.clear], by rwa [hf.run], k, c, ?_, by rw [hf.onBus, hf.fault]⟩
    rwa [hf.bus, frontBytes_eq (hf.base s)]

/-- A shown step, an update, and another shown step. -/
theorem Shown.andThen {P : Nat → Prop} {s t u : State} {f : State → State} (hf : Update f)
    (h : Shown P s t) (k : Shown P (f t) u) : Shown P (f s) u :=
  (h.map hf).trans k

theorem withCause_comm (x : BitVec 9) (c d : Cause) :
    withCause (withCause x c) d = withCause (withCause x d) c := by
  simp only [withCause, BitVec.or_assoc]
  rw [BitVec.or_comm (BitVec.twoPow 9 (causeBit c))]

theorem update_caused (p : Bool) (c : Cause) : Update (causedState p c) where
  onBus _ _ := rfl
  fault k s := by
    cases p
    · rfl
    · simp only [causedState, faultedState, causesIf, if_true, withCause_comm]
  bus _ := rfl
  area _ := rfl
  run _ := rfl

/-! ## The sweep -/

theorem allSlots_bound (h : Head) (k : Fin 8) (s : State) :
    base s + 0x100 ≤ cardAddr s h k ∧ cardAddr s h k + 256 ≤ base s + 0x1100 := by
  unfold cardAddr
  have := k.isLt
  cases h <;> simp only [Config.cardTable] <;> omega

/-- What a sweep's reads of one table find (R8). -/
theorem sweepTable_spec (h : Head) (ks : List (Fin 8)) (s : State) :
    ∃ c, s.bus.Within (fun _ => False) c ∧ (sweepTable h ks s).2 = s.onBus c
      ∧ (((sweepTable h ks s).1 = none ∧ ¬ Clear s)
        ∨ (sweepTable h ks s).1 = some (ks.filterMap fun k =>
            if s.bus.mem.readLE (cardAddr s h k) 4 = Config.cardReady then
              some (k, s.bus.mem.readLE (cardAddr s h k + 8) 4) else none)) := by
  induction ks generalizing s with
  | nil => exact ⟨_, Bus.Within.refl _ _, rfl, .inr rfl⟩
  | cons k ks ih =>
    obtain ⟨b1, b2⟩ := allSlots_bound h k s
    have hs := Bus.Within.spend (fun _ => False) s.bus
    unfold sweepTable busRead
    simp only [spendAccess_eq]
    by_cases h1 : s.bus.succeeds (cardAddr s h k) 4 = true
    · simp only [h1, if_true]
      by_cases hr : s.bus.mem.readLE (cardAddr s h k) 4 = Config.cardReady
      · simp only [hr, if_true, cardAddr_onBus, onBus_bus, onBus_onBus, spend_mem]
        by_cases h2 : s.bus.spend.succeeds (cardAddr s h k + 8) 4 = true
        · simp only [h2, if_true]
          obtain ⟨c, hc, he, hd⟩ := ih (s.onBus s.bus.spend.spend)
          have hs2 := hs.trans (Bus.Within.spend (fun _ => False) s.bus.spend)
          rcases hd with ⟨hd, hn⟩ | hd
          · rw [show sweepTable h ks (s.onBus s.bus.spend.spend) = (none, s.onBus c) from Prod.ext hd he]
            exact ⟨c, hs2.trans hc, rfl, .inl ⟨rfl, fun hcl => hn (hcl.of_within hs2 rfl)⟩⟩
          · rw [show sweepTable h ks (s.onBus s.bus.spend.spend) = (some _, s.onBus c) from Prod.ext hd he]
            refine ⟨c, hs2.trans hc, rfl, .inr ?_⟩
            rw [List.filterMap_cons, if_pos hr]
            rfl
        · simp only [h2]
          refine ⟨_, hs.trans (Bus.Within.spend _ _), rfl, .inl ⟨rfl, fun hcl => h2 ?_⟩⟩
          exact (hcl.of_within (t := s.onBus s.bus.spend) hs rfl).succeeds
            (by simp only [base_onBus]; omega) (by simp only [base_onBus]; omega)
      · simp only [hr, if_false]
        obtain ⟨c, hc, he, hd⟩ := ih (s.onBus s.bus.spend)
        refine ⟨c, hs.trans hc, he, ?_⟩
        rcases hd with ⟨hd, hn⟩ | hd
        · exact .inl ⟨hd, fun hcl => hn (hcl.of_within hs rfl)⟩
        · rw [List.filterMap_cons, if_neg hr]
          exact .inr hd
    · simp only [h1]
      exact ⟨_, hs, rfl, .inl ⟨rfl, fun hcl => h1 (hcl.succeeds (by omega) (by omega))⟩⟩

theorem setClaims_shown (c0 c1 : Option (Fin 8)) (p : Bool) (s : State) :
    Shown (StatusBytes s)
      { s with ciu := { s.ciu with candidate := { i0 := c0, i1 := c1 } },
               ce := { s.ce with directiveClaim := p } }
      (setClaims c0 c1 p s) :=
  rewrite_shown [.ciu] s
    { s with ciu := { s.ciu with candidate := { i0 := c0, i1 := c1 } },
             ce := { s.ce with directiveClaim := p } }

theorem sweepFailed_shown (k : FaultKind) (s : State) {b : Bus} (hn : ¬ Clear s)
    (hb : s.bus.Within (fun _ => False) b) :
    Shown (StatusBytes s) (clearedClaims s) (sweepFailed k (s.onBus b)) := by
  have h1 : Shown (StatusBytes s) (clearedClaims s) (enterFault k ((clearedClaims s).onBus b)) :=
    Shown.failed k (s := clearedClaims s) hn (hb.mono fun _ h => h.elim)
  refine h1.trans ?_
  have h2 := rewrite_from [.ciu] (s.onBus b) (enterFault k ((clearedClaims s).onBus b))
    (h1.base_eq.trans rfl)
  exact h2

/-- What a sweep does (R7 to R9): the claims that memory gives, or, on a failed read, none and FAULTED. -/
theorem sweep_shown (s : State) (hr : s.aiu.run = .running) :
    Shown (StatusBytes s) (sweptState s) (sweep s)
      ∨ (¬ Clear s ∧ Shown (StatusBytes s) (clearedClaims s) (sweep s)) := by
  unfold sweep
  rw [if_pos hr]
  obtain ⟨b0, hb0, he0, hd0⟩ := sweepTable_spec .i0 allSlots s
  rcases hd0 with ⟨hd0, hn⟩ | hd0
  · rw [show sweepTable .i0 allSlots s = (none, s.onBus b0) from Prod.ext hd0 he0]
    exact .inr ⟨hn, sweepFailed_shown _ s hn hb0⟩
  · rw [show sweepTable .i0 allSlots s = (some (readyCards s .i0), s.onBus b0) from Prod.ext hd0 he0]
    dsimp only
    obtain ⟨b1, hb1, he1, hd1⟩ := sweepTable_spec .i1 allSlots (s.onBus b0)
    have hm : ∀ a n, b0.mem.readLE a n = s.bus.mem.readLE a n := fun a n => hb0.readLE (fun _ _ _ h => h)
    have hb1' := hb0.trans hb1
    rcases hd1 with ⟨hd1, hn⟩ | hd1
    · rw [show sweepTable .i1 allSlots (s.onBus b0) = (none, s.onBus b1) from Prod.ext hd1 he1]
      have hn' : ¬ Clear s := fun h => hn (h.of_within hb0 rfl)
      exact .inr ⟨hn', sweepFailed_shown _ s hn' hb1'⟩
    · simp only [onBus_bus, cardAddr_onBus, hm] at hd1
      rw [show sweepTable .i1 allSlots (s.onBus b0) = (some (readyCards s .i1), s.onBus b1) from
        Prod.ext hd1 he1]
      dsimp only
      have hs := hb1'.trans (Bus.Within.spend _ b1)
      have hm1 : b1.mem.readLE (slotAddr s) 4 = s.bus.mem.readLE (slotAddr s) 4 :=
        hb1'.readLE (fun _ _ _ h => h)
      unfold busRead
      simp only [spendAccess_eq, slotAddr_onBus, onBus_bus, onBus_onBus, hm1]
      by_cases h2 : b1.succeeds (slotAddr s) 4 = true
      · simp only [h2, if_true]
        exact .inl (Shown.from_bus (s := sweptState s) (b := b1.spend) (hs.mono fun _ h => h.elim)
          (setClaims_shown _ _ _ (s.onBus b1.spend)))
      · simp only [h2]
        have hn' : ¬ Clear s := fun h => h2 <| by
          have := (h.of_within (t := s.onBus b1) hb1' rfl).succeeds (a := slotAddr s) (n := 4)
            (by simp [slotAddr]) (by simp [slotAddr, Config.directiveSlot])
          exact this
        exact .inr ⟨hn', sweepFailed_shown _ s hn' hs⟩

theorem sweep_not_running (s : State) (hr : s.aiu.run ≠ .running) : sweep s = s := if_neg hr

/-! ## The grant and the engine falling free -/

/-- What the arbiter does (R25). -/
theorem grant_shown (s : State) : Shown (StatusBytes s) (afterGrant s) (grant s) := by
  unfold grant afterGrant
  split
  · change Shown _ _ (match grantChoice s with
      | none => s
      | some c => rewrite [.ciu, .ce] s (grantedState c s))
    cases grantChoice s with
    | none => exact Shown.refl _ _
    | some c =>
      refine rewrite_from _ _ _ (base_eq_of_area ?_)
      unfold grantedState
      repeat' split
      all_goals rfl
  · exact Shown.refl _ _

theorem update_retired : Update retiredState where
  onBus _ _ := rfl
  fault k s := by
    show ({ faultedState k s with lbu := retiredLbu s.aiu.frameCount (queryAbsent s.aiu.frameCount s.lbu) } :
      State) = { faultedState k s with
        lbu := queryAbsent s.aiu.frameCount (retiredLbu s.aiu.frameCount s.lbu) }
    rw [retiredLbu_queryAbsent, queryAbsent_retiredLbu]
  bus _ := rfl
  area _ := rfl
  run _ := rfl

/-- The state once the pending query frame is absent (R123, R124). -/
def droppedState (s : State) : State := { s with lbu := queryAbsent s.aiu.frameCount s.lbu }

theorem update_dropped : Update droppedState where
  onBus _ _ := rfl
  fault _ _ := rfl
  bus _ := rfl
  area _ := rfl
  run _ := rfl

/-- Only the header of a bank whose retire frame is reached is rewritten for a retirement. -/
theorem retiredHeaders_bound {s t : State} {l : Lbu} (hl : l.banks = s.lbu.banks) (hb : base t = base s)
    (ht : t.lbu = retiredLbu s.aiu.frameCount l) (a : Nat) (h : ChangedHeaderBytes s t a) :
    ReleaseBytes s a := by
  obtain ⟨i, hne, ha⟩ := h
  rw [ht, retiredLbu_get] at hne
  rcases retiredBank_cases s.aiu.frameCount l i with h | ⟨-, st, p, f, h, hf⟩
  · exact absurd (by rw [h, hl]) hne
  · rw [hl] at h
    refine .inr ⟨i, f, by rw [h]; rfl, hf, ?_⟩
    unfold HeaderBytes at ha ⊢
    rwa [hb] at ha

/-- What a retirement does (R124). -/
theorem retire_shown (s : State) : Shown (ReleaseBytes s) (retiredState s) (retire s) :=
  (rewriteHeaders_shown s (retiredState s)).mono (retiredHeaders_bound (l := s.lbu) rfl rfl rfl)

/-- What becomes of the banks when the pending query frame becomes absent (R123, R124). -/
theorem dropQuery_shown (s : State) : Shown (ReleaseBytes s) (droppedState s) (dropQuery s) :=
  (rewriteHeaders_shown s (droppedState s)).mono
    (retiredHeaders_bound (l := { s.lbu with pendingQuery := none }) rfl rfl rfl)

/-- A shown step gives no bank a retire frame. -/
theorem releaseBytes_shown {P : Nat → Prop} {s t : State} (h : Shown P s t) (a : Nat)
    (ha : ReleaseBytes t a) : ReleaseBytes s a := by
  obtain ⟨c, -, rfl⟩ | ⟨-, -, k, c, -, rfl⟩ := h
  · exact ha
  · refine ha.imp id fun ⟨i, f, h1, h2, h3⟩ => ⟨i, f, ?_, h2, h3⟩
    rw [onBus_lbu, faultedState_lbu, queryAbsent_get] at h1
    split at h1
    · cases h1
    · exact h1

theorem releaseBytes_front {s : State} (a : Nat) (h : ReleaseBytes s a) : FrontBytes s a := by
  rcases h with h | ⟨i, f, -, -, h⟩
  · exact .inl h
  · cases i
    · exact .inr (.inl h)
    · exact .inr (.inr h)

/-- What the engine falling free does, before the sweep (R28). -/
theorem releaseEngine_shown (e : Option (JobEnding × JobKind)) (s : State) :
    Shown (ReleaseBytes s) (releasedState e s) (releaseEngine e s) := by
  unfold releaseEngine
  generalize hx : ({ s with ce := { s.ce with engine := .free, lastEnding := e.or s.ce.lastEnding } } :
    State) = x
  have hb : base x = base s := by rw [← hx]; rfl
  have hr : releasedState e s = droppedState x := by rw [← hx]; rfl
  have hre : ReleaseBytes x = ReleaseBytes s := by rw [← hx]; rfl
  rw [hr, ← hre]
  have h1 := rewrite_shown [.ce] s x
  exact (h1.mono fun _ => .inl).andThen update_dropped
    ((dropQuery_shown (rewrite [.ce] s x)).mono (releaseBytes_shown h1))

/-! ## Events and causes -/

/-- What an event does at the counters (R157, R158, R164). -/
theorem deliver_shown (e : MonEvent) (s : State) :
    Shown (StatusBytes s) (deliveredState e s) (deliver e s) := by
  unfold deliveredState deliver
  change Shown _ _ (setCauseIf (wrapsAny e s.mon) .monWrap _)
  generalize hx : ({ s with mon := monAfter e s.mon } : State) = x
  have hb : base x = base s := by rw [← hx]; rfl
  have h1 := rewrite_from [.mon] s x hb
  have h2 := setCauseIf_shown (wrapsAny e s.mon) .monWrap (rewrite [.mon] s x)
  rw [statusBytes_eq (h1.base_eq.trans hb)] at h2
  exact h1.andThen (update_caused _ _) h2

theorem update_delivered (e : MonEvent) : Update (deliveredState e) where
  onBus _ _ := rfl
  fault k s := (update_caused (wrapsAny e s.mon) .monWrap).fault k { s with mon := monAfter e s.mon }
  bus _ := rfl
  area _ := rfl
  run _ := rfl

/-- What the freeze on cut does (R161). -/
theorem freezeOnCut_shown (s : State) :
    Shown (StatusBytes s) { s with mon := cutMon s.mon } (freezeOnCut s) := by
  unfold freezeOnCut
  split
  · rename_i h
    have : cutMon s.mon = { s.mon with frozen := true } := by simp [cutMon, h]
    rw [this]
    exact rewrite_from _ _ _ rfl
  · rename_i h
    have : cutMon s.mon = s.mon := by
      generalize s.mon = m at h
      obtain ⟨c, f, g⟩ := m
      cases g
      · simp [cutMon]
      · exact absurd rfl h
    rw [this]
    exact Shown.refl _ _

/-- What the start of the settle timer does (R131). -/
theorem startSettle_shown (s : State) :
    Shown (StatusBytes s) { s with ct := settleStarted s.ct } (startSettle s) :=
  rewrite_from [.ct] s { s with ct := settleStarted s.ct } rfl

/-- What the CUT actions do (R19). -/
theorem cutActions_shown (cut : Bool) (s : State) :
    Shown (StatusBytes s) (cutState cut s) (cutActions cut s) := by
  cases cut
  · exact Shown.refl _ _
  · have h1 := startSettle_shown s
    have h2 := freezeOnCut_shown (startSettle s)
    rw [statusBytes_eq (h1.base_eq.trans rfl : _ = base s)] at h2
    exact h1.andThen (f := fun t => { t with mon := cutMon t.mon })
      ⟨fun _ _ => rfl, fun _ _ => rfl, fun _ => rfl, fun _ => rfl, fun _ => rfl⟩ h2

/-- What the settle expiry does (R132). -/
theorem settleExpiry_shown (s : State) :
    Shown (StatusBytes s) { s with ct := settleExpired s.ct } (settleExpiry s) :=
  rewrite_from [.ct] s { s with ct := settleExpired s.ct } rfl

/-! ## The tracker -/

/-- What a step in the active context does (R83 to R91). -/
theorem takeStep_shown (s : State) (x : Context) (hx : s.it.contexts.get s.it.active = some x) :
    Shown (StatusBytes s) (deliveredState (stepEvent (decideStep x s)) (steppedState x (decideStep x s) s))
      (takeStep s) := by
  unfold takeStep
  simp only [hx]
  generalize decideStep x s = d
  have h1 := rewrite_from [.it] s (steppedState x d s) rfl
  have h2 := deliver_shown (stepEvent d) (rewrite [.it] s (steppedState x d s))
  rw [statusBytes_eq (h1.base_eq.trans rfl : _ = base s)] at h2
  exact h1.andThen (update_delivered _) h2

/-! ## Banks -/

/-- What the swap that is due does (R122). -/
theorem swap_shown (s : State) : Shown (FrontBytes s) (swappedState s) (swap s) := by
  unfold swap swappedState
  cases dueSwap s.aiu.frameCount s.lbu.banks with
  | none => exact Shown.refl _ _
  | some p =>
    obtain ⟨i, f⟩ := p
    simp only
    generalize hx : ({ s with lbu := { s.lbu with banks := swappedBanks s.lbu.banks i f } } : State) = x
    have hb : base x = base s := by rw [← hx]; rfl
    have h1 := rewriteHeaders_shown s x
    have h2 : Shown (StatusBytes (rewriteHeaders s x))
        (causedState true .bank (rewriteHeaders s x)) (setCause .bank (rewriteHeaders s x)) :=
      setCauseIf_shown true .bank (rewriteHeaders s x)
    have h1' : Shown (FrontBytes s) x (rewriteHeaders s x) := by
      rw [← frontBytes_eq hb]
      exact h1.mono changedHeaderBytes_front
    exact h1'.andThen (update_caused _ _)
      (h2.mono fun a ha => .inl (by rwa [statusBytes_eq (h1.base_eq.trans hb)] at ha))

/-! ## The link -/

/-- What a miss does. -/
theorem endMiss_shown (s : State) : Shown (StatusBytes s) (missedState s) (endMiss s) := by
  unfold endMiss missedState
  generalize (missLoses s.mlc && s.mlc.hold) = p
  generalize missLoses s.mlc = q
  generalize hx : ({ s with mlc := missedMlc s.mlc } : State) = x
  have hb : base x = base s := by rw [← hx]; rfl
  have h1 := rewrite_from [.mlc] s x hb
  have h2 := setCauseIf_shown q .podLost (rewrite [.mlc] s x)
  rw [statusBytes_eq (h1.base_eq.trans hb)] at h2
  have h12 := h1.andThen (update_caused _ _) h2
  have h3 := setCauseIf_shown p .hold (setCauseIf q .podLost (rewrite [.mlc] s x))
  rw [statusBytes_eq (h12.base_eq.trans hb)] at h3
  have h123 := h12.andThen (update_caused _ _) h3
  have h4 := deliver_shown .podMiss (setCauseIf p .hold (setCauseIf q .podLost (rewrite [.mlc] s x)))
  rw [statusBytes_eq (h123.base_eq.trans hb)] at h4
  exact h123.andThen (update_delivered _) h4

/-- What a valid PROBE reply does. -/
theorem endProbe_shown (cs : List RxChar) (s : State) :
    Shown (StatusBytes s) (probedState cs s) (endProbe cs s) := by
  unfold endProbe probedState
  generalize hx : ({ s with mlc := probedMlc cs s.mlc } : State) = x
  have hb : base x = base s := by rw [← hx]; rfl
  have h1 := rewrite_from [.mlc] s x hb
  have h2 := setCauseIf_shown true .podFound (rewrite [.mlc] s x)
  rw [statusBytes_eq (h1.base_eq.trans hb)] at h2
  exact h1.andThen (update_caused _ _) h2

/-- What a valid READ reply does. -/
theorem endRead_shown (cs : List RxChar) (s : State) :
    Shown (StatusBytes s) (readState cs s) (endRead cs s) := by
  unfold endRead readState
  generalize (replyHold cs != s.mlc.hold) = p
  generalize hx : ({ s with
      mlc := readMlc cs s.aiu.frameCount s.mlc,
      it := { s.it with marks := s.it.marks.map (addMarks (newMarks s.mlc.lastMark (charAt cs 4))) } } :
    State) = x
  have hb : base x = base s := by rw [← hx]; rfl
  have h1 := rewrite_from [.mlc, .it] s x hb
  have h2 := setCauseIf_shown p .hold (rewrite [.mlc, .it] s x)
  rw [statusBytes_eq (h1.base_eq.trans hb)] at h2
  exact h1.andThen (update_caused _ _) h2

end Sys2Proof.Machine
end

