-- ==== Sys2Proof/Laws/Jobs.lean ====
section
/-! SUPPORT. What one stage of a job in hand comes to: a directive at its effect (R172.4), its preparation (R62),
its result code and its end (R172.5 to R172.7); a take and a card job at a stage (R13, R33). -/

namespace Sys2Proof.Machine

/-! ## Records read by spans -/

/-- What a read by spans does: memory is left alone, and it answers what the spans hold, or nothing, when one of
them is not answered or a failure is planned. -/
theorem readSpans_spec (s : State) (a : Nat) (ps : List (Nat × Nat)) :
    ∃ c, s.bus.Within (fun _ => False) c ∧ (readSpans s a ps).2 = s.onBus c
      ∧ ((readSpans s a ps).1 = some (spansAt s a ps)
        ∨ (readSpans s a ps).1 = none
          ∧ (s.bus.failPlan ≠ [] ∨ ∃ p ∈ ps, s.bus.answers (a + p.1) p.2 = false)) := by
  induction ps generalizing s with
  | nil => exact ⟨s.bus, Bus.Within.refl _ _, rfl, .inl rfl⟩
  | cons p ps ih =>
    have hw : s.bus.Within (fun _ => False) s.bus.spend := Bus.Within.spend _ _
    by_cases hs : s.bus.succeeds (a + p.1) p.2 = true
    · obtain ⟨c, hc, he, h⟩ := ih s.spendAccess
      have hc' := hw.trans hc
      unfold readSpans busRead
      simp only [hs, if_true]
      rcases h with h | ⟨h, hf⟩
      · rw [show readSpans s.spendAccess a ps = (some _, s.onBus c) from Prod.ext h he]
        refine ⟨c, hc', rfl, .inl ?_⟩
        simp only [spansAt, List.map_cons, List.sum_cons]
        rfl
      · rw [show readSpans s.spendAccess a ps = (none, s.onBus c) from Prod.ext h he]
        refine ⟨c, hc', rfl, .inr ⟨rfl, hf.imp (fun h e => h ?_) fun ⟨q, hq, h⟩ =>
          ⟨q, List.mem_cons_of_mem _ hq, by rwa [← hw.answers]⟩⟩⟩
        rw [spendAccess_plan, e]
        rfl
    · unfold readSpans busRead
      simp only [hs]
      refine ⟨_, hw, rfl, .inr ⟨rfl, ?_⟩⟩
      simp only [Bus.succeeds, Bool.and_eq_true, not_and, Bool.not_eq_true] at hs
      by_cases ha : s.bus.answers (a + p.1) p.2 = true
      · refine .inl fun e => ?_
        have := hs ha
        simp [e] at this
      · exact .inr ⟨p, List.mem_cons_self, Bool.not_eq_true _ ▸ ha⟩

/-- With no planned failure a read by spans answers exactly when memory answers at each span. -/
theorem readSpans_clear (s : State) (a : Nat) (ps : List (Nat × Nat)) (hp : s.bus.failPlan = [])
    (ha : ∀ p ∈ ps, s.bus.answers (a + p.1) p.2 = true) :
    ∃ c, s.bus.Within (fun _ => False) c ∧ readSpans s a ps = (some (spansAt s a ps), s.onBus c) := by
  obtain ⟨c, hc, he, h⟩ := readSpans_spec s a ps
  rcases h with h | ⟨-, h | ⟨p, hpm, h⟩⟩
  · exact ⟨c, hc, Prod.ext h he⟩
  · exact absurd hp h
  · rw [ha p hpm] at h
    cases h

/-- The card request that the re-read takes is the one the whole request group spells (12.4). -/
theorem cardRequest_spans (s : State) (a : Nat) :
    cardRequest (spansAt s a cardSpans) = cardRequest (s.bus.mem.readLE a 0x14)
      ∧ field (spansAt s a cardSpans) 0 4 = s.bus.mem.readLE a 4
      ∧ field (spansAt s a cardSpans) 8 4 = s.bus.mem.readLE (a + 8) 4 := by
  have hx : spansAt s a cardSpans
      = s.bus.mem.readLE a 14 + 256 ^ 14 * (256 ^ 2 * s.bus.mem.readLE (a + 16) 4) := by
    rw [← mul_assoc, ← pow_add]
    unfold spansAt cardSpans
    rw [List.map_cons, List.map_cons, List.map_nil, List.sum_cons, List.sum_cons, List.sum_nil, Nat.add_zero,
      pow_zero, Nat.mul_one, Nat.mul_comm, Nat.add_zero]
  have low : ∀ off size, off + size ≤ 14 →
      field (spansAt s a cardSpans) off size = s.bus.mem.readLE (a + off) size := fun off size h => by
    rw [hx, field_add_mul _ _ _ _ _ h, field_readLE _ _ _ _ _ h]
  have high : field (spansAt s a cardSpans) 16 4 = s.bus.mem.readLE (a + 16) 4 := by
    have h1 : s.bus.mem.readLE a 14 < 256 ^ 16 :=
      (Memory.readLE_lt _ _ _).trans (Nat.pow_lt_pow_right (by decide) (by decide))
    rw [hx, ← mul_assoc, ← pow_add]
    unfold field
    rw [Nat.add_mul_div_left _ _ (by positivity), Nat.div_eq_of_lt h1, Nat.zero_add,
      Nat.mod_eq_of_lt (Memory.readLE_lt _ _ _)]
  refine ⟨?_, low 0 4 (by decide), low 8 4 (by decide)⟩
  simp only [cardRequest, low, high, field_readLE, Nat.reduceLeDiff, Nat.reduceAdd]

/-! ## Records written and sweeps made with no failing access -/

/-- Fields that memory answers at are all written: their bytes alone change, and, when no two of them share a
byte, each then reads as its value. -/
theorem writeFields_clear (k : FaultKind) (fs : List Field) (s : State) (hp : s.bus.failPlan = [])
    (ha : ∀ f ∈ fs, s.bus.answers f.off f.size = true) :
    ∃ b, writeFields k fs s = (true, s.onBus b)
      ∧ s.bus.Within (fun a => ∃ f ∈ fs, Bytes f.off f.size a) b
      ∧ (fs.Pairwise (fun f g => f.off + f.size ≤ g.off ∨ g.off + g.size ≤ f.off) →
          ∀ f ∈ fs, b.mem.readLE f.off f.size = f.val % 256 ^ f.size) := by
  induction fs generalizing s with
  | nil => exact ⟨s.bus, rfl, Bus.Within.refl _ _, fun _ f hf => by simp at hf⟩
  | cons f fs ih =>
    have hs : s.bus.succeeds f.off f.size = true := by
      simp [Bus.succeeds, ha f List.mem_cons_self, hp]
    obtain ⟨c, hc, hw, hb, hpl, hm⟩ := busWrite_spec s f
    rw [hs] at hb hm
    rw [if_pos rfl] at hm
    rw [hp] at hpl
    obtain ⟨b, e, hwb, hr⟩ := ih (s.onBus c) hpl fun g hg => by
      change c.answers g.off g.size = true
      rw [hw.answers]
      exact ha g (List.mem_cons_of_mem _ hg)
    have hwb' : c.Within (fun a => ∃ g ∈ fs, Bytes g.off g.size a) b := hwb
    refine ⟨b, ?_, ?_, ?_⟩
    · unfold writeFields
      rw [show busWrite s f = (true, s.onBus c) from Prod.ext hb hc]
      exact e
    · exact (hw.mono fun a h => ⟨f, List.mem_cons_self, h⟩).trans
        (hwb'.mono fun a ⟨g, hg, h⟩ => ⟨g, List.mem_cons_of_mem _ hg, h⟩)
    · intro hd g hg
      rw [List.pairwise_cons] at hd
      rcases List.mem_cons.1 hg with rfl | hg
      · rw [hwb'.readLE fun j h1 h2 ⟨x, hx, h⟩ => ?_, hm, Memory.readLE_writeLE_eq]
        have := hd.1 x hx
        unfold Bytes at h
        omega
      · exact hr hd.2 g hg

theorem grantedState_onBus (c : Claimant) (s : State) (b : Bus) :
    grantedState c (s.onBus b) = (grantedState c s).onBus b := by
  cases c with
  | head h =>
    simp only [grantedState, onBus_ciu]
    cases s.ciu.candidate.get h <;> rfl
  | utility =>
    obtain ⟨aiu, ciu, ⟨en, ord, dc, le, fi, gr⟩, it, cs, ⟨bk, pq⟩, ct, mlc, mon, bus, fu, pe⟩ := s
    cases dc
    · unfold grantedState
      dsimp only [State.onBus]
      cases bakingBank bk <;> rfl
    · rfl

theorem grantedState_kept (c : Claimant) (s : State) :
    (grantedState c s).aiu = s.aiu ∧ (grantedState c s).bus = s.bus := by
  unfold grantedState
  repeat' split
  all_goals exact ⟨rfl, rfl⟩

theorem afterGrant_onBus (s : State) (b : Bus) : afterGrant (s.onBus b) = (afterGrant s).onBus b := by
  have hgc : grantChoice (s.onBus b) = grantChoice s := by
    unfold grantChoice
    refine congrArg (fun p => List.find? p (ranking s.ce.order)) (funext fun c => ?_)
    cases c <;> rfl
  unfold afterGrant
  rw [onBus_ce, onBus_aiu, hgc]
  split
  · cases grantChoice s with
    | none => rfl
    | some c => exact grantedState_onBus c s b
  · rfl

theorem afterGrant_kept (s : State) : (afterGrant s).aiu = s.aiu ∧ (afterGrant s).bus = s.bus := by
  unfold afterGrant
  repeat' split
  · exact ⟨rfl, rfl⟩
  · exact grantedState_kept _ s
  · exact ⟨rfl, rfl⟩

/-- A sweep and a grant with no failing access. -/
theorem sweepAndGrant_swept (s : State) (hc : Clear s) : SweptTo s (sweepAndGrant s) := by
  unfold sweepAndGrant
  by_cases hr : s.aiu.run = .running
  · rcases sweep_shown s hr with h | ⟨hn, -⟩
    · have hcs : Clear (sweptState s) := hc
      obtain ⟨b, hw, e⟩ := h.of_clear hcs
      have hg := grant_shown (sweep s)
      rw [e, afterGrant_onBus] at hg
      have hcg : Clear ((afterGrant (sweptState s)).onBus b) :=
        hc.of_within hw (base_eq_of_area (congrArg Aiu.area (afterGrant_kept (sweptState s)).1))
      obtain ⟨b', hw', e'⟩ := hg.of_clear hcg
      refine ⟨b', hw.trans hw', ?_⟩
      rw [e, e', onBus_onBus, afterSweep, if_pos hr]
    · exact absurd hc hn
  · rw [sweep_not_running s hr]
    refine ⟨s.bus, Bus.Within.refl _ _, ?_⟩
    unfold grant afterSweep afterGrant
    rw [if_neg fun h => hr h.2, if_neg hr, if_neg fun h => hr h.2]
    rfl

/-! ## Directive jobs -/

/-- A directive about to be carried out: the row runs the effect of its body and decides the result. -/
theorem runDirective_atEffect (k : DirKind) (body : DirBody) (s : State) (p : Nat) (j : DirJob)
    (h : AtEffect s k p j) :
    runDirective (some k) body .effect s
      = advanceDir .result (some (body.effect p s).1) (body.effect p s).2 := by
  obtain ⟨he, hn, hk, hp, hr⟩ := h
  have hs : ∀ st, st ≠ DirStage.effect → dirStage body s st = s := by
    intro st hst
    unfold dirStage
    rw [he]
    exact if_neg (by rw [hn]; exact hst.symm)
  have heff : dirStage body s .effect = advanceDir .result (some (body.effect p s).1) (body.effect p s).2 := by
    unfold dirStage
    rw [he]
    simp only [hn, if_true, dirEffect, hr, hp, Option.isSome_none, Bool.false_eq_true, if_false]
  unfold runDirective
  rw [he]
  simp only [dirRowApplies, hn, hk, beq_self_eq_true, if_true, DirStage.all, DirStage.rank, List.filter,
    Nat.reduceLeDiff, decide_true, decide_false, List.foldl]
  rw [hs _ (by decide), hs _ (by decide), hs _ (by decide), hs _ (by decide), heff]

/-- What the decided result makes of the job in hand. -/
theorem advanceDir_of_directive (next : DirStage) (r : ResultCode) (s : State) (j : DirJob)
    (h : s.ce.engine = .directive j) :
    advanceDir next (some r) s = putDirJob { j with next := next, result := some r } s := by
  unfold advanceDir
  rw [h]
  rfl

/-- An effect that changes nothing but the bus of a known state, and keeps the job. -/
theorem effect_decided (k : DirKind) (body : DirBody) (s t : State) (p : Nat) (j : DirJob) (r : ResultCode)
    (h : AtEffect s k p j) (hb : body.effect p s = (r, t)) (ht : t.ce.engine = .directive j) :
    runDirective (some k) body .effect s = putDirJob (decidedJob j r) t := by
  rw [runDirective_atEffect k body s p j h, hb]
  exact advanceDir_of_directive .result r t j ht

/-- The row whose directive is about to be carried out is the one that goes on with the job. -/
theorem putDirJob_onBus (j : DirJob) (s : State) (b : Bus) :
    putDirJob j (s.onBus b) = (putDirJob j s).onBus b := rfl

/-- An effect whose update is shown in the status block or the headers: with no failing access, the decided job
beside the update, on another bus. -/
theorem effect_shown (k : DirKind) (body : DirBody) (s u t : State) (p : Nat) (j : DirJob) (r : ResultCode)
    (P : Nat → Prop) (h : AtEffect s k p j) (hc : Clear s) (hb : body.effect p s = (r, t))
    (hu : u.bus = s.bus) (hcu : base u = base s) (hue : u.ce.engine = .directive j) (hs : Shown P u t) :
    ∃ b, s.bus.Within P b ∧ runDirective (some k) body .effect s = (putDirJob (decidedJob j r) u).onBus b := by
  have hcl : Clear u := by
    unfold Clear at hc ⊢
    rw [hu, hcu]
    exact hc
  obtain ⟨b, hw, rfl⟩ := hs.of_clear hcl
  refine ⟨b, hu ▸ hw, ?_⟩
  rw [effect_decided k body s _ p j r h hb hue, putDirJob_onBus]

/-! ## Stages -/

/-- A stage that the take does not run next changes nothing. -/
theorem takeStage_skip (s : State) (st : TakeStage) (h : ∀ hd k j, s.ce.engine = .take hd k j → j.next ≠ st) :
    takeStage s st = s := by
  unfold takeStage
  split
  · rename_i hd k j he
    exact if_neg (h hd k j he)
  all_goals rfl

/-- A stage that the card job does not run next changes nothing. -/
theorem cardStage_skip (s : State) (st : CardStage) (h : ∀ hd k j, s.ce.engine = .card hd k j → j.next ≠ st) :
    cardStage s st = s := by
  unfold cardStage
  split
  · rename_i hd k j he
    exact if_neg (h hd k j he)
  all_goals rfl

/-- A stage that the directive job does not run next changes nothing. -/
theorem dirStage_skip (body : DirBody) (s : State) (st : DirStage)
    (h : ∀ j, s.ce.engine = .directive j → j.next ≠ st) : dirStage body s st = s := by
  unfold dirStage
  split
  · rename_i j he
    exact if_neg (h j he)
  all_goals rfl

/-- The engine after a sweep and a grant from FREE: FREE, at the start of a take or of a directive job, or in
BAKE. -/
theorem grantedState_engine (c : Claimant) (s : State) (h : s.ce.engine = .free) :
    (grantedState c s).ce.engine = .free ∨ (∃ hd k, (grantedState c s).ce.engine = .take hd k TakeJob.start)
      ∨ (grantedState c s).ce.engine = .directive DirJob.start
      ∨ ∃ b, (grantedState c s).ce.engine = .bake b := by
  unfold grantedState
  repeat' split
  · exact .inl h
  · exact .inr (.inl ⟨_, _, rfl⟩)
  · exact .inr (.inr (.inl rfl))
  · exact .inl h
  · exact .inr (.inr (.inr ⟨_, rfl⟩))

/-! ## Card records -/

/-- Where the fields of a result lie in the card, in the order they are written (12.4). -/
theorem resultFields_places (j : CardJob) :
    (resultFields j).map (fun f => (f.off, f.size))
      = [(0x21, 1), (0x22, 1), (0x23, 1), (0x28, 2), (0x2A, 2), (0x2C, 2), (0x2E, 1), (0x30, 4), (0x34, 2),
          (0x36, 2), (0x38, 2), (0x3A, 2), (0x40, 4), (0x44, 4), (0x48, 4), (0x4C, 4), (0x50, 4), (0x54, 4),
          (0x58, 4), (0x5C, 4), (0x60, 4), (0x3C, 2), (0x2F, 1), (0x3E, 1), (0x3F, 1), (0x64, 2), (0x66, 2),
          (0x68, 1), (0x69, 1), (0x6A, 2), (0x6C, 6), (0x72, 6), (0x78, 6), (0x7E, 6)] := rfl

/-- The fields of a result lie in the result group, clear of the ending code and of the frame count at the
ending. -/
theorem resultFields_bound (j : CardJob) (f : Field) (h : f ∈ resultFields j) :
    0x21 ≤ f.off ∧ f.off + f.size ≤ 0x84 ∧ (f.off + f.size ≤ 0x24 ∨ 0x28 ≤ f.off) := by
  have key : ∀ p ∈ (resultFields j).map (fun f => (f.off, f.size)),
      0x21 ≤ p.1 ∧ p.1 + p.2 ≤ 0x84 ∧ (p.1 + p.2 ≤ 0x24 ∨ 0x28 ≤ p.1) := by
    rw [resultFields_places]
    decide
  exact key (f.off, f.size) (List.mem_map.2 ⟨f, h, rfl⟩)

/-- No two fields of a result share a byte. -/
theorem resultFields_disjoint (j : CardJob) :
    (resultFields j).Pairwise (fun f g => f.off + f.size ≤ g.off ∨ g.off + g.size ≤ f.off) := by
  have hm : ((resultFields j).map (fun f => (f.off, f.size))).Pairwise
      (fun p q => p.1 + p.2 ≤ q.1 ∨ q.1 + q.2 ≤ p.1) := by
    rw [resultFields_places]
    decide
  exact List.pairwise_map.1 hm

/-- Moving a record's fields to its address keeps them apart. -/
theorem placed_disjoint (addr : Nat) (fs : List Field)
    (h : fs.Pairwise (fun f g => f.off + f.size ≤ g.off ∨ g.off + g.size ≤ f.off)) :
    (placed addr fs).Pairwise (fun f g => f.off + f.size ≤ g.off ∨ g.off + g.size ≤ f.off) := by
  unfold placed
  rw [List.pairwise_map]
  exact h.imp fun h => by simp only; omega

/-- A card lies in the card tables. -/
theorem cardAddr_range (h : Head) (k : Fin 8) (s : State) :
    base s + 0x100 ≤ cardAddr s h k ∧ cardAddr s h k + 0x100 ≤ base s + 0x1100 := by
  have := k.isLt
  unfold cardAddr Config.cardTable
  cases h <;> simp only <;> omega

/-- What follows ENDED, with no failing access (R5, R20, R25, R28). -/
theorem afterEnded_swept (h : Head) (e : Ending) (n : Bool) (s : State) (hc : Clear s) :
    ∃ b, s.bus.Within (ReleaseBytes s) b ∧ SweptTo ((endedState h e n s).onBus b) (afterEnded h e n s) := by
  have h1 := releaseEngine_shown (some (cardEnding e, .card)) s
  have h2 := setCauseIf_shown n .card (releaseEngine (some (cardEnding e, .card)) s)
  rw [statusBytes_eq h1.base_eq] at h2
  have h12 := h1.andThen (update_caused n .card) (h2.mono fun _ => .inl)
  have hcl : Clear (causedState n .card (releasedState (some (cardEnding e, .card)) s)) := hc
  unfold afterEnded endedState
  by_cases hl : e = .late
  · simp only [if_pos hl]
    have h3 := deliver_shown (.late h) (setCauseIf n .card (releaseEngine (some (cardEnding e, .card)) s))
    rw [statusBytes_eq h12.base_eq] at h3
    obtain ⟨b, hw, he⟩ := (h12.andThen (update_delivered (.late h)) (h3.mono fun _ => .inl)).of_clear hcl
    refine ⟨b, hw, ?_⟩
    rw [he]
    exact sweepAndGrant_swept _ (Clear.of_within (s := s) hc hw rfl)
  · simp only [if_neg hl]
    obtain ⟨b, hw, he⟩ := h12.of_clear hcl
    refine ⟨b, hw, ?_⟩
    rw [he]
    exact sweepAndGrant_swept _ (Clear.of_within (s := s) hc hw rfl)

end Sys2Proof.Machine
end

