-- ==== Sys2Proof/Laws/PerInstr.lean ====
section
/-! SUPPORT. One law per command, by constructor: only the four rows that carry a CONTROL word can be ill
formed, and each is well formed exactly when the word has the RUN and ENGINE_RESET bits of its row (R166,
12.1). -/

namespace Sys2Proof.Laws.ControlOnly

/-- Well-formedness of a command is a matter of its CONTROL word, if it carries one. -/
def Statement (c : Instr) : Prop :=
  c.wellFormed = true ∨
    ∃ w, (c = .runSet w ∧ ¬ (controlRun w = true ∧ controlReset w = false))
      ∨ (c = .runClear w ∧ ¬ (controlRun w = false ∧ controlReset w = false))
      ∨ (c = .engineReset w ∧ controlReset w = false)
      ∨ (c = .attentionMaskWrite w ∧ controlReset w = true)

theorem frameSync : Statement .frameSync := .inl rfl

theorem retirement : Statement .retirement := .inl rfl

theorem trackerStep : Statement .trackerStep := .inl rfl

theorem pollExpiry : Statement .pollExpiry := .inl rfl

theorem settleExpiry : Statement .settleExpiry := .inl rfl

theorem requestSent : Statement .requestSent := .inl rfl

theorem replyWindowExpiry : Statement .replyWindowExpiry := .inl rfl

theorem replyCharacter (data : BitVec 8) (parity stop : Bool) :
    Statement (.replyCharacter data parity stop) := .inl rfl

theorem replyGapTimeout : Statement .replyGapTimeout := .inl rfl

theorem take (u : TakeStage) : Statement (.take u) := .inl rfl

theorem cardJob (u : CardStage) : Statement (.cardJob u) := .inl rfl

theorem refusedKind (u : DirStage) : Statement (.refusedKind u) := .inl rfl

theorem setOrder (u : DirStage) : Statement (.setOrder u) := .inl rfl

theorem setFilter (u : DirStage) : Statement (.setFilter u) := .inl rfl

theorem loadCalibration (u : DirStage) : Statement (.loadCalibration u) := .inl rfl

theorem setTracking (u : DirStage) : Statement (.setTracking u) := .inl rfl

theorem switchContext (u : DirStage) : Statement (.switchContext u) := .inl rfl

theorem snap (u : DirStage) : Statement (.snap u) := .inl rfl

theorem setGrade (u : DirStage) : Statement (.setGrade u) := .inl rfl

theorem bakeLut (u : DirStage) : Statement (.bakeLut u) := .inl rfl

theorem abortBake (u : DirStage) : Statement (.abortBake u) := .inl rfl

theorem setCadence (u : DirStage) : Statement (.setCadence u) := .inl rfl

theorem setPod (u : DirStage) : Statement (.setPod u) := .inl rfl

theorem setMonitor (u : DirStage) : Statement (.setMonitor u) := .inl rfl

theorem setFreeze (u : DirStage) : Statement (.setFreeze u) := .inl rfl

theorem clearMonitor (u : DirStage) : Statement (.clearMonitor u) := .inl rfl

theorem bakeRow : Statement .bakeRow := .inl rfl

theorem drainComplete : Statement .drainComplete := .inl rfl

theorem runSet (w : BitVec 32) : Statement (.runSet w) := by
  by_cases h : controlRun w = true ∧ controlReset w = false
  · exact .inl (by simp [Instr.wellFormed, h])
  · exact .inr ⟨w, .inl ⟨rfl, h⟩⟩

theorem runClear (w : BitVec 32) : Statement (.runClear w) := by
  by_cases h : controlRun w = false ∧ controlReset w = false
  · exact .inl (by simp [Instr.wellFormed, h])
  · exact .inr ⟨w, .inr (.inl ⟨rfl, h⟩)⟩

theorem engineReset (w : BitVec 32) : Statement (.engineReset w) := by
  cases h : controlReset w
  · exact .inr ⟨w, .inr (.inr (.inl ⟨rfl, h⟩))⟩
  · exact .inl h

theorem attentionMaskWrite (w : BitVec 32) : Statement (.attentionMaskWrite w) := by
  cases h : controlReset w
  · exact .inl (by simp [Instr.wellFormed, h])
  · exact .inr ⟨w, .inr (.inr (.inr ⟨rfl, h⟩))⟩

theorem areaWrite (w : BitVec 32) : Statement (.areaWrite w) := .inl rfl

theorem attnWrite (w : BitVec 32) : Statement (.attnWrite w) := .inl rfl

theorem registerWriteIgnored (r : ReadOnlyRegister) (w : BitVec 32) :
    Statement (.registerWriteIgnored r w) := .inl rfl

theorem deviceReset : Statement .deviceReset := .inl rfl

end Sys2Proof.Laws.ControlOnly
end

