-- ==== Sys2Proof/Tests/Slice0.lean ====
section
/-! SUPPORT. The model's own tests: the manual's worked examples and one small step per command, the words that a
CONTROL row cannot carry, and for every statement with premises a state that meets them. -/

namespace Sys2Proof.Tests

open Sys2Proof Sys2Proof.Machine

-- One theorem at a time: many kernel evaluations at once take more threads than the check has room for.
set_option Elab.async false

/-! ## Small states -/

/-- Memory with values stored in it: address, value, size. -/
def stored (xs : List (Nat × Nat × Nat)) : Memory :=
  xs.foldl (fun m x => Memory.writeLE m x.1 x.2.1 x.2.2) []

/-- The part in RUNNING at the base 0x10000, at a frame count, over a memory. -/
def running (count : Nat) (m : Memory) : State :=
  { State.reset with
    aiu := { Aiu.reset with area := 0x10000#32, run := .running, frameCount := count },
    bus := { Bus.reset with mem := m } }

/-- The state with a job in the engine. -/
def holding (e : Engine) (s : State) : State := { s with ce := { s.ce with engine := e } }

/-- The state with an access failing after `n` that succeed. -/
def failing (n : Nat) (s : State) : State :=
  { s with bus := { s.bus with failPlan := List.replicate n false ++ [true] } }

/-- The state a command answers with. -/
def ran (c : Instr) (s : State) : State :=
  match exec c s with
  | .next t => t
  | .fault _ => s
  | .refused _ => s

/-- A posted directive, its job granted: kind and payload fields (offset, value, size). -/
def posted (kind : Nat) (payload : List (Nat × Nat × Nat)) (more : List (Nat × Nat × Nat)) : State :=
  holding (.directive DirJob.start)
    (running 24
      (stored ([(0x10080, 1, 4), (0x10084, kind, 2)]
        ++ payload.map (fun x => (0x10090 + x.1, x.2.1, x.2.2)) ++ more)))

/-- A directive job at the point where it is carried out. -/
def atEffect (k : DirKind) (p : Nat) : DirJob :=
  { next := .effect, kind := some k, payload := p, result := none }

/-- What a directive leaves: the slot's state and result code, the engine's ending. -/
def slotEnd (s : State) : Nat × Nat × Option (JobEnding × JobKind) :=
  (slotState s, s.bus.mem.readLE 0x10086 2, s.ce.lastEnding)

/-- A slot of head 0's table: state, frame number, tile count and flags. -/
def slot0 (k state frame tiles flags : Nat) : List (Nat × Nat × Nat) :=
  let a := 0x10100 + 256 * k
  [(a, state, 4), (a + 5, flags, 1), (a + 8, frame, 4), (a + 0xC, tiles, 2), (a + 0x10, 0x90000, 4)]

/-- A take of head 0's slot granted. -/
def taking (k : Fin 8) : Engine := .take .i0 k TakeJob.start

/-- A row of one coefficient on the diagonal's place. -/
def row (a b c : Int) : Row3 := { c0 := a, c1 := b, c2 := c }

/-- The four points of 3.9 with the matrix rows of 6.7. -/
def points39 : List CalPoint :=
  [{ beta := 1200, mired := 8000, redGain := 2048, blueGain := 10240,
     matrix := { r0 := row 7000 (-2600) (-304), r1 := row 0 4096 0, r2 := row 0 0 4096 } },
   { beta := 1800, mired := 5333, redGain := 2662, blueGain := 7373,
     matrix := { r0 := row 6499 (-1980) (-423), r1 := row 0 4096 0, r2 := row 0 0 4096 } },
   { beta := 2300, mired := 3200, redGain := 3686, blueGain := 4915,
     matrix := { r0 := row 4096 0 0, r1 := row 0 4096 0, r2 := row 0 0 4096 } },
   { beta := 2700, mired := 1600, redGain := 4915, blueGain := 3482,
     matrix := { r0 := row 4096 0 0, r1 := row 0 4096 0, r2 := row 0 0 4096 } }]

/-- The store of 3.9. -/
def store39 : Cs := { valid := true, points := points39, loadBuffer := [] }

/-- Context 0 of 5.8 at an applied mired and a generation. -/
def context58 (mired : Nat) (generation : BitVec 32) : Context :=
  { mired := mired, generation := generation, settings :=
      { policy := .coolBias, holdBand := 32, stepLimit := 16, agreeSpread := 800,
        sources := { h0 := true, h1 := true, pod := true }, maxAge := 8, trims := { i0 := 8, i1 := 0 } } }

/-- The part of 5.8 just before its step. -/
def before58 : State :=
  { running 812 [] with
    cs := store39,
    ct := { Ct.reset with trackerDue := true },
    it := { It.reset with
      contexts := { q0 := some (context58 5600 120), q1 := none, q2 := none, q3 := none },
      latest := { i0 := some { mired := 6054, frame := 812 }, i1 := some { mired := 5990, frame := 811 } },
      marks := { i0 := 1, i1 := 0 } } }

/-- A LINKED pod link in an exchange, as in 9.7 at frame count 606. -/
def linked (misses : Nat) (x : Option Exchange) : Mlc :=
  { link := .linked, enable := true, luxFloor := 16, missCount := misses, podClass := some 2,
    reading := some { mired := 4410, lux := 320, quit := false, dim := false, sequence := 18, stamp := 602 },
    lastMark := some 6, hold := true, exchange := x, finishing := none, abandons := 0 }

/-- Good characters. -/
def chars (xs : List Nat) : List RxChar := xs.map fun x => { data := BitVec.ofNat 8 x, good := true }

/-- A running part with a pod link. -/
def podded (m : Mlc) : State := { running 608 [] with mlc := m }

/-- The banks of 7.6. -/
def banked (count : Nat) (b0 b1 : Bank) (q : Option Nat) : State :=
  { running count [] with lbu := { banks := { i0 := b0, i1 := b1 }, pendingQuery := q } }

/-- A BAKING bank's cursor and look. -/
def baking : Bank → Option (Nat × Look)
  | .baking c k => some (c, k)
  | .empty => none
  | .armed _ => none
  | .live _ _ => none
  | .retiring _ _ _ => none

/-- The look record of 7.3. -/
def look73 : Look :=
  { matrix := { r0 := row 4506 (-410) 0, r1 := row 0 4096 0, r2 := row (-205) (-410) 4710 }, knee := 3276,
    knots := [0, 0, 0, 0, 0, 0, 0, 0, 30000, 0, 0, 0, 0, 52000, 56000, 0, 0] }

/-! ## Words that a CONTROL row cannot carry -/

theorem test_ill_formed_run_set : Instr.wellFormed (.runSet 0#32) = false := by decide
theorem test_ill_formed_run_set_reset : Instr.wellFormed (.runSet 3#32) = false := by decide
theorem test_ill_formed_run_clear : Instr.wellFormed (.runClear 1#32) = false := by decide
theorem test_ill_formed_run_clear_reset : Instr.wellFormed (.runClear 2#32) = false := by decide
theorem test_ill_formed_engine_reset : Instr.wellFormed (.engineReset 1#32) = false := by decide
theorem test_ill_formed_mask_write : Instr.wellFormed (.attentionMaskWrite 2#32) = false := by decide
theorem test_well_formed_control_rows :
    Instr.wellFormed (.runSet 1#32) ∧ Instr.wellFormed (.runClear 0#32)
      ∧ Instr.wellFormed (.engineReset 3#32) ∧ Instr.wellFormed (.attentionMaskWrite 1#32) := by decide

/-- No row of the table has bits, so no word spells a command. -/
theorem test_no_word_spells_a_command :
    decodeTableWord 8 0 = none ∧ State.reset.withFetchWord 8 0 = State.reset := ⟨rfl, rfl⟩

/-! ## Memory -/

theorem test_little_endian :
    (stored [(4, 0x01020304, 4)]).map Prod.snd = [4#8, 3#8, 2#8, 1#8] := by decide
theorem test_zero_is_not_listed : stored [(4, 7, 1), (4, 0, 1)] = [] := by decide

/-! ## The manual's worked examples -/

/-- The filter of 3.8. -/
def filter38 : FilterSettings :=
  { FilterSettings.reset with
    pairA := { enable := true, value := 0x00, mask := 0x0F },
    pairB := { enable := true, value := 0x30, mask := 0xFA } }

/-- The seven tiles of 3.8. -/
def tiles38 : List Tile :=
  [⟨600000, 1048576, 500000, 1024, 0, 0x20⟩, ⟨1, 1048576, 1, 1024, 0, 0x21⟩, ⟨1, 307200, 1, 1024, 100, 0x31⟩,
   ⟨1, 204800, 1, 1024, 0, 0x34⟩, ⟨0, 0, 0, 0, 0, 0x00⟩, ⟨700000, 1024000, 400000, 1024, 64, 0x00⟩,
   ⟨1, 1048576, 1, 1024, 0, 0x32⟩]

/-- 3.8: the sums, and the WEAK estimate with blue share 1675. -/
theorem test_worked_filter :
    tiles38.foldl (addTile filter38) Accumulators.zero = ⟨1300000, 2072576, 900000, 2⟩
      ∧ formEstimate filter38 points39 ⟨1300000, 2072576, 900000, 2⟩
          = { reason := .fewTiles, accepted := 2, blueShare := 1675, mired := none } := by decide +kernel

/-- 3.9: blue share 1638, measured mired 6054, and the lookups of its last table. -/
theorem test_worked_estimate :
    formEstimate FilterSettings.reset points39 ⟨3000000, 4000000, 2000000, 150⟩
        = { reason := .none, accepted := 150, blueShare := 1638, mired := some 6054 }
      ∧ [1100, 1800, 2500, 2699, 2800].map (measuredMired points39) = [8000, 5333, 2400, 1604, 1600] := by
  decide +kernel

/-- 4.6: the clamps of a commit. -/
theorem test_worked_commit :
    [8400, 1500, 4000].map (fun m => (clampContext store39 (context58 m 17)).mired) = [8000, 1600, 4000]
      ∧ [8400, 1500, 4000].map (fun m => (clampContext store39 (context58 m 17)).generation) = [18, 18, 17] := by
  decide +kernel

/-- 4.7: β repeats. -/
theorem test_worked_refused_list :
    validPoints
        (points39.set 2
          { beta := 1800, mired := 3200, redGain := 3686, blueGain := 4915,
            matrix := { r0 := row 0 0 0, r1 := row 0 0 0, r2 := row 0 0 0 } }) = false
      ∧ validPoints points39 = true := by decide +kernel

/-- 5.4: the four policies over 4300, 3900 and 4100, and where each moves 4000. -/
theorem test_worked_policies :
    [(Policy.coolBias, 800), (.warmBias, 800), (.agree, 800), (.agree, 400)].map
        (fun x =>
          let st := { (context58 0 0).settings with policy := x.1, agreeSpread := x.2 }
          (policyTarget st [4300, 3900, 4100], slewed st 4000 (policyTarget st [4300, 3900, 4100])))
      = [(3900, 3984), (4300, 4016), (4100, 4016), (3900, 3984)] := by decide +kernel

/-- 6.7: the grades of the two heads' cards of frame 812. -/
theorem test_worked_grade :
    let g := formGrade store39 GradeSettings.reset { index := 0, mired := 5616, generation := 121, trim := 8 } 300
    let h := formGrade store39 GradeSettings.reset { index := 0, mired := 5616, generation := 121, trim := 0 } 300
    (g.headMired, g.segment, g.weight, g.redGain, g.blueGain, g.saturation) = (5624, 0, 3649, 2595, 7686, 2867)
      ∧ g.interpolated.r0 = row 6554 (-2048) (-410) ∧ g.desaturated.r0 = row 4997 (-1024) 123
      ∧ (h.headMired, h.weight, h.redGain, h.blueGain) = (5616, 3661, 2597, 7677) := by decide +kernel

/-- 6.8: a trim at the end of the range. -/
theorem test_worked_range_end :
    [(-24 : Int), 24].map (fun t =>
        let g := formGrade store39 GradeSettings.reset { index := 0, mired := 1610, generation := 0, trim := t } 450
        (g.headMired, g.segment, g.weight, g.redGain, g.blueGain, g.saturation))
      = [(1600, 2, 4096, 4915, 3482, 1638), (1634, 2, 4008, 4889, 3513, 1638)] := by decide +kernel

/-- 6.4: the row that needs its balance. -/
theorem test_worked_balance :
    (desaturate 1638 { r0 := row 4098 0 0, r1 := row 0 4096 0, r2 := row 0 0 4096 }).r0 = row 2458 820 820 := by
  decide +kernel

/-- 7.3: entry 4760 holds 53,859, 30,000, 0 and a zero, at offset 0xB4C0. -/
theorem test_worked_lut_entry :
    lutEntry look73 4760 = 53859 + 30000 * 2 ^ 16 ∧ entryAddr (running 0 []) .i0 4760 = 0x10000 + 0xB4C0 := by
  decide +kernel

/-- 7.6 and 7.7: the banks named. -/
theorem test_worked_bank_of_a_frame :
    let b (x y : Bank) : Two Bank := { i0 := x, i1 := y }
    bankForFrame (b (.armed 102) (.live 40 true)) 101 = some .i1
      ∧ bankForFrame (b (.armed 102) (.live 40 true)) 102 = some .i0
      ∧ bankForFrame (b (.live 102 true) (.retiring 40 true 110)) 101 = some .i1
      ∧ bankForFrame (b (.live 102 true) .empty) 102 = some .i0
      ∧ bankForFrame (b (.armed 302) .empty) 301 = none
      ∧ bankForFrame (b (.live 302 false) .empty) 301 = none
      ∧ bankForFrame (b (.live 302 false) .empty) 302 = some .i0 := by decide

/-- 10.8: a rising edge counts a run once, and a frozen counter stands. -/
theorem test_worked_edge_count :
    let c : Counter := { Counter.reset with settings :=
      { source := .weak, level := 0, invert := false, edge := true, select := .only .i1, enable := true } }
    let weak (h : Head) : MonEvent :=
      .card h (Quad.const 0) { reason := .fewTiles, accepted := 7, blueShare := 0, mired := none }
    let good : MonEvent :=
      .card .i1 (Quad.const 0) { reason := .none, accepted := 41, blueShare := 0, mired := some 5990 }
    let f (c : Counter) (e : MonEvent) : Counter := counterAfter false e 0 c
    ([good, weak .i1, weak .i0, weak .i1, good, weak .i1].scanl f c).map Counter.value = [0, 0, 1, 1, 1, 1, 2]
      ∧ counterAfter true (weak .i1) 0 c = c := by decide +kernel

/-- 12.6: the two requests. -/
theorem test_worked_requests :
    requestChars .probe = [0x5A, 0x01, 0x00, 0xFF] ∧ requestChars .read = [0x5A, 0x02, 0x00, 0xFE] := by decide

/-- R138: odd parity over the eight bits and the parity bit, and a stop bit of 1. -/
theorem test_character_parity :
    (rxChar 0x5A true true).good = true ∧ (rxChar 0x5A false true).good = false
      ∧ (rxChar 0x01 false true).good = true ∧ (rxChar 0x01 false false).good = false := by decide

/-- R138: 0x5A on the line: start, 0 1 0 1 1 0 1 0, four ones and so the parity bit 1, stop. -/
theorem test_character_on_the_line :
    lineBits 0x5A = [false, false, true, false, true, true, false, true, false, true, true]
      ∧ lineBits 0x01 = [false, true, false, false, false, false, false, false, false, false, true] := by decide

/-! ## One step of each command -/

/-- Chapter 1, rows 1 and 2: at the advance to 40 slot 7 is the candidate and is granted. -/
theorem test_frame_sync :
    let t := ran .frameSync
      (running 39 (stored (slot0 0 1 40 0 0 ++ slot0 2 1 41 192 0 ++ slot0 5 1 41 192 0 ++ slot0 7 1 39 192 2)))
    t.aiu.frameCount = 40 ∧ t.ce.engine = taking 7 ∧ t.ciu.candidate.i0 = none := by decide +kernel

/-- Chapter 1, row 5: slots 2 and 5 tie at 41. -/
theorem test_frame_sync_tie :
    (ran .frameSync (running 40 (stored (slot0 2 1 41 192 0 ++ slot0 5 1 41 192 0)))).ce.engine = taking 2 := by
  decide +kernel

/-- 7.6, rows 7 and 8: the retirement waits for the query, then is made. -/
theorem test_retirement :
    (ran .retirement (banked 110 (.live 102 true) (.retiring 40 true 110) (some 101))).lbu.banks.i1
        = .retiring 40 true 110
      ∧ (ran .retirement (banked 110 (.live 102 true) (.retiring 40 true 110) none)).lbu.banks.i1 = .empty := by
  decide +kernel

/-- 7.6, rows 7 and 8: the advance to 110 makes it with no query pending and not with 101 pending; the query of the
card of frame 101 names bank 1 and then makes it, and the header reads EMPTY. -/
theorem test_retirement_at_once :
    let b (q : Option Nat) := banked 109 (.live 102 true) (.retiring 40 true 110) q
    let t := ran (.cardJob .bankQuery)
      (holding (.card .i1 3 { CardJob.start { CardRequest.blank with frame := 101 } none with next := .bankQuery })
        (banked 110 (.live 102 true) (.retiring 40 true 110) (some 101)))
    (ran .frameSync (b none)).lbu.banks.i1 = .empty
      ∧ (ran .frameSync (b (some 101))).lbu.banks.i1 = .retiring 40 true 110
      ∧ (match t.ce.engine with
          | .card _ _ j => j.bank
          | _ => none) = some .i1
      ∧ (t.lbu.banks.i1, t.lbu.pendingQuery, t.bus.mem.readLE 0x11140 1) = (.empty, none, 0) := by decide +kernel

/-- 5.8: the step from 5600 to 5616. -/
theorem test_tracker_step :
    let t := ran .trackerStep before58
    t.it.contexts.q0 = some (context58 5616 121)
      ∧ t.it.lastStep = some
          { frameCount := 812, context := 0, outcome := .moved, target := some 5990, spread := some 64,
            counted := { h0 := true, h1 := true, pod := false } } := by decide +kernel

/-- 5.9, row 4: pod hold. -/
theorem test_tracker_step_held_by_the_pod :
    let t := ran .trackerStep { before58 with mlc := linked 0 none }
    (t.it.contexts.q0, t.it.lastStep.map StepResult.outcome) = (some (context58 5600 120), some .podHold) := by
  decide +kernel

/-- 9.7, row 5: in DETECT the expiry sends PROBE. -/
theorem test_poll_expiry :
    (ran .pollExpiry
        { podded { Mlc.reset with link := .detect, enable := true } with
          ct := { Ct.reset with pollDue := true } }).mlc.exchange
      = some { kind := .probe, phase := .sending } := by decide +kernel

/-- 8.6, row 6: the settle expiry. -/
theorem test_settle_expiry :
    (ran .settleExpiry { running 24 [] with ct := { Ct.reset with settleRunning := true } }).ct.settleRunning
      = false := by decide +kernel

/-- R131, R132: a cut after the advance that ends the window finds the timer stopped, in either mode. -/
theorem test_settle_start_after_the_window :
    let c := { Ct.reset with settleRunning := true, retriggerable := false }
    (settleStarted c).settleCount = 12
      ∧ (settleStarted { c with settleCount := 3 }).settleCount = 3 := by decide

theorem test_request_sent :
    (ran .requestSent (podded (linked 0 (some ⟨.read, .sending⟩)))).mlc.exchange
      = some ⟨.read, .awaiting⟩ := by decide

/-- 9.7, row 4: the third miss loses the link, and HOLD and POD_LOST are set. -/
theorem test_reply_window_expiry :
    let t := ran .replyWindowExpiry (podded (linked 2 (some ⟨.read, .awaiting⟩)))
    (t.mlc.link, t.mlc.missCount, t.mlc.reading, t.mlc.lastMark, t.mlc.hold, t.aiu.causes)
      = (.detect, 0, none, none, false, 0x30#9) := by decide +kernel

/-- 9.7, row 6: the PROBE reply's last character, CHECK 0x7A, finds the pod. -/
theorem test_reply_character_probe :
    let t := ran (.replyCharacter 0x7A false true)
      (podded
        { Mlc.reset with
          link := .detect, enable := true,
          exchange := some (Exchange.mk .probe (.receiving (chars [0x5A, 0x81, 2, 2, 1]))) })
    (t.mlc.link, t.mlc.podClass, t.mlc.exchange, t.aiu.causes) = (.linked, some 2, none, 0x08#9) := by
  decide +kernel

/-- 9.7, row 8: an equal sequence keeps the reading, and one press is added to each head. -/
theorem test_reply_character_read :
    let t := ran (.replyCharacter 0x60 true true)
      (podded (linked 1 (some ⟨.read, .receiving (chars [0x5A, 0x82, 7, 2, 7, 0xAA, 0x11, 0x40, 1, 18])⟩)))
    (t.mlc.missCount, t.mlc.reading.map Reading.stamp, t.mlc.lastMark, t.it.marks, t.mlc.hold)
      = (0, some 602, some 7, ⟨1, 1⟩, true) := by decide +kernel

/-- A reply cut short is a miss (R140, R141). -/
theorem test_reply_gap_timeout :
    (ran .replyGapTimeout (podded (linked 0 (some ⟨.read, .receiving (chars [0x5A])⟩)))).mlc.missCount = 1 := by
  decide +kernel

/-- Chapter 1, row 2: slot 7 passes intake. R23: the change to CARD rewrites the slot byte that others stored over,
and R176: byte 0x0E of the card is not read. -/
theorem test_take :
    let s := holding (taking 7) (running 40 (stored (slot0 7 1 39 192 2 ++ [(0x1000A, 0x55, 1)])))
    let t := ran (.take .finish) { s with bus := { s.bus with unbacked := [(0x1080E, 2)] } }
    (t.bus.mem.readLE 0x10800 4, t.ciu.lastTaken.i0, engineCode t.ce.engine, t.lbu.pendingQuery)
        = (2, some 39, 2, some 39)
      ∧ t.bus.mem.readLE 0x1000A 1 = 7 := by decide +kernel

/-- Chapter 1, row 12: LATE before STALE, and the last-taken frame keeps 41. -/
theorem test_take_late :
    let s := holding (taking 0) (running 42 (stored (slot0 0 1 30 192 0)))
    let t := ran (.take .finish)
      { s with ciu := { Ciu.reset with lastTaken := { i0 := some 41, i1 := none } } }
    (t.bus.mem.readLE 0x10100 4, t.bus.mem.readLE 0x10120 1, t.bus.mem.readLE 0x10124 4, t.ciu.lastTaken.i0,
      t.ce.engine) = (3, 2, 42, some 41, .free) := by decide +kernel

/-- A card of head 0's frame 812 in the engine, with gain 300, NOTIFY, and one tile that holds the sums of 3.9. -/
def card67 : State :=
  { before58 with
    it := { before58.it with
      contexts := { q0 := some (context58 5616 121), q1 := none, q2 := none, q3 := none } },
    lbu := { banks := { i0 := .live 40 false, i1 := .empty }, pendingQuery := some 812 },
    ce := { Ce.reset with
      filter := { FilterSettings.reset with aMin := 1 },
      engine := .card .i0 4
        (CardJob.start
          { head := 0, cut := false, notify := true, gain := 300, frame := 812, tileCount := 1,
            tileAddr := 0x90000 } none) },
    bus := { Bus.reset with
      mem := stored [(0x90000, 3000000, 4), (0x90004, 4000000, 4), (0x90008, 2000000, 4), (0x9000C, 1024, 2)] } }

/-- 3.9 and 6.7: the card's result as it stands in memory. -/
theorem test_card_job :
    let t := ran (.cardJob .finish) card67
    [(0x00, 4), (0x20, 1), (0x24, 4), (0x2A, 2), (0x2C, 2), (0x2E, 1), (0x2F, 1), (0x30, 4), (0x34, 2),
      (0x36, 2), (0x38, 2), (0x3A, 2), (0x3C, 2), (0x3E, 1), (0x3F, 1), (0x40, 4), (0x44, 4), (0x48, 4)].map
        (fun f => t.bus.mem.readLE (0x10500 + f.1) f.2)
      = [3, 1, 812, 1638, 6054, 0, 0, 121, 5616, 5624, 2595, 7686, 2867, 1, 0, 4997, 2 ^ 32 - 1024, 123] := by
  decide +kernel

/-- Chapter 1's second example, row 2: UNCALIBRATED gives the last-taken frame back. -/
theorem test_card_job_uncalibrated :
    let j := CardJob.start { head := 1, cut := true, notify := false, gain := 0, frame := 62, tileCount := 9,
                             tileAddr := 0 } none
    let t := ran (.cardJob .finish)
      { holding (.card .i1 3 j) (running 62 []) with
        ciu := { Ciu.reset with lastTaken := { i0 := none, i1 := some 62 } } }
    (t.ciu.lastTaken.i1, t.bus.mem.readLE 0x10C00 4, t.bus.mem.readLE 0x10C20 1) = (none, 3, 5) := by
  decide +kernel

theorem test_refused_kind :
    slotEnd (ran (.refusedKind .finish) (posted 15 [] [])) = (3, 2, some (.refused, .directive)) := by
  decide +kernel

theorem test_set_order :
    let t := ran (.setOrder .finish) (posted 1 [(0, 3, 2)] [])
    (slotEnd t, t.ce.order, t.aiu.causes) = ((3, 1, some (.completed, .directive)), 3, 2#9) := by decide +kernel

theorem test_set_order_refused :
    let t := ran (.setOrder .finish) (posted 1 [(0, 6, 2)] [])
    (slotEnd t, t.ce.order) = ((3, 3, some (.refused, .directive)), 0) := by decide +kernel

theorem test_set_filter :
    (ran (.setFilter .finish)
        (posted 2 [(0, 1, 1), (2, 0x0F, 1), (4, 1, 1), (5, 0x30, 1), (6, 0xFA, 1), (8, 256, 2), (0xA, 60000, 2),
          (0xC, 16, 2), (0xE, 8, 2)] [])).ce.filter = filter38 := by decide +kernel

/-- R176: a hole at payload byte 0x03, which no field uses, is not met; one at 0x04 is. -/
theorem test_set_filter_reads_no_unused_byte :
    let s := posted 2 [(8, 256, 2), (0xA, 60000, 2)] []
    let hole (a : Nat) : State := { s with bus := { s.bus with unbacked := [(a, 1)] } }
    [0x10093, 0x10094].map (fun a => (slotEnd (ran (.setFilter .finish) (hole a))).2.1) = [1, 5] := by
  decide +kernel

/-- Bytes of a point record with a zero matrix. -/
def pointAt (a beta mired red blue : Nat) : List (Nat × Nat × Nat) :=
  [(a, beta, 2), (a + 2, mired, 2), (a + 4, red, 2), (a + 6, blue, 2)]

/-- 4.6: a load of two points clamps context 0 and discards the estimates. -/
theorem test_load_calibration :
    let s := posted 3 [(0, 0x80000, 4), (4, 2, 2)]
      (pointAt 0x80000 1200 3000 2048 10240 ++ pointAt 0x80020 1800 1600 2662 7373)
    let t := ran (.loadCalibration .finish) { s with it := { s.it with latest := before58.it.latest } }
    (slotEnd t, t.cs.valid, t.cs.points.map CalPoint.mired, t.it.latest)
        = ((3, 1, some (.completed, .directive)), true, [3000, 1600], ⟨none, none⟩)
      ∧ t.it.contexts.q0.map (fun x => (x.mired, x.generation)) = some (3000, 1) := by decide +kernel

/-- 4.7: a repeated β. -/
theorem test_load_calibration_refused :
    let t := ran (.loadCalibration .finish)
      (posted 3 [(0, 0x80000, 4), (4, 2, 2)]
        (pointAt 0x80000 1800 3000 2048 10240 ++ pointAt 0x80020 1800 1600 2662 7373))
    (slotEnd t, t.cs) = ((3, 3, some (.refused, .directive)), Cs.reset) := by decide +kernel

/-- R76: clamps, and a trim below its range. -/
theorem test_set_tracking :
    (ran (.setTracking .finish)
        (posted 4 [(0, 1, 2), (2, 2, 2), (4, 2000, 2), (6, 0, 2), (8, 5000, 2), (0xA, 5, 2), (0xC, 0, 2),
          (0xE, 0x8000, 2), (0x10, 1023, 2), (0x12, 0xFFFF, 2)] [])).it.contexts.q1
      = some { mired := 16383, generation := 0, settings :=
          { policy := .agree, holdBand := 1023, stepLimit := 1, agreeSpread := 4095,
            sources := { h0 := true, h1 := false, pod := true }, maxAge := 1,
            trims := { i0 := -1024, i1 := 1023 } } } := by decide +kernel

theorem test_switch_context :
    (ran (.switchContext .finish) (posted 5 [(0, 0, 2)] [])).it.contexts.q0.map Context.generation = some 1 := by
  decide +kernel

theorem test_switch_context_refused :
    slotEnd (ran (.switchContext .finish) (posted 5 [(0, 1, 2)] [])) = (3, 4, some (.refused, .directive)) := by
  decide +kernel

theorem test_snap : (ran (.snap .finish) (posted 6 [] [])).it.snapRequest = true := by decide +kernel

theorem test_set_grade :
    (ran (.setGrade .finish) (posted 7 [(0, 479, 2), (2, 480, 2), (4, 5000, 2)] [])).ce.grading
      = { gK := 479, gM := 480, sMin := 4096 } := by decide +kernel

theorem test_set_grade_refused :
    slotEnd (ran (.setGrade .finish) (posted 7 [(0, 480, 2), (2, 480, 2)] []))
      = (3, 3, some (.refused, .directive)) := by decide +kernel

/-- 2.8, row 3: BAKE_LUT ends, the bake claims and is granted; a knee below 2048 is brought to it (R115). -/
theorem test_bake_lut :
    let t := ran (.bakeLut .finish) (posted 8 [(0, 0xA0000, 4)] [(0xA0000, 4506, 2), (0xA0012, 100, 2)])
    (slotEnd t).2.1 = 1 ∧ t.ce.engine = .bake .i0
      ∧ (baking t.lbu.banks.i0).map (fun x => (x.1, x.2.matrix.r0.c0, x.2.knee)) = some (0, 4506, 2048) := by
  decide +kernel

theorem test_abort_bake :
    let s := posted 9 [] []
    let t := ran (.abortBake .finish) { s with lbu := { s.lbu with banks := { i0 := .baking 901 look73, i1 := .empty } } }
    ((slotEnd t).2.1, t.lbu.banks.i0) = (1, .empty) := by decide +kernel

/-- 8.6, row 7. -/
theorem test_set_cadence :
    let s := posted 0xA [(0, 2, 2), (2, 3, 2), (4, 1, 2)] []
    let t := ran (.setCadence .finish)
      { s with ct := { Ct.reset with trackerLen := 3, trackerCount := 3, pollCount := 2, settleLen := 3,
                                     retriggerable := false } }
    (t.ct.trackerLen, t.ct.trackerCount, t.ct.pollCount, t.ct.settleRunning, t.ct.retriggerable)
      = (2, 2, 2, false, true) := by decide +kernel

/-- 9.7, row 9: SET_POD restarts the link, hold lapses with the HOLD cause. -/
theorem test_set_pod :
    let s := posted 0xB [(0, 1, 2), (2, 4, 2), (4, 32, 2)] []
    let t := ran (.setPod .finish) { s with mlc := linked 0 (some ⟨.read, .receiving (chars [0x5A])⟩) }
    (t.mlc.link, t.mlc.luxFloor, t.mlc.reading, t.mlc.hold, t.mlc.exchange, t.aiu.causes)
      = (.detect, 32, none, false, none, 0x22#9) := by decide +kernel

/-- R151.1, R154: a request abandoned in its sending phase leaves a character to be finished, after which the line
is quiet; no other exchange does. -/
theorem test_abandoned_request :
    let s := posted 0xB [(0, 1, 2), (2, 4, 2), (4, 32, 2)] []
    let t := ran (.setPod .finish) { s with mlc := linked 0 (some ⟨.read, .sending⟩) }
    (t.mlc.exchange, t.mlc.finishing.isSome) = (none, true)
      ∧ (ran .requestSent t).mlc.finishing = none
      ∧ (ran .deviceReset (podded (linked 0 (some ⟨.read, .sending⟩)))).mlc.finishing.isSome = true
      ∧ (ran (.engineReset 2#32) (podded (linked 0 (some ⟨.read, .awaiting⟩)))).mlc.finishing = none := by
  decide +kernel

theorem test_set_monitor :
    (ran (.setMonitor .finish)
        (posted 0xC [(0, 2, 1), (1, 1, 1), (2, 256, 2), (4, 5, 1), (5, 2, 1)] [])).mon.counters.q2.settings
      = { source := .tileLevel, level := 256, invert := true, edge := false, select := .both,
          enable := true } := by decide +kernel

theorem test_set_freeze :
    (ran (.setFreeze .finish) (posted 0xD [(0, 1, 1)] [])).mon.freezeOnCut = true := by decide +kernel

theorem test_clear_monitor :
    let s := posted 0xE [] []
    let t := ran (.clearMonitor .finish)
      { s with mon := { Mon.reset with counters := Quad.const { Counter.reset with value := 9 }, frozen := true } }
    (t.mon.counters.q3.value, t.mon.frozen) = (0, false) := by decide +kernel

/-- 2.8, row 7: row 40 ends at cursor 697 and the bake yields to head 0. -/
theorem test_bake_row_yields :
    let s := holding (.bake .i0) (banked 201 (.baking 680 look73) .empty none)
    let t := ran .bakeRow { s with ciu := { Ciu.reset with candidate := { i0 := some 0, i1 := none } } }
    (baking t.lbu.banks.i0).map Prod.fst = some 697 ∧ t.ce.lastEnding = some (.partialJob, .bake) := by
  decide +kernel

/-- 7.6, row 1: the last row arms the bank for 102. -/
theorem test_bake_row_arms :
    let t := ran .bakeRow (holding (.bake .i0) (banked 100 (.baking 4896 look73) (.live 40 true) none))
    (t.lbu.banks.i0, t.ce.lastEnding, t.aiu.causes) = (.armed 102, some (.completed, .bake), 4#9) := by
  decide +kernel

theorem test_drain_complete :
    (ran .drainComplete { running 5 [] with aiu := { (running 5 []).aiu with run := .draining } }).aiu.run
      = .stopped := by decide

/-- 12.2: after RUN is set the status block shows RUNNING, and no candidate as 15. -/
theorem test_run_set :
    let t := ran (.runSet 1#32) { State.reset with aiu := { Aiu.reset with area := 0x10000#32 } }
    (t.aiu.run, t.bus.mem.readLE 0x10000 1, t.bus.mem.readLE 0x1000D 1) = (.running, 1, 0xFF) := by decide +kernel

/-- R168: a base that is not a multiple of 4096. -/
theorem test_run_set_area_invalid :
    let t := ran (.runSet 1#32) { State.reset with aiu := { Aiu.reset with area := 0x10800#32 } }
    (t.aiu.run, t.aiu.areaInvalid, t.bus.mem) = (.stopped, true, []) := by decide +kernel

/-- 2.8, row 11. -/
theorem test_run_clear :
    (ran (.runClear 0#32) (holding (.bake .i0) (running 5 []))).aiu.run = .draining
      ∧ (ran (.runClear 0#32) (running 5 [])).aiu.run = .stopped := by decide +kernel

/-- 11.8, row 5: AREA is kept, the fault kind and the count go. -/
theorem test_engine_reset :
    let s := running 3120 []
    let t := ran (.engineReset 0x01FF0002#32)
      { s with aiu := { s.aiu with run := .faulted, faultKind := some .cardWrite, causes := 0x100#9 } }
    t.aiu = { Aiu.reset with area := 0x10000#32 } := by decide

theorem test_attention_mask_write :
    (ran (.attentionMaskWrite 0x00010000#32) State.reset).aiu.mask = 1#9 := by decide

/-- R166, R167: the RUN bit of the word acts. -/
theorem test_attention_mask_write_run :
    (ran (.attentionMaskWrite 0x00010001#32)
        { State.reset with aiu := { Aiu.reset with area := 0x10000#32 } }).aiu.run = .running
      ∧ (ran (.attentionMaskWrite 0x00010000#32) (running 5 [])).aiu.run = .stopped := by decide +kernel

theorem test_area_write :
    (ran (.areaWrite 0x20000#32) State.reset).aiu.area = 0x20000#32
      ∧ (ran (.areaWrite 0x20000#32) (running 5 [])).aiu.area = 0x10000#32 := by decide

/-- 11.8, row 4. -/
theorem test_attn_write :
    let s := running 3120 []
    (ran (.attnWrite 0x110#32)
      { s with aiu := { s.aiu with run := .faulted, faultKind := some .cardWrite, causes := 0x110#9 } }).aiu.causes
      = 0#9 := by decide +kernel

theorem test_register_write_ignored :
    ran (.registerWriteIgnored .frame 7#32) State.reset = State.reset := by decide

theorem test_device_reset : (ran .deviceReset before58).it = It.reset := by decide

/-- 11.8, row 1: a failed result write. -/
theorem test_card_write_fault :
    let t := ran (.cardJob .finish)
      (failing 0 (holding (.card .i0 4 { CardJob.start CardRequest.blank none with next := .writeResult })
        (running 3120 (stored (slot0 4 2 3119 1 0)))))
    (t.aiu.run, t.aiu.faultKind, t.aiu.causes, t.aiu.frameCount, t.bus.mem.readLE 0x10500 4)
      = (.faulted, some .cardWrite, 0x100#9, 3120, 2) := by decide +kernel

/-! ## States that meet the premises of the statements -/

theorem clear_of {s : State} (h : s.bus.failPlan = []) (k : s.bus.answers (base s) 0x16000 = true) :
    Clear s := ⟨h, k⟩

theorem clear_at {s : State} (h : s.aiu.area = 0x10000#32) (k : s.bus.unbacked = [])
    (f : s.bus.failPlan = []) : Clear s := ⟨f, by simp [Bus.answers, base, h, k]⟩

/-- No bank of a pair is BAKING, and the relations of R112 hold. -/
theorem bankLaw_of {l : Lbu} (h : (isLive l.banks.i0 && isLive l.banks.i1) = false)
    (k : (bakingOrArmed l.banks.i0 && bakingOrArmed l.banks.i1) = false)
    (r : ∀ i, isRetiring (l.banks.get i) = true → isLive (l.banks.get i.other) = true)
    (b : ∀ i c x, l.banks.get i = .baking c x → c % 17 = 0 ∧ c < lutEntries) : BankLaw l :=
  ⟨by simpa using h, by simpa using k, r, b⟩

/-- The part in STOPPED with a base. -/
def stopped (area : BitVec 32) : State := { State.reset with aiu := { Aiu.reset with area := area } }

/-- Bank 1 LIVE under bank 0 ARMED, as in 7.6. -/
def armed76 : Lbu := { banks := { i0 := .armed 102, i1 := .live 40 true }, pendingQuery := none }

theorem armed76_law : BankLaw armed76 :=
  bankLaw_of rfl rfl (fun i => by cases i <;> decide) (fun i c x h => by cases i <;> cases h)

/-- Bank 1 RETIRING beside bank 0 LIVE, as in 7.6. -/
theorem retiring76_law (q : Option Nat) :
    BankLaw { banks := { i0 := .live 102 true, i1 := .retiring 40 true 110 }, pendingQuery := q } :=
  bankLaw_of rfl rfl (fun i h => by cases i <;> first | rfl | cases h) (fun i c x h => by cases i <;> cases h)

theorem empty_law : BankLaw Lbu.reset :=
  bankLaw_of rfl rfl (fun i => by cases i <;> decide) (fun i c x h => by cases i <;> cases h)

theorem test_witness_RegisterWritesAndReads :
    State.reset.aiu.run = .stopped ∧ (running 5 []).aiu.run ≠ .stopped
      ∧ (running maxFrame []).aiu.frameCount ≤ maxFrame
      ∧ (1#32).getLsbD 0 = true ∧ (2#32).getLsbD 0 = false ∧ State.reset.aiu.run ≠ .running := by decide

theorem test_witness_AttentionCausesAndLine : Clear (running 5 []) := clear_at rfl rfl rfl

/-- The lowest base that passes, the highest that the work area fits above, and bases beside them that fail. -/
theorem test_witness_RunSetChecksAndStarts :
    ((running 5 []).aiu.run ≠ .stopped)
      ∧ (∀ a ∈ [0#32, 0xFFF#32, 0x1001#32], (stopped a).aiu.run = .stopped
          ∧ ((stopped a).aiu.area = 0 ∨ (stopped a).aiu.area.toNat % 4096 ≠ 0))
      ∧ (∀ a ∈ [0x1000#32, 0xFFFEA000#32], (stopped a).aiu.run = .stopped ∧ (stopped a).aiu.area ≠ 0
          ∧ (stopped a).aiu.area.toNat % 4096 = 0)
      ∧ Clear (stopped 0x1000#32) ∧ Clear (stopped 0xFFFEA000#32) :=
  ⟨by decide, fun a h => (by fin_cases h <;> exact ⟨rfl, by decide⟩),
    fun a h => (by fin_cases h <;> exact ⟨rfl, by decide⟩),
    clear_of rfl (by decide +kernel), clear_of rfl (by decide +kernel)⟩

/-- A run state of DRAINING. -/
def draining (s : State) : State := { s with aiu := { s.aiu with run := .draining } }

theorem test_witness_RunClearDrainsAndStops :
    (stopped 0).aiu.run ≠ .running
      ∧ ((running 5 []).aiu.run = .running ∧ (running 5 []).ce.engine = .free)
      ∧ ((holding (.bake .i0) (running 5 [])).aiu.run = .running
          ∧ (holding (.bake .i0) (running 5 [])).ce.engine ≠ .free)
      ∧ Clear (holding (.bake .i0) (running 5 []))
      ∧ ((draining (running 5 [])).aiu.run = .draining ∧ (draining (running 5 [])).ce.engine = .free)
      ∧ (draining (holding (.bake .i0) (running 5 []))).ce.engine ≠ .free :=
  ⟨by decide, by decide, by decide, clear_at rfl rfl rfl, by decide, by decide⟩

/-- An ARMED bank that a reset makes LIVE, and banks of which a reset leaves none LIVE. -/
theorem test_witness_EngineResetLeaves :
    BankLaw armed76 ∧ isLive ((engineResetLbu armed76).banks.get .i0) = true
      ∧ BankLaw Lbu.reset ∧ (∀ i, isLive ((engineResetLbu Lbu.reset).banks.get i) = false) :=
  ⟨armed76_law, by decide, empty_law, fun i => by cases i <;> rfl⟩

theorem test_witness_FrameSyncAdvances :
    (stopped 0).aiu.run ≠ .running
      ∧ ((running maxFrame []).aiu.run = .running ∧ maxFrame ≤ (running maxFrame []).aiu.frameCount
          ∧ NothingDue (running maxFrame []) ∧ Clear (running maxFrame []))
      ∧ (running (maxFrame - 1) []).aiu.frameCount < maxFrame ∧ NothingDue (running (maxFrame - 1) [])
      ∧ Clear (running (maxFrame - 1) []) :=
  ⟨by decide, ⟨rfl, by decide +kernel, ⟨rfl, rfl, rfl⟩, clear_at rfl rfl rfl⟩, by decide +kernel,
    ⟨rfl, rfl, rfl⟩, clear_at rfl rfl rfl⟩

/-- A retirement that stands due, and a tracker step, a poll expiry and a settle expiry still to be taken. -/
def overdue : State :=
  { banked 110 (.live 102 true) (.retiring 40 true 110) none with
    ct := { Ct.reset with trackerDue := true, pollDue := true, settleRunning := true },
    mlc := { Mlc.reset with link := .detect, enable := true } }

theorem test_witness_FrameSyncTakesOverdueFirst :
    ∃ t1 t2 t3 : State, overdue.aiu.run = .running ∧ exec .trackerStep overdue = .next t1
      ∧ exec .pollExpiry t1 = .next t2 ∧ exec .settleExpiry t2 = .next t3 :=
  ⟨_, _, _, rfl, rfl, rfl, rfl⟩

theorem test_witness_CandidateIsSmallestEligible :
    ([(2, 41), (5, 41), (7, 39)] : List (Fin 8 × Nat)).Pairwise (fun c d => c.1 < d.1)
      ∧ chooseCandidate 38 [(2, 41), (5, 41), (7, 39)] = none
      ∧ chooseCandidate 39 [(2, 41), (5, 41), (7, 39)] = some 7
      ∧ chooseCandidate 41 [(2, 41), (5, 41)] = some 2 := by decide

theorem test_witness_SwapKeepsTheBankOfAFrame :
    BankLaw armed76 ∧ armed76.banks.get .i0 = .armed 102 ∧ armed76.banks.get Ix2.i0.other = .live 40 true
      ∧ (∀ st p, armed76.banks.get Ix2.i0.other = .live st p → st ≤ 40 ∨ p = true)
      ∧ BankLaw { banks := { i0 := .armed 302, i1 := .empty }, pendingQuery := none }
      ∧ isLive .empty = false :=
  ⟨armed76_law, rfl, rfl, fun st p h => by cases h; decide,
    bankLaw_of rfl rfl (fun i => by cases i <;> decide) (fun i c x h => by cases i <;> cases h), rfl⟩

/-- The retire frame reached with a query at the start frame; one frame early; a query one below it; no RETIRING
bank. -/
theorem test_witness_RetirementWaitsForTheQuery :
    (∀ q ∈ [none, some 102, some 101], Clear (banked 110 (.live 102 true) (.retiring 40 true 110) q))
      ∧ (banked 110 (.live 102 true) (.retiring 40 true 110) none).lbu.banks.get .i1 = .retiring 40 true 110
      ∧ (banked 110 (.live 102 true) (.retiring 40 true 110) none).lbu.banks.get Ix2.i1.other = .live 102 true
      ∧ (110 ≤ 110 ∧ ∀ q, some 102 = some q → 102 ≤ q)
      ∧ (109 < 110) ∧ (∃ q, some 101 = some q ∧ q < 102)
      ∧ (∀ i, isRetiring (armed76.banks.get i) = false) :=
  ⟨fun q _ => clear_at rfl rfl rfl, rfl, rfl, ⟨by decide, fun q h => by cases h; decide⟩,
    by decide, ⟨101, rfl, by decide⟩, fun i => by cases i <;> rfl⟩

theorem test_witness_TrackerStepTaken :
    before58.ct.trackerDue = true ∧ before58.aiu.run = .running
      ∧ before58.it.contexts.get before58.it.active = some (context58 5600 120) ∧ Clear before58
      ∧ (running 5 []).ct.trackerDue = false :=
  ⟨rfl, rfl, rfl, clear_at rfl rfl rfl, rfl⟩

/-- Pod hold; no source; a snap by each of its two causes; the two ends of the hold band and one beyond each. -/
theorem test_witness_StepOutcomes :
    (linked 0 none).hold = true
      ∧ sourceValues (sourcesAt (context58 5600 120).settings (running 5 [])) = []
      ∧ sourceValues (sourcesAt (context58 5600 120).settings before58) = [6054, 5990]
      ∧ before58.mlc.hold = false ∧ overdue.ct.settleRunning = true
      ∧ ({ before58.it with snapRequest := true } : It).snapRequest = true
      ∧ before58.ct.settleRunning = false ∧ before58.it.snapRequest = false
      ∧ targetOf before58.cs (context58 5600 120).settings [6054, 5990] = 5990
      ∧ [5958, 6022, 5957, 6023].map (fun m => (decideStep (context58 m 0) before58).outcome)
          = [.held, .held, .moved, .moved] := by decide +kernel

theorem test_witness_SourcesAndTarget :
    headSource true 8 812 (some { mired := 6054, frame := 804 }) = some 6054
      ∧ headSource true 8 813 (some { mired := 6054, frame := 804 }) = none
      ∧ podSource true 8 610 (linked 0 none) = some 4410 ∧ podSource true 8 611 (linked 0 none) = none
      ∧ (Cs.reset.valid = false) ∧ (store39.valid = true ∧ storeBottom store39 ≤ storeTop store39)
      ∧ [6054, 5990] ≠ [] := by decide

theorem test_witness_StepChangesAtMostS :
    ∃ t, before58.it.contexts.get before58.it.active = some (context58 5600 120)
      ∧ exec .trackerStep before58 = .next t ∧ before58.ct.settleRunning = false
      ∧ before58.it.snapRequest = false :=
  ⟨_, rfl, rfl, rfl, rfl⟩

theorem test_witness_TimerExpiries :
    Clear overdue ∧ overdue.ct.pollDue = true ∧ overdue.aiu.run = .running
      ∧ overdue.ct.settleRunning = true ∧ overdue.ct.settleCount = 0
      ∧ (running 5 []).ct.pollDue = false ∧ (running 5 []).ct.settleRunning = false
      ∧ Ct.reset.settleRunning = false ∧ 1 ≤ Ct.reset.settleLen ∧ Ct.reset.retriggerable = true
      ∧ ({ Ct.reset with settleLen := 0 } : Ct).settleLen = 0
      ∧ (let c : Ct := { Ct.reset with settleRunning := true, settleCount := 1, retriggerable := false };
          c.settleRunning = true ∧ 1 ≤ c.settleCount ∧ c.retriggerable = false) :=
  ⟨clear_at rfl rfl rfl, by decide⟩

theorem test_witness_ReplyIsCollected :
    ({ linked 0 none with finishing := some 0x5A#8 } : Mlc).finishing = some 0x5A#8
      ∧ (linked 0 none).finishing = none
      ∧ (podded (linked 0 (some ⟨.read, .sending⟩))).mlc.exchange = some ⟨.read, .sending⟩
      ∧ (podded (linked 0 none)).mlc.exchange = none
      ∧ (∀ k', (podded (linked 0 none)).mlc.exchange ≠ some ⟨k', .sending⟩)
      ∧ (podded (linked 0 (some ⟨.read, .awaiting⟩))).mlc.exchange = some ⟨.read, .awaiting⟩
      ∧ (podded (linked 0 (some ⟨.read, .receiving (chars [1, 2, 3, 4, 5, 6, 7, 8, 9])⟩))).mlc.exchange
          = some ⟨.read, .receiving (chars [1, 2, 3, 4, 5, 6, 7, 8, 9])⟩
      ∧ (chars [1, 2, 3, 4, 5, 6, 7, 8, 9]).length + 1 < replyLength .read :=
  ⟨rfl, rfl, rfl, rfl, fun _ h => (by cases h), rfl, rfl, by decide⟩

/-- The last character of a valid READ reply, of a valid PROBE reply, and of one that is a miss. -/
theorem test_witness_ReplyIsJudged :
    Clear (podded (linked 0 none))
      ∧ (chars [0x5A, 0x82, 7, 2, 7, 0xAA, 0x11, 0x40, 1, 18]).length + 1 = replyLength .read
      ∧ replyValid .read (chars [0x5A, 0x82, 7, 2, 7, 0xAA, 0x11, 0x40, 1, 18] ++ [rxChar 0x60 true true]) = true
      ∧ replyValid .read (chars [0x5A, 0x82, 7, 2, 7, 0xAA, 0x11, 0x40, 1, 18] ++ [rxChar 0x60 false true]) = false
      ∧ (chars [0x5A, 0x81, 2, 2, 1]).length + 1 = replyLength .probe
      ∧ replyValid .probe (chars [0x5A, 0x81, 2, 2, 1] ++ [rxChar 0x7A false true]) = true
      ∧ (chars [0x5A]).length < replyLength .read
      ∧ (chars [0x5A])[0]? = some { data := 0x5A, good := true } ∧ (chars [0x5A]).length ≤ 1 :=
  ⟨clear_at rfl rfl rfl, by decide +kernel⟩

theorem test_witness_LinkAfterAReply :
    (linked 1 none).link = .linked ∧ (linked 1 none).missCount < 2 ∧ 2 ≤ (linked 2 none).missCount
      ∧ Mlc.reset.link ≠ .linked
      ∧ ((linked 0 none).reading.map Reading.sequence
          = some (charAt (chars [0x5A, 0x82, 7, 2, 7, 0xAA, 0x11, 0x40, 1, 18]) 9))
      ∧ ((linked 0 none).reading.map Reading.sequence
          ≠ some (charAt (chars [0x5A, 0x82, 7, 2, 7, 0xAA, 0x11, 0x40, 1, 19]) 9))
      ∧ newMarks (some 255) 0 = 1 ∧ newMarks (some 0) 255 = 255 := by decide

/-! ### The take and the card -/

/-- A take granted for a READY card of head 0 in slot 7. -/
def taken (count frame tiles : Nat) : State :=
  holding (taking 7) (running count (stored (slot0 7 1 frame tiles 0)))

/-- A card withdrawn, and a card one above the frame count. -/
theorem test_witness_TakeLapses :
    let withdrawn := holding (taking 7) (running 40 (stored (slot0 7 0 39 1 0)))
    let s := taken 40 41 1
    Clear withdrawn ∧ Clear s
      ∧ withdrawn.ce.engine = .take .i0 7 TakeJob.start ∧ withdrawn.bus.mem.readLE (cardAddr withdrawn .i0 7) 4 ≠ 1
      ∧ s.aiu.frameCount < s.bus.mem.readLE (cardAddr s .i0 7 + 8) 4
      ∧ s.ce.engine = .take .i0 7 TakeJob.start :=
  ⟨clear_at rfl rfl rfl, clear_at rfl rfl rfl, by decide +kernel⟩

/-- A take with head 0's last-taken frame at a value. -/
def takenAfter (last count frame tiles : Nat) : State :=
  { taken count frame tiles with ciu := { Ciu.reset with lastTaken := { i0 := some last, i1 := none } } }

/-- The values a take reads. -/
def takenRequest (s : State) : CardRequest := cardRequest (s.bus.mem.readLE (cardAddr s .i0 7) 0x14)

/-- The oldest frame that is not LATE, with the most tiles, one above the last-taken frame. -/
theorem test_witness_TakePassesACard :
    let s := takenAfter 39 48 40 256
    let req := takenRequest s
    Clear s ∧ s.ce.engine = .take .i0 7 TakeJob.start ∧ s.bus.mem.readLE (cardAddr s .i0 7) 4 = 1
      ∧ req.frame ≤ s.aiu.frameCount ∧ 1 ≤ req.tileCount ∧ req.tileCount ≤ 256 ∧ req.head = Ix2.i0.toNat
      ∧ s.aiu.frameCount ≤ req.frame + 8 ∧ (s.ciu.lastTaken.get .i0, req.frame) = (some 39, 40) :=
  ⟨clear_at rfl rfl rfl, by decide +kernel⟩

/-- MALFORMED by one tile too many, LATE by one frame, STALE by an equal frame. -/
theorem test_witness_TakeRefusesACard :
    let malformed := takenAfter 39 40 40 257
    let late := takenAfter 39 49 40 256
    let stale := takenAfter 40 48 40 1
    Clear malformed ∧ Clear late ∧ Clear stale
      ∧ (∀ s ∈ [malformed, late, stale], s.ce.engine = .take .i0 7 TakeJob.start
          ∧ s.bus.mem.readLE (cardAddr s .i0 7) 4 = 1 ∧ (takenRequest s).frame = 40
          ∧ (takenRequest s).head = Ix2.i0.toNat)
      ∧ 256 < (takenRequest malformed).tileCount
      ∧ ((takenRequest late).tileCount = 256 ∧ 40 + 8 < late.aiu.frameCount)
      ∧ ((takenRequest stale).tileCount = 1 ∧ stale.aiu.frameCount ≤ 40 + 8
          ∧ stale.ciu.lastTaken.get .i0 = some 40) :=
  ⟨clear_at rfl rfl rfl, clear_at rfl rfl rfl, clear_at rfl rfl rfl,
    fun s h => (by fin_cases h <;> exact ⟨rfl, by decide +kernel⟩), by decide +kernel⟩

/-- A card job about to check the calibration, its tiles at an address. -/
def carded (addr tiles : Nat) (c : Cs) : State :=
  { holding
      (.card .i0 7
        (CardJob.start
          { head := 0, cut := false, notify := false, gain := 0, frame := 40, tileCount := tiles,
            tileAddr := addr } none)) (running 40 []) with
    cs := c }

/-- A store not valid; a tile list that ends one tile beyond the address space. -/
theorem test_witness_CardJobRefused :
    (carded 0 1 Cs.reset).cs.valid = false ∧ Clear (carded 0 1 Cs.reset)
      ∧ (carded 0xFFFFFFF0 2 store39).cs.valid = true ∧ Clear (carded 0xFFFFFFF0 2 store39)
      ∧ ¬ ListAnswers (carded 0xFFFFFFF0 2 store39) 0xFFFFFFF0 16 2 ∧ 1 ≤ CardStage.tilePass.rank :=
  ⟨rfl, clear_at rfl rfl rfl, rfl, clear_at rfl rfl rfl,
    fun h => absurd (h 1 (by decide)) (by decide), by decide⟩

/-- A list that ends with the address space. -/
theorem test_witness_CardJobEstimates :
    (carded 0xFFFFFFE0 2 store39).cs.valid = true ∧ Clear (carded 0xFFFFFFE0 2 store39)
      ∧ ListAnswers (carded 0xFFFFFFE0 2 store39) 0xFFFFFFE0 16 2 :=
  ⟨rfl, clear_at rfl rfl rfl, fun i h => by
    have : i = 0 ∨ i = 1 := by omega
    rcases this with rfl | rfl <;> decide⟩

/-- A card job at a stage. -/
def cardAt (st : CardStage) : State :=
  holding (.card .i0 4 { CardJob.start CardRequest.blank none with next := st }) before58

theorem test_witness_CardJobGrades :
    (cardAt .contextRead).it.contexts.get (cardAt .contextRead).it.active = some (context58 5600 120)
      ∧ (cardAt .contextRead).ce.engine
          = .card .i0 4 { CardJob.start CardRequest.blank none with next := .contextRead }
      ∧ Clear (cardAt .contextRead)
      ∧ BankLaw armed76 ∧ armed76.banks.get .i0 = .armed 102 ∧ 102 ≤ 102
      ∧ (armed76.banks.get .i1 = .live 40 true ∧ 40 ≤ 40 ∧ 39 < 40)
      ∧ BankLaw { banks := { i0 := .live 102 true, i1 := .retiring 40 true 110 }, pendingQuery := none }
      ∧ BankLaw Lbu.reset :=
  ⟨rfl, rfl, clear_at rfl rfl rfl, armed76_law, rfl, by decide, ⟨rfl, by decide, by decide⟩,
    retiring76_law none, empty_law⟩

theorem test_witness_CardJobWritesItsResult :
    (cardAt .writeResult).ce.engine
        = .card .i0 4 { CardJob.start CardRequest.blank none with next := .writeResult }
      ∧ Clear (cardAt .writeResult)
      ∧ podSnapshot 608 (linked 0 none) = some { mired := 4410, lux := 320, age := 6, quit := false, dim := false } :=
  ⟨rfl, clear_at rfl rfl rfl, by decide⟩

theorem faultLaw_running {s : State} (h : s.aiu.run = .running) (k : s.aiu.faultKind = none) : FaultLaw s :=
  ⟨by simp [h, k], by simp [h]⟩

/-- Pauses after TAKEN is written, after the calibration check, and after the payload is read. -/
theorem test_witness_PausesChangeNothing :
    (FaultLaw (taken 40 40 1) ∧ TakeStage.writeTaken.rank ≤ TakeStage.finish.rank
        ∧ ∃ h k j, (ran (.take .writeTaken) (taken 40 40 1)).ce.engine = .take h k j ∧ j.next ≠ .reread)
      ∧ (FaultLaw (carded 0 1 store39) ∧ CardStage.calibration.rank ≤ CardStage.finish.rank
          ∧ ∃ h k j, (ran (.cardJob .calibration) (carded 0 1 store39)).ce.engine = .card h k j)
      ∧ FaultLaw (posted 6 [] []) ∧ DirStage.payload.rank ≤ DirStage.finish.rank
      ∧ ∃ j, (ran (directiveRow (some .snap) .payload) (posted 6 [] [])).ce.engine = .directive j
          ∧ j.next ≠ .take :=
  ⟨⟨faultLaw_running rfl rfl, by decide, .i0, 7,
      { next := .checks, req := cardRequest ((taken 40 40 1).bus.mem.readLE 0x10800 0x14), failed := none,
        lastBefore := none }, by decide +kernel⟩,
    ⟨faultLaw_running rfl rfl, by decide, _, _, _, rfl⟩,
    faultLaw_running rfl rfl, by decide, { next := .prepare, kind := some .snap, payload := 0, result := none },
    by decide +kernel⟩

/-! ### Directives -/

/-- A POSTED slot whose payload memory does not answer, and one whose payload read is planned to fail. -/
def payloadLost : List State :=
  [{ posted 3 [] [] with bus := { (posted 3 [] []).bus with unbacked := [(0x10095, 1)] } },
    failing 3 (posted 3 [] [])]

theorem test_witness_DirectiveOpens :
    (posted 3 [] []).ce.engine = .directive DirJob.start ∧ Clear (posted 3 [] [])
      ∧ (posted 3 [] []).bus.mem.readLE (slotAddr (posted 3 [] [])) 4 = 1
      ∧ dirKindOf ((posted 3 [] []).bus.mem.readLE (slotAddr (posted 3 [] []) + 4) 2) = some .loadCalibration
      ∧ dirKindOf ((posted 15 [] []).bus.mem.readLE (slotAddr (posted 15 [] []) + 4) 2) = none
      ∧ (holding (.directive DirJob.start) (running 24 [])).bus.mem.readLE 0x10080 4 ≠ 1
      ∧ Clear (holding (.directive DirJob.start) (running 24 []))
      ∧ (∀ s ∈ payloadLost, s.ce.engine = .directive DirJob.start
          ∧ s.bus.mem.readLE (slotAddr s) 4 = 1
          ∧ dirKindOf (s.bus.mem.readLE (slotAddr s + 4) 2) = some .loadCalibration
          ∧ s.bus.answers (slotAddr s) 6 = true
          ∧ (s.bus.failPlan = [] ∧ (∃ p ∈ payloadSpans .loadCalibration,
                s.bus.answers (slotAddr s + 0x10 + p.1) p.2 = false)
              ∨ payloadSpans .loadCalibration ≠ []
                ∧ ∃ plan, s.bus.failPlan = [false, false, false, true] ++ plan)) :=
  ⟨rfl, clear_at rfl rfl rfl, by decide +kernel, by decide +kernel, by decide +kernel, by decide +kernel,
    clear_at rfl rfl rfl, fun s h => by
      fin_cases h
      · exact ⟨rfl, by decide +kernel, by decide +kernel, by decide +kernel,
          .inl ⟨rfl, _, List.mem_cons_self, by decide +kernel⟩⟩
      · exact ⟨rfl, by decide +kernel, by decide +kernel, by decide +kernel, .inr ⟨by decide, [], rfl⟩⟩⟩

/-- A directive job about to write a result code. -/
def ending (r : ResultCode) : State :=
  holding (.directive { next := .result, kind := some .snap, payload := 0, result := some r })
    (running 24 (stored [(0x10080, 2, 4), (0x10086, 4, 2)]))

theorem test_witness_DirectiveEnds :
    (∀ r ∈ [ResultCode.done, .refusedKind, .refusedValue, .refusedState, .busError],
      (ending r).ce.engine
          = .directive { next := .result, kind := some .snap, payload := 0, result := some r }
        ∧ Clear (ending r))
      ∧ Clear (posted 0 [] []) ∧ (posted 0 [] []).bus.mem.readLE (slotAddr (posted 0 [] [])) 4 = 1
      ∧ dirKindOf ((posted 0 [] []).bus.mem.readLE (slotAddr (posted 0 [] []) + 4) 2) = none :=
  ⟨fun _ _ => ⟨rfl, clear_at rfl rfl rfl⟩, clear_at rfl rfl rfl, by decide +kernel, by decide +kernel⟩

theorem test_witness_ResultWriteFault :
    (failing 0 (ending .done)).bus.failPlan = [true] ∧ (failing 0 (ending .done)).aiu.run ≠ .faulted
      ∧ (failing 0 (ending .done)).ce.engine
          = .directive { next := .result, kind := some .snap, payload := 0, result := some .done } :=
  ⟨rfl, by decide, rfl⟩

/-- A payload from its fields: value and place. -/
def payload (xs : List (Nat × Nat)) : Nat := (xs.map fun x => x.2 * 256 ^ x.1).sum

/-- The part with a directive of a kind about to be carried out. -/
def effectOf (k : DirKind) (p : Nat) (s : State) : State := holding (.directive (atEffect k p)) s

theorem atEffect_of (k : DirKind) (p : Nat) (s : State) : AtEffect (effectOf k p s) k p (atEffect k p) :=
  ⟨rfl, rfl, rfl, rfl, rfl⟩

/-- The part with its engine FREE, under an order, with head 1's candidate, a directive claim and two banks. -/
def contended (o : Fin 6) (card : Option (Fin 8)) (claim : Bool) (b0 b1 : Bank) : State :=
  { banked 24 b0 b1 none with
    ciu := { Ciu.reset with candidate := { i0 := none, i1 := card } },
    ce := { Ce.reset with order := o, directiveClaim := claim } }

/-- Order 1 puts UT above head 1: the directive before the card, then the bake of bank 0 or of bank 1, then, with UT
not claiming, the card. -/
theorem test_witness_EngineSettingsDirectives_grant :
    (∀ claim b0 b1, (contended 1 (some 3) claim b0 b1).ce.engine = .free
        ∧ (contended 1 (some 3) claim b0 b1).aiu.run = .running
        ∧ (contended 1 (some 3) claim b0 b1).ce.order = 1
        ∧ (contended 1 (some 3) claim b0 b1).ciu.candidate.get .i1 = some 3
        ∧ (contended 1 (some 3) claim b0 b1).ciu.candidate.get .i0 = none)
      ∧ ([.head .i0, .utility, .head .i1] : List Claimant) = [.head .i0] ++ .utility :: [.head .i1]
      ∧ ([.head .i0, .utility, .head .i1] : List Claimant) = [.head .i0, .utility] ++ .head .i1 :: []
      ∧ (afterGrant (contended 1 (some 3) true .empty (.baking 17 look73))).ce.engine = .directive DirJob.start
      ∧ (afterGrant (contended 1 (some 3) false (.baking 17 look73) .empty)).ce.engine = .bake .i0
      ∧ (afterGrant (contended 1 (some 3) false .empty (.baking 17 look73))).ce.engine = .bake .i1
      ∧ (afterGrant (contended 1 (some 3) false .empty .empty)).ce.engine = .take .i1 3 TakeJob.start
      ∧ (contended 1 none false .empty .empty).ciu.candidate = { i0 := none, i1 := none } :=
  ⟨fun _ _ _ => ⟨rfl, rfl, rfl, rfl, rfl⟩, rfl, rfl, by decide +kernel⟩

/-- The last known order code and the first unknown; bounds that meet and that cross; G_m at 480, at G_k, above
480. -/
theorem test_witness_EngineSettingsDirectives :
    Clear (effectOf .setOrder (payload [(0, 5)]) (running 24 []))
      ∧ AtEffect (effectOf .setOrder (payload [(0, 5)]) (running 24 [])) .setOrder (payload [(0, 5)])
          (atEffect .setOrder (payload [(0, 5)]))
      ∧ field (payload [(0, 5)]) 0 2 = (5 : Fin 6).val ∧ 5 < field (payload [(0, 6)]) 0 2
      ∧ (let p := payload [(8, 256), (0xA, 256)]; field p 8 2 ≤ field p 0xA 2)
      ∧ (let p := payload [(8, 257), (0xA, 256)]; field p 0xA 2 < field p 8 2)
      ∧ (let p := payload [(0, 479), (2, 480)]; field p 0 2 < field p 2 2 ∧ field p 2 2 ≤ 480)
      ∧ (let p := payload [(0, 480), (2, 480)]; field p 2 2 ≤ field p 0 2)
      ∧ (let p := payload [(0, 0), (2, 481)]; 480 < field p 2 2) :=
  ⟨clear_at rfl rfl rfl, atEffect_of _ _ _, by decide +kernel⟩

theorem test_witness_SetTrackingDirective :
    let p := payload [(0, 3), (2, 2), (0xE, 0x8000)]
    AtEffect (effectOf .setTracking p (running 24 [])) .setTracking p (atEffect .setTracking p)
      ∧ Clear (effectOf .setTracking p (running 24 []))
      ∧ (field p 0 2 = (3 : Fin 4).val ∧ field p 2 2 = 2)
      ∧ 3 < field (payload [(0, 4)]) 0 2 ∧ 2 < field (payload [(2, 3)]) 2 2 :=
  ⟨atEffect_of _ _ _, clear_at rfl rfl rfl, by decide +kernel⟩

theorem test_witness_SwitchAndSnapDirectives :
    let s := effectOf .switchContext 0 (running 24 [])
    Clear s ∧ AtEffect s .switchContext 0 (atEffect .switchContext 0)
      ∧ (field 0 0 2 = (0 : Fin 4).val ∧ s.it.contexts.get 0 = some Context.reset)
      ∧ (field 3 0 2 = (3 : Fin 4).val ∧ s.it.contexts.get 3 = none) ∧ 3 < field 4 0 2
      ∧ AtEffect (effectOf .snap 0 (running 24 [])) .snap 0 (atEffect .snap 0) :=
  ⟨clear_at rfl rfl rfl, atEffect_of _ _ _, by decide, by decide, by decide, atEffect_of _ _ _⟩

/-- A load about to be checked: the list's address and count. -/
def loading (addr n : Nat) : State :=
  holding
    (.directive { next := .prepare, kind := some .loadCalibration, payload := payload [(0, addr), (4, n)],
                  result := none })
    (running 24
      (stored (pointAt 0xFFFFFFC0 1200 3000 2048 10240 ++ pointAt 0xFFFFFFE0 1800 1600 2662 7373)))

/-- Counts on both sides of 2 and 12; a list that runs beyond the address space; one of zeros; one that passes at
the end of the address space; one whose last record runs beyond it by a byte that is not read. -/
theorem test_witness_LoadCalibrationChecks :
    (loading 0xFFFFFFC0 2).bus.failPlan = []
      ∧ (1 < 2 ∨ 12 < 1) ∧ (13 < 2 ∨ 12 < 13)
      ∧ field (payload [(0, 0xFFFFFFC0), (4, 2)]) 0 4 = 0xFFFFFFC0
      ∧ field (payload [(0, 0xFFFFFFC0), (4, 2)]) 4 2 = 2
      ∧ ¬ PointsAnswer (loading 0xFFFFFFC0 12) 0xFFFFFFC0 12
      ∧ ¬ PointsAnswer (loading 0xFFFFFFC1 2) 0xFFFFFFC1 2
      ∧ PointsAnswer (loading 0 2) 0 2 ∧ ¬ PointsPass (pointsAt (loading 0 2) 0 2)
      ∧ PointsAnswer (loading 0xFFFFFFC0 2) 0xFFFFFFC0 2
      ∧ PointsPass (pointsAt (loading 0xFFFFFFC0 2) 0xFFFFFFC0 2) :=
  have two {i : Nat} (h : i < 2) : i = 0 ∨ i = 1 := by omega
  ⟨rfl, by decide, by decide, by decide +kernel, by decide +kernel,
    fun h => absurd (h 2 (by decide)).2 (by decide), fun h => absurd (h 1 (by decide)).1 (by decide),
    fun i h => by rcases two h with rfl | rfl <;> decide,
    by unfold PointsPass; decide +kernel,
    fun i h => by rcases two h with rfl | rfl <;> decide,
    by unfold PointsPass; decide +kernel⟩

theorem test_witness_LoadCalibrationCommits :
    let s := effectOf .loadCalibration 0 { before58 with cs := { Cs.reset with loadBuffer := points39 } }
    AtEffect s .loadCalibration 0 (atEffect .loadCalibration 0) ∧ Clear s :=
  ⟨atEffect_of _ _ _, clear_at rfl rfl rfl⟩

/-- Both banks busy; a look record at the end of the address space and one byte beyond it; an abort of a BAKING
bank, of an ARMED one a frame early, of one whose swap is due, and with neither. -/
theorem test_witness_BakeDirectives :
    let s := effectOf .bakeLut 0 (running 24 [])
    AtEffect s .bakeLut 0 (atEffect .bakeLut 0) ∧ Clear s
      ∧ bakingOrArmed (armed76.banks.get .i0) = true
      ∧ ((∀ k, bakingOrArmed (s.lbu.banks.get k) = false) ∧ s.lbu.banks.get .i0 = .empty)
      ∧ s.bus.answers (field (payload [(0, 0xFFFFFFCA)]) 0 4) 54 = true
      ∧ s.bus.answers (field (payload [(0, 0xFFFFFFCB)]) 0 4) 54 = false
      ∧ BankLaw { banks := { i0 := .baking 4896 look73, i1 := .empty }, pendingQuery := none }
      ∧ BankLaw armed76 ∧ armed76.banks.get .i0 = .armed 102 ∧ 101 < 102 ∧ 102 ≤ 102
      ∧ BankLaw Lbu.reset ∧ (∀ i, bakingOrArmed (Lbu.reset.banks.get i) = false) :=
  ⟨atEffect_of _ _ _, clear_at rfl rfl rfl, rfl, ⟨fun k => by cases k <;> rfl, rfl⟩, by decide +kernel,
    by decide +kernel,
    bankLaw_of rfl rfl (fun i => by cases i <;> decide)
      (fun i c x h => by cases i <;> cases h; decide),
    armed76_law, rfl, by decide, by decide, empty_law, fun i => by cases i <;> rfl⟩

theorem test_witness_SetCadenceDirective :
    let p := payload [(0, 65), (2, 0)]
    AtEffect (effectOf .setCadence p (running 24 [])) .setCadence p (atEffect .setCadence p)
      ∧ Clear (effectOf .setCadence p (running 24 []))
      ∧ max 1 (min 64 (field p 0 2)) = 64 ∧ min 255 (field p 2 2) = 0
      ∧ (overdue.ct.settleRunning && overdue.ct.settleCount != 0) = false :=
  ⟨atEffect_of _ _ _, clear_at rfl rfl rfl, by decide +kernel, by decide +kernel, rfl⟩

theorem test_witness_SetPodDirective :
    let p := payload [(0, 1), (2, 0), (4, 32)]
    AtEffect (effectOf .setPod p (podded (linked 0 none))) .setPod p (atEffect .setPod p)
      ∧ Clear (effectOf .setPod p (podded (linked 0 none))) ∧ max 1 (min 256 (field p 2 2)) = 1
      ∧ (linked 0 (some ⟨.read, .sending⟩)).exchange = some ⟨.read, .sending⟩
      ∧ (∀ k, (linked 0 none).exchange ≠ some ⟨k, .sending⟩) :=
  ⟨atEffect_of _ _ _, clear_at rfl rfl rfl, by decide +kernel, rfl, fun _ h => (by cases h)⟩

theorem test_witness_MonitorDirectives :
    let p := payload [(0, 3), (1, 9), (5, 2)]
    Clear (effectOf .setMonitor p (running 24 []))
      ∧ AtEffect (effectOf .setMonitor p (running 24 [])) .setMonitor p (atEffect .setMonitor p)
      ∧ (field p 0 1 = (3 : Fin 4).val ∧ monSourceOf (field p 1 1) = some .late
          ∧ headSelectOf (field p 5 1) = some .both)
      ∧ (3 < field (payload [(0, 4)]) 0 1 ∧ 9 < field (payload [(1, 10)]) 1 1 ∧ 2 < field (payload [(5, 3)]) 5 1)
      ∧ AtEffect (effectOf .setFreeze 1 (running 24 [])) .setFreeze 1 (atEffect .setFreeze 1)
      ∧ AtEffect (effectOf .clearMonitor 0 (running 24 [])) .clearMonitor 0 (atEffect .clearMonitor 0) :=
  ⟨clear_at rfl rfl rfl, atEffect_of _ _ _, by decide +kernel, by decide +kernel, atEffect_of _ _ _,
    atEffect_of _ _ _⟩

/-! ### The bake, the arithmetic and the counters -/

/-- The last row but one, under a claimant above UT and under none, and the last row. -/
theorem test_witness_BakeRowRaisesTheCursor :
    let s (c : Nat) : State := holding (.bake .i0) (banked 100 (.baking c look73) (.live 40 true) none)
    (∀ c, (s c).ce.engine = .bake .i0 ∧ (s c).lbu.banks.get .i0 = .baking c look73 ∧ Clear (s c))
      ∧ 4879 + 17 < lutEntries ∧ 4896 + 17 = lutEntries ∧ outrankedUtility (s 4879) = false
      ∧ outrankedUtility
          { s 4879 with ciu := { Ciu.reset with candidate := { i0 := some 0, i1 := none } } } = true
      ∧ (draining (s 4879)).aiu.run = .draining :=
  ⟨fun _ => ⟨rfl, rfl, clear_at rfl rfl rfl⟩, by decide, by decide, by decide, by decide, rfl⟩

theorem test_witness_LutEntryArithmetic :
    (2048 ≤ 2048 ∧ 2048 ≤ 4096 ∧ 8191 ≤ 8191) ∧ (4096 / 256 = 16) ∧ (16 < 17)
      ∧ 2048 ≤ look73.knee ∧ look73.knee ≤ 4096 ∧ (∀ k ∈ look73.knots, k < 2 ^ 16) := by decide

/-- A tile at the clip limit, one with more clipped than counted pixels, a skipped and a rejected one. -/
theorem test_witness_TileFilter :
    accepts filter38 ⟨700000, 1024000, 400000, 1024, 64, 0x00⟩ = true
      ∧ (let t : Tile := ⟨0, 1000, 0, 1, 2, 0⟩; t.pixels < t.clipped) ∧ filter38.clipLimit ≤ 256
      ∧ (⟨0, 0, 0, 0, 0, 0x00⟩ : Tile).pixels = 0
      ∧ accepts filter38 ⟨1, 1048576, 1, 1024, 0, 0x21⟩ = false := by decide

theorem test_witness_TileFilter_perm :
    ([⟨1, 2, 3, 4, 0, 0⟩, ⟨5, 6, 7, 8, 0, 0⟩] : List Tile).Perm [⟨5, 6, 7, 8, 0, 0⟩, ⟨1, 2, 3, 4, 0, 0⟩] :=
  .swap _ _ _

theorem test_witness_QualityAndBlueShare :
    weakReason FilterSettings.reset ⟨1, 0, 0, 7⟩ = .fewTiles
      ∧ weakReason FilterSettings.reset ⟨0, 5, 0, 8⟩ = .noChroma
      ∧ weakReason FilterSettings.reset ⟨0, 5, 1, 8⟩ = .none ∧ blueShare ⟨0, 5, 1, 8⟩ = 4096
      ∧ blueShare ⟨4096, 5, 1, 8⟩ = 0 := by decide

theorem points39_good : GoodList points39 := by
  unfold GoodList PointsPass; decide +kernel

theorem test_witness_MeasuredMiredFollowsTheList :
    GoodList points39 ∧ points39.head?.map CalPoint.beta = some 1200
      ∧ points39.getLast?.map CalPoint.beta = some 2700
      ∧ (points39[2]?.map CalPoint.beta, points39[2 + 1]?.map CalPoint.beta) = (some 2300, some 2700)
      ∧ (2300 ≤ 2300 ∧ 2300 < 2700 ∧ 2699 < 2700) :=
  ⟨points39_good, by decide, by decide, by decide, by decide⟩

theorem test_witness_InterpolationStaysBetween :
    GoodList store39.points ∧ storeBottom store39 ≤ storeTop store39
      ∧ (formGrade store39 GradeSettings.reset { index := 0, mired := 1610, generation := 0, trim := -24 } 450).headMired
          = storeBottom store39
      ∧ (formGrade store39 GradeSettings.reset { index := 0, mired := 1610, generation := 0, trim := -9 } 450).headMired
          ≠ storeBottom store39 :=
  ⟨points39_good, by decide, by decide +kernel, by decide +kernel⟩

theorem test_witness_SaturationAndDesaturation :
    let gs := GradeSettings.reset
    (gs.gK < gs.gM ∧ gs.gM ≤ 480 ∧ gs.sMin ≤ 4096) ∧ saturation gs 180 = 4096 ∧ saturation gs 420 = 1638
      ∧ (180 < 181 ∧ 419 < 420) ∧ (∀ x ∈ [(-32768 : Int), 0, 32767], -32768 ≤ x ∧ x ≤ 32767) := by decide

theorem test_witness_EventAmounts :
    let c : CounterSettings :=
      { source := .tileLevel, level := 256, invert := true, edge := false, select := .only .i1, enable := true }
    (c.select = .both ∨ c.select = .only .i1) ∧ ¬ (c.select = .both ∨ c.select = .only .i0)
      ∧ ((Quad.const { Counter.reset with settings := c }).get 2).settings = c := by decide

/-- The value one below the wrap, with amounts 0 and 1. -/
theorem test_witness_CounterEvaluation :
    let c : Counter :=
      { value := 2 ^ 48 - 1, wrapped := false, edgeMemory := false, settings :=
          { source := .podMiss, level := 0, invert := false, edge := false, select := .both, enable := true } }
    c.value < 2 ^ 48 ∧ c.settings.enable = true ∧ amount 0 c.settings .podMiss = some 1
      ∧ amount 0 c.settings (.late .i0) = none ∧ 2 ^ 48 ≤ c.value + 1 ∧ c.value + 0 < 2 ^ 48 := by decide

/-! ### Faults and what every command keeps -/

theorem test_witness_FailedAccessesFault :
    let s := failing 0 (running maxFrame [])
    (s.bus.failPlan = [true] ∧ s.aiu.run = .running ∧ maxFrame ≤ s.aiu.frameCount ∧ NothingDue s)
      ∧ (let t := { s with aiu := { s.aiu with causes := 1#9 } };
          t.aiu.run ≠ .stopped ∧ t.aiu.run ≠ .faulted ∧ clearCauses t.aiu.causes 1#32 ≠ t.aiu.causes)
      ∧ jobKind (holding (.bake .i0) s).ce.engine = some .bake
      ∧ (let t := failing 0 (holding (.bake .i0) (banked 100 (.baking 0 look73) .empty none));
          t.ce.engine = .bake .i0 ∧ t.lbu.banks.get .i0 = .baking 0 look73 ∧ t.aiu.run ≠ .faulted) :=
  ⟨⟨rfl, rfl, by decide, rfl, rfl, rfl⟩, by decide, rfl, rfl, rfl, by decide⟩

/-- The part of 11.8 in FAULTED. -/
def faulted : State :=
  { running 3120 [] with
    aiu := { (running 3120 []).aiu with run := .faulted, faultKind := some .cardWrite, causes := 0x100#9 } }

theorem test_witness_BetweenResets :
    ∃ t, faulted.aiu.run = .faulted ∧ faulted.ce.engine = .free ∧ ¬ IsReset .frameSync
      ∧ exec .frameSync faulted = .next t ∧ faulted.aiu.frameCount ≤ maxFrame :=
  ⟨_, rfl, rfl, fun h => (by rcases h with h | ⟨_, h⟩ <;> cases h), rfl, by decide⟩

theorem test_witness_EveryStepKeepsLinkLaw :
    ∃ t, LinkLaw (podded (linked 2 (some ⟨.read, .awaiting⟩))).mlc
      ∧ step { podded (linked 2 (some ⟨.read, .awaiting⟩)) with pending := [.replyWindowExpiry] } = .next t :=
  ⟨_, ⟨by decide, fun h => absurd rfl h, fun x h => (by cases h; decide), by decide⟩, rfl⟩

/-- A load of the list of 3.9 about to be committed over a valid store. -/
def committing : State :=
  effectOf .loadCalibration 0 { before58 with cs := { store39 with loadBuffer := points39 } }

theorem test_witness_EveryStepKeepsTrackedLaw :
    ∃ t, StoreLaw committing ∧ TrackedLaw committing
      ∧ step { committing with pending := [.loadCalibration .finish] } = .next t :=
  ⟨_, ⟨fun _ => points39_good, fun h => (by cases h), fun _ _ _ => points39_good⟩,
    fun _ i x h => by
      have hx : x = context58 5600 120 := by
        match i, h with
        | 0, h => exact (Option.some.inj h).symm
        | 1, h => cases h
        | 2, h => cases h
        | 3, h => cases h
      subst hx
      decide +kernel, rfl⟩

theorem contextReset_law : ContextLaw It.reset :=
  ⟨fun i x h => by
    have hx : x = Context.reset := by
      match i, h with
      | 0, h => exact (Option.some.inj h).symm
      | 1, h => cases h
      | 2, h => cases h
      | 3, h => cases h
    subst hx
    exact ⟨by decide, by decide, by decide, by decide, by decide, by decide, by decide,
      fun k => by cases k <;> decide⟩,
    fun k e h => by cases k <;> cases h⟩

theorem test_witness_EveryStepKeepsRanges :
    ∃ t, overdue.bus.mem.wf ∧ TimerLaw overdue.ct ∧ CounterLaw overdue.mon ∧ SettingsLaw overdue.ce
      ∧ MarkLaw overdue.it ∧ ActiveLaw overdue.it ∧ StoreLaw overdue ∧ ContextLaw overdue.it ∧ CountLaw overdue
      ∧ AgeLaw overdue
      ∧ step { overdue with pending := [.frameSync] } = .next t :=
  ⟨_, by decide, by unfold TimerLaw; decide,
    fun i => (match i with
      | 0 => by decide
      | 1 => by decide
      | 2 => by decide
      | 3 => by decide),
    by unfold SettingsLaw; decide, by unfold MarkLaw; decide, by unfold ActiveLaw; decide,
    ⟨fun h => (by cases h), fun _ => rfl, fun j p h => (by cases h.1)⟩,
    contextReset_law,
    by unfold CountLaw; decide,
    ⟨fun h e k => (by cases h <;> cases k), fun r k => (by cases k), fun h k j x => (by cases x),
      fun h k j x => (by cases x)⟩, rfl⟩

theorem test_witness_EveryStepKeepsBankAndEngineLaws :
    ∃ t, BankLaw (banked 100 (.baking 4896 look73) (.live 40 true) none).lbu
      ∧ FaultLaw (holding (.bake .i0) (banked 100 (.baking 4896 look73) (.live 40 true) none))
      ∧ EngineLaw (holding (.bake .i0) (banked 100 (.baking 4896 look73) (.live 40 true) none))
      ∧ step { holding (.bake .i0) (banked 100 (.baking 4896 look73) (.live 40 true) none) with
                pending := [.bakeRow] } = .next t :=
  ⟨_, bankLaw_of rfl rfl (fun i => by cases i <;> decide) (fun i c x h => by cases i <;> cases h; decide),
    faultLaw_running rfl rfl, ⟨fun b h => by cases h; rfl, fun h => absurd rfl h⟩, rfl⟩

theorem test_witness_FrozenCountersStand :
    ∃ t, exec .replyWindowExpiry
        { podded (linked 2 (some ⟨.read, .awaiting⟩)) with mon := { Mon.reset with frozen := true } } = .next t
      ∧ (∀ u, Instr.replyWindowExpiry ≠ .setMonitor u ∧ Instr.replyWindowExpiry ≠ .clearMonitor u)
      ∧ Instr.replyWindowExpiry ≠ .deviceReset :=
  ⟨_, rfl, fun _ => ⟨by simp, by simp⟩, by simp⟩

theorem test_witness_OnlyPartBytesAreWritten :
    ∃ t, BankLaw overdue.lbu ∧ exec .bakeRow overdue = .next t := ⟨_, retiring76_law none, rfl⟩

/-- The part just started, as its status block and headers show it. -/
def started : State := ran (.runSet 0x01FF0001#32) (stopped 0x10000#32)

theorem test_witness_StatusBlockMirrorsThePart :
    ∃ t, started.bus.failPlan = [] ∧ started.bus.answers (base started) 0x16000 = true
      ∧ (started.aiu.run, started.aiu.faultKind) = (.running, none) ∧ started.lbu = Lbu.reset
      ∧ Mirrors started ∧ exec .frameSync started = .next t :=
  ⟨_, by decide +kernel, by decide +kernel, by decide +kernel, by decide +kernel,
    ⟨fun o => by unfold Shows; cases o <;> decide +kernel,
      fun i => by unfold ShowsBank; cases i <;> decide +kernel⟩, rfl⟩

end Sys2Proof.Tests
end

/-! Which bytes of shared memory a command writes (1.3, 12.2 to 12.5) and what becomes of a card's state word (R2):
one relation between the states before and after, kept by each operation of the model in turn. -/

namespace Sys2Proof.Machine

/-! ## The relation -/

/-- Bytes of the part, none of them in a card's state word. -/
def OffWords (s : State) (P : Nat → Prop) : Prop :=
  ∀ a, P a → PartBytes s a ∧ ∀ h k, ¬ Bytes (cardAddr s h k) 4 a

/-- On the same work area only bytes of the part have been written, and each card's state word has stayed or become
TAKEN or ENDED (R2). -/
structure WritesOwn (s t : State) : Prop where
  area : t.aiu.area = s.aiu.area
  within : s.bus.Within (PartBytes s) t.bus
  word : ∀ h k, t.bus.mem.readLE (cardAddr s h k) 4 = s.bus.mem.readLE (cardAddr s h k) 4
    ∨ t.bus.mem.readLE (cardAddr s h k) 4 = 2 ∨ t.bus.mem.readLE (cardAddr s h k) 4 = 3

theorem cardAddr_of_area {s t : State} (h : t.aiu.area = s.aiu.area) (hd : Head) (k : Fin 8) :
    cardAddr t hd k = cardAddr s hd k := by
  unfold cardAddr
  rw [base_eq_of_area h]

theorem slotAddr_of_area {s t : State} (h : t.aiu.area = s.aiu.area) : slotAddr t = slotAddr s := by
  unfold slotAddr
  rw [base_eq_of_area h]

theorem partBytes_of_area {s t : State} (h : t.aiu.area = s.aiu.area) : PartBytes t = PartBytes s := by
  funext a
  simp only [PartBytes, StatusBytes, SlotBytes, CardBytes, HeaderBytes, BankBytes, slotAddr_of_area h,
    cardAddr_of_area h, base_eq_of_area h]

/-- An update that leaves the area and the bus alone writes nothing. -/
theorem WritesOwn.of_same {s t : State} (ha : t.aiu.area = s.aiu.area) (hb : t.bus = s.bus) :
    WritesOwn s t :=
  ⟨ha, hb ▸ Bus.Within.refl _ _, fun _ _ => .inl (by rw [hb])⟩

theorem WritesOwn.refl (s : State) : WritesOwn s s := .of_same rfl rfl

theorem WritesOwn.trans {s t u : State} (h : WritesOwn s t) (k : WritesOwn t u) : WritesOwn s u where
  area := k.area.trans h.area
  within := h.within.trans (partBytes_of_area h.area ▸ k.within)
  word hd i := by
    have h1 := h.word hd i
    have h2 := k.word hd i
    rw [cardAddr_of_area h.area] at h2
    rcases h2 with h2 | h2
    · rwa [h2]
    · exact .inr h2

/-- An update after what has been written. -/
theorem WritesOwn.then_same {s t u : State} (h : WritesOwn s t) (ha : u.aiu.area = t.aiu.area) (hb : u.bus = t.bus) :
    WritesOwn s u :=
  h.trans (.of_same ha hb)

/-- Bytes off the state words. -/
theorem WritesOwn.of_within {s t : State} {P : Nat → Prop} (hP : OffWords s P) (ha : t.aiu.area = s.aiu.area)
    (hw : s.bus.Within P t.bus) : WritesOwn s t :=
  ⟨ha, hw.mono fun a h => (hP a h).1,
    fun hd k => .inl (hw.readLE fun j h1 h2 hp => (hP j hp).2 hd k ⟨h1, h2⟩)⟩

/-! ## Where the part's bytes lie -/

/-- Two cards are one or lie apart. -/
theorem cardAddr_apart (s : State) (h h' : Head) (k k' : Fin 8) :
    cardAddr s h k = cardAddr s h' k' ∨ cardAddr s h k + 256 ≤ cardAddr s h' k'
      ∨ cardAddr s h' k' + 256 ≤ cardAddr s h k := by
  have := k.isLt
  have := k'.isLt
  unfold cardAddr
  cases h <;> cases h' <;> simp only [Config.cardTable] <;> omega

/-- Bytes of the part outside the card tables are off the state words. -/
theorem offWords_of_outside {s : State} {P : Nat → Prop} (hp : ∀ a, P a → PartBytes s a)
    (ho : ∀ a, P a → a < base s + 0x100 ∨ base s + 0x1100 ≤ a) : OffWords s P := fun a ha =>
  ⟨hp a ha, fun h k hb => by
    have hr := cardAddr_range h k s
    have := ho a ha
    unfold Bytes at hb
    omega⟩

theorem offWords_front (s : State) : OffWords s (FrontBytes s) := by
  refine offWords_of_outside (fun a h => ?_) fun a h => ?_
  · rcases h with h | h | h
    · exact .inl h
    · exact .inr (.inr (.inr (.inl ⟨_, h⟩)))
    · exact .inr (.inr (.inr (.inl ⟨_, h⟩)))
  · simp only [FrontBytes, StatusBytes, HeaderBytes, Bytes, Config.bankHeader] at h
    omega

theorem offWords_slot (s : State) : OffWords s (SlotBytes s) := by
  refine offWords_of_outside (fun a h => .inr (.inl h)) fun a h => ?_
  simp only [SlotBytes, Bytes, slotAddr, Config.directiveSlot] at h
  omega

theorem offWords_bank (s : State) (b : BankIx) : OffWords s (BankBytes s b) := by
  refine offWords_of_outside (fun a h => .inr (.inr (.inr (.inr ⟨b, h⟩)))) fun a h => ?_
  cases b <;> simp only [BankBytes, Bytes, Config.lutBank] at h <;> omega

/-- The result group of a card is off the state words. -/
theorem offWords_result (s : State) (h : Head) (k : Fin 8) :
    OffWords s (Bytes (cardAddr s h k + 0x20) 0x64) := fun a ha =>
  ⟨.inr (.inr (.inl ⟨h, k, .inr ha⟩)), fun h' k' hb => by
    have := cardAddr_apart s h h' k k'
    unfold Bytes at ha hb
    omega⟩

theorem OffWords.mono {s : State} {P Q : Nat → Prop} (h : OffWords s Q) (hPQ : ∀ a, P a → Q a) : OffWords s P :=
  fun a ha => h a (hPQ a ha)

/-! ## Accesses -/

/-- A shown step off the state words. -/
theorem WritesOwn.of_shown {s t : State} {P : Nat → Prop} (h : Shown P s t) (hP : OffWords s P) :
    WritesOwn s t :=
  .of_within (P := fun a => P a ∨ FrontBytes s a)
    (fun a ha => ha.elim (hP a) (offWords_front s a)) h.area h.within

/-- A shown step in the status block or the headers. -/
theorem WritesOwn.of_front {s t : State} {P : Nat → Prop} (h : Shown P s t) (hP : ∀ a, P a → FrontBytes s a) :
    WritesOwn s t :=
  .of_shown h ((offWords_front s).mono hP)

theorem WritesOwn.of_status {s t : State} (h : Shown (StatusBytes s) s t) : WritesOwn s t :=
  .of_front h fun _ => .inl

theorem spendAccess_own (s : State) : WritesOwn s s.spendAccess :=
  .of_within (P := fun _ => False) (fun _ h => h.elim) rfl (Bus.Within.spend _ _)

theorem busRead_own {s t : State} {a n : Nat} {o : Option Nat} (h : busRead s a n = (o, t)) : WritesOwn s t := by
  have e : t = s.spendAccess := (congrArg Prod.snd h).symm
  exact e ▸ spendAccess_own s

theorem readSpans_own {s t : State} {a : Nat} {ps : List (Nat × Nat)} {o : Option Nat}
    (h : readSpans s a ps = (o, t)) : WritesOwn s t := by
  obtain ⟨c, hc, he, -⟩ := readSpans_spec s a ps
  rw [h] at he
  simp only at he
  subst he
  exact .of_within (P := fun _ => False) (fun _ h => h.elim) rfl hc

/-- A field that the part may write: off the state words, or a state word with TAKEN or ENDED. -/
def OwnField (s : State) (f : Field) : Prop :=
  OffWords s (Bytes f.off f.size)
    ∨ ∃ h k, f.off = cardAddr s h k ∧ f.size = 4 ∧ (f.val = Config.cardTaken ∨ f.val = Config.cardEnded)

theorem OwnField.of_area {s t : State} {f : Field} (h : OwnField s f) (ha : t.aiu.area = s.aiu.area) :
    OwnField t f := by
  simpa only [OwnField, OffWords, partBytes_of_area ha, cardAddr_of_area ha] using h

/-- A state word written reads as written, and every other one stands. -/
theorem writeWord_reads (s : State) (h h' : Head) (k k' : Fin 8) (v : Nat) (hv : v = 2 ∨ v = 3) :
    (s.bus.mem.writeLE (cardAddr s h k) v 4).readLE (cardAddr s h' k') 4
        = s.bus.mem.readLE (cardAddr s h' k') 4
      ∨ (s.bus.mem.writeLE (cardAddr s h k) v 4).readLE (cardAddr s h' k') 4 = 2
      ∨ (s.bus.mem.writeLE (cardAddr s h k) v 4).readLE (cardAddr s h' k') 4 = 3 := by
  rcases cardAddr_apart s h h' k k' with e | e
  · rw [← e, Memory.readLE_writeLE_eq]
    exact .inr (hv.imp (fun e => by rw [e]; rfl) fun e => by rw [e]; rfl)
  · exact .inl (Memory.readLE_writeLE_of_disjoint _ _ _ _ _ _ (by omega))

theorem busWrite_own {s : State} {f : Field} (hf : OwnField s f) : WritesOwn s (busWrite s f).2 := by
  obtain ⟨c, hc, hw, -, -, hm⟩ := busWrite_spec s f
  rw [hc]
  rcases hf with hf | ⟨h, k, ho, hs, hv⟩
  · exact .of_within hf rfl hw
  · rw [ho, hs] at hw hm
    refine ⟨rfl, hw.mono fun a ha => .inr (.inr (.inl ⟨h, k, .inl ha⟩)), fun h' k' => ?_⟩
    rw [onBus_bus, hm]
    split
    · exact writeWord_reads s h h' k k' f.val hv
    · exact .inl rfl

theorem enterFault_own (k : FaultKind) (s : State) : WritesOwn s (enterFault k s) := by
  obtain ⟨c, hc, he⟩ := enterFault_spec k s
  rw [he]
  split
  · exact .of_within (offWords_front s) rfl hc
  · exact .of_within (offWords_front s) rfl hc

theorem writeFields_own {k : FaultKind} {fs : List Field} {s t : State} {ok : Bool}
    (h : writeFields k fs s = (ok, t)) (hf : ∀ f ∈ fs, OwnField s f) : WritesOwn s t := by
  induction fs generalizing s with
  | nil => cases h; exact .refl _
  | cons f fs ih =>
    have h1 := busWrite_own (hf f List.mem_cons_self)
    unfold writeFields at h
    split at h
    · rename_i u hu
      rw [hu] at h1
      exact h1.trans (ih h fun g hg => (hf g (List.mem_cons_of_mem _ hg)).of_area h1.area)
    · rename_i u hu
      rw [hu] at h1
      cases h
      exact h1.trans (enterFault_own k u)

/-- Fields of a record whose places lie in bytes off the state words. -/
theorem ownField_of_bytes {s : State} {P : Nat → Prop} (hP : OffWords s P) {f : Field}
    (h : ∀ a, Bytes f.off f.size a → P a) : OwnField s f :=
  .inl (hP.mono h)

/-! ## Shared operations

Each rule takes what has been written before the operation along. -/

theorem rewrite_own {s t : State} {os : List Owner} {before : State} (h : WritesOwn s t) :
    WritesOwn s (rewrite os before t) :=
  h.trans (.of_status (rewrite_shown os before t))

theorem rewriteAll_own {s t : State} (h : WritesOwn s t) : WritesOwn s (rewriteAll t) :=
  h.trans (.of_status (rewriteAll_shown t))

theorem rewriteHeaders_own {s t before : State} (h : WritesOwn s t) : WritesOwn s (rewriteHeaders before t) :=
  h.trans (.of_front (rewriteHeaders_shown before t) changedHeaderBytes_front)

theorem writeHeader_own {s t : State} {b : BankIx} (h : WritesOwn s t) : WritesOwn s (writeHeader b t) :=
  h.trans (.of_front (writeHeader_front b t) fun _ => id)

theorem setCause_own {s t : State} {c : Cause} (h : WritesOwn s t) : WritesOwn s (setCause c t) := by
  unfold setCause
  exact rewrite_own (h.then_same rfl rfl)

theorem setCauseIf_own {s t : State} {p : Bool} {c : Cause} (h : WritesOwn s t) :
    WritesOwn s (setCauseIf p c t) := by
  cases p
  · exact h
  · exact setCause_own h

theorem retire_own {s t : State} (h : WritesOwn s t) : WritesOwn s (retire t) := by
  unfold retire
  exact rewriteHeaders_own (h.then_same rfl rfl)

theorem dropQuery_own {s t : State} (h : WritesOwn s t) : WritesOwn s (dropQuery t) := by
  unfold dropQuery
  exact rewriteHeaders_own (h.then_same rfl rfl)

theorem sweep_own {s t : State} (h : WritesOwn s t) : WritesOwn s (sweep t) := by
  by_cases hr : t.aiu.run = .running
  · rcases sweep_shown t hr with k | ⟨-, k⟩
    · exact (h.then_same (u := sweptState t) rfl rfl).trans (.of_status k)
    · exact (h.then_same (u := clearedClaims t) rfl rfl).trans (.of_status k)
  · rwa [sweep_not_running t hr]

theorem grant_own {s t : State} (h : WritesOwn s t) : WritesOwn s (grant t) := by
  obtain ⟨ha, hb⟩ := afterGrant_kept t
  have ha' := congrArg Aiu.area ha
  have hg := grant_shown t
  rw [← statusBytes_eq (base_eq_of_area ha')] at hg
  exact (h.then_same ha' hb).trans (.of_status hg)

theorem sweepAndGrant_own {s t : State} (h : WritesOwn s t) : WritesOwn s (sweepAndGrant t) :=
  grant_own (sweep_own h)

theorem releaseEngine_own {s t : State} {e : Option (JobEnding × JobKind)} (h : WritesOwn s t) :
    WritesOwn s (releaseEngine e t) := by
  unfold releaseEngine
  exact dropQuery_own (rewrite_own (h.then_same rfl rfl))

theorem fallFree_own {s t : State} {e : Option (JobEnding × JobKind)} (h : WritesOwn s t) :
    WritesOwn s (fallFree e t) :=
  sweepAndGrant_own (releaseEngine_own h)

theorem deliver_own {s t : State} {e : MonEvent} (h : WritesOwn s t) : WritesOwn s (deliver e t) := by
  unfold deliver
  exact setCauseIf_own (rewrite_own (h.then_same rfl rfl))

theorem cutActions_own {s t : State} {cut : Bool} (h : WritesOwn s t) : WritesOwn s (cutActions cut t) := by
  have h1 : WritesOwn s (startSettle t) := by
    unfold startSettle
    exact rewrite_own (h.then_same rfl rfl)
  cases cut
  · exact h
  · show WritesOwn s (freezeOnCut (startSettle t))
    unfold freezeOnCut
    split
    · exact rewrite_own (h1.then_same rfl rfl)
    · exact h1

theorem swap_own {s t : State} (h : WritesOwn s t) : WritesOwn s (swap t) := by
  unfold swap
  split
  · exact h
  · exact setCause_own (rewriteHeaders_own (h.then_same rfl rfl))

/-! ## The pod link and the timers -/

theorem endMiss_own (s : State) : WritesOwn s (endMiss s) := by
  unfold endMiss
  exact deliver_own (setCauseIf_own (setCauseIf_own (rewrite_own (.of_same rfl rfl))))

theorem judge_own (k : ExchangeKind) (cs : List RxChar) (s : State) : WritesOwn s (judge k cs s) := by
  unfold judge endProbe endRead
  split
  · cases k
    · exact setCause_own (rewrite_own (.of_same rfl rfl))
    · exact setCauseIf_own (rewrite_own (.of_same rfl rfl))
  · exact endMiss_own s

theorem takeChar_own (k : ExchangeKind) (cs : List RxChar) (s : State) : WritesOwn s (takeChar k cs s) := by
  unfold takeChar
  split
  · exact judge_own k cs s
  · exact .of_same rfl rfl

theorem requestSent_own (s : State) : WritesOwn s (requestSent s) := by
  unfold requestSent
  split <;> exact .of_same rfl rfl

theorem replyWindowExpiry_own (s : State) : WritesOwn s (replyWindowExpiry s) := by
  unfold replyWindowExpiry
  split
  · exact endMiss_own s
  all_goals exact .refl s

theorem replyCharacter_own (c : RxChar) (s : State) : WritesOwn s (replyCharacter c s) := by
  unfold replyCharacter
  split
  · exact takeChar_own _ _ s
  · exact takeChar_own _ _ s
  all_goals exact .refl s

theorem replyGapTimeout_own (s : State) : WritesOwn s (replyGapTimeout s) := by
  unfold replyGapTimeout
  split
  · exact judge_own _ _ s
  all_goals exact .refl s

theorem pollExpiry_own {s t : State} (h : WritesOwn s t) : WritesOwn s (pollExpiry t) := by
  unfold pollExpiry
  split
  · dsimp only
    split
    · exact h.then_same rfl rfl
    · exact rewrite_own (h.then_same rfl rfl)
  · exact h

theorem settleExpiry_own {s t : State} (h : WritesOwn s t) : WritesOwn s (settleExpiry t) := by
  unfold settleExpiry
  exact rewrite_own (h.then_same rfl rfl)

theorem trackerStep_own (s : State) : WritesOwn s (trackerStep s) := by
  unfold trackerStep takeStep
  split
  · split
    · exact .of_same rfl rfl
    · exact deliver_own (rewrite_own (.of_same rfl rfl))
  · exact .refl s

theorem advancedAiu_area (a : Aiu) : (advancedAiu a).area = a.area := by
  unfold advancedAiu
  split <;> rfl

theorem countAdvance_own {s t : State} (h : WritesOwn s t) : WritesOwn s (countAdvance t) := by
  have h1 : WritesOwn s (rewrite [.aiu] t { t with aiu := advancedAiu t.aiu }) :=
    rewrite_own (h.then_same (advancedAiu_area t.aiu) rfl)
  unfold countAdvance
  exact rewrite_own (h1.then_same rfl rfl)

theorem frameSync_own (s : State) : WritesOwn s (frameSync s) := by
  have hd : WritesOwn s (takeDue s) := settleExpiry_own (pollExpiry_own (trackerStep_own s))
  unfold frameSync
  split
  · dsimp only
    split
    · split
      · exact sweepAndGrant_own (retire_own (swap_own (countAdvance_own hd)))
      · exact sweepAndGrant_own hd
    · exact hd
  · exact .refl s

/-! ## The run states -/

theorem runSet_own (w : BitVec 32) (s : State) : WritesOwn s (runSet w s) := by
  unfold runSet enterRunning
  dsimp only
  split
  · split
    · exact .of_same rfl rfl
    · exact sweepAndGrant_own (writeHeader_own (writeHeader_own (rewriteAll_own (.of_same rfl rfl))))
  · exact .of_same rfl rfl

theorem runClear_own (w : BitVec 32) (s : State) : WritesOwn s (runClear w s) := by
  unfold runClear
  dsimp only
  split
  · split
    · exact .of_same rfl rfl
    · exact rewrite_own (.of_same rfl rfl)
  · exact .of_same rfl rfl

theorem drainComplete_own (s : State) : WritesOwn s (drainComplete s) := by
  unfold drainComplete
  split
  · exact .of_same rfl rfl
  · exact .refl s

/-! ## The take and the card job -/

theorem ownField_taken (s : State) (h : Head) (k : Fin 8) : OwnField s ⟨cardAddr s h k, 4, Config.cardTaken⟩ :=
  .inr ⟨h, k, rfl, rfl, .inl rfl⟩

theorem ownField_ended (s : State) (h : Head) (k : Fin 8) : OwnField s (endedField (cardAddr s h k)) :=
  .inr ⟨h, k, rfl, rfl, .inr rfl⟩

theorem ownField_ending (s : State) (h : Head) (k : Fin 8) (e : Ending) :
    ∀ f ∈ endingFields s (cardAddr s h k) e, OwnField s f := by
  simp only [endingFields, List.mem_cons, List.not_mem_nil, or_false, forall_eq_or_imp, forall_eq]
  exact ⟨ownField_of_bytes (offWords_result s h k) fun a ha => (by simp only [Bytes] at ha ⊢; omega),
    ownField_of_bytes (offWords_result s h k) fun a ha => (by simp only [Bytes] at ha ⊢; omega)⟩

theorem ownField_result (s : State) (h : Head) (k : Fin 8) (j : CardJob) :
    ∀ f ∈ placed (cardAddr s h k) (resultFields j), OwnField s f := by
  intro f hf
  obtain ⟨g, hg, rfl⟩ := List.mem_map.1 hf
  have := resultFields_bound j g hg
  exact ownField_of_bytes (offWords_result s h k) fun a ha => (by simp only [Bytes] at ha ⊢; omega)

theorem afterEnded_own {s t : State} {h : Head} {e : Ending} {n : Bool} (hw : WritesOwn s t) :
    WritesOwn s (afterEnded h e n t) := by
  unfold afterEnded
  refine sweepAndGrant_own ?_
  split
  · exact deliver_own (setCauseIf_own (releaseEngine_own hw))
  · exact setCauseIf_own (releaseEngine_own hw)

theorem endCard_own (h : Head) (k : Fin 8) (e : Ending) (n : Bool) (s : State) :
    WritesOwn s (endCard h k e n s) := by
  have hf : ∀ f ∈ endingFields s (cardAddr s h k) e ++ [endedField (cardAddr s h k)], OwnField s f := by
    intro f hf
    rcases List.mem_append.1 hf with hf | hf
    · exact ownField_ending s h k e f hf
    · exact List.mem_singleton.1 hf ▸ ownField_ended s h k
  unfold endCard
  split
  · exact writeFields_own (by assumption) hf
  · exact afterEnded_own (writeFields_own (by assumption) hf)

theorem takeReread_own (h : Head) (k : Fin 8) (j : TakeJob) (s : State) : WritesOwn s (takeReread h k j s) := by
  unfold takeReread
  split
  · exact (readSpans_own (by assumption)).trans (enterFault_own _ _)
  · have hr := readSpans_own (by assumption)
    split
    · exact hr.then_same rfl rfl
    · exact fallFree_own hr

theorem takeWriteTaken_own (h : Head) (k : Fin 8) (j : TakeJob) (s : State) :
    WritesOwn s (takeWriteTaken h k j s) := by
  have hf : ∀ f ∈ [(⟨cardAddr s h k, 4, Config.cardTaken⟩ : Field)], OwnField s f := fun f hf =>
    List.mem_singleton.1 hf ▸ ownField_taken s h k
  unfold takeWriteTaken
  split
  · exact writeFields_own (by assumption) hf
  · rename_i hr
    exact (writeFields_own hr hf).then_same rfl rfl

theorem takeLastTaken_own (h : Head) (k : Fin 8) (j : TakeJob) (s : State) :
    WritesOwn s (takeLastTaken h k j s) := by
  unfold takeLastTaken
  dsimp only
  split
  · exact .of_same rfl rfl
  · exact rewrite_own (.of_same rfl rfl)

theorem takeFinish_own (h : Head) (k : Fin 8) (j : TakeJob) (s : State) : WritesOwn s (takeFinish h k j s) := by
  have hc : WritesOwn s (cutActions j.req.cut s) := cutActions_own (.refl s)
  unfold takeFinish
  split
  · exact endCard_own h k _ _ s
  · dsimp only
    split
    · unfold handOver
      exact rewrite_own (hc.then_same rfl rfl)
    · exact hc

theorem takeStage_own (s : State) (st : TakeStage) : WritesOwn s (takeStage s st) := by
  unfold takeStage
  split
  case h_1 h k j _ =>
    split
    · cases st
      · exact takeReread_own h k j s
      · exact takeWriteTaken_own h k j s
      · exact .of_same rfl rfl
      · exact takeLastTaken_own h k j s
      · exact takeFinish_own h k j s
    · exact .refl s
  all_goals exact .refl s

/-- A run of stages, each of which writes the part's bytes alone. -/
theorem foldl_own {α : Type} {f : State → α → State} (hf : ∀ s a, WritesOwn s (f s a)) (l : List α) (s : State) :
    WritesOwn s (l.foldl f s) := by
  induction l generalizing s with
  | nil => exact .refl s
  | cons a l ih => exact (hf s a).trans (ih _)

theorem tilePass_own {f : FilterSettings} {c : Quad Counter} {n addr : Nat} {a : Accumulators} {ts : Quad Nat}
    {s t : State} {o : Option (Accumulators × Quad Nat)} (h : tilePass f c n addr a ts s = (o, t)) :
    WritesOwn s t := by
  induction n generalizing addr a ts s with
  | zero => cases h; exact .refl _
  | succ n ih =>
    unfold tilePass at h
    split at h
    · cases h
      exact busRead_own (by assumption)
    · exact (busRead_own (by assumption)).trans (ih h)

theorem cardCalibration_own (h : Head) (k : Fin 8) (j : CardJob) (s : State) :
    WritesOwn s (cardCalibration h k j s) := by
  have hl : WritesOwn s (rewrite [.ciu] s (putLastTaken h j.lastBefore s)) := rewrite_own (.of_same rfl rfl)
  unfold cardCalibration
  split
  · exact .of_same rfl rfl
  · dsimp only
    split
    · exact hl.trans (endCard_own h k _ _ _)
    all_goals exact hl

theorem cardTilePass_own (h : Head) (k : Fin 8) (j : CardJob) (s : State) : WritesOwn s (cardTilePass h k j s) := by
  unfold cardTilePass
  split
  · exact (tilePass_own (by assumption)).trans (endCard_own h k _ _ _)
  · rename_i hr
    exact (tilePass_own hr).then_same rfl rfl

theorem cardEstimate_own (h : Head) (k : Fin 8) (j : CardJob) (s : State) : WritesOwn s (cardEstimate h k j s) := by
  unfold cardEstimate
  dsimp only
  split
  · exact .of_same rfl rfl
  · exact rewrite_own (.of_same rfl rfl)

theorem cardWriteResult_own (h : Head) (k : Fin 8) (j : CardJob) (s : State) :
    WritesOwn s (cardWriteResult h k j s) := by
  unfold cardWriteResult
  split
  · exact writeFields_own (by assumption) (ownField_result s h k j)
  · rename_i hr
    exact (writeFields_own hr (ownField_result s h k j)).then_same rfl rfl

theorem cardWriteEnding_own (h : Head) (k : Fin 8) (j : CardJob) (s : State) :
    WritesOwn s (cardWriteEnding h k j s) := by
  unfold cardWriteEnding
  split
  · exact writeFields_own (by assumption) (ownField_ending s h k .completed)
  · rename_i hr
    exact (writeFields_own hr (ownField_ending s h k .completed)).then_same rfl rfl

theorem cardFinish_own (h : Head) (k : Fin 8) (j : CardJob) (s : State) : WritesOwn s (cardFinish h k j s) := by
  have hf : ∀ f ∈ [endedField (cardAddr s h k)], OwnField s f := fun f hf =>
    List.mem_singleton.1 hf ▸ ownField_ended s h k
  unfold cardFinish
  split
  · exact writeFields_own (by assumption) hf
  · exact afterEnded_own (writeFields_own (by assumption) hf)

theorem cardStage_own (s : State) (st : CardStage) : WritesOwn s (cardStage s st) := by
  unfold cardStage
  split
  case h_1 h k j _ =>
    split
    · cases st
      case calibration => exact cardCalibration_own h k j s
      case tilePass => exact cardTilePass_own h k j s
      case estimate => exact cardEstimate_own h k j s
      case bankQuery => exact dropQuery_own (.of_same rfl rfl)
      case marks => exact rewrite_own (.of_same rfl rfl)
      case monitorEvents => exact deliver_own (.of_same rfl rfl)
      case writeResult => exact cardWriteResult_own h k j s
      case writeEnding => exact cardWriteEnding_own h k j s
      case finish => exact cardFinish_own h k j s
      all_goals exact .of_same rfl rfl
    · exact .refl s
  all_goals exact .refl s

/-! ## Directives -/

/-- A kind of directive whose work writes the part's bytes alone. -/
structure DirBody.Own (b : DirBody) : Prop where
  prepare : ∀ p s, WritesOwn s (b.prepare p s).2
  effect : ∀ p s, WritesOwn s (b.effect p s).2

theorem ownField_slot (s : State) (f : Field) (h : ∀ a, Bytes f.off f.size a → SlotBytes s a) :
    ∀ g ∈ [f], OwnField s g := fun _ hg =>
  List.mem_singleton.1 hg ▸ ownField_of_bytes (offWords_slot s) h

theorem advanceDir_own {s t : State} {next : DirStage} {r : Option ResultCode} (h : WritesOwn s t) :
    WritesOwn s (advanceDir next r t) := by
  unfold advanceDir
  split
  · exact h.then_same rfl rfl
  all_goals exact h

theorem dirTake_own (j : DirJob) (s : State) : WritesOwn s (dirTake j s) := by
  unfold dirTake
  split
  · exact (busRead_own (by assumption)).trans (enterFault_own _ _)
  · rename_i t hr
    have h := busRead_own hr
    have hf := ownField_slot t ⟨slotAddr t, 4, Config.slotTaken⟩ fun _ => .inl
    split
    · split
      · exact h.trans (writeFields_own (by assumption) hf)
      · rename_i hr
        exact (h.trans (writeFields_own hr hf)).then_same rfl rfl
    · exact fallFree_own h

theorem dirReadKind_own (j : DirJob) (s : State) : WritesOwn s (dirReadKind j s) := by
  unfold dirReadKind
  split
  · exact (busRead_own (by assumption)).trans (enterFault_own _ _)
  · rename_i hr
    exact (busRead_own hr).then_same rfl rfl

theorem dirReadPayload_own (j : DirJob) (s : State) : WritesOwn s (dirReadPayload j s) := by
  unfold dirReadPayload
  split
  · exact .of_same rfl rfl
  · split
    · rename_i hr
      exact (readSpans_own hr).then_same rfl rfl
    · rename_i hr
      exact (readSpans_own hr).then_same rfl rfl

theorem staleEnded_own (s : State) : WritesOwn s (staleEnded s) := by
  unfold staleEnded
  dsimp only
  split
  · have h : WritesOwn s { s with freeUses := s.freeUses + 1 } := .of_same rfl rfl
    exact h.trans (busWrite_own (.inl ((offWords_slot s).mono fun _ => .inl)))
  · exact .of_same rfl rfl

theorem dirWriteResult_own (j : DirJob) (s : State) : WritesOwn s (dirWriteResult j s) := by
  have hf := ownField_slot s ⟨slotAddr s + 6, 2, resultCode (j.result.getD .done)⟩ fun _ => .inr
  unfold dirWriteResult
  split
  · exact (writeFields_own (by assumption) hf).trans (staleEnded_own _)
  · rename_i hr
    exact (writeFields_own hr hf).then_same rfl rfl

theorem dirFinish_own (j : DirJob) (s : State) : WritesOwn s (dirFinish j s) := by
  have hf := ownField_slot s ⟨slotAddr s, 4, Config.slotEnded⟩ fun _ => .inl
  unfold dirFinish
  split
  · exact writeFields_own (by assumption) hf
  · exact sweepAndGrant_own (setCause_own (releaseEngine_own (writeFields_own (by assumption) hf)))

theorem dirStage_own {b : DirBody} (hb : b.Own) (s : State) (st : DirStage) : WritesOwn s (dirStage b s st) := by
  unfold dirStage
  split
  case h_1 j _ =>
    split
    · cases st
      case take => exact dirTake_own j s
      case kind => exact dirReadKind_own j s
      case payload => exact dirReadPayload_own j s
      case prepare =>
        show WritesOwn s (dirPrepare b j s)
        unfold dirPrepare
        split
        · exact .of_same rfl rfl
        · exact advanceDir_own (hb.prepare _ s)
      case effect =>
        show WritesOwn s (dirEffect b j s)
        unfold dirEffect
        split
        · exact .of_same rfl rfl
        · exact advanceDir_own (hb.effect _ s)
      case result => exact dirWriteResult_own j s
      case finish => exact dirFinish_own j s
    · exact .refl s
  all_goals exact .refl s

theorem runDirective_own {b : DirBody} (hb : b.Own) (row : Option DirKind) (u : DirStage) (s : State) :
    WritesOwn s (runDirective row b u s) := by
  unfold runDirective
  split
  · split
    · exact foldl_own (dirStage_own hb) _ s
    · exact .refl s
  all_goals exact .refl s

theorem readPoints_own {n addr : Nat} {s t : State} {o : Option (List CalPoint)}
    (h : readPoints n addr s = (o, t)) : WritesOwn s t := by
  have hp {a : Nat} {s t : State} {o : Option Nat} (h : readPoint a s = (o, t)) : WritesOwn s t := by
    unfold readPoint at h
    split at h
    · exact busRead_own h
    · cases h
      exact .refl _
  induction n generalizing addr s o t with
  | zero => cases h; exact .refl _
  | succ n ih =>
    unfold readPoints at h
    split at h
    · cases h
      exact hp (by assumption)
    · have h1 := hp (by assumption)
      split at h
      all_goals
        cases h
        exact h1.trans (ih (by assumption))

theorem prepareLoad_own (p : Nat) (s : State) : WritesOwn s (prepareLoad p s).2 := by
  unfold prepareLoad
  dsimp only
  split
  · exact .refl s
  · split
    · rename_i hr
      exact (readPoints_own hr).then_same rfl rfl
    · have h := readPoints_own (by assumption)
      split
      all_goals exact h.then_same rfl rfl

theorem commitEffect_own (p : Nat) (s : State) : WritesOwn s (commitEffect p s).2 := by
  unfold commitEffect
  dsimp only
  have h : WritesOwn s (rewrite [.it] s (commitState s)) := rewrite_own (.of_same rfl rfl)
  exact h.trans (.of_status (putStatus_shown .cs _ _ fun f hf => ownerFields_bound _ _ f hf))

theorem bakeLutEffect_own (p : Nat) (s : State) : WritesOwn s (bakeLutEffect p s).2 := by
  unfold bakeLutEffect
  split
  · exact .refl s
  · split
    · exact busRead_own (by assumption)
    · rename_i hr
      exact rewriteHeaders_own ((busRead_own hr).then_same rfl rfl)

theorem abortBakeEffect_own (p : Nat) (s : State) : WritesOwn s (abortBakeEffect p s).2 := by
  have h : WritesOwn s (swap s) := swap_own (.refl s)
  unfold abortBakeEffect
  dsimp only
  split
  · exact rewriteHeaders_own (h.then_same rfl rfl)
  · exact h

/-- The work of a directive's kind (R172.4). -/
def kindBody : Option DirKind → DirBody
  | none => emptyBody
  | some .setOrder => { prepare := noPreparation, effect := setOrderEffect }
  | some .setFilter => { prepare := noPreparation, effect := setFilterEffect }
  | some .loadCalibration => { prepare := prepareLoad, effect := commitEffect }
  | some .setTracking => { prepare := noPreparation, effect := setTrackingEffect }
  | some .switchContext => { prepare := noPreparation, effect := switchContextEffect }
  | some .snap => { prepare := noPreparation, effect := snapEffect }
  | some .setGrade => { prepare := noPreparation, effect := setGradeEffect }
  | some .bakeLut => { prepare := noPreparation, effect := bakeLutEffect }
  | some .abortBake => { prepare := noPreparation, effect := abortBakeEffect }
  | some .setCadence => { prepare := noPreparation, effect := setCadenceEffect }
  | some .setPod => { prepare := noPreparation, effect := setPodEffect }
  | some .setMonitor => { prepare := noPreparation, effect := setMonitorEffect }
  | some .setFreeze => { prepare := noPreparation, effect := setFreezeEffect }
  | some .clearMonitor => { prepare := noPreparation, effect := clearMonitorEffect }

/-- Every directive row runs the job with its kind's work. -/
theorem exec_directiveRow (row : Option DirKind) (u : DirStage) (s : State) :
    exec (directiveRow row u) s = .next (runDirective row (kindBody row) u s) := by
  rcases row with _ | k
  · rfl
  · cases k <;> rfl

theorem kindBody_own (row : Option DirKind) : (kindBody row).Own where
  prepare p s := by
    rcases row with _ | k
    · exact .refl s
    · cases k
      case loadCalibration => exact prepareLoad_own p s
      all_goals exact .refl s
  effect p s := by
    rcases row with _ | k
    · exact .refl s
    · cases k <;> simp only [kindBody]
      case setOrder =>
        unfold setOrderEffect
        split
        · exact .refl s
        · exact rewrite_own (.of_same rfl rfl)
      case setFilter =>
        unfold setFilterEffect
        split <;> exact .of_same rfl rfl
      case loadCalibration => exact commitEffect_own p s
      case setTracking =>
        unfold setTrackingEffect
        split
        · exact rewrite_own (.of_same rfl rfl)
        all_goals exact .refl s
      case switchContext =>
        unfold switchContextEffect
        split
        · exact .refl s
        · split
          · exact .refl s
          · exact rewrite_own (.of_same rfl rfl)
      case setGrade =>
        unfold setGradeEffect
        split <;> exact .of_same rfl rfl
      case bakeLut => exact bakeLutEffect_own p s
      case abortBake => exact abortBakeEffect_own p s
      case setMonitor =>
        unfold setMonitorEffect
        split
        · exact rewrite_own (.of_same rfl rfl)
        all_goals exact .refl s
      all_goals exact rewrite_own (.of_same rfl rfl)

/-! ## The bake -/

/-- The row that a BAKING bank's cursor stands at lies in the bank's storage (R111, R116). -/
theorem rowFields_own {s : State} {b : BankIx} {c : Nat} {look : Look} (hl : BankLaw s.lbu)
    (hb : s.lbu.banks.get b = .baking c look) : ∀ f ∈ rowFields s b look c, OwnField s f := by
  obtain ⟨-, -, -, hc⟩ := hl
  obtain ⟨h1, h2⟩ := hc b c look hb
  intro f hf
  obtain ⟨k, hk, rfl⟩ := List.mem_map.1 hf
  have hk' := List.mem_range.1 hk
  refine ownField_of_bytes (offWords_bank s b) fun a ha => ?_
  simp only [Bytes, entryAddr, BankBytes, lutEntries] at ha h2 ⊢
  omega

theorem rowBoundary_own {s t : State} {b : BankIx} (h : WritesOwn s t) : WritesOwn s (rowBoundary b t) := by
  unfold rowBoundary
  split
  · split
    · split
      · exact fallFree_own h
      · exact h
    · exact sweepAndGrant_own (setCause_own (releaseEngine_own h))
  · split
    · exact setCause_own h
    · exact h

theorem bakeRow_own (s : State) (hl : BankLaw s.lbu) : WritesOwn s (bakeRow s) := by
  unfold bakeRow
  split
  case h_1 b _ =>
    split
    case h_1 c look hb =>
      have hf := rowFields_own hl hb
      split
      · exact writeFields_own (by assumption) hf
      · rename_i hr
        exact rowBoundary_own (writeHeader_own ((writeFields_own hr hf).then_same rfl rfl))
    all_goals exact .refl s
  all_goals exact .refl s

/-! ## Every command -/

/-- A command that leaves the work area where it is writes the part's bytes alone; a write to AREA and a device reset
write none. -/
theorem exec_own (c : Instr) (s t : State) (hl : BankLaw s.lbu) (h : exec c s = .next t) :
    WritesOwn s t ∨ t.bus = s.bus := by
  have dir (row : Option DirKind) (u : DirStage) (e : exec (directiveRow row u) s = .next t) :
      WritesOwn s t ∨ t.bus = s.bus := by
    rw [exec_directiveRow] at e
    cases e
    exact .inl (runDirective_own (kindBody_own row) row u s)
  cases c
  case refusedKind u => exact dir none u h
  case setOrder u => exact dir (some .setOrder) u h
  case setFilter u => exact dir (some .setFilter) u h
  case loadCalibration u => exact dir (some .loadCalibration) u h
  case setTracking u => exact dir (some .setTracking) u h
  case switchContext u => exact dir (some .switchContext) u h
  case snap u => exact dir (some .snap) u h
  case setGrade u => exact dir (some .setGrade) u h
  case bakeLut u => exact dir (some .bakeLut) u h
  case abortBake u => exact dir (some .abortBake) u h
  case setCadence u => exact dir (some .setCadence) u h
  case setPod u => exact dir (some .setPod) u h
  case setMonitor u => exact dir (some .setMonitor) u h
  case setFreeze u => exact dir (some .setFreeze) u h
  case clearMonitor u => exact dir (some .clearMonitor) u h
  all_goals cases h
  case frameSync => exact .inl (frameSync_own s)
  case retirement => exact .inl (retire_own (.refl s))
  case trackerStep => exact .inl (trackerStep_own s)
  case pollExpiry => exact .inl (pollExpiry_own (.refl s))
  case settleExpiry => exact .inl (settleExpiry_own (.refl s))
  case requestSent => exact .inl (requestSent_own s)
  case replyWindowExpiry => exact .inl (replyWindowExpiry_own s)
  case replyCharacter data parity stop => exact .inl (replyCharacter_own _ s)
  case replyGapTimeout => exact .inl (replyGapTimeout_own s)
  case take u => exact .inl (foldl_own takeStage_own _ s)
  case cardJob u => exact .inl (foldl_own cardStage_own _ s)
  case bakeRow => exact .inl (bakeRow_own s hl)
  case drainComplete => exact .inl (drainComplete_own s)
  case runSet w => exact .inl (runSet_own w s)
  case runClear w => exact .inl (runClear_own w s)
  case engineReset w => exact .inr rfl
  case attentionMaskWrite w =>
    cases controlRun w
    · exact .inl (runClear_own w s)
    · exact .inl (runSet_own w s)
  case areaWrite w =>
    refine .inr ?_
    unfold areaWrite
    split <;> rfl
  case attnWrite w => exact .inl (rewrite_own (.of_same rfl rfl))
  case registerWriteIgnored r w => exact .inl (.refl s)
  case deviceReset => exact .inr rfl

/-- Settles O59: each command is a chain of accesses to the part's own bytes, and a card's state word is written with
TAKEN or ENDED alone. -/
theorem onlyPartBytesAreWritten : Obligations.OnlyPartBytesAreWritten := by
  unfold Obligations.OnlyPartBytesAreWritten
  intro c s t hl h
  rcases exec_own c s t hl h with hw | hb
  · exact ⟨hw.within, hw.word⟩
  · exact ⟨hb ▸ Bus.Within.refl _ _, fun _ _ => .inl (by rw [hb])⟩

end Sys2Proof.Machine

/-! The device reset, the choice of a candidate, and what three failing accesses leave (R9 to R11, R8, R38, R170,
R174). -/

namespace Sys2Proof.Machine

/-! ## The device reset (R174) -/

/-- Settles O8: a device reset is the state after reset, but for the bus, the queue, the counts and what an abandoned
request leaves of the link. -/
theorem deviceResetValues : Obligations.DeviceResetValues := by
  unfold Obligations.DeviceResetValues
  intro s
  show Host.Outcome.next (deviceReset s) = _
  rfl

/-! ## The candidate (R9 to R11) -/

/-- A card comes before another: the smaller frame number, the lower slot on a tie. -/
def Precedes (r c : Fin 8 × Nat) : Prop := r.2 < c.2 ∨ r.2 = c.2 ∧ r.1 ≤ c.1

theorem Precedes.refl (c : Fin 8 × Nat) : Precedes c c := .inr ⟨rfl, le_rfl⟩

theorem Precedes.trans {a b c : Fin 8 × Nat} (h : Precedes a b) (k : Precedes b c) : Precedes a c := by
  unfold Precedes at *
  omega

/-- The fold over later slots keeps a card that precedes every one met. -/
theorem foldl_betterCard (l : List (Fin 8 × Nat)) (b : Fin 8 × Nat) (h : ∀ c ∈ l, b.1 < c.1)
    (hl : l.Pairwise (fun c d => c.1 < d.1)) :
    ∃ r ∈ b :: l, l.foldl betterCard (some b) = some r ∧ ∀ c ∈ b :: l, Precedes r c := by
  induction l generalizing b with
  | nil => exact ⟨b, List.mem_cons_self, rfl, fun c hc => List.mem_singleton.1 hc ▸ .refl b⟩
  | cons c l ih =>
    rw [List.pairwise_cons] at hl
    rw [List.forall_mem_cons] at h
    obtain ⟨hbc, hb⟩ := h
    by_cases hlt : c.2 < b.2
    · obtain ⟨r, hr, he, hp⟩ := ih c hl.1 hl.2
      refine ⟨r, List.mem_cons_of_mem _ hr, by rw [List.foldl_cons, betterCard, if_pos hlt, he], ?_⟩
      exact List.forall_mem_cons.2 ⟨(hp c List.mem_cons_self).trans (.inl hlt), hp⟩
    · obtain ⟨r, hr, he, hp⟩ := ih b hb hl.2
      obtain ⟨hrb, hrl⟩ := List.forall_mem_cons.1 hp
      have hc : Precedes b c := by
        unfold Precedes
        omega
      refine ⟨r, ?_, by rw [List.foldl_cons, betterCard, if_neg hlt, he], ?_⟩
      · rcases List.mem_cons.1 hr with e | e
        · exact e ▸ List.mem_cons_self
        · exact List.mem_cons_of_mem _ (List.mem_cons_of_mem _ e)
      · exact List.forall_mem_cons.2 ⟨hrb, List.forall_mem_cons.2 ⟨hrb.trans hc, hrl⟩⟩

/-- The candidate of a table: none when no READY card is eligible, else an eligible card that precedes every
other. -/
theorem chooseCandidate_cases (count : Nat) (ready : List (Fin 8 × Nat))
    (h : ready.Pairwise (fun c d => c.1 < d.1)) :
    ((∀ c ∈ ready, count < c.2) ∧ chooseCandidate count ready = none)
      ∨ ∃ r ∈ ready, r.2 ≤ count ∧ chooseCandidate count ready = some r.1
          ∧ ∀ c ∈ ready, c.2 ≤ count → Precedes r c := by
  have hf : ∀ c, c ∈ ready.filter (fun c => c.2 ≤ count) ↔ c ∈ ready ∧ c.2 ≤ count := fun c => by
    simp [List.mem_filter]
  have hs := h.filter (fun c => decide (c.2 ≤ count))
  unfold chooseCandidate
  cases hl : ready.filter (fun c => c.2 ≤ count) with
  | nil =>
    refine .inl ⟨fun c hc => Nat.lt_of_not_le fun hle => ?_, rfl⟩
    have := (hf c).2 ⟨hc, hle⟩
    rw [hl] at this
    simp at this
  | cons b l =>
    rw [hl, List.pairwise_cons] at hs
    obtain ⟨r, hr, he, hp⟩ := foldl_betterCard l b hs.1 hs.2
    rw [← hl] at hr hp
    obtain ⟨hrm, hrc⟩ := (hf r).1 hr
    refine .inr ⟨r, hrm, hrc, ?_, fun c hc hle => hp c ((hf c).2 ⟨hc, hle⟩)⟩
    rw [List.foldl_cons, betterCard, he]
    rfl

/-- Settles O12, by the two cases of a table's candidate. -/
theorem candidateIsSmallestEligible : Obligations.CandidateIsSmallestEligible := by
  unfold Obligations.CandidateIsSmallestEligible
  intro count ready hs
  rcases chooseCandidate_cases count ready hs with ⟨hn, he⟩ | ⟨r, hr, hc, he, hp⟩
  · rw [he]
    exact ⟨iff_of_true rfl hn, fun k hk => by cases hk⟩
  · rw [he]
    refine ⟨iff_of_false (by simp) fun h => absurd (h r hr) (by omega), fun k hk => ?_⟩
    cases hk
    exact ⟨r.2, hr, hc, hp⟩

/-! ## Failing accesses (R8, R38, R170, R175) -/

theorem busRead_planned {s : State} {plan : List Bool} (h : s.bus.failPlan = true :: plan) (a n : Nat) :
    busRead s a n = (none, s.spendAccess) := by
  simp [busRead, Bus.succeeds, h]

theorem busWrite_planned {s : State} {plan : List Bool} (h : s.bus.failPlan = true :: plan) (f : Field) :
    busWrite s f = (false, s.spendAccess) := by
  simp [busWrite, Bus.succeeds, h]

/-- A failed access outside FAULTED leaves the state at the entry to FAULTED, on another bus. -/
theorem enterFault_entered (k : FaultKind) (s : State) (h : s.aiu.run ≠ .faulted) :
    ∃ c, enterFault k s = (faultedState k s).onBus c := by
  obtain ⟨c, -, he⟩ := enterFault_spec k s
  rw [if_neg h] at he
  exact ⟨c, he⟩

theorem enterFault_spent (k : FaultKind) (s : State) (h : s.aiu.run ≠ .faulted) :
    ∃ c, enterFault k s.spendAccess = (faultedState k s).onBus c := by
  obtain ⟨c, he⟩ := enterFault_entered k s.spendAccess h
  exact ⟨c, he⟩

/-- In FAULTED a shown step changes nothing but the bus. -/
theorem Shown.of_faulted {P : Nat → Prop} {s t : State} (h : Shown P s t) (hr : s.aiu.run = .faulted) :
    ∃ c, t = s.onBus c := by
  rcases h with ⟨c, -, e⟩ | ⟨-, hn, -⟩
  · exact ⟨c, e⟩
  · exact absurd hr hn

/-- The ending of the job in hand at the entry to FAULTED (R38). -/
theorem faultedState_lastEnding (k : FaultKind) {s : State} {j : JobKind} (h : jobKind s.ce.engine = some j) :
    (faultedState k s).ce.lastEnding = some (.terminated, j) := by
  show (terminatedCe s.ce).lastEnding = _
  unfold terminatedCe
  rw [h]

theorem differing_self (l : List Field) : differing l l = [] := by
  induction l with
  | nil => rfl
  | cons f l ih =>
    unfold differing at ih ⊢
    rw [List.zip_cons_cons, List.filter_cons_of_neg (by simp)]
    exact ih

theorem changedFields_self (o : Owner) (s : State) : changedFields o s s = [] := by
  cases o <;> simp [changedFields, changedCeFields, changedMonFields, differing_self]

/-- With nothing changed nothing is rewritten (R175). -/
theorem rewrite_self (os : List Owner) (s : State) : rewrite os s s = s := by
  unfold rewrite
  induction os with
  | nil => rfl
  | cons o os ih =>
    rw [List.foldl_cons, changedFields_self]
    exact ih

/-- With nothing due a frame sync takes nothing first. -/
theorem takeDue_of_nothingDue {s : State} (h : NothingDue s) : takeDue s = s := by
  obtain ⟨ht, hp, hs⟩ := h
  have h1 : trackerStep s = s := if_neg (by simp [ht])
  have h2 : pollExpiry s = s := if_neg (by simp [hp])
  have h3 : settleExpired s.ct = s.ct := if_neg (by simp [hs])
  unfold takeDue settleExpiry
  rw [h1, h2, h3]
  exact rewrite_self [.ct] s

/-- A sweep whose first read fails (R8). -/
theorem sweep_planned {s : State} {plan : List Bool} (hp : s.bus.failPlan = true :: plan)
    (hr : s.aiu.run = .running) : ∃ c, sweep s = (faultedState .tableRead (clearedClaims s)).onBus c := by
  have ht : sweepTable .i0 allSlots s = (none, s.spendAccess) := by
    unfold allSlots sweepTable
    rw [busRead_planned hp]
  have hn : (clearedClaims s).aiu.run ≠ .faulted := by
    show s.aiu.run ≠ _
    rw [hr]
    decide
  obtain ⟨c, hc⟩ := enterFault_spent .tableRead (clearedClaims s) hn
  obtain ⟨d, hd⟩ :=
    (rewrite_shown [.ciu] s.spendAccess ((faultedState .tableRead (clearedClaims s)).onBus c)).of_faulted
    rfl
  refine ⟨d, ?_⟩
  unfold sweep
  rw [if_pos hr, ht]
  show rewrite [.ciu] s.spendAccess (enterFault .tableRead (clearedClaims s).spendAccess) = _
  rw [hc, hd, onBus_onBus]

theorem grant_not_running {s : State} (h : s.aiu.run ≠ .running) : grant s = s := if_neg fun k => h k.2

/-- A frame sync at the saturated count whose sweep fails at once. -/
theorem frameSync_planned {s : State} {plan : List Bool} (hp : s.bus.failPlan = true :: plan)
    (hr : s.aiu.run = .running) (hc : maxFrame ≤ s.aiu.frameCount) (hn : NothingDue s) :
    ∃ c, frameSync s = (faultedState .tableRead (clearedClaims s)).onBus c := by
  obtain ⟨c, he⟩ := sweep_planned hp hr
  refine ⟨c, ?_⟩
  unfold frameSync
  rw [takeDue_of_nothingDue hn, if_pos hr]
  simp only [hr, if_true, if_neg (Nat.not_lt.2 hc)]
  unfold sweepAndGrant
  rw [he, grant_not_running (by simp)]

/-- A write to ATTN whose status write fails (R175). -/
theorem attnWrite_planned {s : State} {plan : List Bool} (hp : s.bus.failPlan = true :: plan) (w : BitVec 32)
    (hs : s.aiu.run ≠ .stopped) (hf : s.aiu.run ≠ .faulted) (hw : clearCauses s.aiu.causes w ≠ s.aiu.causes) :
    ∃ c, attnWrite w s
      = (faultedState .statusWrite { s with aiu := { s.aiu with causes := clearCauses s.aiu.causes w } }).onBus c := by
  have hne : (clearCauses s.aiu.causes w).toNat ≠ s.aiu.causes.toNat := fun e => hw (BitVec.eq_of_toNat_eq e)
  unfold attnWrite
  generalize hx : ({ s with aiu := { s.aiu with causes := clearCauses s.aiu.causes w } } : State) = x
  have hd : changedFields .aiu s x = [⟨0x08, 2, (clearCauses s.aiu.causes w).toNat⟩] := by
    simp [← hx, changedFields, aiuFields, differing, hne]
  have hxp : x.bus.failPlan = true :: plan := by rw [← hx]; exact hp
  have hxs : x.aiu.run ≠ .stopped := by rw [← hx]; exact hs
  have hxf : x.aiu.run ≠ .faulted := by rw [← hx]; exact hf
  obtain ⟨c, hc⟩ := enterFault_spent .statusWrite x hxf
  refine ⟨c, ?_⟩
  show putStatus .aiu (changedFields .aiu s x) x = _
  rw [hd]
  show putStatusField x .aiu _ = _
  unfold putStatusField
  rw [if_neg hxs, busWrite_planned hxp]
  exact hc

/-- A bake row whose first entry fails (R36). -/
theorem bakeRow_planned {s : State} {plan : List Bool} (hp : s.bus.failPlan = true :: plan) {i : BankIx} {c : Nat}
    {look : Look} (he : s.ce.engine = .bake i) (hb : s.lbu.banks.get i = .baking c look)
    (hf : s.aiu.run ≠ .faulted) : ∃ b, bakeRow s = (faultedState .bankWrite s).onBus b := by
  obtain ⟨b, hb'⟩ := enterFault_spent .bankWrite s hf
  have hw : ∀ f fs, writeFields .bankWrite (f :: fs) s = (false, enterFault .bankWrite s.spendAccess) := by
    intro f fs
    rw [writeFields, busWrite_planned hp]
  have hr : rowFields s i look c = ⟨entryAddr s i c, 8, lutEntry look c⟩ :: (rowFields s i look c).tail := rfl
  refine ⟨b, ?_⟩
  unfold bakeRow
  simp only [he, hb]
  rw [hr, hw]
  exact hb'

/-- A bank without a retire frame is not touched at the entry to FAULTED (R36, R124). -/
theorem faultedState_baking (k : FaultKind) {s : State} {i : BankIx} {c : Nat} {look : Look}
    (h : s.lbu.banks.get i = .baking c look) : (faultedState k s).lbu.banks.get i = s.lbu.banks.get i := by
  rw [faultedState_lbu, queryAbsent_get, h]
  rfl

/-- Settles O52: each of the three leaves the state at the entry to FAULTED with its kind. -/
theorem failedAccessesFault : Obligations.FailedAccessesFault := by
  unfold Obligations.FailedAccessesFault
  intro s plan hp
  refine ⟨fun hr hc hn => ?_, fun w hs hf hw => ?_, fun i c look he hb hf => ?_⟩
  · obtain ⟨b, e⟩ := frameSync_planned hp hr hc hn
    refine ⟨_, congrArg Host.Outcome.next e, rfl, rfl, rfl, rfl, ?_,
      faultedState_engine .tableRead (clearedClaims s),
      fun k hk => faultedState_lastEnding .tableRead (s := clearedClaims s) hk⟩
    exact (terminatedCe_kept _).2.1
  · obtain ⟨b, e⟩ := attnWrite_planned hp w hs hf hw
    exact ⟨_, congrArg Host.Outcome.next e, rfl, rfl, rfl, faultedState_engine .statusWrite _,
      fun k hk => faultedState_lastEnding .statusWrite hk, rfl, rfl, rfl, rfl, rfl⟩
  · obtain ⟨b, e⟩ := bakeRow_planned hp he hb hf
    exact ⟨_, congrArg Host.Outcome.next e, rfl, rfl, rfl, faultedState_baking .bankWrite hb,
      faultedState_engine .bankWrite _,
      faultedState_lastEnding .bankWrite (by rw [he]; rfl)⟩

end Sys2Proof.Machine

/-! What the grant order decides (R24 to R27, R36), and the directives that set the order, the filter and the grade
(R26, R57, R58, R97). -/

namespace Sys2Proof.Machine

/-! ## Claims -/

theorem isBaking_iff (b : Bank) : isBaking b = true ↔ ∃ c look, b = .baking c look := by
  cases b <;> simp [isBaking]

/-- The BAKING bank that claims: bank 0 before bank 1. -/
theorem bakingBank_eq (banks : Two Bank) (i : BankIx) (h : isBaking (banks.get i) = true)
    (h0 : i = .i1 → isBaking (banks.get .i0) = false) : bakingBank banks = some i := by
  unfold bakingBank
  cases i
  · exact if_pos h
  · have h0 : isBaking banks.i0 = false := h0 rfl
    rw [if_neg (by simp [h0])]
    exact if_pos h

theorem bakingBank_isSome (banks : Two Bank) :
    (bakingBank banks).isSome = true ↔ ∃ i, isBaking (banks.get i) = true := by
  constructor
  · unfold bakingBank
    split
    · rename_i h
      exact fun _ => ⟨.i0, h⟩
    · split
      · rename_i h
        exact fun _ => ⟨.i1, h⟩
      · simp
  · rintro ⟨i, h⟩
    by_cases h0 : isBaking (banks.get .i0) = true
    · rw [bakingBank_eq banks .i0 h0 (by simp)]
      rfl
    · rw [bakingBank_eq banks i h fun _ => by simpa using h0]
      rfl

/-- Who claims (R12, R24). -/
def Claiming (s : State) : Claimant → Prop
  | .head h => s.ciu.candidate.get h ≠ none
  | .utility => s.ce.directiveClaim = true ∨ ∃ i, ∃ c look, s.lbu.banks.get i = .baking c look

theorem claims_iff (s : State) (c : Claimant) : claims s c = true ↔ Claiming s c := by
  cases c with
  | head h => exact Option.isSome_iff_ne_none
  | utility =>
    simp only [claims, Claiming, Bool.or_eq_true, bakingBank_isSome, isBaking_iff]

/-! ## The order -/

theorem ranking_split (o : Fin 6) :
    ∃ below, ranking o = (ranking o).takeWhile (fun c => c ≠ .utility) ++ .utility :: below := by
  fin_cases o <;> exact ⟨_, rfl⟩

theorem ranking_nodup (o : Fin 6) : (ranking o).Nodup := by
  fin_cases o <;> decide

/-- The claimants above UT are those that any splitting of the order at UT puts before it. -/
theorem above_utility {o : Fin 6} {above below : List Claimant} (h : ranking o = above ++ .utility :: below) :
    (ranking o).takeWhile (fun c => c ≠ .utility) = above := by
  have hn := ranking_nodup o
  rw [h] at hn ⊢
  have hu : Claimant.utility ∉ above := fun hm =>
    List.disjoint_of_nodup_append hn hm List.mem_cons_self
  have ha : ∀ c ∈ above, decide (c ≠ .utility) = true := fun c hc =>
    decide_eq_true fun e : c = .utility => hu (e ▸ hc)
  rw [List.takeWhile_append_of_pos ha]
  simp

/-- A bake yields to a claimant ranked above UT (R36). -/
theorem outrankedUtility_iff (s : State) :
    outrankedUtility s = true
      ↔ ∃ above below, ranking s.ce.order = above ++ .utility :: below ∧ ∃ d ∈ above, Claiming s d := by
  unfold outrankedUtility
  rw [List.any_eq_true]
  simp only [claims_iff]
  constructor
  · rintro ⟨d, hd, hc⟩
    obtain ⟨below, h⟩ := ranking_split s.ce.order
    exact ⟨_, below, h, d, hd, hc⟩
  · rintro ⟨above, below, h, d, hd, hc⟩
    exact ⟨d, above_utility h ▸ hd, hc⟩

/-- The grant goes to the first claimant of the order (R25, R26). -/
theorem grantChoice_iff (s : State) (c : Claimant) :
    grantChoice s = some c
      ↔ Claiming s c ∧ ∃ above below, ranking s.ce.order = above ++ c :: below ∧ ∀ d ∈ above, ¬ Claiming s d := by
  unfold grantChoice
  rw [List.find?_eq_some_iff_append]
  simp only [claims_iff, Bool.not_eq_true', ← Bool.not_eq_true]

theorem grantChoice_none {s : State} (h : ∀ c, ¬ Claiming s c) : grantChoice s = none :=
  List.find?_eq_none.2 fun c _ hc => h c ((claims_iff s c).1 hc)

theorem isFree_iff (e : Engine) : e.isFree = true ↔ e = .free := by
  cases e <;> simp [Engine.isFree]

/-- With no engine to grant, out of RUNNING or with no claimant nothing is granted. -/
theorem afterGrant_none {s : State}
    (h : s.ce.engine ≠ .free ∨ s.aiu.run ≠ .running ∨ ∀ c, ¬ Claiming s c) : afterGrant s = s := by
  unfold afterGrant
  split
  · rename_i hr
    obtain ⟨he, hr⟩ := hr
    rcases h with h | h | h
    · exact absurd ((isFree_iff _).1 he) h
    · exact absurd hr h
    · rw [grantChoice_none h]
  · rfl

/-- The grant to the claimant chosen. -/
theorem afterGrant_some {s : State} {c : Claimant} (he : s.ce.engine = .free) (hr : s.aiu.run = .running)
    (h : grantChoice s = some c) : afterGrant s = grantedState c s := by
  unfold afterGrant
  rw [if_pos ⟨(isFree_iff _).2 he, hr⟩, h]

/-! ## The directives -/

theorem orderCode_val (o : Fin 6) : orderCode o.val = some o := by
  unfold orderCode
  rw [dif_pos o.isLt]

theorem orderCode_high {n : Nat} (h : 5 < n) : orderCode n = none := by
  unfold orderCode
  rw [dif_neg (by omega)]

theorem clamp_zero (hi v : Nat) : clamp 0 hi v = min hi v := by
  unfold clamp
  split <;> first | omega | (split <;> omega)

theorem clamp_one (hi v : Nat) (h : 1 ≤ hi) : clamp 1 hi v = max 1 (min hi v) := by
  unfold clamp
  split <;> first | omega | (split <;> omega)

/-- A directive that is refused, or changes settings that no status field shows, writes nothing. -/
theorem exec_atEffect {k : DirKind} {s t : State} {p : Nat} {j : DirJob} {r : ResultCode}
    (h : AtEffect s k p j) (hb : (kindBody (some k)).effect p s = (r, t)) (ht : t.ce.engine = .directive j) :
    exec (directiveRow (some k) .effect) s = .next (putDirJob (decidedJob j r) t) := by
  rw [exec_directiveRow, effect_decided k _ s t p j r h hb ht]

/-- SET_ORDER (R26). -/
theorem setOrder_atEffect {s : State} {p : Nat} {j : DirJob} (hc : Clear s) (h : AtEffect s .setOrder p j) :
    (∀ o : Fin 6, field p 0 2 = o.val →
      ∃ b, s.bus.Within (StatusBytes s) b ∧ exec (.setOrder .effect) s = .next
        ((putDirJob (decidedJob j .done) { s with ce := { s.ce with order := o } }).onBus b))
    ∧ (5 < field p 0 2 →
      exec (.setOrder .effect) s = .next (putDirJob (decidedJob j .refusedValue) s)) := by
  refine ⟨fun o ho => ?_, fun ho => exec_atEffect h ?_ h.1⟩
  · have he : setOrderEffect p s = (.done, rewrite [.ce] s { s with ce := { s.ce with order := o } }) := by
      unfold setOrderEffect
      rw [ho, orderCode_val]
    obtain ⟨b, hb, e⟩ := effect_shown .setOrder (kindBody (some .setOrder)) s
      { s with ce := { s.ce with order := o } } _ p j .done (StatusBytes s) h hc he rfl rfl h.1
      (rewrite_from [.ce] s { s with ce := { s.ce with order := o } } rfl)
    exact ⟨b, hb, congrArg Host.Outcome.next e⟩
  · show setOrderEffect p s = _
    unfold setOrderEffect
    rw [orderCode_high ho]

/-- SET_FILTER (R57, R58). -/
theorem setFilter_atEffect {s : State} {p : Nat} {j : DirJob} (h : AtEffect s .setFilter p j) :
    (field p 8 2 ≤ field p 0xA 2 →
      exec (.setFilter .effect) s = .next
        (putDirJob (decidedJob j .done)
          { s with ce := { s.ce with filter :=
            { pairA := { enable := bit (field p 0 1) 0, value := BitVec.ofNat 8 (field p 1 1),
                         mask := BitVec.ofNat 8 (field p 2 1) },
              pairB := { enable := bit (field p 4 1) 0, value := BitVec.ofNat 8 (field p 5 1),
                         mask := BitVec.ofNat 8 (field p 6 1) },
              lLo := field p 8 2, lHi := field p 0xA 2, clipLimit := min 256 (field p 0xC 2),
              aMin := max 1 (min 256 (field p 0xE 2)) } } }))
    ∧ (field p 0xA 2 < field p 8 2 →
      exec (.setFilter .effect) s = .next (putDirJob (decidedJob j .refusedValue) s)) := by
  refine ⟨fun hl => exec_atEffect h ?_ h.1, fun hl => exec_atEffect h (if_pos hl) h.1⟩
  rw [← clamp_zero 256, ← clamp_one 256 _ (by decide)]
  exact if_neg (Nat.not_lt.2 hl)

/-- SET_GRADE (R97). -/
theorem setGrade_atEffect {s : State} {p : Nat} {j : DirJob} (h : AtEffect s .setGrade p j) :
    (field p 0 2 < field p 2 2 → field p 2 2 ≤ 480 →
      exec (.setGrade .effect) s = .next
        (putDirJob (decidedJob j .done)
          { s with ce := { s.ce with grading :=
            { gK := field p 0 2, gM := field p 2 2, sMin := min 4096 (field p 4 2) } } }))
    ∧ ((field p 2 2 ≤ field p 0 2 ∨ 480 < field p 2 2) →
      exec (.setGrade .effect) s = .next (putDirJob (decidedJob j .refusedValue) s)) := by
  refine ⟨fun hl hm => exec_atEffect h ?_ h.1, fun hl => exec_atEffect h (if_pos hl) h.1⟩
  rw [← clamp_zero 4096]
  exact if_neg (by omega)

/-- What the order in force decides: who outranks UT, when nothing is granted, and what the grant to the first
claimant makes (R12, R24 to R27, R36). -/
theorem order_decides (s : State) :
    let first (c : Claimant) : Prop :=
      Claiming s c ∧ ∃ above below, ranking s.ce.order = above ++ c :: below ∧ ∀ d ∈ above, ¬ Claiming s d
    let baking (i : BankIx) : Prop := ∃ c look, s.lbu.banks.get i = .baking c look
    (outrankedUtility s = true
        ↔ ∃ above below, ranking s.ce.order = above ++ .utility :: below ∧ ∃ d ∈ above, Claiming s d)
    ∧ ((s.ce.engine ≠ .free ∨ s.aiu.run ≠ .running ∨ ∀ c, ¬ Claiming s c) → afterGrant s = s)
    ∧ (s.ce.engine = .free → s.aiu.run = .running →
      (∀ h k, first (.head h) → s.ciu.candidate.get h = some k →
        afterGrant s
          = { s with ciu := { s.ciu with candidate := s.ciu.candidate.set h none },
                     ce := { s.ce with engine := .take h k TakeJob.start } })
      ∧ (first .utility → s.ce.directiveClaim = true →
        afterGrant s
          = { s with ce := { s.ce with directiveClaim := false, engine := .directive DirJob.start } })
      ∧ ∀ i, first .utility → s.ce.directiveClaim = false → baking i → (i = .i1 → ¬ baking .i0) →
        afterGrant s = { s with ce := { s.ce with engine := .bake i } }) := by
  dsimp only
  simp only [← grantChoice_iff]
  refine ⟨outrankedUtility_iff s, afterGrant_none, fun he hr => ⟨fun h k hf hk => ?_, fun hf hd => ?_,
    fun i hf hd hb h0 => ?_⟩⟩
  · rw [afterGrant_some he hr hf, grantedState, hk]
  · rw [afterGrant_some he hr hf, grantedState, if_pos hd]
  · have hi : bakingBank s.lbu.banks = some i :=
      bakingBank_eq s.lbu.banks i ((isBaking_iff _).2 hb) fun e => by
        rw [← Bool.not_eq_true, isBaking_iff]
        exact h0 e
    rw [afterGrant_some he hr hf, grantedState, if_neg (by simp [hd]), hi]

/-- Settles O34: the grant is the choice of the first claimant, and each directive is its body at the effect. -/
theorem engineSettingsDirectives : Obligations.EngineSettingsDirectives := by
  unfold Obligations.EngineSettingsDirectives
  exact ⟨order_decides, fun s p j hc => ⟨setOrder_atEffect hc, setFilter_atEffect, setGrade_atEffect⟩⟩

end Sys2Proof.Machine

/-! A job in hand under the part's operations (R13, R33, R172): an operation keeps the job, or ends it, and a stage
that a job has run is not run again. So a job paused after a stage goes on where it was. -/

namespace Sys2Proof.Machine

/-! ## The job in hand -/

/-- In FAULTED the engine is FREE (R38). -/
def FreeInFault (s : State) : Prop := s.aiu.run = .faulted → s.ce.engine = .free

theorem FaultLaw.freeInFault {s : State} (h : FaultLaw s) : FreeInFault s := fun hr => h.2 (.inl hr)

theorem freeInFault_of_free {s : State} (h : s.ce.engine = .free) : FreeInFault s := fun _ => h

/-- The engine and the run state stand, or the engine is FREE. -/
def KeepsJob (s t : State) : Prop :=
  t.ce.engine = s.ce.engine ∧ t.aiu.run = s.aiu.run ∨ t.ce.engine = .free

theorem KeepsJob.refl (s : State) : KeepsJob s s := .inl ⟨rfl, rfl⟩

theorem KeepsJob.trans {s t u : State} (h : KeepsJob s t) (k : KeepsJob t u) : KeepsJob s u := by
  rcases k with ⟨he, hr⟩ | k
  · rcases h with ⟨he', hr'⟩ | h
    · exact .inl ⟨he.trans he', hr.trans hr'⟩
    · exact .inr (he.trans h)
  · exact .inr k

/-- An update beside the engine and the run state. -/
theorem KeepsJob.then_same {s t u : State} (h : KeepsJob s t) (he : u.ce.engine = t.ce.engine)
    (hr : u.aiu.run = t.aiu.run) : KeepsJob s u :=
  h.trans (.inl ⟨he, hr⟩)

theorem KeepsJob.of_same {s t : State} (he : t.ce.engine = s.ce.engine) (hr : t.aiu.run = s.aiu.run) :
    KeepsJob s t :=
  .inl ⟨he, hr⟩

theorem KeepsJob.freeInFault {s t : State} (h : KeepsJob s t) (hs : FreeInFault s) : FreeInFault t := by
  rcases h with ⟨he, hr⟩ | h
  · exact fun hf => he.trans (hs (hr.symm.trans hf))
  · exact freeInFault_of_free h

theorem KeepsJob.engine {s t : State} (h : KeepsJob s t) : t.ce.engine = s.ce.engine ∨ t.ce.engine = .free :=
  h.imp And.left id

theorem KeepsJob.of_shown {P : Nat → Prop} {s t : State} (h : Shown P s t) : KeepsJob s t := by
  obtain ⟨c, -, rfl⟩ | ⟨-, -, k, c, -, rfl⟩ := h
  · exact .refl s
  · exact .inr (faultedState_engine k s)

/-! ## What keeps it -/

theorem busRead_keeps {s t : State} {a n : Nat} {o : Option Nat} (h : busRead s a n = (o, t)) : KeepsJob s t := by
  have e : t = s.spendAccess := (congrArg Prod.snd h).symm
  exact e ▸ .refl s

theorem rewrite_keeps {s t : State} {os : List Owner} {before : State} (h : KeepsJob s t) :
    KeepsJob s (rewrite os before t) :=
  h.trans (.of_shown (rewrite_shown os before t))

theorem rewriteHeaders_keeps {s t before : State} (h : KeepsJob s t) : KeepsJob s (rewriteHeaders before t) :=
  h.trans (.of_shown (rewriteHeaders_shown before t))

theorem setCause_keeps {s t : State} {c : Cause} (h : KeepsJob s t) : KeepsJob s (setCause c t) := by
  unfold setCause
  exact rewrite_keeps (h.then_same rfl rfl)

theorem setCauseIf_keeps {s t : State} {p : Bool} {c : Cause} (h : KeepsJob s t) :
    KeepsJob s (setCauseIf p c t) := by
  cases p
  · exact h
  · exact setCause_keeps h

theorem deliver_keeps {s t : State} {e : MonEvent} (h : KeepsJob s t) : KeepsJob s (deliver e t) := by
  unfold deliver
  exact setCauseIf_keeps (rewrite_keeps (h.then_same rfl rfl))

theorem dropQuery_keeps {s t : State} (h : KeepsJob s t) : KeepsJob s (dropQuery t) := by
  unfold dropQuery
  exact rewriteHeaders_keeps (h.then_same rfl rfl)

theorem swap_keeps {s t : State} (h : KeepsJob s t) : KeepsJob s (swap t) := by
  unfold swap
  split
  · exact h
  · exact setCause_keeps (rewriteHeaders_keeps (h.then_same rfl rfl))

theorem cutActions_keeps {s t : State} {cut : Bool} (h : KeepsJob s t) : KeepsJob s (cutActions cut t) :=
  h.trans ((KeepsJob.of_same (t := cutState cut t) rfl rfl).trans (.of_shown (cutActions_shown cut t)))

/-! ## What ends it -/

/-- An access that fails outside FAULTED ends the job. -/
theorem enterFault_free (k : FaultKind) {s : State} (h : s.aiu.run ≠ .faulted) :
    (enterFault k s).ce.engine = .free := by
  obtain ⟨c, e⟩ := enterFault_entered k s h
  rw [e]
  exact faultedState_engine k s

/-- A record written whole leaves every byte but its own, and nothing else changed. -/
theorem writeFields_written {k : FaultKind} {fs : List Field} {s t : State} (h : writeFields k fs s = (true, t)) :
    ∃ c, s.bus.Within (fun a => ∃ f ∈ fs, Bytes f.off f.size a) c ∧ t = s.onBus c := by
  induction fs generalizing s with
  | nil =>
    cases h
    exact ⟨_, Bus.Within.refl _ _, (onBus_self _).symm⟩
  | cons f fs ih =>
    obtain ⟨c, hc, hw, -⟩ := busWrite_spec s f
    unfold writeFields at h
    split at h
    · rename_i u hu
      rw [hu] at hc
      obtain ⟨d, hd, e⟩ := ih h
      cases (show u = s.onBus c from hc)
      exact ⟨d, (hw.mono fun a ha => ⟨f, List.mem_cons_self, ha⟩).trans
        (hd.mono fun a ⟨g, hg, ha⟩ => ⟨g, List.mem_cons_of_mem _ hg, ha⟩), e⟩
    · cases h

/-- A record whose writing fails ends the job. -/
theorem writeFields_free {k : FaultKind} {fs : List Field} {s t : State} (hr : s.aiu.run ≠ .faulted)
    (h : writeFields k fs s = (false, t)) : t.ce.engine = .free := by
  induction fs generalizing s with
  | nil => cases h
  | cons f fs ih =>
    obtain ⟨c, hc, -⟩ := busWrite_spec s f
    unfold writeFields at h
    split at h <;> rename_i u hu <;> rw [hu] at hc <;> cases (show u = s.onBus c from hc)
    · exact ih (s := s.onBus c) hr h
    · cases h
      exact enterFault_free k hr

/-- What the engine holds once a job has ended: nothing, or a job just granted, and nothing in FAULTED. -/
structure JobEnded (t : State) : Prop where
  free : FreeInFault t
  engine : t.ce.engine = .free ∨ (∃ h k, t.ce.engine = .take h k TakeJob.start)
    ∨ t.ce.engine = .directive DirJob.start ∨ ∃ b, t.ce.engine = .bake b

theorem JobEnded.of_free {t : State} (h : t.ce.engine = .free) : JobEnded t := ⟨freeInFault_of_free h, .inl h⟩

/-- A sweep and a grant from FREE. -/
theorem sweepAndGrant_ended {s : State} (h : s.ce.engine = .free) : JobEnded (sweepAndGrant s) := by
  have hs : (sweep s).ce.engine = .free := by
    by_cases hr : s.aiu.run = .running
    · rcases sweep_shown s hr with k | ⟨-, k⟩
      · exact (KeepsJob.of_shown k).engine.elim (fun e => e.trans h) id
      · exact (KeepsJob.of_shown k).engine.elim (fun e => e.trans h) id
    · rwa [sweep_not_running s hr]
  have hg : JobEnded (afterGrant (sweep s)) := by
    unfold afterGrant
    split
    · rename_i hr
      split
      · exact .of_free hs
      · rename_i c _
        refine ⟨fun hf => ?_, grantedState_engine c (sweep s) hs⟩
        rw [(grantedState_kept c _).1, hr.2] at hf
        cases hf
    · exact .of_free hs
  have hk := KeepsJob.of_shown (grant_shown (sweep s))
  refine ⟨hk.freeInFault hg.free, ?_⟩
  show (grant (sweep s)).ce.engine = .free ∨ _
  rcases hk.engine with e | e
  · simp only [sweepAndGrant, e]
    exact hg.engine
  · exact .inl e

theorem releaseEngine_free (e : Option (JobEnding × JobKind)) (s : State) :
    (releaseEngine e s).ce.engine = .free :=
  (KeepsJob.of_shown (releaseEngine_shown e s)).engine.elim id id

theorem fallFree_ended (e : Option (JobEnding × JobKind)) (s : State) : JobEnded (fallFree e s) :=
  sweepAndGrant_ended (releaseEngine_free e s)

theorem KeepsJob.free {s t : State} (h : KeepsJob s t) (hs : s.ce.engine = .free) : t.ce.engine = .free :=
  h.engine.elim (fun e => e.trans hs) id

theorem afterEnded_ended (h : Head) (e : Ending) (n : Bool) (s : State) : JobEnded (afterEnded h e n s) := by
  have hr := releaseEngine_free (some (cardEnding e, .card)) s
  unfold afterEnded
  refine sweepAndGrant_ended ?_
  split
  · exact (deliver_keeps (setCauseIf_keeps (.refl _))).free hr
  · exact (setCauseIf_keeps (.refl _)).free hr

theorem endCard_ended (h : Head) (k : Fin 8) (e : Ending) (n : Bool) {s : State} (hr : s.aiu.run ≠ .faulted) :
    JobEnded (endCard h k e n s) := by
  unfold endCard
  split
  · rename_i hw
    exact .of_free (writeFields_free hr hw)
  · exact afterEnded_ended h e n _

/-! ## Stages in order -/

/-- A property that each stage carries from its own place to the next holds after a run of stages. -/
theorem foldl_stages {σ : Type} {rank : σ → Nat} {f : State → σ → State} {Q : Nat → State → Prop}
    (step : ∀ s st, Q (rank st) s → Q (rank st + 1) (f s st)) {l : List σ} {r : Nat}
    (hl : l.map rank = List.range' r l.length) {s : State} (h : Q r s) : Q (r + l.length) (l.foldl f s) := by
  induction l generalizing r s with
  | nil => exact h
  | cons st l ih =>
    rw [List.map_cons, List.length_cons, List.range'_succ] at hl
    obtain ⟨hr, hl⟩ := List.cons.inj hl
    have := ih hl (s := f s st) (hr ▸ step s st (hr ▸ h))
    rwa [Nat.add_assoc, Nat.add_comm 1] at this

/-- Stages none of which acts. -/
theorem foldl_skip {σ : Type} {f : State → σ → State} {l : List σ} {s : State} (h : ∀ st ∈ l, f s st = s) :
    l.foldl f s = s := by
  induction l with
  | nil => rfl
  | cons st l ih =>
    rw [List.foldl_cons, h st List.mem_cons_self]
    exact ih fun st' h' => h st' (List.mem_cons_of_mem _ h')

/-- A longer run from where a shorter one has been, once no stage of the shorter one acts again. -/
theorem foldl_resume {σ : Type} {f : State → σ → State} {L : List σ} {m n : Nat} (h : m ≤ n) {s : State}
    (hfix : ∀ st ∈ L.take m, f ((L.take m).foldl f s) st = (L.take m).foldl f s) :
    (L.take n).foldl f ((L.take m).foldl f s) = (L.take n).foldl f s := by
  have hn : L.take n = L.take m ++ (L.take n).drop m := by
    rw [← Nat.min_eq_left h, ← List.take_take, Nat.min_eq_left h, List.take_append_drop]
  rw [hn, List.foldl_append, List.foldl_append, foldl_skip hfix]

end Sys2Proof.Machine

/-! O30: a take, a card job and a directive, paused and run on (R13, R33, R172). A job in hand stands past the stages
it has run, so none of them acts again. -/

namespace Sys2Proof.Machine

/-! ## Past a place in the order -/

/-- FREE in FAULTED, and what the engine holds meets a condition. -/
def StandsAt (P : Engine → Prop) (s : State) : Prop := FreeInFault s ∧ P s.ce.engine

theorem KeepsJob.standsAt {P : Engine → Prop} (hf : P .free) {s t : State} (h : KeepsJob s t)
    (hs : StandsAt P s) : StandsAt P t := by
  refine ⟨h.freeInFault hs.1, ?_⟩
  rcases h.engine with e | e <;> rw [e]
  · exact hs.2
  · exact hf

/-- A job in hand with the part not FAULTED. -/
theorem standsAt_of_run {P : Engine → Prop} {s : State} (hr : s.aiu.run ≠ .faulted) (h : P s.ce.engine) :
    StandsAt P s :=
  ⟨fun hf => absurd hf hr, h⟩

theorem standsAt_of_free {P : Engine → Prop} (hf : P .free) {s : State} (h : s.ce.engine = .free) :
    StandsAt P s :=
  ⟨freeInFault_of_free h, h ▸ hf⟩

/-- A job in hand is not in FAULTED. -/
theorem FreeInFault.run {s : State} (h : FreeInFault s) (he : s.ce.engine ≠ .free) : s.aiu.run ≠ .faulted :=
  fun hf => he (h hf)

/-- A property that the stages carry along, after the stages before a place. -/
theorem foldl_reached {σ : Type} {rank : σ → Nat} {f : State → σ → State} {Q : Nat → State → Prop}
    (step : ∀ s st, Q (rank st) s → Q (rank st + 1) (f s st)) {L : List σ} {m : Nat}
    (hL : (L.take m).map rank = List.range' 0 m) {s : State} (h : Q 0 s) : Q m ((L.take m).foldl f s) := by
  have hlen : (L.take m).length = m := by simpa using congrArg List.length hL
  have hm := foldl_stages step (l := L.take m) (by rw [hlen]; exact hL) h
  rwa [hlen, Nat.zero_add] at hm

/-- Pausing before a place and going on, when no stage already run acts again. -/
theorem foldl_paused {σ : Type} {rank : σ → Nat} {f : State → σ → State} {L : List σ} {m n : Nat}
    (hL : (L.take m).map rank = List.range' 0 m) (hmn : m ≤ n) {s : State}
    (skip : ∀ st, rank st < m → f ((L.take m).foldl f s) st = (L.take m).foldl f s) :
    (L.take n).foldl f ((L.take m).foldl f s) = (L.take n).foldl f s := by
  refine foldl_resume hmn fun st hst => skip st ?_
  have : rank st ∈ List.range' 0 m := hL ▸ List.mem_map_of_mem hst
  simpa using (List.mem_range'_1.1 this).2

/-! ## The take -/

/-- A take in hand is about to begin, or past the stages below a place. -/
def TakePast (r : Nat) (e : Engine) : Prop := ∀ h k j, e = .take h k j → j.next = .reread ∨ r ≤ j.next.rank

theorem takePast_free (r : Nat) : TakePast r .free := by rintro _ _ _ ⟨⟩

theorem takePast_put (h : Head) (k : Fin 8) {j : TakeJob} {r : Nat} (hj : r ≤ j.next.rank) :
    TakePast r (.take h k j) := by
  rintro _ _ _ ⟨⟩
  exact .inr hj

theorem JobEnded.takePast {t : State} (h : JobEnded t) (r : Nat) : StandsAt (TakePast r) t := by
  refine ⟨h.free, fun hd k j e => ?_⟩
  rcases h.engine with e' | ⟨_, _, e'⟩ | e' | ⟨_, e'⟩ <;> cases e'.symm.trans e
  exact .inl rfl

theorem takeReread_past (h : Head) (k : Fin 8) (j : TakeJob) {s : State} (hr : s.aiu.run ≠ .faulted) :
    StandsAt (TakePast 1) (takeReread h k j s) := by
  unfold takeReread
  split <;> rename_i t ht <;> obtain ⟨c, -, he, -⟩ := readSpans_spec s (cardAddr s h k) cardSpans <;>
    rw [ht] at he <;> cases (show t = s.onBus c from he)
  · exact standsAt_of_free (takePast_free 1) (enterFault_free _ hr)
  · split
    · exact standsAt_of_run hr (takePast_put h k (j := { j with next := .writeTaken, req := _ }) le_rfl)
    · exact (fallFree_ended _ _).takePast 1

theorem takeWriteTaken_past (h : Head) (k : Fin 8) (j : TakeJob) {s : State} (hr : s.aiu.run ≠ .faulted) :
    StandsAt (TakePast 2) (takeWriteTaken h k j s) := by
  unfold takeWriteTaken
  split
  · exact standsAt_of_free (takePast_free 2) (writeFields_free hr (by assumption))
  · rename_i hw
    obtain ⟨c, -, rfl⟩ := writeFields_written hw
    exact standsAt_of_run hr (takePast_put h k (j := { j with next := .checks }) le_rfl)

theorem takeLastTaken_past (h : Head) (k : Fin 8) (j : TakeJob) {s : State} (hr : s.aiu.run ≠ .faulted) :
    StandsAt (TakePast 4) (takeLastTaken h k j s) := by
  have hp := takePast_put (r := 4) h k
    (j := { j with next := .finish, lastBefore := s.ciu.lastTaken.get h }) le_rfl
  unfold takeLastTaken
  dsimp only
  split
  · exact standsAt_of_run hr hp
  · refine (rewrite_keeps (.refl _)).standsAt (takePast_free 4) (standsAt_of_run hr ?_)
    exact hp

theorem takePast_of_holdsTake (r : Nat) {e : Engine} (h : ¬ holdsTake e = true) : TakePast r e := by
  rintro hd k j rfl
  exact absurd rfl h

theorem takeFinish_past (h : Head) (k : Fin 8) (j : TakeJob) {s : State} (hr : s.aiu.run ≠ .faulted) :
    StandsAt (TakePast 5) (takeFinish h k j s) := by
  have hc : KeepsJob s (cutActions j.req.cut s) := cutActions_keeps (.refl s)
  have hf : FreeInFault s := fun hf => absurd hf hr
  unfold takeFinish
  split
  · exact (endCard_ended h k _ _ hr).takePast 5
  · dsimp only
    split
    · rename_i ht
      have hr' := (hc.freeInFault hf).run (fun e => by rw [e] at ht; cases ht)
      refine (rewrite_keeps (.refl _)).standsAt (takePast_free 5) (standsAt_of_run hr' ?_)
      exact takePast_of_holdsTake 5 nofun
    · rename_i ht
      exact ⟨hc.freeInFault hf, takePast_of_holdsTake 5 ht⟩

theorem TakeStage.all_rank (st : TakeStage) : TakeStage.all[st.rank]? = some st := by cases st <;> rfl

theorem TakeStage.rank_inj {a b : TakeStage} (h : a.rank = b.rank) : a = b :=
  Option.some.inj ((all_rank a).symm.trans (h ▸ all_rank b))

/-- The stages run up to a stage: a first part of the order, in order. -/
theorem TakeStage.upTo_eq (u : TakeStage) :
    TakeStage.all.filter (fun st => st.rank ≤ u.rank) = TakeStage.all.take (u.rank + 1)
      ∧ (TakeStage.all.take (u.rank + 1)).map TakeStage.rank = List.range' 0 (u.rank + 1) := by
  cases u <;> exact ⟨rfl, rfl⟩

/-- A stage of the take carries the place along. -/
theorem takeStage_past (s : State) (st : TakeStage) (hs : StandsAt (TakePast st.rank) s) :
    StandsAt (TakePast (st.rank + 1)) (takeStage s st) := by
  by_cases hn : ∀ h k j, s.ce.engine = .take h k j → j.next ≠ st
  · rw [takeStage_skip s st hn]
    refine ⟨hs.1, fun h k j e => (hs.2 h k j e).imp id fun hle => ?_⟩
    exact Nat.lt_of_le_of_ne hle fun hrk => hn h k j e (TakeStage.rank_inj hrk.symm)
  · push Not at hn
    obtain ⟨h, k, j, he, rfl⟩ := hn
    have hr := hs.1.run (by rw [he]; nofun)
    unfold takeStage
    rw [he]
    simp only [if_true]
    split <;> rename_i hst <;> rw [hst]
    · exact takeReread_past h k j hr
    · exact takeWriteTaken_past h k j hr
    · exact standsAt_of_run hr (takePast_put h k (j := { j with next := .lastTaken, failed := _ }) le_rfl)
    · exact takeLastTaken_past h k j hr
    · exact takeFinish_past h k j hr

theorem runTake_paused (s : State) (u v : TakeStage) (h : Head) (k : Fin 8) (j : TakeJob) (hs : FaultLaw s)
    (huv : u.rank ≤ v.rank) (he : (runTake u s).ce.engine = .take h k j) (hj : j.next ≠ .reread) :
    runTake v (runTake u s) = runTake v s := by
  unfold runTake at he ⊢
  obtain ⟨hu, hL⟩ := TakeStage.upTo_eq u
  rw [(TakeStage.upTo_eq v).1]
  rw [hu] at he ⊢
  have hp := foldl_reached (Q := fun r => StandsAt (TakePast r)) takeStage_past hL
    ⟨hs.freeInFault, fun _ _ _ _ => .inr (Nat.zero_le _)⟩
  refine foldl_paused hL (by omega) fun st hst => takeStage_skip _ st ?_
  intro hd i j' e hn
  cases he.symm.trans e
  have := (hp.2 h k j he).resolve_left hj
  rw [hn] at this
  omega

/-! ## The card job -/

/-- A card job in hand is past the stages below a place. -/
def CardPast (r : Nat) (e : Engine) : Prop := ∀ h k j, e = .card h k j → r ≤ j.next.rank

theorem cardPast_free (r : Nat) : CardPast r .free := by rintro _ _ _ ⟨⟩

theorem cardPast_put (h : Head) (k : Fin 8) {j : CardJob} {r : Nat} (hj : r ≤ j.next.rank) :
    CardPast r (.card h k j) := by
  rintro _ _ _ ⟨⟩
  exact hj

theorem JobEnded.cardPast {t : State} (h : JobEnded t) (r : Nat) : StandsAt (CardPast r) t := by
  refine ⟨h.free, fun hd k j e => ?_⟩
  rcases h.engine with e' | ⟨_, _, e'⟩ | e' | ⟨_, e'⟩ <;> cases e'.symm.trans e

/-- A card job put in hand by a part that is not FAULTED. -/
theorem putCard_past (h : Head) (k : Fin 8) (j : CardJob) {r : Nat} {s : State} (hr : s.aiu.run ≠ .faulted)
    (hj : r ≤ j.next.rank) : StandsAt (CardPast r) (putCard h k j s) :=
  standsAt_of_run hr (cardPast_put h k hj)

theorem cardCalibration_past (h : Head) (k : Fin 8) (j : CardJob) {s : State} (hr : s.aiu.run ≠ .faulted) :
    StandsAt (CardPast 1) (cardCalibration h k j s) := by
  unfold cardCalibration
  split
  · exact putCard_past h k _ hr le_rfl
  · have hk : KeepsJob s (rewrite [.ciu] s (putLastTaken h j.lastBefore s)) :=
      rewrite_keeps (.of_same rfl rfl)
    have hf := hk.freeInFault fun hf => absurd hf hr
    dsimp only
    split <;> rename_i he
    · exact (endCard_ended h k _ _ (hf.run (by rw [he]; nofun))).cardPast 1
    all_goals
      refine ⟨hf, ?_⟩
      rw [he]
      rintro _ _ _ ⟨⟩

/-- The tile pass reads memory and changes nothing. -/
theorem tilePass_onBus {f : FilterSettings} {c : Quad Counter} {n addr : Nat} {a : Accumulators} {ts : Quad Nat}
    {s t : State} {o : Option (Accumulators × Quad Nat)} (h : tilePass f c n addr a ts s = (o, t)) :
    ∃ b, t = s.onBus b := by
  induction n generalizing addr a ts s with
  | zero => cases h; exact ⟨_, (onBus_self _).symm⟩
  | succ n ih =>
    unfold tilePass at h
    split at h <;> rename_i u hu <;> cases (show s.spendAccess = u from congrArg Prod.snd hu)
    · cases h
      exact ⟨_, rfl⟩
    · obtain ⟨b, e⟩ := ih h
      exact ⟨b, e⟩

theorem cardTilePass_past (h : Head) (k : Fin 8) (j : CardJob) {s : State} (hr : s.aiu.run ≠ .faulted) :
    StandsAt (CardPast 2) (cardTilePass h k j s) := by
  unfold cardTilePass
  split <;> rename_i ht <;> obtain ⟨b, rfl⟩ := tilePass_onBus ht
  · exact (endCard_ended h k _ _ (s := s.onBus b) hr).cardPast 2
  · exact putCard_past h k _ hr le_rfl

theorem cardEstimate_past (h : Head) (k : Fin 8) (j : CardJob) {s : State} (hr : s.aiu.run ≠ .faulted) :
    StandsAt (CardPast 3) (cardEstimate h k j s) := by
  unfold cardEstimate
  dsimp only
  split
  · exact putCard_past h k _ hr le_rfl
  · exact (rewrite_keeps (.of_same rfl rfl)).standsAt (cardPast_free 3)
      (putCard_past h k { j with next := .contextRead, estimate := _ } hr le_rfl)

theorem cardWriteResult_past (h : Head) (k : Fin 8) (j : CardJob) {s : State} (hr : s.aiu.run ≠ .faulted) :
    StandsAt (CardPast 11) (cardWriteResult h k j s) := by
  unfold cardWriteResult
  split <;> rename_i hw
  · exact standsAt_of_free (cardPast_free 11) (writeFields_free hr hw)
  · obtain ⟨c, -, rfl⟩ := writeFields_written hw
    exact putCard_past h k _ hr le_rfl

theorem cardWriteEnding_past (h : Head) (k : Fin 8) (j : CardJob) {s : State} (hr : s.aiu.run ≠ .faulted) :
    StandsAt (CardPast 12) (cardWriteEnding h k j s) := by
  unfold cardWriteEnding
  split <;> rename_i hw
  · exact standsAt_of_free (cardPast_free 12) (writeFields_free hr hw)
  · obtain ⟨c, -, rfl⟩ := writeFields_written hw
    exact putCard_past h k _ hr le_rfl

theorem cardFinish_past (h : Head) (k : Fin 8) (j : CardJob) {s : State} (hr : s.aiu.run ≠ .faulted) :
    StandsAt (CardPast 13) (cardFinish h k j s) := by
  unfold cardFinish
  split <;> rename_i hw
  · exact standsAt_of_free (cardPast_free 13) (writeFields_free hr hw)
  · exact (afterEnded_ended h .completed _ _).cardPast 13

theorem CardStage.all_rank (st : CardStage) : CardStage.all[st.rank]? = some st := by cases st <;> rfl

theorem CardStage.rank_inj {a b : CardStage} (h : a.rank = b.rank) : a = b :=
  Option.some.inj ((all_rank a).symm.trans (h ▸ all_rank b))

/-- The stages run up to a stage: a first part of the order, in order. -/
theorem CardStage.upTo_eq (u : CardStage) :
    CardStage.all.filter (fun st => st.rank ≤ u.rank) = CardStage.all.take (u.rank + 1)
      ∧ (CardStage.all.take (u.rank + 1)).map CardStage.rank = List.range' 0 (u.rank + 1) := by
  cases u <;> exact ⟨rfl, rfl⟩

/-- A stage of the card job carries the place along. -/
theorem cardStage_past (s : State) (st : CardStage) (hs : StandsAt (CardPast st.rank) s) :
    StandsAt (CardPast (st.rank + 1)) (cardStage s st) := by
  by_cases hn : ∀ h k j, s.ce.engine = .card h k j → j.next ≠ st
  · rw [cardStage_skip s st hn]
    exact ⟨hs.1, fun h k j e =>
      Nat.lt_of_le_of_ne (hs.2 h k j e) fun hrk => hn h k j e (CardStage.rank_inj hrk.symm)⟩
  · push Not at hn
    obtain ⟨h, k, j, he, rfl⟩ := hn
    have hr := hs.1.run (by rw [he]; nofun)
    unfold cardStage
    rw [he]
    simp only [if_true]
    split <;> rename_i hst <;> rw [hst]
    · exact cardCalibration_past h k j hr
    · exact cardTilePass_past h k j hr
    · exact cardEstimate_past h k j hr
    · exact putCard_past h k _ hr le_rfl
    · exact putCard_past h k _ hr le_rfl
    · exact (dropQuery_keeps (.refl _)).standsAt (cardPast_free 6) (putCard_past h k _ hr le_rfl)
    · exact (rewrite_keeps (.refl _)).standsAt (cardPast_free 7) (putCard_past h k _ hr le_rfl)
    · exact putCard_past h k _ hr le_rfl
    · exact (deliver_keeps (.refl _)).standsAt (cardPast_free 9) (putCard_past h k _ hr le_rfl)
    · exact putCard_past h k _ hr le_rfl
    · exact cardWriteResult_past h k j hr
    · exact cardWriteEnding_past h k j hr
    · exact cardFinish_past h k j hr

theorem runCard_paused (s : State) (u v : CardStage) (h : Head) (k : Fin 8) (j : CardJob) (hs : FaultLaw s)
    (huv : u.rank ≤ v.rank) (he : (runCard u s).ce.engine = .card h k j) :
    runCard v (runCard u s) = runCard v s := by
  unfold runCard at he ⊢
  obtain ⟨hu, hL⟩ := CardStage.upTo_eq u
  rw [(CardStage.upTo_eq v).1]
  rw [hu] at he ⊢
  have hp := foldl_reached (Q := fun r => StandsAt (CardPast r)) cardStage_past hL
    ⟨hs.freeInFault, fun _ _ _ _ => Nat.zero_le _⟩
  refine foldl_paused hL (by omega) fun st hst => cardStage_skip _ st ?_
  intro hd i j' e hn
  cases he.symm.trans e
  have := hp.2 h k j he
  rw [hn] at this
  omega

/-! ## The directive -/

/-- A kind of directive whose work keeps the job or ends it. -/
structure DirBody.Keeps (b : DirBody) : Prop where
  prepare : ∀ p s, KeepsJob s (b.prepare p s).2
  effect : ∀ p s, KeepsJob s (b.effect p s).2

theorem readPoints_keeps {n addr : Nat} {s t : State} {o : Option (List CalPoint)}
    (h : readPoints n addr s = (o, t)) : KeepsJob s t := by
  have hp {a : Nat} {s t : State} {o : Option Nat} (h : readPoint a s = (o, t)) : KeepsJob s t := by
    unfold readPoint at h
    split at h
    · exact busRead_keeps h
    · cases h
      exact .refl _
  induction n generalizing addr s o t with
  | zero => cases h; exact .refl _
  | succ n ih =>
    unfold readPoints at h
    split at h
    · cases h
      exact hp (by assumption)
    · have h1 := hp (by assumption)
      split at h
      all_goals
        cases h
        exact h1.trans (ih (by assumption))

theorem prepareLoad_keeps (p : Nat) (s : State) : KeepsJob s (prepareLoad p s).2 := by
  unfold prepareLoad
  dsimp only
  split
  · exact .refl s
  · split
    · rename_i hr
      exact (readPoints_keeps hr).then_same rfl rfl
    · have h := readPoints_keeps (by assumption)
      split
      all_goals exact h.then_same rfl rfl

theorem commitEffect_keeps (p : Nat) (s : State) : KeepsJob s (commitEffect p s).2 := by
  have h : KeepsJob s (rewrite [.it] s (commitState s)) := rewrite_keeps (.of_same rfl rfl)
  exact h.trans (.of_shown (putStatus_shown .cs _ _ fun f hf => ownerFields_bound _ _ f hf))

theorem bakeLutEffect_keeps (p : Nat) (s : State) : KeepsJob s (bakeLutEffect p s).2 := by
  unfold bakeLutEffect
  split
  · exact .refl s
  · split <;> rename_i hr
    · exact busRead_keeps hr
    · exact rewriteHeaders_keeps ((busRead_keeps hr).then_same rfl rfl)

theorem abortBakeEffect_keeps (p : Nat) (s : State) : KeepsJob s (abortBakeEffect p s).2 := by
  have h : KeepsJob s (swap s) := swap_keeps (.refl s)
  unfold abortBakeEffect
  dsimp only
  split
  · exact rewriteHeaders_keeps (h.then_same rfl rfl)
  · exact h

theorem kindBody_keeps (row : Option DirKind) : (kindBody row).Keeps where
  prepare p s := by
    rcases row with _ | k
    · exact .refl s
    · cases k
      case loadCalibration => exact prepareLoad_keeps p s
      all_goals exact .refl s
  effect p s := by
    rcases row with _ | k
    · exact .refl s
    · cases k <;> simp only [kindBody]
      case setOrder =>
        unfold setOrderEffect
        split
        · exact .refl s
        · exact rewrite_keeps (.of_same rfl rfl)
      case setFilter =>
        unfold setFilterEffect
        split <;> exact .of_same rfl rfl
      case loadCalibration => exact commitEffect_keeps p s
      case setTracking =>
        unfold setTrackingEffect
        split
        · exact rewrite_keeps (.of_same rfl rfl)
        all_goals exact .refl s
      case switchContext =>
        unfold switchContextEffect
        split
        · exact .refl s
        · split
          · exact .refl s
          · exact rewrite_keeps (.of_same rfl rfl)
      case setGrade =>
        unfold setGradeEffect
        split <;> exact .of_same rfl rfl
      case bakeLut => exact bakeLutEffect_keeps p s
      case abortBake => exact abortBakeEffect_keeps p s
      case setMonitor =>
        unfold setMonitorEffect
        split
        · exact rewrite_keeps (.of_same rfl rfl)
        all_goals exact .refl s
      all_goals exact rewrite_keeps (.of_same rfl rfl)

/-- FREE in FAULTED; a directive in hand is past the stages below a place and goes on with a row of the table, or it
has been granted since. -/
def DirPast (row : Option DirKind) (r : Nat) (s : State) : Prop :=
  FreeInFault s ∧ ∀ j, s.ce.engine = .directive j →
    r ≤ j.next.rank ∧ dirRowApplies row j s = true ∨ j.next = .take ∧ 0 < r

theorem dirPast_of_free {row : Option DirKind} {r : Nat} {s : State} (h : s.ce.engine = .free) :
    DirPast row r s :=
  ⟨freeInFault_of_free h, fun j e => by rw [h] at e; cases e⟩

theorem JobEnded.dirPast {t : State} (h : JobEnded t) (row : Option DirKind) {r : Nat} (hr : 0 < r) :
    DirPast row r t := by
  refine ⟨h.free, fun j e => ?_⟩
  rcases h.engine with e' | ⟨_, _, e'⟩ | e' | ⟨_, e'⟩ <;> cases e'.symm.trans e
  exact .inr ⟨rfl, hr⟩

theorem putDirJob_past {row : Option DirKind} {r : Nat} {s : State} {j : DirJob} (hr : s.aiu.run ≠ .faulted)
    (hj : r ≤ j.next.rank) (ha : dirRowApplies row j s = true) : DirPast row r (putDirJob j s) := by
  refine ⟨fun hf => absurd hf hr, fun j' e => ?_⟩
  cases e
  exact .inl ⟨hj, ha⟩

theorem busRead_onBus {s t : State} {a n : Nat} {o : Option Nat} (h : busRead s a n = (o, t)) :
    t = s.onBus s.bus.spend :=
  (congrArg Prod.snd h).symm

/-- What a read that succeeds answers. -/
theorem busRead_some {s t : State} {a n v : Nat} (h : busRead s a n = (some v, t)) :
    v = s.bus.mem.readLE a n := by
  have := congrArg Prod.fst h
  rw [(busRead_spec s a n).2] at this
  split at this <;> cases this
  rfl

/-- TAKEN leaves the kind in the slot, so the row that the slot's kind names goes on with the job. -/
theorem dirTake_past {row : Option DirKind} {j : DirJob} {s : State} (hr : s.aiu.run ≠ .faulted)
    (hn : j.next = .take) (ha : dirRowApplies row j s = true) : DirPast row 1 (dirTake j s) := by
  unfold dirTake
  split <;> rename_i t ht <;> cases busRead_onBus ht
  · exact dirPast_of_free (enterFault_free _ (s := s.onBus _) hr)
  · rename_i v
    cases busRead_some ht
    split
    · rename_i hp
      simp only [dirRowApplies, hn, hp, bne_self_eq_false, Bool.false_or] at ha
      split <;> rename_i hw
      · exact dirPast_of_free (writeFields_free (s := s.onBus s.bus.spend) hr hw)
      · obtain ⟨c, hc, rfl⟩ := writeFields_written hw
        refine putDirJob_past hr le_rfl ?_
        have hk : c.mem.readLE (slotAddr s + 4) 2 = s.bus.mem.readLE (slotAddr s + 4) 2 :=
          hc.readLE fun a h1 _ ⟨f, hf, hb⟩ => by
            cases List.mem_singleton.1 hf
            simp only [Bytes, slotAddr_onBus] at hb
            omega
        simpa only [dirRowApplies, onBus_bus, slotAddr_onBus, hk] using ha
    · exact (fallFree_ended _ _).dirPast row Nat.one_pos

theorem dirReadKind_past {row : Option DirKind} {j : DirJob} {s : State} (hr : s.aiu.run ≠ .faulted)
    (hn : j.next = .kind) (ha : dirRowApplies row j s = true) : DirPast row 2 (dirReadKind j s) := by
  unfold dirReadKind
  split <;> rename_i t ht <;> cases busRead_onBus ht
  · exact dirPast_of_free (enterFault_free _ (s := s.onBus _) hr)
  · cases busRead_some ht
    simp only [dirRowApplies, hn] at ha
    exact putDirJob_past hr le_rfl ha

theorem dirReadPayload_past {row : Option DirKind} {j : DirJob} {s : State} (hr : s.aiu.run ≠ .faulted)
    (hk : (j.kind == row) = true) : DirPast row 3 (dirReadPayload j s) := by
  unfold dirReadPayload
  split
  · exact putDirJob_past hr le_rfl hk
  · split <;> rename_i t ht <;> obtain ⟨c, -, he, -⟩ := readSpans_spec s (slotAddr s + 0x10) (payloadSpans _) <;>
      rw [ht] at he <;> cases (show t = s.onBus c from he)
    all_goals exact putDirJob_past hr le_rfl hk

/-- A directive job moved on after work that keeps the job. -/
theorem advanceDir_past {row : Option DirKind} {j : DirJob} {s t : State} {next : DirStage}
    {o : Option ResultCode} (hr : s.aiu.run ≠ .faulted) (he : s.ce.engine = .directive j) (h : KeepsJob s t)
    (ha : ∀ (o : Option ResultCode) (u : State), dirRowApplies row { j with next := next, result := o } u = true) :
    DirPast row next.rank (advanceDir next o t) := by
  rcases h with ⟨e, er⟩ | e
  · unfold advanceDir
    rw [e, he]
    exact putDirJob_past (er ▸ hr) le_rfl (ha _ _)
  · unfold advanceDir
    rw [e]
    exact dirPast_of_free e

theorem dirPrepare_past {b : DirBody} (hb : b.Keeps) {row : Option DirKind} {j : DirJob} {s : State}
    (hr : s.aiu.run ≠ .faulted) (he : s.ce.engine = .directive j) (hk : (j.kind == row) = true) :
    DirPast row 4 (dirPrepare b j s) := by
  unfold dirPrepare
  split
  · exact putDirJob_past hr le_rfl hk
  · exact advanceDir_past hr he (hb.prepare _ s) fun _ _ => hk

theorem dirEffect_past {b : DirBody} (hb : b.Keeps) {row : Option DirKind} {j : DirJob} {s : State}
    (hr : s.aiu.run ≠ .faulted) (he : s.ce.engine = .directive j) (hk : (j.kind == row) = true) :
    DirPast row 5 (dirEffect b j s) := by
  unfold dirEffect
  split
  · exact putDirJob_past hr le_rfl hk
  · exact advanceDir_past hr he (hb.effect _ s) fun _ _ => hk

theorem staleEnded_free {s : State} (h : s.ce.engine = .free) : (staleEnded s).ce.engine = .free := by
  unfold staleEnded
  dsimp only
  split
  · obtain ⟨c, e, -⟩ := busWrite_spec { s with freeUses := s.freeUses + 1 }
      ⟨slotAddr { s with freeUses := s.freeUses + 1 }, 4, Config.slotEnded⟩
    rw [e]
    exact h
  · exact h

theorem dirWriteResult_past {row : Option DirKind} {j : DirJob} {s : State} (hr : s.aiu.run ≠ .faulted)
    (hk : (j.kind == row) = true) : DirPast row 6 (dirWriteResult j s) := by
  unfold dirWriteResult
  split <;> rename_i hw
  · exact dirPast_of_free (staleEnded_free (writeFields_free hr hw))
  · obtain ⟨c, -, rfl⟩ := writeFields_written hw
    exact putDirJob_past hr le_rfl hk

theorem dirFinish_past (row : Option DirKind) (j : DirJob) {s : State} (hr : s.aiu.run ≠ .faulted) :
    DirPast row 7 (dirFinish j s) := by
  unfold dirFinish
  split <;> rename_i hw
  · exact dirPast_of_free (writeFields_free hr hw)
  · exact (sweepAndGrant_ended ((setCause_keeps (.refl _)).free (releaseEngine_free _ _))).dirPast row
      (Nat.succ_pos _)

theorem DirStage.all_rank (st : DirStage) : DirStage.all[st.rank]? = some st := by cases st <;> rfl

theorem DirStage.rank_inj {a b : DirStage} (h : a.rank = b.rank) : a = b :=
  Option.some.inj ((all_rank a).symm.trans (h ▸ all_rank b))

/-- The stages run up to a stage: a first part of the order, in order. -/
theorem DirStage.upTo_eq (u : DirStage) :
    DirStage.all.filter (fun st => st.rank ≤ u.rank) = DirStage.all.take (u.rank + 1)
      ∧ (DirStage.all.take (u.rank + 1)).map DirStage.rank = List.range' 0 (u.rank + 1) := by
  cases u <;> exact ⟨rfl, rfl⟩

/-- A stage of the directive carries the place and the row along. -/
theorem dirStage_past {b : DirBody} (hb : b.Keeps) (row : Option DirKind) (s : State) (st : DirStage)
    (hs : DirPast row st.rank s) : DirPast row (st.rank + 1) (dirStage b s st) := by
  by_cases hn : ∀ j, s.ce.engine = .directive j → j.next ≠ st
  · rw [dirStage_skip b s st hn]
    refine ⟨hs.1, fun j e => (hs.2 j e).imp (fun ⟨hle, ha⟩ => ⟨?_, ha⟩) fun ⟨h, _⟩ => ⟨h, Nat.succ_pos _⟩⟩
    exact Nat.lt_of_le_of_ne hle fun hrk => hn j e (DirStage.rank_inj hrk.symm)
  · push Not at hn
    obtain ⟨j, he, rfl⟩ := hn
    have hr := hs.1.run (by rw [he]; nofun)
    have ha : dirRowApplies row j s = true := by
      rcases hs.2 j he with h | ⟨h, hp⟩
      · exact h.2
      · rw [h] at hp
        cases hp
    unfold dirStage
    rw [he]
    simp only [if_true]
    split <;> rename_i hst <;> rw [hst]
    · exact dirTake_past hr hst ha
    · exact dirReadKind_past hr hst ha
    all_goals simp only [dirRowApplies, hst] at ha
    · exact dirReadPayload_past hr ha
    · exact dirPrepare_past hb hr he ha
    · exact dirEffect_past hb hr he ha
    · exact dirWriteResult_past hr ha
    · exact dirFinish_past row j hr

/-- A row that is not the job's changes nothing. -/
theorem runDirective_cases (row : Option DirKind) (b : DirBody) (s : State) :
    (∀ u, runDirective row b u s = s)
      ∨ (∃ j, s.ce.engine = .directive j ∧ dirRowApplies row j s = true)
        ∧ ∀ u, runDirective row b u s = (DirStage.all.take (u.rank + 1)).foldl (dirStage b) s := by
  unfold runDirective
  split
  · rename_i j he
    by_cases ha : dirRowApplies row j s = true
    · exact .inr ⟨⟨j, he, ha⟩, fun u => by rw [if_pos ha, (DirStage.upTo_eq u).1]⟩
    · exact .inl fun u => if_neg ha
  all_goals exact .inl fun _ => rfl

theorem runDirective_paused {b : DirBody} (hb : b.Keeps) (s : State) (row : Option DirKind) (u v : DirStage)
    (j : DirJob) (hs : FaultLaw s) (huv : u.rank ≤ v.rank)
    (he : (runDirective row b u s).ce.engine = .directive j) (hj : j.next ≠ .take) :
    runDirective row b v (runDirective row b u s) = runDirective row b v s := by
  rcases runDirective_cases row b s with h | ⟨⟨j0, h0, ha⟩, h⟩
  · rw [h u]
  · rw [h u] at he ⊢
    rw [h v]
    have hL := (DirStage.upTo_eq u).2
    have hs0 : DirPast row 0 s := ⟨hs.freeInFault, fun j e => by
      cases h0.symm.trans e
      exact .inl ⟨Nat.zero_le _, ha⟩⟩
    obtain ⟨hle, ha'⟩ := ((foldl_reached (dirStage_past hb row) hL hs0).2 j he).resolve_right fun h => hj h.1
    rw [runDirective, he]
    simp only [ha', if_true]
    rw [(DirStage.upTo_eq v).1]
    refine foldl_paused hL (by omega) fun st hst => dirStage_skip b _ st ?_
    intro j' e hn
    cases he.symm.trans e
    rw [hn] at hle
    omega

/-- Settles O30: the stages run before a pause are past, so running on is running through. -/
theorem pausesChangeNothing : Obligations.PausesChangeNothing := by
  unfold Obligations.PausesChangeNothing
  refine ⟨fun s m u v h k j hs huv hm he hj => ?_, fun s m u v h k j hs huv hm he => ?_,
    fun s m row u v j hs huv hm he hj => ?_⟩
  · cases hm
    exact congrArg Host.Outcome.next (runTake_paused s u v h k j hs huv he hj)
  · cases hm
    exact congrArg Host.Outcome.next (runCard_paused s u v h k j hs huv he)
  · rw [exec_directiveRow] at hm
    cases hm
    rw [exec_directiveRow, exec_directiveRow]
    exact congrArg Host.Outcome.next (runDirective_paused (kindBody_keeps row) s row u v j hs huv he hj)

end Sys2Proof.Machine

/-! A card at the intake with no failing access (R13 to R20): the stages of the take one by one, and the writing of a
card's ending. -/

namespace Sys2Proof.Machine

/-! ## Reads of a card -/

/-- The request group of a card is answered when the area is (R14). -/
theorem cardSpans_answered {s : State} (hc : Clear s) (h : Head) (k : Fin 8) :
    ∀ p ∈ cardSpans, s.bus.answers (cardAddr s h k + p.1) p.2 = true := by
  obtain ⟨h1, h2⟩ := cardAddr_range h k s
  have hp : ∀ p ∈ cardSpans, p.1 + p.2 ≤ 0x14 := by decide
  exact fun p h => Bus.answers_sub hc.2 (by omega) (by have := hp p h; omega)

/-- The status block and the headers lie outside the card tables. -/
theorem releaseBytes_off_card {s : State} (h : Head) (k : Fin 8) {a : Nat} (ha : ReleaseBytes s a) :
    a < cardAddr s h k ∨ cardAddr s h k + 0x100 ≤ a := by
  obtain ⟨h1, h2⟩ := cardAddr_range h k s
  rcases releaseBytes_front a ha with ha | ha | ha <;>
    simp only [StatusBytes, HeaderBytes, Bytes, Config.bankHeader] at ha <;> omega

/-! ## Records of a card -/

/-- A record's fields, at its address, read as their values. -/
def Reads (m : Memory) (a : Nat) (fs : List Field) : Prop :=
  ∀ f ∈ fs, m.readLE (a + f.off) f.size = f.val % 256 ^ f.size

theorem reads_nil (m : Memory) (a : Nat) : Reads m a [] := List.forall_mem_nil _

theorem reads_cons (m : Memory) (a : Nat) (f : Field) (fs : List Field) :
    Reads m a (f :: fs) ↔ m.readLE (a + f.off) f.size = f.val % 256 ^ f.size ∧ Reads m a fs :=
  List.forall_mem_cons

theorem reads_append (m : Memory) (a : Nat) (fs gs : List Field) :
    Reads m a (fs ++ gs) ↔ Reads m a fs ∧ Reads m a gs := List.forall_mem_append

/-- The bytes of a record's fields at its address. -/
def FieldBytes (addr : Nat) (fs : List Field) (a : Nat) : Prop := ∃ f ∈ fs, Bytes (addr + f.off) f.size a

theorem fieldBytes_nil (addr a : Nat) : ¬ FieldBytes addr [] a := by
  rintro ⟨f, hf, -⟩
  cases hf

theorem fieldBytes_cons (addr : Nat) (f : Field) (fs : List Field) (a : Nat) :
    FieldBytes addr (f :: fs) a ↔ Bytes (addr + f.off) f.size a ∨ FieldBytes addr fs a := by
  simp only [FieldBytes, List.mem_cons, or_and_right, exists_or, exists_eq_left]

/-- A record reads as before when none of its bytes is written. -/
theorem Reads.of_within {P : Nat → Prop} {b c : Bus} {addr : Nat} {fs : List Field} (h : Reads b.mem addr fs)
    (hw : b.Within P c) (hd : ∀ a, FieldBytes addr fs a → ¬ P a) : Reads c.mem addr fs := fun f hf =>
  (hw.readLE fun a h1 h2 => hd a ⟨f, hf, h1, h2⟩).trans (h f hf)

/-- Fields of a card that share no byte are written, and read as their values. -/
theorem writeRecord_clear (kind : FaultKind) (h : Head) (k : Fin 8) (fs : List Field) (s : State) (hc : Clear s)
    (hb : ∀ f ∈ fs, f.off + f.size ≤ 0x100)
    (hd : fs.Pairwise fun f g => f.off + f.size ≤ g.off ∨ g.off + g.size ≤ f.off) :
    ∃ b, writeFields kind (placed (cardAddr s h k) fs) s = (true, s.onBus b)
      ∧ s.bus.Within (FieldBytes (cardAddr s h k) fs) b ∧ Reads b.mem (cardAddr s h k) fs := by
  obtain ⟨h1, h2⟩ := cardAddr_range h k s
  obtain ⟨b, he, hw, hv⟩ := writeFields_clear kind (placed (cardAddr s h k) fs) s hc.1 fun f hf => by
    obtain ⟨g, hg, rfl⟩ := List.mem_map.1 hf
    have := hb g hg
    exact Bus.answers_sub hc.2 (by dsimp only; omega) (by dsimp only; omega)
  refine ⟨b, he, hw.mono fun a ⟨f, hf, ha⟩ => ?_,
    fun f hf => hv (placed_disjoint _ _ hd) _ (List.mem_map_of_mem hf)⟩
  obtain ⟨g, hg, rfl⟩ := List.mem_map.1 hf
  exact ⟨g, hg, ha⟩

/-- A card's fields stand while status bytes and headers are written. -/
theorem Reads.of_release {s : State} {b c : Bus} {h : Head} {k : Fin 8} {fs : List Field}
    (hr : Reads b.mem (cardAddr s h k) fs) (hw : b.Within (ReleaseBytes s) c)
    (hb : ∀ f ∈ fs, f.off + f.size ≤ 0x100) : Reads c.mem (cardAddr s h k) fs :=
  hr.of_within hw fun a ⟨f, hf, h1, h2⟩ ha => by
    have := hb f hf
    rcases releaseBytes_off_card h k ha with ha | ha <;> omega

/-! ## The engine falling free -/

/-- A job that ends with no ending, then a sweep and a grant (R14, R28). -/
theorem fallFree_swept (e : Option (JobEnding × JobKind)) (s : State) (hc : Clear s) :
    ∃ b, s.bus.Within (ReleaseBytes s) b ∧ SweptTo ((releasedState e s).onBus b) (fallFree e s) := by
  obtain ⟨b, hw, he⟩ := (releaseEngine_shown e s).of_clear (s := releasedState e s) hc
  refine ⟨b, hw, ?_⟩
  unfold fallFree
  rw [he]
  exact sweepAndGrant_swept _ (Clear.of_within (s := s) hc hw rfl)

/-! ## The take stage by stage -/

/-- The work of a stage of the take (R13). -/
def takeWork (h : Head) (k : Fin 8) (j : TakeJob) (s : State) : TakeStage → State
  | .reread => takeReread h k j s
  | .writeTaken => takeWriteTaken h k j s
  | .checks => takeChecks h k j s
  | .lastTaken => takeLastTaken h k j s
  | .finish => takeFinish h k j s

/-- The stage that the take runs next does its work. -/
theorem takeStage_work {s : State} {h : Head} {k : Fin 8} {j : TakeJob} {st : TakeStage}
    (he : s.ce.engine = .take h k j) (hn : j.next = st) : takeStage s st = takeWork h k j s st := by
  unfold takeStage
  rw [he]
  simp only [hn, if_true]
  cases st <;> rfl

/-- A take in hand whose card's frame is the pending query (R14, R123). -/
def takenUp (h : Head) (k : Fin 8) (j : TakeJob) (frame : Nat) (s : State) : State :=
  putTake h k j { s with lbu := { s.lbu with pendingQuery := some frame } }

/-- The re-read with no failing access finds the card READY and not held, or the take lapses (R14). -/
theorem takeReread_clear (h : Head) (k : Fin 8) (j : TakeJob) (s : State) (hc : Clear s) :
    ∃ b, s.bus.Within (fun _ => False) b
      ∧ if s.bus.mem.readLE (cardAddr s h k) 4 = Config.cardReady
            ∧ s.bus.mem.readLE (cardAddr s h k + 8) 4 ≤ s.aiu.frameCount then
          takeReread h k j s
            = (takenUp h k
                { j with next := .writeTaken, req := cardRequest (s.bus.mem.readLE (cardAddr s h k) 0x14) }
                (s.bus.mem.readLE (cardAddr s h k + 8) 4) s).onBus b
        else takeReread h k j s = fallFree none (s.onBus b) := by
  obtain ⟨b, hw, hr⟩ := readSpans_clear s (cardAddr s h k) cardSpans hc.1 (cardSpans_answered hc h k)
  obtain ⟨h1, h2, h3⟩ := cardRequest_spans s (cardAddr s h k)
  refine ⟨b, hw, ?_⟩
  unfold takeReread
  rw [hr]
  simp only [h1, h2, h3, onBus_aiu]
  split <;> rfl

/-- A take that lapses at its re-read, run up to any stage. -/
theorem runTake_lapsed (s : State) (h : Head) (k : Fin 8) (u : TakeStage)
    (he : s.ce.engine = .take h k TakeJob.start) (hc : Clear s)
    (hl : ¬ (s.bus.mem.readLE (cardAddr s h k) 4 = Config.cardReady
      ∧ s.bus.mem.readLE (cardAddr s h k + 8) 4 ≤ s.aiu.frameCount)) :
    ∃ b, s.bus.Within (fun _ => False) b ∧ runTake u s = fallFree none (s.onBus b) := by
  obtain ⟨b, hw, hr⟩ := takeReread_clear h k TakeJob.start s hc
  rw [if_neg hl] at hr
  refine ⟨b, hw, ?_⟩
  have hfirst : takeStage s .reread = fallFree none (s.onBus b) := (takeStage_work he rfl).trans hr
  unfold runTake
  rw [(TakeStage.upTo_eq u).1, TakeStage.all, List.take_succ_cons, List.foldl_cons, hfirst]
  refine foldl_skip fun st hst => takeStage_skip _ st fun hd i j' e hn => ?_
  have hst : st ≠ .reread := fun e => absurd (List.mem_of_mem_take (e ▸ hst)) (by decide)
  rcases (fallFree_ended none (s.onBus b)).engine with e' | ⟨_, _, e'⟩ | e' | ⟨_, e'⟩ <;> cases e'.symm.trans e
  exact hst hn.symm

/-- Settles O23: the re-read lets the engine fall free, and no later stage finds the take it would go on with. -/
theorem takeLapses : Obligations.TakeLapses := by
  unfold Obligations.TakeLapses
  intro s h k u he hc hl
  obtain ⟨b, hw, hr⟩ := runTake_lapsed s h k u he hc (by simp only [Config.cardReady]; omega)
  obtain ⟨c, hw', hs⟩ := fallFree_swept none (s.onBus b) (hc.of_within hw rfl)
  exact ⟨c, _, (hw.mono fun _ => False.elim).trans hw', congrArg Host.Outcome.next hr, hs⟩

/-- TAKEN is written and nothing else (R15). -/
theorem takeWriteTaken_clear (h : Head) (k : Fin 8) (j : TakeJob) (s : State) (hc : Clear s) :
    ∃ b, s.bus.Within (Bytes (cardAddr s h k) 4) b ∧ Reads b.mem (cardAddr s h k) [⟨0, 4, 2⟩]
      ∧ takeWriteTaken h k j s = (putTake h k { j with next := .checks } s).onBus b := by
  obtain ⟨b, he, hw, hr⟩ := writeRecord_clear .cardWrite h k [⟨0, 4, 2⟩] s hc (by decide)
    (List.pairwise_singleton _ _)
  refine ⟨b, hw.mono fun a ha => ((fieldBytes_cons _ _ _ a).1 ha).resolve_right (fieldBytes_nil _ a), hr, ?_⟩
  unfold takeWriteTaken
  rw [show writeFields .cardWrite [⟨cardAddr s h k, 4, Config.cardTaken⟩] s = _ from he]
  rfl

/-- A READY card not above the frame count, up to the checks: TAKEN is written, its frame is the pending query, and
the checks have given their verdict (R14 to R16, R123). -/
theorem runTake_checked (s : State) (h : Head) (k : Fin 8) (req : CardRequest)
    (he : s.ce.engine = .take h k TakeJob.start) (hc : Clear s)
    (hr : s.bus.mem.readLE (cardAddr s h k) 4 = 1)
    (hq : req = cardRequest (s.bus.mem.readLE (cardAddr s h k) 0x14)) (hf : req.frame ≤ s.aiu.frameCount) :
    ∃ b, s.bus.Within (Bytes (cardAddr s h k) 4) b ∧ Reads b.mem (cardAddr s h k) [⟨0, 4, 2⟩]
      ∧ runTake .checks s = (takenUp h k
          { next := .lastTaken, req := req, lastBefore := none,
            failed := intakeCheck h s.aiu.frameCount (s.ciu.lastTaken.get h) req } req.frame s).onBus b := by
  have hfr : s.bus.mem.readLE (cardAddr s h k + 8) 4 = req.frame := by
    rw [hq]
    exact (field_readLE _ _ _ _ _ (by decide)).symm
  obtain ⟨b, hw, hg⟩ := takeReread_clear h k TakeJob.start s hc
  rw [if_pos ⟨hr, hfr ▸ hf⟩, hfr, ← hq] at hg
  obtain ⟨c, hw', h2, hx⟩ := takeWriteTaken_clear h k ⟨.writeTaken, req, none, none⟩
    ((takenUp h k ⟨.writeTaken, req, none, none⟩ req.frame s).onBus b) (Clear.of_within (s := s) hc hw rfl)
  refine ⟨c, (hw.mono fun _ => False.elim).trans hw', h2, ?_⟩
  have e1 := (takeStage_work (st := .reread) he rfl).trans hg
  have e2 := (takeStage_work (st := .writeTaken) rfl rfl).trans hx
  show takeStage (takeStage (takeStage s .reread) .writeTaken) .checks = _
  rw [e1]
  refine (congrArg (takeStage · .checks) e2).trans ?_
  exact takeStage_work (h := h) (k := k) (j := ⟨.checks, req, none, none⟩) rfl rfl

/-- The last-taken frame rises at every take but a MALFORMED one (R17); its value before is kept (R18). -/
theorem takeLastTaken_clear (h : Head) (k : Fin 8) (j : TakeJob) (s : State) (hc : Clear s) :
    ∃ b, s.bus.Within (StatusBytes s) b
      ∧ takeLastTaken h k j s
        = (putTake h k { j with next := .finish, lastBefore := s.ciu.lastTaken.get h }
            (if j.failed = some .malformed then s else takenFrames h j.req.frame s)).onBus b := by
  unfold takeLastTaken
  dsimp only
  split
  · exact ⟨s.bus, Bus.Within.refl _ _, (onBus_self _).symm⟩
  · exact (rewrite_from [.ciu] s (putTake h k { j with next := .finish, lastBefore := _ }
      (takenFrames h j.req.frame s)) rfl).of_clear hc

end Sys2Proof.Machine

/-! O24 and O25: a card that passes intake is handed to the engine, and one that fails a check is ended (R16 to
R20). -/

namespace Sys2Proof.Machine

/-- The state of a READY card's take at its last stage. -/
def atFinish (h : Head) (k : Fin 8) (req : CardRequest) (failed : Option Ending) (s : State) : State :=
  takenUp h k { next := .finish, req := req, failed := failed, lastBefore := s.ciu.lastTaken.get h } req.frame
    (if failed = some .malformed then s else takenFrames h req.frame s)

/-- A READY card not above the frame count, up to its last stage (R14 to R17). -/
theorem runTake_finish (s : State) (h : Head) (k : Fin 8) (req : CardRequest)
    (he : s.ce.engine = .take h k TakeJob.start) (hc : Clear s)
    (hr : s.bus.mem.readLE (cardAddr s h k) 4 = 1)
    (hq : req = cardRequest (s.bus.mem.readLE (cardAddr s h k) 0x14)) (hf : req.frame ≤ s.aiu.frameCount)
    {failed : Option Ending} (hv : intakeCheck h s.aiu.frameCount (s.ciu.lastTaken.get h) req = failed) :
    ∃ b, s.bus.Within (fun a => StatusBytes s a ∨ Bytes (cardAddr s h k) 4 a) b
      ∧ Reads b.mem (cardAddr s h k) [⟨0, 4, 2⟩]
      ∧ runTake .finish s
        = takeFinish h k ⟨.finish, req, failed, s.ciu.lastTaken.get h⟩ ((atFinish h k req failed s).onBus b) := by
  obtain ⟨b, hw, h2, hx⟩ := runTake_checked s h k req he hc hr hq hf
  rw [hv] at hx
  obtain ⟨c, hw', hy⟩ := takeLastTaken_clear h k ⟨.lastTaken, req, failed, none⟩
    ((takenUp h k ⟨.lastTaken, req, failed, none⟩ req.frame s).onBus b) (Clear.of_within (s := s) hc hw rfl)
  have e : takeStage (runTake .checks s) .lastTaken = (atFinish h k req failed s).onBus c := by
    rw [hx]
    refine ((takeStage_work (st := .lastTaken) rfl rfl).trans hy).trans ?_
    unfold atFinish
    split <;> rfl
  refine ⟨c, (hw.mono fun _ => .inr).trans (hw'.mono fun _ => .inl),
    h2.of_release (hw'.mono fun _ => .inl) (by decide), ?_⟩
  · show takeStage (takeStage (runTake .checks s) .lastTaken) .finish = _
    rw [e]
    exact takeStage_work (st := .finish) rfl rfl

/-! ## A card that passes -/

theorem intakeCheck_none {h : Head} {count : Nat} {last : Option Nat} {req : CardRequest} (h1 : 1 ≤ req.tileCount)
    (h2 : req.tileCount ≤ 256) (h3 : req.head = h.toNat) (h4 : count ≤ req.frame + 8)
    (h5 : ∀ l, last = some l → l < req.frame) : intakeCheck h count last req = none := by
  unfold intakeCheck
  rw [if_neg (by omega), if_neg (by omega)]
  split
  · exact if_neg (Nat.not_le.2 (h5 _ rfl))
  · rfl

theorem raisedFrame_of_lt {last : Option Nat} {frame : Nat} (h : ∀ l, last = some l → l < frame) :
    raisedFrame last frame = frame := by
  cases last with
  | none => rfl
  | some l => exact max_eq_right (h l rfl).le

/-- The CUT actions and the hand-over, with no failing access (R13, R19, R23). -/
theorem takeFinish_passed (h : Head) (k : Fin 8) (j : TakeJob) (s : State) (he : s.ce.engine = .take h k j)
    (hf : j.failed = none) (hc : Clear s) :
    ∃ b, s.bus.Within (StatusBytes s) b
      ∧ takeFinish h k j s
        = (cutState j.req.cut
            { s with ce := { s.ce with
                engine := .card h k (CardJob.start j.req j.lastBefore) } }).onBus b := by
  obtain ⟨b, hw, ht⟩ := (cutActions_shown j.req.cut s).of_clear (s := cutState j.req.cut s) hc
  have hh : holdsTake (cutActions j.req.cut s).ce.engine = true := by
    rw [ht]
    exact (congrArg holdsTake he).trans rfl
  obtain ⟨c, hw', hx⟩ := (rewrite_from [.ce] ((cutState j.req.cut s).onBus b)
    ((cutState j.req.cut { s with ce := { s.ce with
        engine := .card h k (CardJob.start j.req j.lastBefore) } }).onBus b) rfl).of_clear
    (Clear.of_within (s := s) hc hw rfl)
  refine ⟨c, hw.trans hw', ?_⟩
  unfold takeFinish
  simp only [hf, hh, if_true]
  rw [ht]
  exact hx

/-- Settles O24: stage by stage with no failing access; the status bytes written after TAKEN lie off the card. -/
theorem takePassesACard : Obligations.TakePassesACard := by
  unfold Obligations.TakePassesACard
  intro s h k req he hc hr hq hf h1 h2 h3 h4 h5
  have ha : atFinish h k req none s = takenUp h k ⟨.finish, req, none, s.ciu.lastTaken.get h⟩ req.frame
      (putLastTaken h (some req.frame) s) := by
    unfold atFinish takenFrames
    rw [if_neg nofun, raisedFrame_of_lt h5]
  obtain ⟨b, hw, hb, hx⟩ := runTake_finish s h k req he hc hr hq hf (intakeCheck_none h1 h2 h3 h4 h5)
  rw [ha] at hx
  obtain ⟨c, hw', hy⟩ := takeFinish_passed h k ⟨.finish, req, none, s.ciu.lastTaken.get h⟩
    ((takenUp h k _ req.frame (putLastTaken h (some req.frame) s)).onBus b) rfl rfl
    (Clear.of_within (s := s) hc hw rfl)
  have hb := hb.of_release (s := s) (hw'.mono fun _ => .inl) (by decide)
  exact ⟨c, hw.trans (hw'.mono fun _ => .inl), hb _ List.mem_cons_self,
    congrArg Host.Outcome.next (hx.trans hy)⟩

/-! ## A card that fails a check -/

/-- The check that decides the ending (R16). -/
theorem intakeCheck_some {h : Head} {count : Nat} {last : Option Nat} {req : CardRequest} {e : Ending}
    (hx : (req.tileCount = 0 ∨ 256 < req.tileCount ∨ req.head ≠ h.toNat) ∧ e = .malformed
      ∨ ¬ (req.tileCount = 0 ∨ 256 < req.tileCount ∨ req.head ≠ h.toNat) ∧ req.frame + 8 < count ∧ e = .late
      ∨ ¬ (req.tileCount = 0 ∨ 256 < req.tileCount ∨ req.head ≠ h.toNat) ∧ count ≤ req.frame + 8
          ∧ (∃ l, last = some l ∧ req.frame ≤ l) ∧ e = .stale) :
    intakeCheck h count last req = some e := by
  unfold intakeCheck
  rcases hx with ⟨h1, rfl⟩ | ⟨h1, h2, rfl⟩ | ⟨h1, h2, ⟨l, rfl, h3⟩, rfl⟩
  · rw [if_pos h1]
  · rw [if_neg h1, if_pos h2]
  · rw [if_neg h1, if_neg (Nat.not_lt.2 h2)]
    exact if_pos h3

theorem endedState_onBus (h : Head) (e : Ending) (n : Bool) (s : State) (b : Bus) :
    endedState h e n (s.onBus b) = (endedState h e n s).onBus b := by
  unfold endedState
  dsimp only
  split <;> rfl

/-- What every ending writes: its code, the frame count and ENDED (R4, R5). -/
def refusalRecord (count : Nat) (e : Ending) : List Field :=
  [⟨0x20, 1, endingCode e⟩, ⟨0x24, 4, count⟩, ⟨0, 4, 3⟩]

theorem refusalRecord_bytes (s : State) (h : Head) (k : Fin 8) (count : Nat) (e : Ending) (a : Nat)
    (ha : FieldBytes (cardAddr s h k) (refusalRecord count e) a) : RefusalBytes s h k a := by
  simp only [refusalRecord, fieldBytes_cons, fieldBytes_nil, or_false] at ha
  rcases ha with ha | ha | ha
  · exact .inr (.inl ha)
  · exact .inr (.inr ha)
  · exact .inl ha

/-- A card ended with no failing access: its ending code, the frame count and ENDED, and what follows (R4, R5). -/
theorem endCard_clear (h : Head) (k : Fin 8) (e : Ending) (n : Bool) (s : State) (hc : Clear s) :
    ∃ b, s.bus.Within (fun a => ReleaseBytes s a ∨ RefusalBytes s h k a) b
      ∧ Reads b.mem (cardAddr s h k) (refusalRecord s.aiu.frameCount e)
      ∧ SweptTo ((endedState h e n s).onBus b) (endCard h k e n s) := by
  have hb : ∀ f ∈ refusalRecord s.aiu.frameCount e, f.off + f.size ≤ 0x100 := by simp [refusalRecord]
  obtain ⟨b, hx, hw, hr⟩ := writeRecord_clear .cardWrite h k (refusalRecord s.aiu.frameCount e) s hc hb
    (by simp [refusalRecord])
  obtain ⟨c, hw', hs⟩ := afterEnded_swept h e n (s.onBus b) (hc.of_within hw rfl)
  refine ⟨c, (hw.mono fun a ha => .inr (refusalRecord_bytes s h k _ e a ha)).trans (hw'.mono fun _ => .inl),
    hr.of_release hw' hb, ?_⟩
  unfold endCard
  rw [show writeFields .cardWrite (endingFields s (cardAddr s h k) e ++ [endedField (cardAddr s h k)]) s = _
    from hx]
  rw [endedState_onBus] at hs
  exact hs

/-- The engine's falling free takes the pending query and the job in hand away (R28, R123), so a card ended at its
take leaves what the card's ending makes of the part before it. -/
theorem endedState_takenUp (h : Head) (k : Fin 8) (j : TakeJob) (frame : Nat) (e : Ending) (n : Bool) (s : State) :
    endedState h e n (takenUp h k j frame s) = endedState h e n s := rfl

/-- Settles O25: the take reaches its last stage with the failed check, and the card is ended. -/
theorem takeRefusesACard : Obligations.TakeRefusesACard := by
  unfold Obligations.TakeRefusesACard
  intro s h k req e he hc hr hq hf hx
  obtain ⟨b, hw, -, ht⟩ := runTake_finish s h k req he hc hr hq hf (intakeCheck_some hx)
  have hu : (if some e = some Ending.malformed then s else takenFrames h req.frame s)
      = if e = .malformed then s else takenFrames h req.frame s := by
    by_cases hm : e = .malformed <;> simp [hm]
  have hl : ∃ l, (if e = .malformed then s else takenFrames h req.frame s)
      = { s with ciu := { s.ciu with lastTaken := l } } := by
    split
    · exact ⟨_, rfl⟩
    · exact ⟨_, rfl⟩
  rw [atFinish, hu] at ht
  obtain ⟨l, hl⟩ := hl
  rw [hl] at ht ⊢
  obtain ⟨c, hw', h2, hs⟩ := endCard_clear h k e req.notify
    ((takenUp h k ⟨.finish, req, some e, s.ciu.lastTaken.get h⟩ req.frame
      { s with ciu := { s.ciu with lastTaken := l } }).onBus b) (Clear.of_within (s := s) hc hw rfl)
  rw [endedState_onBus, endedState_takenUp] at hs
  simp only [refusalRecord, reads_cons, reads_nil, and_true] at h2
  obtain ⟨hcode, hcount, hstate⟩ := h2
  refine ⟨c, _, (hw.mono fun a ha => ha.imp .inl .inl).trans hw', hstate, hcode.trans ?_, hcount,
    congrArg Host.Outcome.next ht, hs⟩
  cases e <;> rfl

end Sys2Proof.Machine

/-! O29: the last three stages of a COMPLETED card and what its result group then reads (R5, R109, 12.4). -/

namespace Sys2Proof.Machine

/-! ## The three stages -/

theorem cardStage_writeResult {s : State} {h : Head} {k : Fin 8} {j : CardJob} (he : s.ce.engine = .card h k j)
    (hn : j.next = .writeResult) : cardStage s .writeResult = cardWriteResult h k j s := by
  unfold cardStage
  simp only [he, hn, if_true]

theorem cardStage_writeEnding {s : State} {h : Head} {k : Fin 8} {j : CardJob} (he : s.ce.engine = .card h k j)
    (hn : j.next = .writeEnding) : cardStage s .writeEnding = cardWriteEnding h k j s := by
  unfold cardStage
  simp only [he, hn, if_true]

theorem cardStage_finish {s : State} {h : Head} {k : Fin 8} {j : CardJob} (he : s.ce.engine = .card h k j)
    (hn : j.next = .finish) : cardStage s .finish = cardFinish h k j s := by
  unfold cardStage
  simp only [he, hn, if_true]

/-- A card job about to write its result runs the last three stages. -/
theorem runCard_fromResult {s : State} {h : Head} {k : Fin 8} {j : CardJob} (he : s.ce.engine = .card h k j)
    (hn : j.next = .writeResult) :
    runCard .finish s = cardStage (cardStage (cardWriteResult h k j s) .writeEnding) .finish := by
  have hskip : (CardStage.all.take 10).foldl cardStage s = s := foldl_skip fun st hst =>
    cardStage_skip s st fun hd i j' e hn' => by
      cases he.symm.trans e
      exact absurd (hn'.symm.trans hn ▸ hst) (by decide)
  show [CardStage.writeResult, .writeEnding, .finish].foldl cardStage
    ((CardStage.all.take 10).foldl cardStage s) = _
  rw [hskip, List.foldl_cons, cardStage_writeResult he hn]
  rfl

/-- The result sections, written with no failing access (R109). -/
theorem cardWriteResult_clear (h : Head) (k : Fin 8) (j : CardJob) (s : State) (hc : Clear s) :
    ∃ b, s.bus.Within (FieldBytes (cardAddr s h k) (resultFields j)) b
      ∧ Reads b.mem (cardAddr s h k) (resultFields j)
      ∧ cardWriteResult h k j s = (putCard h k { j with next := .writeEnding } s).onBus b := by
  obtain ⟨b, he, hw, hr⟩ := writeRecord_clear .cardWrite h k (resultFields j) s hc
    (fun f hf => by have := resultFields_bound j f hf; omega) (resultFields_disjoint j)
  refine ⟨b, hw, hr, ?_⟩
  unfold cardWriteResult
  rw [he]
  rfl

/-- The ending code and the frame count, written with no failing access (R5). -/
theorem cardWriteEnding_clear (h : Head) (k : Fin 8) (j : CardJob) (s : State) (hc : Clear s) :
    ∃ b, s.bus.Within (FieldBytes (cardAddr s h k) [⟨0x20, 1, 1⟩, ⟨0x24, 4, s.aiu.frameCount⟩]) b
      ∧ Reads b.mem (cardAddr s h k) [⟨0x20, 1, 1⟩, ⟨0x24, 4, s.aiu.frameCount⟩]
      ∧ cardWriteEnding h k j s = (putCard h k { j with next := .finish } s).onBus b := by
  obtain ⟨b, he, hw, hr⟩ := writeRecord_clear .cardWrite h k [⟨0x20, 1, 1⟩, ⟨0x24, 4, s.aiu.frameCount⟩] s hc
    (by simp) (by simp)
  refine ⟨b, hw, hr, ?_⟩
  unfold cardWriteEnding
  rw [show writeFields .cardWrite (endingFields s (cardAddr s h k) .completed) s = _ from he]
  rfl

/-- ENDED, written with no failing access, and what follows it (R5). -/
theorem cardFinish_clear (h : Head) (k : Fin 8) (j : CardJob) (s : State) (hc : Clear s) :
    ∃ b, s.bus.Within (fun a => ReleaseBytes s a ∨ Bytes (cardAddr s h k) 4 a) b
      ∧ Reads b.mem (cardAddr s h k) [⟨0, 4, 3⟩]
      ∧ SweptTo ((endedState h .completed j.req.notify s).onBus b) (cardFinish h k j s) := by
  obtain ⟨b, he, hw, hr⟩ := writeRecord_clear .cardWrite h k [⟨0, 4, 3⟩] s hc (by decide)
    (List.pairwise_singleton _ _)
  obtain ⟨c, hw', hs⟩ := afterEnded_swept h .completed j.req.notify (s.onBus b) (hc.of_within hw rfl)
  have hw : s.bus.Within (Bytes (cardAddr s h k) 4) b := hw.mono fun a ha =>
    ((fieldBytes_cons _ _ _ a).1 ha).resolve_right (fieldBytes_nil _ a)
  refine ⟨c, (hw.mono fun _ => .inr).trans (hw'.mono fun _ => .inl), hr.of_release hw' (by decide), ?_⟩
  unfold cardFinish
  rw [show writeFields .cardWrite [endedField (cardAddr s h k)] s = _ from he]
  exact hs

/-- The fields of a result lie in the card's result group (12.4). -/
theorem resultFields_bytes (s : State) (h : Head) (k : Fin 8) (j : CardJob) (a : Nat)
    (ha : FieldBytes (cardAddr s h k) (resultFields j) a) :
    cardAddr s h k + 0x21 ≤ a ∧ a < cardAddr s h k + 0x84
      ∧ (a < cardAddr s h k + 0x24 ∨ cardAddr s h k + 0x28 ≤ a) := by
  obtain ⟨f, hf, h1, h2⟩ := ha
  obtain ⟨hlo, hhi, hgap⟩ := resultFields_bound j f hf
  omega

/-- A COMPLETED card from its result on, with no failing access: the three records stand in the card at the end, and
the ending follows (R5, R109). -/
theorem runCard_ends (s : State) (h : Head) (k : Fin 8) (j : CardJob) (he : s.ce.engine = .card h k j)
    (hn : j.next = .writeResult) (hc : Clear s) :
    ∃ b, s.bus.Within (fun a => ReleaseBytes s a ∨ CardBytes s h k a) b
      ∧ Reads b.mem (cardAddr s h k) (resultFields j)
      ∧ Reads b.mem (cardAddr s h k) [⟨0x20, 1, 1⟩, ⟨0x24, 4, s.aiu.frameCount⟩]
      ∧ Reads b.mem (cardAddr s h k) [⟨0, 4, 3⟩]
      ∧ SweptTo ((endedState h .completed j.req.notify s).onBus b) (runCard .finish s) := by
  obtain ⟨b, hw, hr, hx⟩ := cardWriteResult_clear h k j s hc
  have hcb : Clear (s.onBus b) := hc.of_within hw rfl
  obtain ⟨c, hw', hr', hy⟩ := cardWriteEnding_clear h k { j with next := .writeEnding }
    ((putCard h k { j with next := .writeEnding } s).onBus b) hcb
  obtain ⟨d, hw'', hr'', hs⟩ := cardFinish_clear h k { j with next := .finish }
    ((putCard h k { j with next := .finish } s).onBus c) (hcb.of_within (t := s.onBus c) hw' rfl)
  have hrun : runCard .finish s
      = cardFinish h k { j with next := .finish } ((putCard h k { j with next := .finish } s).onBus c) := by
    rw [runCard_fromResult he hn, hx]
    exact (congrArg (cardStage · .finish) ((cardStage_writeEnding rfl rfl).trans hy)).trans
      (cardStage_finish rfl rfl)
  have hlast (a : Nat) (ha : ReleaseBytes s a ∨ Bytes (cardAddr s h k) 4 a) :
      a < cardAddr s h k + 4 ∨ cardAddr s h k + 0x100 ≤ a := by
    rcases ha with ha | ⟨-, ha⟩
    · exact (releaseBytes_off_card h k ha).imp_left fun ha => by omega
    · exact .inl ha
  have hend (a : Nat) (ha : FieldBytes (cardAddr s h k) [⟨0x20, 1, 1⟩, ⟨0x24, 4, s.aiu.frameCount⟩] a) :
      a = cardAddr s h k + 0x20 ∨ cardAddr s h k + 0x24 ≤ a ∧ a < cardAddr s h k + 0x28 := by
    simp only [fieldBytes_cons, fieldBytes_nil, or_false, Bytes] at ha
    omega
  have hres := resultFields_bytes s h k j
  refine ⟨d, ?_, ?_, ?_, hr'', hrun ▸ hs⟩
  · have hw1 : s.bus.Within (CardBytes s h k) b := hw.mono fun a ha => .inr (by
      have := hres a ha
      unfold Bytes
      omega)
    have hw2 : b.Within (CardBytes s h k) c := hw'.mono fun a ha => .inr (by
      have := hend a ha
      unfold Bytes
      omega)
    exact ((hw1.trans hw2).mono fun _ => .inr).trans (hw''.mono fun a ha => ha.imp_right .inl)
  · have h1 : Reads c.mem (cardAddr s h k) (resultFields j) := hr.of_within hw' fun a ha ha' => by
      have := hres a ha
      have := hend a ha'
      omega
    exact h1.of_within hw'' fun a ha ha' => by
      have := hres a ha
      have := hlast a ha'
      omega
  · exact hr'.of_within hw'' fun a ha ha' => by
      have := hend a ha
      have := hlast a ha'
      omega

/-! ## The result read back (12.4) -/

/-- A two's complement field holds its signed value to its width. -/
theorem unsignedOf_mod (n : Nat) (x : Int) :
    ((unsignedOf (8 * n) x % 256 ^ n : Nat) : Int) = x % 256 ^ n := by
  have h : (2 : Int) ^ (8 * n) = 256 ^ n := by rw [pow_mul]; norm_num
  have hp : (256 : Int) ^ n ≠ 0 := by positivity
  unfold unsignedOf
  rw [h]
  push_cast
  rw [Int.toNat_of_nonneg (Int.emod_nonneg _ hp), Int.emod_emod]

section
variable {m : Memory} {a : Nat}

theorem estimate_reads {e : Estimate} (h : Reads m a (estimateFields e)) :
    m.readLE (a + 0x21) 1 = (if e.reason = .none then 1 else 2)
      ∧ m.readLE (a + 0x22) 1 = (match e.reason with | .none => 0 | .fewTiles => 1 | .noChroma => 2)
      ∧ m.readLE (a + 0x23) 1 = (if e.mired.isSome then 1 else 0)
      ∧ m.readLE (a + 0x28) 2 = e.accepted % 2 ^ 16 ∧ m.readLE (a + 0x2A) 2 = e.blueShare % 2 ^ 16
      ∧ m.readLE (a + 0x2C) 2 = e.mired.getD 0 % 2 ^ 16 := by
  simp only [estimateFields, reads_cons, reads_nil, and_true] at h
  obtain ⟨hq, hr, hp, hacc, hblue, hmired⟩ := h
  refine ⟨hq.trans ?_, hr.trans ?_, hp.trans ?_, hacc, hblue, hmired⟩
  · split <;> rfl
  · cases e.reason <;> rfl
  · cases e.mired <;> rfl

theorem context_reads {j : CardJob} (h : Reads m a (contextSection j)) :
    m.readLE (a + 0x2E) 1 = j.context.index.val ∧ m.readLE (a + 0x30) 4 = j.context.generation.toNat
      ∧ m.readLE (a + 0x34) 2 = j.context.mired % 2 ^ 16 ∧ m.readLE (a + 0x36) 2 = j.grade.headMired % 2 ^ 16 := by
  simp only [contextSection, reads_cons, reads_nil, and_true] at h
  obtain ⟨hi, hg, hm, hh⟩ := h
  refine ⟨hi.trans (Nat.mod_eq_of_lt ?_), hg.trans (Nat.mod_eq_of_lt j.context.generation.isLt), hm, hh⟩
  exact j.context.index.isLt.trans (by decide)

/-- A field of `n` bytes that holds a signed value. -/
theorem signed_reads {off n : Nat} {x : Int}
    (h : m.readLE (a + off) n = unsignedOf (8 * n) x % 256 ^ n) : (m.readLE (a + off) n : Int) = x % 256 ^ n :=
  (congrArg Nat.cast h).trans (unsignedOf_mod n x)

theorem gain_reads {g : Grade} (h : Reads m a (gainFields g)) :
    (m.readLE (a + 0x38) 2 : Int) = g.redGain % 256 ^ 2 ∧ (m.readLE (a + 0x3A) 2 : Int) = g.blueGain % 256 ^ 2 := by
  simp only [gainFields, reads_cons, reads_nil, and_true] at h
  exact ⟨signed_reads h.1, signed_reads h.2⟩

theorem row_reads {off : Nat} {r : Row3} (h : Reads m a (rowFieldsAt off r)) :
    (m.readLE (a + off) 4 : Int) = r.c0 % 256 ^ 4 ∧ (m.readLE (a + (off + 4)) 4 : Int) = r.c1 % 256 ^ 4
      ∧ (m.readLE (a + (off + 8)) 4 : Int) = r.c2 % 256 ^ 4 := by
  simp only [rowFieldsAt, reads_cons, reads_nil, and_true] at h
  obtain ⟨h0, h1, h2⟩ := h
  exact ⟨signed_reads h0, signed_reads h1, signed_reads h2⟩

theorem tail_reads {j : CardJob} (h : Reads m a (tailFields j)) :
    m.readLE (a + 0x3C) 2 = j.grade.saturation % 2 ^ 16
      ∧ m.readLE (a + 0x2F) 1 = (match j.bank with | none => 0xFF | some .i0 => 0 | some .i1 => 1)
      ∧ m.readLE (a + 0x3E) 1 = j.marks % 2 ^ 8 := by
  simp only [tailFields, reads_cons, reads_nil, and_true] at h
  obtain ⟨hs, hb, hm⟩ := h
  refine ⟨hs, hb.trans ?_, hm⟩
  rcases j.bank with _ | _ | _ <;> rfl

theorem pod_reads_none (h : Reads m a (podFields none)) :
    m.readLE (a + 0x3F) 1 = 0 ∧ m.readLE (a + 0x64) 2 = 0 ∧ m.readLE (a + 0x66) 2 = 0
      ∧ m.readLE (a + 0x68) 1 = 0 := by
  simp only [podFields, reads_cons, reads_nil, and_true] at h
  exact h

theorem pod_reads_some {p : PodSnapshot} (h : Reads m a (podFields (some p))) :
    m.readLE (a + 0x3F) 1 = 1 + (if p.quit then 2 else 0) + (if p.dim then 4 else 0)
      ∧ m.readLE (a + 0x64) 2 = p.mired % 2 ^ 16 ∧ m.readLE (a + 0x66) 2 = p.lux % 2 ^ 16
      ∧ m.readLE (a + 0x68) 1 = p.age % 2 ^ 8 := by
  simp only [podFields, reads_cons, reads_nil, and_true] at h
  obtain ⟨hf, hm, hl, ha⟩ := h
  refine ⟨hf.trans ?_, hm, hl, ha⟩
  obtain ⟨_, _, _, quit, dim⟩ := p
  cases quit <;> cases dim <;> rfl

theorem monitor_reads {n : MonitorSnapshot} (h : Reads m a (monitorFields n)) :
    m.readLE (a + 0x69) 1 = (if n.frozen then 1 else 0) ∧ m.readLE (a + 0x6A) 2 = 0
      ∧ ∀ i : Fin 4, m.readLE (a + (0x6C + 6 * i.val)) 6 = n.values.get i % 2 ^ 48 := by
  simp only [monitorFields, reads_cons, reads_nil, and_true] at h
  obtain ⟨hf, hz, h0, h1, h2, h3⟩ := h
  refine ⟨hf.trans ?_, hz, fun i => ?_⟩
  · cases n.frozen <;> rfl
  · match i with
    | 0 => exact h0
    | 1 => exact h1
    | 2 => exact h2
    | 3 => exact h3

end

/-- Settles O29: the three records stand in the card when its state reads ENDED, and each section of the result reads
back. -/
theorem cardJobWritesItsResult : Obligations.CardJobWritesItsResult := by
  unfold Obligations.CardJobWritesItsResult
  intro s h k j he hn hc
  obtain ⟨b, hw, hres, hend, hstate, hs⟩ := runCard_ends s h k j he hn hc
  simp only [resultFields, matrixFields, reads_append] at hres
  obtain ⟨⟨⟨⟨⟨⟨hest, hctx⟩, hgain⟩, ⟨hrow0, hrow1⟩, hrow2⟩, htail⟩, hpod⟩, hmon⟩ := hres
  simp only [reads_cons, reads_nil, and_true] at hend
  obtain ⟨hcode, hcount⟩ := hend
  obtain ⟨hred, hblue⟩ := gain_reads hgain
  obtain ⟨hsat, hbank, hmarks⟩ := tail_reads htail
  exact ⟨b, _, hw, ⟨estimate_reads hest, context_reads hctx, hred, hblue, row_reads hrow0, row_reads hrow1,
      row_reads hrow2, hsat, hbank, hmarks, fun hp => pod_reads_none (hp ▸ hpod),
      fun p hp => pod_reads_some (hp ▸ hpod), monitor_reads hmon⟩,
    hstate _ List.mem_cons_self, hcode, hcount, rfl, hs⟩

end Sys2Proof.Machine

/-! O26 and O27: the card job from its calibration check to its estimate, with no planned failure (R29 to R31, R47, R53,
R54). -/

namespace Sys2Proof.Machine

/-! ## Reads of a tile list -/

theorem Bus.succeeds_of_noPlan {b : Bus} (h : b.failPlan = []) (a n : Nat) : b.succeeds a n = b.answers a n := by
  simp [Bus.succeeds, h]

/-- A read that memory answers and no plan fails. -/
theorem busRead_succeeds {s : State} {a n : Nat} (h : s.bus.succeeds a n = true) :
    busRead s a n = (some (s.bus.mem.readLE a n), s.onBus s.bus.spend) := by
  rw [busRead, if_pos h, spendAccess_eq]

theorem busRead_fails {s : State} {a n : Nat} (h : s.bus.succeeds a n = false) :
    busRead s a n = (none, s.onBus s.bus.spend) := by
  rw [busRead, if_neg (by simp [h]), spendAccess_eq]

theorem listAnswers_succ (s : State) (addr size n : Nat) :
    ListAnswers s addr size (n + 1)
      ↔ s.bus.answers addr size = true ∧ ListAnswers s (addr + size) size n := by
  have hi : ∀ i, addr + size * (i + 1) = addr + size + size * i := fun i => by ring
  unfold ListAnswers
  constructor
  · exact fun h => ⟨h 0 n.succ_pos, fun i hn => hi i ▸ h (i + 1) (Nat.succ_lt_succ hn)⟩
  · rintro ⟨h0, h⟩ (_ | i) hn
    · exact h0
    · exact (hi i).symm ▸ h i (Nat.lt_of_succ_lt_succ hn)

theorem tilesAt_succ (s : State) (addr n : Nat) :
    tilesAt s addr (n + 1) = tileRecord (s.bus.mem.readLE addr 16) :: tilesAt s (addr + 16) n := by
  have hi : ∀ i, addr + 16 * (i + 1) = addr + 16 + 16 * i := fun i => by ring
  simp only [tilesAt, List.range_succ_eq_map, List.map_cons, List.map_map, Function.comp_def, hi,
    Nat.mul_zero, Nat.add_zero]

/-- The tile pass with no planned failure: when memory answers at every tile, each is summed and tallied in turn
(R30, R47); else the pass fails. -/
theorem tilePass_clear (f : FilterSettings) (c : Quad Counter) (n addr : Nat) (a : Accumulators) (ts : Quad Nat)
    (s : State) (hp : s.bus.failPlan = []) :
    ∃ b, s.bus.Within (fun _ => False) b
      ∧ (ListAnswers s addr 16 n → tilePass f c n addr a ts s
          = (some ((tilesAt s addr n).foldl (addTile f) a, (tilesAt s addr n).foldl (addTallies c) ts), s.onBus b))
      ∧ (¬ ListAnswers s addr 16 n → tilePass f c n addr a ts s = (none, s.onBus b)) := by
  induction n generalizing addr a ts s with
  | zero =>
    exact ⟨s.bus, Bus.Within.refl _ _, fun _ => rfl, fun h => absurd (fun i hi => absurd hi i.not_lt_zero) h⟩
  | succ n ih =>
    have hw : s.bus.Within (fun _ => False) s.bus.spend := Bus.Within.spend _ _
    rw [listAnswers_succ]
    unfold tilePass
    by_cases h : s.bus.answers addr 16 = true
    · obtain ⟨b, hb, hall, hnone⟩ := ih (addr + 16) (addTile f a (tileRecord (s.bus.mem.readLE addr 16)))
        (addTallies c ts (tileRecord (s.bus.mem.readLE addr 16))) (s.onBus s.bus.spend) (hw.2.1 hp)
      rw [busRead_succeeds (Bus.succeeds_of_noPlan hp _ _ ▸ h), tilesAt_succ]
      exact ⟨b, hw.trans hb, fun ⟨_, hl⟩ => hall hl, fun hl => hnone fun hl' => hl ⟨h, hl'⟩⟩
    · rw [busRead_fails (by simpa [Bus.succeeds_of_noPlan hp] using h)]
      exact ⟨s.bus.spend, hw, fun hl => absurd hl.1 h, fun _ => rfl⟩

/-! ## Running the stages -/

/-- The work of a stage of the card job (R33). -/
def cardWork (h : Head) (k : Fin 8) (j : CardJob) (s : State) : CardStage → State
  | .calibration => cardCalibration h k j s
  | .tilePass => cardTilePass h k j s
  | .estimate => cardEstimate h k j s
  | .contextRead => cardContextRead h k j s
  | .grade => cardGrade h k j s
  | .bankQuery => cardBankQuery h k j s
  | .marks => cardMarks h k j s
  | .podSnapshot => cardPodSnapshot h k j s
  | .monitorEvents => cardMonitorEvents h k j s
  | .monitorSnapshot => cardMonitorSnapshot h k j s
  | .writeResult => cardWriteResult h k j s
  | .writeEnding => cardWriteEnding h k j s
  | .finish => cardFinish h k j s

/-- The stage that the card job runs next does its work. -/
theorem cardStage_work {s : State} {h : Head} {k : Fin 8} {j : CardJob} {st : CardStage}
    (he : s.ce.engine = .card h k j) (hn : j.next = st) : cardStage s st = cardWork h k j s st := by
  unfold cardStage
  rw [he]
  simp only [hn, if_true]
  cases st <;> rfl

theorem CardStage.not_mem_take (st : CardStage) : st ∉ CardStage.all.take st.rank := by cases st <;> decide

/-- A card job in hand runs the stages from its next one on. -/
theorem runCard_from {s : State} {h : Head} {k : Fin 8} {j : CardJob} {st : CardStage}
    (he : s.ce.engine = .card h k j) (hn : j.next = st) (u : CardStage) :
    runCard u s = ((CardStage.all.take (u.rank + 1)).drop st.rank).foldl cardStage s := by
  have hskip : ((CardStage.all.take (u.rank + 1)).take st.rank).foldl cardStage s = s :=
    foldl_skip fun st' hst => cardStage_skip s st' fun hd i j' e hn' => by
      cases he.symm.trans e
      rw [List.take_take, Nat.min_comm, ← List.take_take, ← hn', hn] at hst
      exact CardStage.not_mem_take st (List.mem_of_mem_take hst)
  conv_lhs => rw [runCard, (CardStage.upTo_eq u).1, ← List.take_append_drop st.rank (CardStage.all.take _),
    List.foldl_append, hskip]

/-- One stage of a run, and the stages after it. -/
theorem foldl_cardStage {s t : State} {h : Head} {k : Fin 8} {j : CardJob} {st : CardStage} {l : List CardStage}
    (he : s.ce.engine = .card h k j) (hn : j.next = st) (hw : cardWork h k j s st = t) :
    (st :: l).foldl cardStage s = l.foldl cardStage t := by
  rw [List.foldl_cons, cardStage_work he hn, hw]

/-! ## A card that ends before its estimate -/

theorem afterGrant_not_card {s : State} (he : s.ce.engine = .free) (h : Head) (k : Fin 8) (j : CardJob) :
    (afterGrant s).ce.engine ≠ .card h k j := by
  unfold afterGrant
  split
  · split
    · rw [he]
      nofun
    · rename_i c _
      rcases grantedState_engine c s he with e | ⟨_, _, e⟩ | e | ⟨_, e⟩ <;> rw [e] <;> nofun
  · rw [he]
    nofun

/-- The sweep and the grant that follow a job leave no card job in hand. -/
theorem SweptTo.not_card {s t : State} (hs : SweptTo s t) (he : s.ce.engine = .free) (h : Head) (k : Fin 8)
    (j : CardJob) : t.ce.engine ≠ .card h k j := by
  obtain ⟨b, -, rfl⟩ := hs
  unfold afterSweep
  split
  · exact afterGrant_not_card (s := sweptState s) he h k j
  · exact afterGrant_not_card he h k j

theorem endedState_engine (h : Head) (e : Ending) (n : Bool) (s : State) :
    (endedState h e n s).ce.engine = .free := by
  unfold endedState
  split <;> rfl

/-- A card ended at a stage with no failing access: its ending is written, and no later stage acts (R4, R5). -/
theorem foldl_endCard (h : Head) (k : Fin 8) (e : Ending) (n : Bool) (s : State) (hc : Clear s)
    (l : List CardStage) :
    ∃ b, s.bus.Within (fun a => ReleaseBytes s a ∨ RefusalBytes s h k a) b
      ∧ Reads b.mem (cardAddr s h k) (refusalRecord s.aiu.frameCount e)
      ∧ SweptTo ((endedState h e n s).onBus b) (l.foldl cardStage (endCard h k e n s)) := by
  obtain ⟨b, hw, hr, hs⟩ := endCard_clear h k e n s hc
  have hskip : l.foldl cardStage (endCard h k e n s) = endCard h k e n s :=
    foldl_skip fun st _ => cardStage_skip _ st fun hd i j he =>
      absurd he (hs.not_card (endedState_engine h e n s) hd i j)
  exact ⟨b, hw, hr, hskip.symm ▸ hs⟩

/-- Without a valid store the last-taken frame goes back and the card is ended (R29, R18). -/
theorem cardCalibration_invalid (h : Head) (k : Fin 8) (j : CardJob) (s : State) (he : s.ce.engine = .card h k j)
    (hc : Clear s) (hv : s.cs.valid = false) :
    ∃ b, s.bus.Within (StatusBytes s) b
      ∧ cardCalibration h k j s
        = endCard h k .uncalibrated j.req.notify ((putLastTaken h j.lastBefore s).onBus b) := by
  obtain ⟨b, hw, hr⟩ := (rewrite_from [.ciu] s (putLastTaken h j.lastBefore s) rfl).of_clear hc
  refine ⟨b, hw, ?_⟩
  unfold cardCalibration
  simp only [hv, Bool.false_eq_true, if_false, hr, onBus_ce, putLastTaken_ce, he]

theorem cardCalibration_valid (h : Head) (k : Fin 8) (j : CardJob) (s : State) (hv : s.cs.valid = true) :
    cardCalibration h k j s = putCard h k { j with next := .tilePass } s := if_pos hv

/-- The tile pass of a card: its tiles summed and tallied, or, when memory does not answer at all of them, the card
ended (R30). -/
theorem cardTilePass_clear (h : Head) (k : Fin 8) (j : CardJob) (s : State) (hc : Clear s) :
    ∃ b, s.bus.Within (fun _ => False) b
      ∧ (ListAnswers s j.req.tileAddr 16 j.req.tileCount → cardTilePass h k j s
          = (putCard h k
              { j with
                next := .estimate,
                acc := (tilesAt s j.req.tileAddr j.req.tileCount).foldl (addTile s.ce.filter) Accumulators.zero,
                tallies := (tilesAt s j.req.tileAddr j.req.tileCount).foldl (addTallies s.mon.counters)
                  (Quad.const 0) } s).onBus b)
      ∧ (¬ ListAnswers s j.req.tileAddr 16 j.req.tileCount →
          cardTilePass h k j s = endCard h k .busError j.req.notify (s.onBus b)) := by
  obtain ⟨b, hw, hall, hnone⟩ := tilePass_clear s.ce.filter s.mon.counters j.req.tileCount j.req.tileAddr
    Accumulators.zero (Quad.const 0) s hc.1
  unfold cardTilePass
  refine ⟨b, hw, fun hl => ?_, fun hl => ?_⟩
  · rw [hall hl]
    rfl
  · rw [hnone hl]

/-- A card without a valid store, from its first stage (R29). -/
theorem runCard_uncalibrated (s : State) (h : Head) (k : Fin 8) (j : CardJob) (u : CardStage)
    (he : s.ce.engine = .card h k j) (hn : j.next = .calibration) (hc : Clear s) (hv : s.cs.valid = false) :
    ∃ b, s.bus.Within (fun a => ReleaseBytes s a ∨ RefusalBytes s h k a) b
      ∧ Reads b.mem (cardAddr s h k) (refusalRecord s.aiu.frameCount .uncalibrated)
      ∧ SweptTo ((endedState h .uncalibrated j.req.notify (putLastTaken h j.lastBefore s)).onBus b)
          (runCard u s) := by
  obtain ⟨b, hw, hx⟩ := cardCalibration_invalid h k j s he hc hv
  obtain ⟨c, hw', hr, hs⟩ := foldl_endCard h k .uncalibrated j.req.notify
    ((putLastTaken h j.lastBefore s).onBus b) (Clear.of_within (s := s) hc hw rfl) (CardStage.all.tail.take u.rank)
  rw [endedState_onBus] at hs
  refine ⟨c, (hw.mono fun _ ha => .inl (.inl ha)).trans hw', hr, ?_⟩
  rw [runCard_from he hn]
  exact (foldl_cardStage (st := .calibration) he hn hx).symm ▸ hs

/-- A card whose tile list memory does not answer, from its first stage (R30). -/
theorem runCard_tileFails (s : State) (h : Head) (k : Fin 8) (j : CardJob) (u : CardStage)
    (he : s.ce.engine = .card h k j) (hn : j.next = .calibration) (hc : Clear s) (hv : s.cs.valid = true)
    (hl : ¬ ListAnswers s j.req.tileAddr 16 j.req.tileCount) (hu : 1 ≤ u.rank) :
    ∃ b, s.bus.Within (fun a => ReleaseBytes s a ∨ RefusalBytes s h k a) b
      ∧ Reads b.mem (cardAddr s h k) (refusalRecord s.aiu.frameCount .busError)
      ∧ SweptTo ((endedState h .busError j.req.notify s).onBus b) (runCard u s) := by
  obtain ⟨r, hr⟩ := Nat.exists_eq_add_of_le' hu
  obtain ⟨b, hw, -, hx⟩ := cardTilePass_clear h k { j with next := .tilePass }
    (putCard h k { j with next := .tilePass } s) hc
  obtain ⟨c, hw', hr', hs⟩ := foldl_endCard h k .busError j.req.notify
    ((putCard h k { j with next := .tilePass } s).onBus b) (Clear.of_within (s := s) hc hw rfl)
    (CardStage.all.tail.tail.take r)
  rw [endedState_onBus] at hs
  refine ⟨c, (hw.mono fun _ => False.elim).trans hw', hr', ?_⟩
  have hrun : runCard u s = (CardStage.all.tail.tail.take r).foldl cardStage
      (endCard h k .busError j.req.notify ((putCard h k { j with next := .tilePass } s).onBus b)) := by
    rw [runCard_from he hn, hr]
    exact (foldl_cardStage (st := .calibration) he hn (cardCalibration_valid h k j s hv)).trans
      (foldl_cardStage (st := .tilePass) rfl rfl (hx hl))
  exact hrun.symm ▸ hs

/-- Settles O26: the two stages that can refuse the card, each with its ending. -/
theorem cardJobRefused : Obligations.CardJobRefused := by
  unfold Obligations.CardJobRefused
  intro s h k j u e he hn hc hx
  have key : ∃ b, s.bus.Within (fun a => ReleaseBytes s a ∨ RefusalBytes s h k a) b
      ∧ Reads b.mem (cardAddr s h k) (refusalRecord s.aiu.frameCount e)
      ∧ SweptTo ((endedState h e j.req.notify
          (if e = .uncalibrated then putLastTaken h j.lastBefore s else s)).onBus b) (runCard u s) := by
    rcases hx with ⟨hv, rfl⟩ | ⟨hv, hl, hu, rfl⟩
    · exact runCard_uncalibrated s h k j u he hn hc hv
    · exact runCard_tileFails s h k j u he hn hc hv hl hu
  obtain ⟨b, hw, hr, hs⟩ := key
  simp only [refusalRecord, reads_cons, reads_nil, and_true] at hr
  obtain ⟨hcode, hcount, hstate⟩ := hr
  refine ⟨b, _, hw, hstate, hcode.trans ?_, hcount, rfl, hs⟩
  cases e <;> rfl

/-! ## The estimate -/

theorem handedOver_none {e : Estimate} (hm : e.mired = none) (h : Head) (frame : Nat)
    (latest : Two (Option Latest)) : handedOver h frame e latest = latest := by
  unfold handedOver
  rw [hm]

theorem handedOver_some {e : Estimate} {m : Nat} (hm : e.mired = some m) (h : Head) (frame : Nat)
    (latest : Two (Option Latest)) :
    handedOver h frame e latest = latest.set h (some { mired := m, frame := frame }) := by
  unfold handedOver
  rw [hm]

/-- A WEAK estimate is formed and not handed over (R31, R54). -/
theorem cardEstimate_weak (h : Head) (k : Fin 8) (j : CardJob) (s : State)
    (hm : (formEstimate s.ce.filter s.cs.points j.acc).mired = none) :
    cardEstimate h k j s
      = putCard h k { j with next := .contextRead, estimate := formEstimate s.ce.filter s.cs.points j.acc } s := by
  unfold cardEstimate
  dsimp only
  rw [hm]

/-- A GOOD estimate is handed over with the card's frame number (R31, R53). -/
theorem cardEstimate_good (h : Head) (k : Fin 8) (j : CardJob) (s : State) {m : Nat}
    (hm : (formEstimate s.ce.filter s.cs.points j.acc).mired = some m) :
    cardEstimate h k j s
      = rewrite [.it] s
          (putCard h k { j with next := .contextRead, estimate := formEstimate s.ce.filter s.cs.points j.acc }
            { s with it := { s.it with
                latest := s.it.latest.set h (some { mired := m, frame := j.req.frame }) } }) := by
  unfold cardEstimate
  dsimp only
  rw [hm]
  rfl

/-- The estimate formed and handed over, with no failing access (R31, R53, R54). -/
theorem cardEstimate_clear (h : Head) (k : Fin 8) (j : CardJob) (s : State) (hc : Clear s) {e : Estimate}
    (he : e = formEstimate s.ce.filter s.cs.points j.acc) :
    ∃ b, s.bus.Within (StatusBytes s) b
      ∧ cardEstimate h k j s
        = (putCard h k { j with next := .contextRead, estimate := e }
            { s with it := { s.it with latest := handedOver h j.req.frame e s.it.latest } }).onBus b := by
  subst he
  cases hm : (formEstimate s.ce.filter s.cs.points j.acc).mired with
  | none =>
    rw [cardEstimate_weak h k j s hm, handedOver_none hm]
    exact ⟨s.bus, Bus.Within.refl _ _, rfl⟩
  | some m =>
    rw [cardEstimate_good h k j s hm, handedOver_some hm]
    exact (rewrite_from [.it] s (putCard h k { j with next := .contextRead, estimate := _ }
      { s with it := { s.it with latest := s.it.latest.set h _ } }) rfl).of_clear hc

/-- Settles O27, by the first three stages in turn. -/
theorem cardJobEstimates : Obligations.CardJobEstimates := by
  unfold Obligations.CardJobEstimates
  intro s h k j a ts e he hn hc hv hl ha hts hest
  have hx := cardCalibration_valid h k j s hv
  obtain ⟨b, hw, hy, -⟩ := cardTilePass_clear h k { j with next := .tilePass }
    (putCard h k { j with next := .tilePass } s) hc
  obtain ⟨c, hw', hz⟩ := cardEstimate_clear h k { j with next := .estimate, acc := a, tallies := ts }
    ((putCard h k { j with next := .estimate, acc := a, tallies := ts } s).onBus b)
    (Clear.of_within (s := s) hc hw rfl) hest
  refine ⟨c, (hw.mono fun _ => False.elim).trans hw', congrArg Host.Outcome.next ?_⟩
  subst ha hts
  rw [runCard_from he hn]
  exact (foldl_cardStage (st := .calibration) he hn hx).trans <|
    (foldl_cardStage (st := .tilePass) rfl rfl (hy hl)).trans <|
    foldl_cardStage (st := .estimate) rfl rfl hz

end Sys2Proof.Machine

/-! O28: the card job from the context read to the monitor snapshot, and the bank of a frame (R32, R33, R105 to R108,
R123, R124, R160). -/

namespace Sys2Proof.Machine

/-! ## The stages -/

/-- The bank query with no failing access (R33.2, R123, R124). -/
theorem cardBankQuery_clear (h : Head) (k : Fin 8) (j : CardJob) (s : State) (hc : Clear s) :
    ∃ b, s.bus.Within (ReleaseBytes s) b
      ∧ cardBankQuery h k j s
        = (droppedState (putCard h k
            { j with next := .marks, bank := bankForFrame s.lbu.banks j.req.frame } s)).onBus b :=
  (dropQuery_shown (putCard h k { j with next := .marks, bank := _ } s)).of_clear hc

/-- The marks taken, with no failing access (R33.3, R93). -/
theorem cardMarks_clear (h : Head) (k : Fin 8) (j : CardJob) (s : State) (hc : Clear s) :
    ∃ b, s.bus.Within (StatusBytes s) b
      ∧ cardMarks h k j s
        = (putCard h k { j with next := .podSnapshot, marks := s.it.marks.get h }
            { s with it := { s.it with marks := s.it.marks.set h 0 } }).onBus b :=
  (rewrite_from [.it] s (putCard h k { j with next := .podSnapshot, marks := s.it.marks.get h }
    { s with it := { s.it with marks := s.it.marks.set h 0 } }) rfl).of_clear hc

/-- The card's own events, with no failing access (R33.5, R108). -/
theorem cardMonitorEvents_clear (h : Head) (k : Fin 8) (j : CardJob) (s : State) (hc : Clear s) :
    ∃ b, s.bus.Within (StatusBytes s) b
      ∧ cardMonitorEvents h k j s
        = (deliveredState (.card h j.tallies j.estimate)
            (putCard h k { j with next := .monitorSnapshot } s)).onBus b :=
  (deliver_shown (.card h j.tallies j.estimate) (putCard h k { j with next := .monitorSnapshot } s)).of_clear hc

/-- The context read of an initialised active context (R32). -/
theorem cardContextRead_some (h : Head) (k : Fin 8) (j : CardJob) (s : State) {x : Context}
    (hx : s.it.contexts.get s.it.active = some x) :
    cardContextRead h k j s
      = putCard h k { j with next := .grade, context := contextReadOf s.it.active h x } s := by
  unfold cardContextRead
  rw [hx]
  rfl

/-- The context read and the grade (R32, R33.1). -/
theorem foldl_contextAndGrade {s : State} {h : Head} {k : Fin 8} {j : CardJob} {x : Context}
    (he : s.ce.engine = .card h k j) (hn : j.next = .contextRead)
    (hx : s.it.contexts.get s.it.active = some x) :
    [CardStage.contextRead, .grade].foldl cardStage s
      = putCard h k
          { j with
            next := .bankQuery, context := contextReadOf s.it.active h x,
            grade := formGrade s.cs s.ce.grading (contextReadOf s.it.active h x) j.req.gain } s :=
  (foldl_cardStage he hn (cardContextRead_some h k j s hx)).trans
    (foldl_cardStage (st := .grade) rfl rfl rfl)

/-- The bank query and the marks, with no failing access (R33.2, R33.3, R93, R123, R124). -/
theorem foldl_bankAndMarks (s : State) (h : Head) (k : Fin 8) (j : CardJob) (hn : j.next = .bankQuery)
    (hc : Clear s) :
    ∃ b, s.bus.Within (ReleaseBytes s) b
      ∧ [CardStage.bankQuery, .marks].foldl cardStage (putCard h k j s)
        = (putCard h k
            { j with next := .podSnapshot, bank := bankForFrame s.lbu.banks j.req.frame,
                     marks := s.it.marks.get h }
            { s with it := { s.it with marks := s.it.marks.set h 0 },
                     lbu := queryAbsent s.aiu.frameCount s.lbu }).onBus b := by
  obtain ⟨b, hb, hq⟩ := cardBankQuery_clear h k j (putCard h k j s) hc
  obtain ⟨c, hc', hm⟩ := cardMarks_clear h k
    { j with next := .marks, bank := bankForFrame s.lbu.banks j.req.frame }
    ((droppedState (putCard h k { j with next := .marks, bank := bankForFrame s.lbu.banks j.req.frame } s)).onBus b)
    (Clear.of_within (s := s) hc hb rfl)
  exact ⟨c, hb.trans (hc'.mono fun _ => .inl),
    (foldl_cardStage rfl hn hq).trans (foldl_cardStage (st := .marks) rfl rfl hm)⟩

/-- The pod snapshot, the card's own events and the monitor snapshot, with no failing access (R33.4, R33.5, R107, R108,
R160). -/
theorem foldl_snapshots (s : State) (h : Head) (k : Fin 8) (j : CardJob) (hn : j.next = .podSnapshot)
    (hc : Clear s) :
    ∃ b, s.bus.Within (StatusBytes s) b
      ∧ [CardStage.podSnapshot, .monitorEvents, .monitorSnapshot].foldl cardStage (putCard h k j s)
        = (putCard h k
            { j with next := .writeResult, pod := podSnapshot s.aiu.frameCount s.mlc,
                     monitors := monitorSnapshot (monAfter (.card h j.tallies j.estimate) s.mon) }
            (deliveredState (.card h j.tallies j.estimate) s)).onBus b := by
  have hp : cardWork h k j (putCard h k j s) .podSnapshot
      = putCard h k { j with next := .monitorEvents, pod := podSnapshot s.aiu.frameCount s.mlc } s := rfl
  obtain ⟨b, hb, hm⟩ := cardMonitorEvents_clear h k
    { j with next := .monitorEvents, pod := podSnapshot s.aiu.frameCount s.mlc }
    (putCard h k { j with next := .monitorEvents, pod := podSnapshot s.aiu.frameCount s.mlc } s) hc
  refine ⟨b, hb, (foldl_cardStage rfl hn hp).trans ?_⟩
  exact (foldl_cardStage (st := .monitorEvents) rfl rfl hm).trans
    (foldl_cardStage (st := .monitorSnapshot) rfl rfl rfl)

/-- The stages from the context read to the monitor snapshot (R32, R33). -/
theorem runCard_grades (s : State) (h : Head) (k : Fin 8) (j : CardJob) (x : Context)
    (he : s.ce.engine = .card h k j) (hn : j.next = .contextRead) (hc : Clear s)
    (hx : s.it.contexts.get s.it.active = some x) :
    ∃ b, s.bus.Within (ReleaseBytes s) b
      ∧ runCard .monitorSnapshot s
        = (putCard h k
            { j with
              next := .writeResult, context := contextReadOf s.it.active h x,
              grade := formGrade s.cs s.ce.grading (contextReadOf s.it.active h x) j.req.gain,
              bank := bankForFrame s.lbu.banks j.req.frame,
              marks := s.it.marks.get h,
              pod := podSnapshot s.aiu.frameCount s.mlc,
              monitors := monitorSnapshot (monAfter (.card h j.tallies j.estimate) s.mon) }
            (deliveredState (.card h j.tallies j.estimate)
              { s with it := { s.it with marks := s.it.marks.set h 0 },
                       lbu := queryAbsent s.aiu.frameCount s.lbu })).onBus b := by
  have hgrade := foldl_contextAndGrade he hn hx
  generalize contextReadOf s.it.active h x = r at hgrade ⊢
  generalize formGrade s.cs s.ce.grading r j.req.gain = g at hgrade ⊢
  obtain ⟨b, hb, hbank⟩ := foldl_bankAndMarks s h k { j with next := .bankQuery, context := r, grade := g } rfl hc
  obtain ⟨c, hc', hsnap⟩ := foldl_snapshots
    (({ s with it := { s.it with marks := s.it.marks.set h 0 },
               lbu := queryAbsent s.aiu.frameCount s.lbu } : State).onBus b) h k
    { j with next := .podSnapshot, context := r, grade := g, bank := bankForFrame s.lbu.banks j.req.frame,
             marks := s.it.marks.get h } rfl (Clear.of_within (s := s) hc hb rfl)
  refine ⟨c, hb.trans (hc'.mono fun _ => .inl), ?_⟩
  calc runCard .monitorSnapshot s
      = ([CardStage.contextRead, .grade] ++ ([CardStage.bankQuery, .marks]
          ++ [CardStage.podSnapshot, .monitorEvents, .monitorSnapshot])).foldl cardStage s := runCard_from he hn _
    _ = [CardStage.podSnapshot, .monitorEvents, .monitorSnapshot].foldl cardStage
          ([CardStage.bankQuery, .marks].foldl cardStage
            (putCard h k { j with next := .bankQuery, context := r, grade := g } s)) := by
        rw [List.foldl_append, List.foldl_append, hgrade]
    _ = _ := (congrArg (List.foldl cardStage · _) hbank).trans hsnap

/-! ## The bank of a frame (R123) -/

/-- A bank that meets a condition beside one that does not is the first that does. -/
theorem firstBank_eq {p : Bank → Bool} {banks : Two Bank} {i : BankIx} (h : p (banks.get i) = true)
    (ho : p (banks.get i.other) = false) : firstBank p banks = some i := by
  unfold firstBank
  cases i
  · exact if_pos h
  · have ho : p banks.i0 = false := ho
    have h : p banks.i1 = true := h
    rw [if_neg (by simp [ho]), if_pos h]

theorem firstBank_none {p : Bank → Bool} {banks : Two Bank} (h : ∀ i, p (banks.get i) = false) :
    firstBank p banks = none := by
  have h0 : p banks.i0 = false := h .i0
  have h1 : p banks.i1 = false := h .i1
  unfold firstBank
  rw [if_neg (by simp [h0]), if_neg (by simp [h1])]

theorem armedFor_iff (f : Nat) (b : Bank) : armedFor f b = true ↔ ∃ sw, b = .armed sw ∧ sw ≤ f := by
  cases b <;> simp [armedFor, bankSwap]

theorem liveFor_iff (f : Nat) (b : Bank) : liveFor f b = true ↔ ∃ st p, b = .live st p ∧ st ≤ f := by
  cases b <;> simp [liveFor]

theorem isRetiring_iff (b : Bank) : isRetiring b = true ↔ ∃ st p r, b = .retiring st p r := by
  cases b <;> simp [isRetiring]

theorem liveAfterOther_iff (b : Bank) : liveAfterOther b = true ↔ ∃ st, b = .live st true := by
  cases b <;> simp [liveAfterOther]

theorem armedFor_bakingOrArmed {f : Nat} {b : Bank} (h : armedFor f b = true) : bakingOrArmed b = true := by
  obtain ⟨sw, rfl, -⟩ := (armedFor_iff f b).1 h
  rfl

theorem liveFor_isLive {f : Nat} {b : Bank} (h : liveFor f b = true) : isLive b = true := by
  obtain ⟨st, p, rfl, -⟩ := (liveFor_iff f b).1 h
  rfl

theorem liveAfterOther_isLive {b : Bank} (h : liveAfterOther b = true) : isLive b = true := by
  obtain ⟨st, rfl⟩ := (liveAfterOther_iff b).1 h
  rfl

/-- Where no two banks can meet a condition together, one that meets it is the first. -/
theorem firstBank_of_exclusive {p q : Bank → Bool} {banks : Two Bank} (hpq : ∀ b, p b = true → q b = true)
    (hq : ¬ (q banks.i0 = true ∧ q banks.i1 = true)) {i : BankIx} (h : p (banks.get i) = true) :
    firstBank p banks = some i := by
  refine firstBank_eq h (Bool.eq_false_iff.2 fun ho => hq ?_)
  cases i
  · exact ⟨hpq _ h, hpq _ ho⟩
  · exact ⟨hpq _ ho, hpq _ h⟩

/-- No two banks are RETIRING: each would be beside a LIVE one (R112). -/
theorem BankLaw.retiring_exclusive {l : Lbu} (hl : BankLaw l) :
    ¬ (isRetiring l.banks.i0 = true ∧ isRetiring l.banks.i1 = true) := by
  obtain ⟨-, -, hr, -⟩ := hl
  rintro ⟨h0, h1⟩
  have hlive : isLive l.banks.i1 = true := hr .i0 h0
  obtain ⟨st, p, r, e⟩ := (isRetiring_iff _).1 h1
  rw [e] at hlive
  cases hlive

/-- The bank of a frame, from the first case that holds (R123); no two banks meet one case together (R112). -/
theorem bankForFrame_cases (l : Lbu) (f : Nat) (hl : BankLaw l) :
    (∀ i, armedFor f (l.banks.get i) = true → bankForFrame l.banks f = some i)
    ∧ ((∀ k, ¬ armedFor f (l.banks.get k) = true) →
      (∀ i, liveFor f (l.banks.get i) = true → bankForFrame l.banks f = some i)
      ∧ ((∀ k, ¬ liveFor f (l.banks.get k) = true) →
        (∀ i, isRetiring (l.banks.get i) = true → bankForFrame l.banks f = some i)
        ∧ ((∀ k, ¬ isRetiring (l.banks.get k) = true) →
          (∀ i, liveAfterOther (l.banks.get i) = true → bankForFrame l.banks f = some i)
          ∧ ((∀ k, ¬ liveAfterOther (l.banks.get k) = true) → bankForFrame l.banks f = none)))) := by
  have hret := hl.retiring_exclusive
  obtain ⟨hlive, harm, -, -⟩ := hl
  simp only [Bool.not_eq_true]
  unfold bankForFrame
  refine ⟨fun i h => ?_, fun h1 => ?_⟩
  · rw [firstBank_of_exclusive (p := armedFor f) (fun _ => armedFor_bakingOrArmed) harm h, Option.some_or]
  rw [firstBank_none h1, Option.none_or]
  refine ⟨fun i h => ?_, fun h2 => ?_⟩
  · rw [firstBank_of_exclusive (p := liveFor f) (fun _ => liveFor_isLive) hlive h, Option.some_or]
  rw [firstBank_none h2, Option.none_or]
  refine ⟨fun i h => ?_, fun h3 => ?_⟩
  · rw [firstBank_of_exclusive (fun _ => id) hret h, Option.some_or]
  rw [firstBank_none h3, Option.none_or]
  exact ⟨fun i h => firstBank_of_exclusive (fun _ => liveAfterOther_isLive) hlive h, fun h4 => firstBank_none h4⟩

/-- Settles O28: the run of the stages, and the cases of the bank of a frame. -/
theorem cardJobGrades : Obligations.CardJobGrades := by
  unfold Obligations.CardJobGrades
  refine ⟨fun s h k j x r he hn hc hx hr => ?_, fun l f hl => ?_⟩
  · obtain ⟨b, hw, hg⟩ := runCard_grades s h k j x he hn hc hx
    subst hr
    exact ⟨b, hw, congrArg Host.Outcome.next hg⟩
  · dsimp only
    simp only [← armedFor_iff, ← liveFor_iff, ← isRetiring_iff, ← liveAfterOther_iff]
    exact bankForFrame_cases l f hl

end Sys2Proof.Machine

/-! O31: the opening of a directive job, from the re-read of the slot to the payload (R27, R172). -/

namespace Sys2Proof.Machine

/-! ## Reads by spans that fail -/

/-- A read by spans one of which memory does not answer. -/
theorem readSpans_unanswered {s : State} {a : Nat} {ps : List (Nat × Nat)}
    (h : ∃ p ∈ ps, s.bus.answers (a + p.1) p.2 = false) : (readSpans s a ps).1 = none := by
  induction ps generalizing s with
  | nil => simp at h
  | cons p ps ih =>
    unfold readSpans
    by_cases hs : s.bus.succeeds (a + p.1) p.2 = true
    · have hps : ∃ q ∈ ps, s.bus.answers (a + q.1) q.2 = false := by
        obtain ⟨q, hq, hn⟩ := h
        rcases List.mem_cons.1 hq with rfl | hq
        · simp [Bus.succeeds, hn] at hs
        · exact ⟨q, hq, hn⟩
      have hnone := ih (s := s.onBus s.bus.spend) hps
      rw [busRead_succeeds hs]
      dsimp only
      split
      · rfl
      · rename_i heq
        rw [heq] at hnone
        cases hnone
    · rw [busRead_fails (by simpa using hs)]

/-- A read by spans whose first access is planned to fail. -/
theorem readSpans_planned {s : State} {a : Nat} {ps : List (Nat × Nat)} {plan : List Bool} (hne : ps ≠ [])
    (hp : s.bus.failPlan = true :: plan) : (readSpans s a ps).1 = none := by
  obtain ⟨p, ps, rfl⟩ := List.exists_cons_of_ne_nil hne
  unfold readSpans
  rw [busRead_planned hp]

/-- A read by spans that fails leaves memory alone. -/
theorem readSpans_none {s : State} {a : Nat} {ps : List (Nat × Nat)} (h : (readSpans s a ps).1 = none) :
    ∃ c, s.bus.Within (fun _ => False) c ∧ readSpans s a ps = (none, s.onBus c) := by
  obtain ⟨c, hw, he, -⟩ := readSpans_spec s a ps
  exact ⟨c, hw, Prod.ext h he⟩

/-! ## Accesses not planned to fail -/

/-- None of the next `n` accesses is planned to fail. -/
def Bus.Spares (b : Bus) (n : Nat) : Prop := ∀ x ∈ b.failPlan.take n, x = false

theorem Bus.Spares.succeeds {b : Bus} {n a k : Nat} (h : b.Spares (n + 1)) (ha : b.answers a k = true) :
    b.succeeds a k = true := by
  unfold Bus.Spares at h
  cases hp : b.failPlan with
  | nil => simp [Bus.succeeds, ha, hp]
  | cons x plan =>
    rw [hp, List.take_succ_cons] at h
    simp [Bus.succeeds, ha, hp, h x List.mem_cons_self]

theorem Bus.Spares.next {b c : Bus} {n : Nat} (h : b.Spares (n + 1)) (hc : c.failPlan = b.failPlan.tail) :
    c.Spares n := by
  unfold Bus.Spares at h ⊢
  rw [hc]
  cases hp : b.failPlan with
  | nil => simp
  | cons x plan =>
    rw [hp, List.take_succ_cons] at h
    exact fun y hy => h y (List.mem_cons_of_mem _ hy)

/-! ## The stages -/

/-- The work of a stage of a directive job (R172). -/
def dirWork (b : DirBody) (j : DirJob) (s : State) : DirStage → State
  | .take => dirTake j s
  | .kind => dirReadKind j s
  | .payload => dirReadPayload j s
  | .prepare => dirPrepare b j s
  | .effect => dirEffect b j s
  | .result => dirWriteResult j s
  | .finish => dirFinish j s

/-- The stage that the directive job runs next does its work. -/
theorem dirStage_work (b : DirBody) {s : State} {j : DirJob} {st : DirStage} (he : s.ce.engine = .directive j)
    (hn : j.next = st) : dirStage b s st = dirWork b j s st := by
  unfold dirStage
  rw [he]
  simp only [hn, if_true]
  cases st <;> rfl

/-- The row that goes on with the job in hand runs its stages in order. -/
theorem runDirective_applies {row : Option DirKind} (b : DirBody) (u : DirStage) {s : State} {j : DirJob}
    (he : s.ce.engine = .directive j) (ha : dirRowApplies row j s = true) :
    runDirective row b u s = (DirStage.all.take (u.rank + 1)).foldl (dirStage b) s := by
  unfold runDirective
  rw [he]
  simp only [ha, if_true, (DirStage.upTo_eq u).1]

/-! ## The slot no longer POSTED -/

/-- A directive whose slot is not POSTED at its re-read, run up to any stage (R27). -/
theorem runDirective_lapsed (row : Option DirKind) (b : DirBody) (u : DirStage) (s : State)
    (he : s.ce.engine = .directive DirJob.start) (hc : Clear s)
    (hl : s.bus.mem.readLE (slotAddr s) 4 ≠ Config.slotPosted) :
    runDirective row b u s = fallFree none (s.onBus s.bus.spend) := by
  have hs : s.bus.succeeds (slotAddr s) 4 = true :=
    hc.succeeds (Nat.le_add_right _ _) (by simp only [slotAddr, Config.directiveSlot]; omega)
  have ha : dirRowApplies row DirJob.start s = true := by simp [dirRowApplies, DirJob.start, hl]
  have htake : dirTake DirJob.start s = fallFree none (s.onBus s.bus.spend) := by
    unfold dirTake
    rw [busRead_succeeds hs]
    exact if_neg hl
  have hfirst : dirStage b s .take = fallFree none (s.onBus s.bus.spend) := (dirStage_work b he rfl).trans htake
  rw [runDirective_applies b u he ha, DirStage.all, List.take_succ_cons, List.foldl_cons, hfirst]
  refine foldl_skip fun st hst => dirStage_skip b _ st fun j e hn => ?_
  have hne : st ≠ .take := fun e => absurd (List.mem_of_mem_take (e ▸ hst)) (by decide)
  rcases (fallFree_ended none (s.onBus s.bus.spend)).engine with e' | ⟨_, _, e'⟩ | e' | ⟨_, e'⟩ <;>
    cases e'.symm.trans e
  exact hne hn.symm

/-! ## The slot POSTED -/

/-- The bus once the slot's state has been read and TAKEN written (R27, R172.1). -/
def takenBus (s : State) : Bus :=
  { s.bus with mem := s.bus.mem.writeLE (slotAddr s) Config.slotTaken 4, failPlan := s.bus.failPlan.tail.tail }

theorem takenBus_within (s : State) : s.bus.Within (Bytes (slotAddr s) 4) (takenBus s) :=
  ⟨rfl, fun h => by simp [takenBus, h], fun h => Memory.wf_writeLE h, fun a ha =>
    Memory.readByte_writeLE_of_outside _ _ _ _ _ (by unfold Bytes at ha; omega)⟩

theorem takenBus_state (s : State) : (takenBus s).mem.readLE (slotAddr s) 4 = 2 :=
  Memory.readLE_writeLE_eq _ _ _ _

/-- A POSTED slot is TAKEN (R172.1). -/
theorem dirTake_posted {s : State} (j : DirJob) (hp : s.bus.Spares 2) (ha : s.bus.answers (slotAddr s) 4 = true)
    (hs : s.bus.mem.readLE (slotAddr s) 4 = Config.slotPosted) :
    dirTake j s = (putDirJob { j with next := .kind } s).onBus (takenBus s) := by
  have hw : s.bus.spend.succeeds (slotAddr s) 4 = true := (hp.next rfl).succeeds (n := 0) ha
  unfold dirTake
  rw [busRead_succeeds (hp.succeeds ha)]
  simp only [hs, if_true, writeFields, busWrite, slotAddr_onBus, onBus_bus, hw]
  rfl

/-- A directive job whose kind has been read: an unknown kind is refused (R172.2). -/
def kindRead (row : Option DirKind) : DirJob :=
  { next := .payload, kind := row, payload := 0, result := if row = none then some .refusedKind else none }

/-- The kind is read (R172.2). -/
theorem dirReadKind_read {s : State} {row : Option DirKind} (h : s.bus.succeeds (slotAddr s + 4) 2 = true)
    (hk : dirKindOf (s.bus.mem.readLE (slotAddr s + 4) 2) = row) :
    dirReadKind { DirJob.start with next := .kind } s = (putDirJob (kindRead row) s).onBus s.bus.spend := by
  unfold dirReadKind kindRead
  rw [busRead_succeeds h]
  simp only [hk]
  cases row <;> rfl

/-- A POSTED directive up to its payload: TAKEN is written and the kind read, each access answered and none planned to
fail; then the payload is read (R172). -/
theorem runDirective_opened (row : Option DirKind) (b : DirBody) (s : State)
    (he : s.ce.engine = .directive DirJob.start) (hp : s.bus.Spares 3)
    (ha : s.bus.answers (slotAddr s) 6 = true) (hs : s.bus.mem.readLE (slotAddr s) 4 = 1)
    (hk : dirKindOf (s.bus.mem.readLE (slotAddr s + 4) 2) = row) :
    runDirective row b .payload s
      = dirReadPayload (kindRead row) ((putDirJob (kindRead row) s).onBus (takenBus s).spend) := by
  have happ : dirRowApplies row DirJob.start s = true := by simp [dirRowApplies, DirJob.start, hk]
  have htake := dirTake_posted DirJob.start (fun x hx => hp x (List.take_subset_take_left _ (by decide) hx))
    (Bus.answers_sub ha le_rfl (by omega)) hs
  have hspare : (takenBus s).Spares 1 := (hp.next (c := s.bus.spend) rfl).next rfl
  have hkind' : (takenBus s).mem.readLE (slotAddr s + 4) 2 = s.bus.mem.readLE (slotAddr s + 4) 2 :=
    (takenBus_within s).readLE fun a h1 h2 h => by unfold Bytes at h; omega
  have hkind := dirReadKind_read (s := (putDirJob { DirJob.start with next := .kind } s).onBus (takenBus s))
    (hspare.succeeds (Bus.answers_sub (b := takenBus s) ha (Nat.le_add_right _ _) le_rfl))
    ((congrArg dirKindOf hkind').trans hk)
  calc runDirective row b .payload s
      = dirStage b (dirStage b (dirStage b s .take) .kind) .payload := runDirective_applies b .payload he happ
    _ = dirStage b (dirStage b ((putDirJob { DirJob.start with next := .kind } s).onBus (takenBus s)) .kind)
          .payload := by
        rw [(dirStage_work b (st := .take) he rfl).trans htake]
    _ = dirStage b ((putDirJob (kindRead row) s).onBus (takenBus s).spend) .payload :=
        congrArg (dirStage b · .payload) ((dirStage_work b (st := .kind) rfl rfl).trans hkind)
    _ = _ := dirStage_work b (st := .payload) rfl rfl

/-- The bytes of a payload's spans lie in the slot (12.3). -/
theorem payloadSpans_bound (k : DirKind) : ∀ p ∈ payloadSpans k, p.1 + p.2 ≤ 0x20 := by cases k <;> decide

/-- TAKEN leaves the payload as it was. -/
theorem spansAt_taken {s : State} {b : Bus} (hw : s.bus.Within (Bytes (slotAddr s) 4) b) (ps : List (Nat × Nat)) :
    spansAt (s.onBus b) (slotAddr s + 0x10) ps = spansAt s (slotAddr s + 0x10) ps := by
  unfold spansAt
  refine congrArg List.sum (List.map_congr_left fun p _ => ?_)
  rw [onBus_bus, hw.readLE fun a h1 h2 h => by unfold Bytes at h; omega]

theorem dirReadPayload_some {k : DirKind} {s : State} {p : Nat} {c : Bus}
    (hr : readSpans s (slotAddr s + 0x10) (payloadSpans k) = (some p, s.onBus c)) :
    dirReadPayload (kindRead (some k)) s
      = (putDirJob { kindRead (some k) with next := .prepare, payload := p } s).onBus c := by
  unfold dirReadPayload kindRead
  simp only [hr]
  rfl

/-- The payload read once when memory answers at each of its spans; an unknown kind reads none (R172.3). -/
theorem dirReadPayload_read (row : Option DirKind) (s : State) {b : Bus}
    (hw : s.bus.Within (Bytes (slotAddr s) 4) b) (hc : Clear s) :
    ∃ c, b.Within (fun _ => False) c
      ∧ dirReadPayload (kindRead row) ((putDirJob (kindRead row) s).onBus b)
        = (putDirJob { kindRead row with
            next := .prepare, payload := spansAt s (slotAddr s + 0x10) (row.elim [] payloadSpans) } s).onBus c := by
  cases row with
  | none => exact ⟨b, Bus.Within.refl _ _, rfl⟩
  | some k =>
    have ha : ∀ p ∈ payloadSpans k, b.answers (slotAddr s + 0x10 + p.1) p.2 = true := fun p hp => by
      have := payloadSpans_bound k p hp
      rw [hw.answers]
      refine Bus.answers_sub hc.2 ?_ ?_ <;> simp only [slotAddr, Config.directiveSlot] <;> omega
    obtain ⟨c, hc', hr⟩ := readSpans_clear ((putDirJob (kindRead (some k)) s).onBus b) (slotAddr s + 0x10)
      (payloadSpans k) (hw.2.1 hc.1) ha
    rw [← spansAt_taken hw]
    exact ⟨c, hc', dirReadPayload_some hr⟩

/-- A payload read that fails decides BUS_ERROR (R172.3). -/
theorem dirReadPayload_fails {k : DirKind} {s : State}
    (h : (readSpans s (slotAddr s + 0x10) (payloadSpans k)).1 = none) :
    ∃ c, s.bus.Within (fun _ => False) c
      ∧ dirReadPayload (kindRead (some k)) s
        = (putDirJob { kindRead (some k) with next := .prepare, result := some .busError } s).onBus c := by
  obtain ⟨c, hw, hr⟩ := readSpans_none h
  refine ⟨c, hw, ?_⟩
  unfold dirReadPayload kindRead
  simp only [hr]
  rfl

/-- A POSTED directive with no failing access, up to its payload (R172). -/
theorem runDirective_payload (row : Option DirKind) (b : DirBody) (s : State)
    (he : s.ce.engine = .directive DirJob.start) (hc : Clear s) (hs : s.bus.mem.readLE (slotAddr s) 4 = 1)
    (hk : dirKindOf (s.bus.mem.readLE (slotAddr s + 4) 2) = row) :
    ∃ c, s.bus.Within (Bytes (slotAddr s) 4) c ∧ c.mem.readLE (slotAddr s) 4 = 2
      ∧ runDirective row b .payload s
        = (putDirJob { kindRead row with
            next := .prepare, payload := spansAt s (slotAddr s + 0x10) (row.elim [] payloadSpans) } s).onBus c := by
  have ha : s.bus.answers (slotAddr s) 6 = true :=
    Bus.answers_sub hc.2 (Nat.le_add_right _ _) (by simp only [slotAddr, Config.directiveSlot]; omega)
  have hw : s.bus.Within (Bytes (slotAddr s) 4) (takenBus s).spend :=
    (takenBus_within s).trans (Bus.Within.spend _ _)
  obtain ⟨c, hw', hr⟩ := dirReadPayload_read row s hw hc
  refine ⟨c, hw.trans (hw'.mono fun _ => False.elim), ?_, ?_⟩
  · exact (hw'.readLE fun _ _ _ => id).trans (takenBus_state s)
  · exact (runDirective_opened row b s he (by simp [Bus.Spares, hc.1]) ha hs hk).trans hr

/-- A POSTED directive whose payload read fails, by a span that memory does not answer or by the plan (R172). -/
theorem runDirective_payloadFails (k : DirKind) (b : DirBody) (s : State)
    (he : s.ce.engine = .directive DirJob.start) (hs : s.bus.mem.readLE (slotAddr s) 4 = 1)
    (hk : dirKindOf (s.bus.mem.readLE (slotAddr s + 4) 2) = some k) (ha : s.bus.answers (slotAddr s) 6 = true)
    (hx : s.bus.failPlan = [] ∧ (∃ p ∈ payloadSpans k, s.bus.answers (slotAddr s + 0x10 + p.1) p.2 = false)
      ∨ payloadSpans k ≠ [] ∧ ∃ plan, s.bus.failPlan = [false, false, false, true] ++ plan) :
    ∃ c, s.bus.Within (Bytes (slotAddr s) 4) c ∧ c.mem.readLE (slotAddr s) 4 = 2
      ∧ runDirective (some k) b .payload s
        = (putDirJob { kindRead (some k) with next := .prepare, result := some .busError } s).onBus c := by
  have hp : s.bus.Spares 3 := by
    rcases hx with ⟨hp, -⟩ | ⟨-, plan, hp⟩ <;> simp [Bus.Spares, hp]
  have hw : s.bus.Within (Bytes (slotAddr s) 4) (takenBus s).spend :=
    (takenBus_within s).trans (Bus.Within.spend _ _)
  have hnone : (readSpans ((putDirJob (kindRead (some k)) s).onBus (takenBus s).spend) (slotAddr s + 0x10)
      (payloadSpans k)).1 = none := by
    rcases hx with ⟨-, hn⟩ | ⟨hne, plan, hp⟩
    · exact readSpans_unanswered hn
    · exact readSpans_planned (plan := plan) hne (by simp [takenBus, Bus.spend, hp])
  obtain ⟨c, hw', hr⟩ := dirReadPayload_fails hnone
  refine ⟨c, hw.trans (hw'.mono fun _ => False.elim), ?_, ?_⟩
  · exact (hw'.readLE fun _ _ _ => id).trans (takenBus_state s)
  · exact (runDirective_opened (some k) b s he hp ha hs hk).trans hr

/-- Settles O31: the lapse, the payload read, the payload read that fails, and the spans. -/
theorem directiveOpens : Obligations.DirectiveOpens := by
  unfold Obligations.DirectiveOpens
  refine ⟨fun s he hc => ⟨fun row u hl => ?_, fun row hs hk => ?_⟩, fun s k he hs hk ha hx => ?_,
    fun k => by cases k <;> rfl⟩
  · obtain ⟨b, hw, ht⟩ := fallFree_swept none (s.onBus s.bus.spend)
      (hc.of_within (Bus.Within.spend (fun _ => False) s.bus) rfl)
    refine ⟨b, _, (Bus.Within.spend _ s.bus).trans hw, exec_directiveRow row u s, ?_⟩
    rw [runDirective_lapsed row (kindBody row) u s he hc hl]
    exact ht
  · obtain ⟨b, hw, h2, hr⟩ := runDirective_payload row (kindBody row) s he hc hs hk
    exact ⟨b, hw, h2, (exec_directiveRow row .payload s).trans (congrArg Host.Outcome.next hr)⟩
  · obtain ⟨b, hw, h2, hr⟩ := runDirective_payloadFails k (kindBody (some k)) s he hs hk ha hx
    exact ⟨b, hw, h2, (exec_directiveRow (some k) .payload s).trans (congrArg Host.Outcome.next hr)⟩

end Sys2Proof.Machine

/-! O43: a bake row and its boundary (R36, R116, R120). -/

namespace Sys2Proof.Machine

/-! ## The row -/

/-- A bank lies in the work area above both headers (1.3, R111). -/
theorem entryAddr_range (s : State) (i : BankIx) {e : Nat} (he : e < lutEntries) :
    base s + 0x2000 ≤ entryAddr s i e ∧ entryAddr s i e + 8 ≤ base s + 0x16000 := by
  simp only [entryAddr, lutEntries] at he ⊢
  cases i <;> simp only [Config.lutBank] <;> omega

/-- The 17 entries of a row stand in the bank's storage (R116). -/
def RowReads (m : Memory) (s : State) (i : BankIx) (c : Nat) (look : Look) : Prop :=
  ∀ k, k < 17 → m.readLE (entryAddr s i (c + k)) 8 = lutEntry look (c + k) % 2 ^ 64

/-- The entries of a row stand while the status block and the headers are written. -/
theorem RowReads.of_front {s : State} {i : BankIx} {c : Nat} {look : Look} {b d : Bus}
    (hr : RowReads b.mem s i c look) (hc : c + 17 ≤ lutEntries) (hw : b.Within (FrontBytes s) d) :
    RowReads d.mem s i c look := fun k hk =>
  (hw.readLE fun a h1 h2 ha => by
    have := entryAddr_range s i (e := c + k) (by omega)
    simp only [FrontBytes, StatusBytes, HeaderBytes, Bytes, Config.bankHeader] at ha
    omega).trans (hr k hk)

/-- The entries of a row written with no failing access (R36, R116). -/
theorem writeRow_clear (s : State) (i : BankIx) (c : Nat) (look : Look) (hc : Clear s) (hle : c + 17 ≤ lutEntries) :
    ∃ b, writeFields .bankWrite (rowFields s i look c) s = (true, s.onBus b)
      ∧ s.bus.Within (Bytes (entryAddr s i c) 136) b ∧ RowReads b.mem s i c look := by
  have hmem {P : Field → Prop} (h : ∀ k, k < 17 → P ⟨entryAddr s i (c + k), 8, lutEntry look (c + k)⟩) :
      ∀ f ∈ rowFields s i look c, P f := fun f hf => by
    obtain ⟨k, hk, rfl⟩ := List.mem_map.1 hf
    exact h k (List.mem_range.1 hk)
  have hapart : (rowFields s i look c).Pairwise fun f g => f.off + f.size ≤ g.off ∨ g.off + g.size ≤ f.off :=
    List.pairwise_map.2 <| List.pairwise_lt_range.imp fun {k l} hkl => .inl (by
      simp only [entryAddr]
      omega)
  obtain ⟨b, he, hw, hr⟩ := writeFields_clear .bankWrite (rowFields s i look c) s hc.1 (hmem fun k hk => by
    have := entryAddr_range s i (e := c + k) (by omega)
    exact Bus.answers_sub hc.2 (by dsimp only; omega) (by dsimp only; omega))
  refine ⟨b, he, hw.mono fun a ⟨f, hf, ha⟩ => ?_, fun k hk => ?_⟩
  · refine hmem (P := fun f => Bytes f.off f.size a → Bytes (entryAddr s i c) 136 a) (fun k hk ha => ?_) f hf ha
    simp only [Bytes, entryAddr] at ha ⊢
    omega
  · exact hr hapart _ (List.mem_map.2 ⟨k, List.mem_range.2 hk, rfl⟩)

/-- A bake row with no failing access comes to its boundary with the entries and the header written and the cursor
raised (R36, R116, R120). -/
theorem bakeRow_clear (s : State) (i : BankIx) (c : Nat) (look : Look) (he : s.ce.engine = .bake i)
    (hb : s.lbu.banks.get i = .baking c look) (hc : Clear s) (hle : c + 17 ≤ lutEntries) :
    ∃ b, s.bus.Within (fun a => HeaderBytes s i a ∨ Bytes (entryAddr s i c) 136 a) b
      ∧ RowReads b.mem s i c look
      ∧ bakeRow s = rowBoundary i ((putBank i (raisedBank s.aiu.frameCount c look) s).onBus b) := by
  obtain ⟨b, hx, hw, hr⟩ := writeRow_clear s i c look hc hle
  obtain ⟨d, hw', hy⟩ := (writeHeader_shown i ((putBank i (raisedBank s.aiu.frameCount c look) s).onBus b)).of_clear
    (hc.of_within hw rfl)
  have hfront : b.Within (FrontBytes s) d := hw'.mono fun a ha => by
    cases i
    · exact .inr (.inl ha)
    · exact .inr (.inr ha)
  refine ⟨d, (hw.mono fun _ => .inr).trans (hw'.mono fun _ => .inl), hr.of_front hle hfront, ?_⟩
  unfold bakeRow
  simp only [he, hb, hx]
  exact congrArg (rowBoundary i) hy

/-! ## The boundary -/

/-- Only the heads' candidates and the order decide whether a bake yields (R36). -/
theorem outrankedUtility_congr {s t : State} (ho : t.ce.order = s.ce.order)
    (hc : t.ciu.candidate = s.ciu.candidate) : outrankedUtility t = outrankedUtility s := by
  have hclaim : ∀ d : Claimant, d ≠ .utility → claims t d = claims s d := by
    rintro (h | _) hd
    · exact congrArg (fun c => (Two.get c h).isSome) hc
    · exact absurd rfl hd
  unfold outrankedUtility
  rw [ho, Bool.eq_iff_iff, List.any_eq_true, List.any_eq_true]
  refine exists_congr fun d => and_congr_right fun hd => ?_
  have hne : decide (d ≠ .utility) = true :=
    List.mem_takeWhile_imp (p := fun c : Claimant => decide (c ≠ .utility)) hd
  rw [hclaim d (of_decide_eq_true hne)]

/-- A bank that is not RETIRING adds no header to those that the engine's falling free may write. -/
theorem releaseBytes_putBank {s : State} {i : BankIx} {x : Bank} (hx : bankRetire x = none) (a : Nat)
    (h : ReleaseBytes (putBank i x s) a) : ReleaseBytes s a := by
  refine h.imp id fun ⟨k, f, hk, hf, ha⟩ => ⟨k, f, ?_, hf, ha⟩
  rw [putBank_banks] at hk
  by_cases hki : k = i
  · rw [hki, Two.get_set_eq, hx] at hk
    cases hk
  · rwa [Two.get_set_ne _ _ _ _ hki] at hk

/-- A row boundary before the last row: the bake yields, or goes on (R36). -/
theorem rowBoundary_baking {s : State} {i : BankIx} (he : s.ce.engine = .bake i)
    (hb : isBaking (s.lbu.banks.get i) = true) :
    rowBoundary i s = if s.aiu.run = .draining ∨ outrankedUtility s = true
      then fallFree (some (.partialJob, .bake)) s else s := by
  unfold rowBoundary
  rw [if_pos he, if_pos hb]

/-- The boundary after the last row (R36, R120). -/
theorem rowBoundary_done {s : State} {i : BankIx} (he : s.ce.engine = .bake i)
    (hb : isBaking (s.lbu.banks.get i) = false) :
    rowBoundary i s = sweepAndGrant (setCause .bank (releaseEngine (some (.completed, .bake)) s)) := by
  unfold rowBoundary
  rw [if_pos he, if_neg (by simp [hb])]

/-- The end of a bake with no failing access: the engine falls free and the BANK cause is set; a sweep and a grant
follow (R25, R28, R120). -/
theorem bakeDone_swept (s : State) (hc : Clear s) :
    ∃ b, s.bus.Within (ReleaseBytes s) b
      ∧ SweptTo ((causedState true .bank (releasedState (some (.completed, .bake)) s)).onBus b)
          (sweepAndGrant (setCause .bank (releaseEngine (some (.completed, .bake)) s))) := by
  have hfree := releaseEngine_shown (some (.completed, .bake)) s
  have hcause := setCauseIf_shown true .bank (releaseEngine (some (.completed, .bake)) s)
  rw [statusBytes_eq hfree.base_eq] at hcause
  obtain ⟨b, hw, he⟩ := (hfree.andThen (update_caused true .bank) (hcause.mono fun _ => .inl)).of_clear
    (s := causedState true .bank (releasedState (some (.completed, .bake)) s)) hc
  refine ⟨b, hw, ?_⟩
  rw [show setCause .bank (releaseEngine (some (.completed, .bake)) s) = _ from he]
  exact sweepAndGrant_swept _ (Clear.of_within (s := s) hc hw rfl)

/-- The boundary of a row after which the bake goes on or yields PARTIAL (R36). -/
theorem rowBoundary_raised (s : State) (i : BankIx) (c : Nat) (look : Look) (he : s.ce.engine = .bake i)
    (hc : Clear s) :
    ∃ b, s.bus.Within (ReleaseBytes s) b
      ∧ (s.aiu.run = .draining ∨ outrankedUtility s = true →
          SweptTo ((releasedState (some (.partialJob, .bake)) (putBank i (.baking c look) s)).onBus b)
            (rowBoundary i (putBank i (.baking c look) s)))
      ∧ (¬ (s.aiu.run = .draining ∨ outrankedUtility s = true) →
          rowBoundary i (putBank i (.baking c look) s) = (putBank i (.baking c look) s).onBus b) := by
  have hbaking : isBaking ((putBank i (.baking c look) s).lbu.banks.get i) = true := by
    rw [putBank_banks, Two.get_set_eq]
    rfl
  have ho : outrankedUtility (putBank i (.baking c look) s) = outrankedUtility s := outrankedUtility_congr rfl rfl
  rw [rowBoundary_baking (s := putBank i (.baking c look) s) he hbaking, ho, putBank_aiu]
  by_cases hy : s.aiu.run = .draining ∨ outrankedUtility s = true
  · obtain ⟨b, hw, hs⟩ := fallFree_swept (some (.partialJob, .bake)) (putBank i (.baking c look) s) hc
    rw [if_pos hy]
    exact ⟨b, hw.mono (releaseBytes_putBank rfl), fun _ => hs, fun hn => absurd hy hn⟩
  · rw [if_neg hy]
    exact ⟨s.bus, Bus.Within.refl _ _, fun h => absurd h hy, fun _ => rfl⟩

/-- The boundary after the last row (R36, R120). -/
theorem rowBoundary_last (s : State) (i : BankIx) (he : s.ce.engine = .bake i) (hc : Clear s) (f : Nat) :
    ∃ b, s.bus.Within (ReleaseBytes s) b
      ∧ SweptTo ((causedState true .bank
          (releasedState (some (.completed, .bake)) (putBank i (.armed f) s))).onBus b)
          (rowBoundary i (putBank i (.armed f) s)) := by
  have hbaking : isBaking ((putBank i (.armed f) s).lbu.banks.get i) = false := by
    rw [putBank_banks, Two.get_set_eq]
    rfl
  obtain ⟨b, hw, hs⟩ := bakeDone_swept (putBank i (.armed f) s) hc
  rw [rowBoundary_done (s := putBank i (.armed f) s) he hbaking]
  exact ⟨b, hw.mono (releaseBytes_putBank rfl), hs⟩

/-- Settles O43: the row is written, and its boundary is one before the last row or the last. -/
theorem bakeRowRaisesTheCursor : Obligations.BakeRowRaisesTheCursor := by
  unfold Obligations.BakeRowRaisesTheCursor
  intro s i c look he hb hc hle
  obtain ⟨b, hw, hr, hx⟩ := bakeRow_clear s i c look he hb hc hle
  have hcb : Clear (s.onBus b) := hc.of_within hw rfl
  have hwrow : s.bus.Within
      (fun a => ReleaseBytes s a ∨ HeaderBytes s i a ∨ Bytes (entryAddr s i c) 136 a) b := hw.mono fun _ => .inr
  by_cases hlast : c + 17 = lutEntries
  · obtain ⟨d, hd, hs⟩ := rowBoundary_last (s.onBus b) i he hcb (s.aiu.frameCount + 2)
    rw [raisedBank, if_pos hlast.ge] at hx
    exact ⟨d, _, congrArg Host.Outcome.next hx, hwrow.trans (hd.mono fun _ => .inl),
      hr.of_front hle (hd.mono releaseBytes_front), fun h => absurd hlast h.ne, fun _ => hs⟩
  · obtain ⟨d, hd, hyield, hon⟩ := rowBoundary_raised (s.onBus b) i (c + 17) look he hcb
    rw [raisedBank, if_neg (by omega)] at hx
    rw [outrankedUtility_congr (s := s) (t := s.onBus b) rfl rfl] at hyield hon
    exact ⟨d, _, congrArg Host.Outcome.next hx, hwrow.trans (hd.mono fun _ => .inl),
      hr.of_front hle (hd.mono releaseBytes_front),
      fun _ => ⟨hyield, fun hrun ho => hon (not_or.2 ⟨hrun, by simp [ho]⟩)⟩,
      fun h => absurd h hlast⟩

end Sys2Proof.Machine

/-! O45: which tiles the filter accepts, and what each adds to the accumulators (R42 to R47). -/

namespace Sys2Proof.Machine

theorem pairPasses_iff (p : KeyPair) (key : BitVec 8) :
    pairPasses p key = true ↔ p.enable = true ∧ key &&& p.mask = p.value &&& p.mask := by
  rw [pairPasses, Bool.and_eq_true, beq_iff_eq]

/-- The three tests of the filter (R43 to R46). -/
theorem accepts_iff (f : FilterSettings) (t : Tile) :
    accepts f t = true ↔
      (pairPasses f.pairA t.key = true ∨ pairPasses f.pairB t.key = true)
        ∧ f.lLo ≤ meanGreen t ∧ meanGreen t ≤ f.lHi ∧ t.clipped * 256 ≤ f.clipLimit * t.pixels := by
  simp only [accepts, Bool.and_eq_true, Bool.or_eq_true, decide_eq_true_eq, and_assoc]

/-- A tile with more clipped than counted pixels is over every clip limit that a filter can have (R46, R58). -/
theorem accepts_of_pixels_lt_clipped {f : FilterSettings} {t : Tile} (ht : t.pixels < t.clipped)
    (hf : f.clipLimit ≤ 256) : accepts f t = false := by
  refine Bool.eq_false_iff.2 fun ha => ?_
  obtain ⟨-, -, -, hclip⟩ := (accepts_iff f t).1 ha
  have hlimit : f.clipLimit * t.pixels ≤ 256 * t.pixels := Nat.mul_le_mul_right _ hf
  omega

/-- The accumulators with one tile's sums in them (R47). -/
def Accumulators.plus (a : Accumulators) (t : Tile) : Accumulators :=
  { rSum := a.rSum + t.rSum, gSum := a.gSum + t.gSum, bSum := a.bSum + t.bSum, accepted := a.accepted + 1 }

theorem Accumulators.plus_right_comm (a : Accumulators) (t u : Tile) :
    (a.plus t).plus u = (a.plus u).plus t := by
  simp only [plus, Nat.add_right_comm]

theorem addTile_of_accepted {f : FilterSettings} {t : Tile} (ht : t.pixels ≠ 0 ∧ accepts f t = true)
    (a : Accumulators) : addTile f a t = a.plus t :=
  if_pos ht

theorem addTile_of_not_accepted {f : FilterSettings} {t : Tile} (ht : ¬ (t.pixels ≠ 0 ∧ accepts f t = true))
    (a : Accumulators) : addTile f a t = a :=
  if_neg ht

/-- Whether a tile is accepted does not depend on the sums, so two tiles may change places. -/
theorem addTile_right_comm (f : FilterSettings) (a : Accumulators) (t u : Tile) :
    addTile f (addTile f a t) u = addTile f (addTile f a u) t := by
  by_cases ht : t.pixels ≠ 0 ∧ accepts f t = true
  · by_cases hu : u.pixels ≠ 0 ∧ accepts f u = true
    · simp only [addTile_of_accepted ht, addTile_of_accepted hu, a.plus_right_comm t u]
    · simp only [addTile_of_not_accepted hu]
  · simp only [addTile_of_not_accepted ht]

/-- Settles O45: the filter's tests one by one, and the sums in any order of the tiles. -/
theorem tileFilter : Obligations.TileFilter := by
  unfold Obligations.TileFilter
  refine ⟨fun f t _ => ?tests, fun f t => accepts_of_pixels_lt_clipped, fun f a t ht => ?skipped,
    fun f a t hp ha => addTile_of_accepted ⟨hp, ha⟩ a, fun f ts us hperm => ?order⟩
  case tests =>
    rw [accepts_iff, pairPasses_iff, pairPasses_iff]
    rfl
  case skipped =>
    refine addTile_of_not_accepted (fun ⟨hp, ha⟩ => ?_) a
    rcases ht with h0 | hr
    · exact hp h0
    · rw [hr] at ha
      cases ha
  case order =>
    exact hperm.foldl_eq' (fun t _ u _ a => addTile_right_comm f a t u) Accumulators.zero

end Sys2Proof.Machine

/-! O46: the quality of an estimate with its reason (R48), and the blue share (R49). -/

namespace Sys2Proof.Machine

/-! ## The reason -/

theorem weakReason_fewTiles_iff (f : FilterSettings) (a : Accumulators) :
    weakReason f a = .fewTiles ↔ a.accepted < f.aMin := by
  unfold weakReason
  split_ifs <;> simp [*]

theorem weakReason_noChroma_iff (f : FilterSettings) (a : Accumulators) :
    weakReason f a = .noChroma ↔ f.aMin ≤ a.accepted ∧ a.rSum + a.bSum = 0 := by
  unfold weakReason
  split_ifs with hfew hsum
  · simp [hfew]
  · simp [hsum, Nat.le_of_not_lt hfew]
  · exact iff_of_false nofun fun h => hsum h.2

/-! ## The blue share -/

theorem blueShare_of_sum_eq_zero {a : Accumulators} (h : a.rSum + a.bSum = 0) : blueShare a = 0 :=
  if_pos h

theorem blueShare_of_sum_pos {a : Accumulators} (h : 0 < a.rSum + a.bSum) :
    blueShare a = 4096 * a.bSum / (a.rSum + a.bSum) :=
  if_neg h.ne'

theorem blueShare_le (a : Accumulators) : blueShare a ≤ 4096 := by
  rcases Nat.eq_zero_or_pos (a.rSum + a.bSum) with h | h
  · simp [blueShare_of_sum_eq_zero h]
  · rw [blueShare_of_sum_pos h]
    exact Nat.div_le_of_le_mul (by omega)

/-- The blue share is full where only blue is seen. -/
theorem blueShare_eq_full_iff (a : Accumulators) : blueShare a = 4096 ↔ a.rSum = 0 ∧ a.bSum ≠ 0 := by
  rcases Nat.eq_zero_or_pos (a.rSum + a.bSum) with h | h
  · rw [blueShare_of_sum_eq_zero h]
    omega
  · calc blueShare a = 4096
        ↔ 4096 ≤ 4096 * a.bSum / (a.rSum + a.bSum) := by
          rw [← blueShare_of_sum_pos h]
          exact ⟨Eq.ge, (blueShare_le a).antisymm⟩
      _ ↔ 4096 * (a.rSum + a.bSum) ≤ 4096 * a.bSum := Nat.le_div_iff_mul_le h
      _ ↔ a.rSum = 0 ∧ a.bSum ≠ 0 := by omega

theorem blueShare_eq_zero_iff (a : Accumulators) :
    blueShare a = 0 ↔ a.rSum + a.bSum = 0 ∨ 4096 * a.bSum < a.rSum + a.bSum := by
  rcases Nat.eq_zero_or_pos (a.rSum + a.bSum) with h | h
  · simp [blueShare_of_sum_eq_zero h, h]
  · rw [blueShare_of_sum_pos h, Nat.div_eq_zero_iff]

/-! ## The estimate -/

/-- A GOOD estimate has the measured mired of its blue share (R50). -/
theorem formEstimate_mired_of_good {f : FilterSettings} {a : Accumulators} (h : weakReason f a = .none)
    (ps : List CalPoint) : (formEstimate f ps a).mired = some (measuredMired ps (blueShare a)) :=
  if_pos h

/-- A WEAK estimate has no measured mired (R50). -/
theorem formEstimate_mired_of_weak {f : FilterSettings} {a : Accumulators} (h : weakReason f a ≠ .none)
    (ps : List CalPoint) : (formEstimate f ps a).mired = none :=
  if_neg h

theorem formEstimate_mired_isSome_iff (f : FilterSettings) (ps : List CalPoint) (a : Accumulators) :
    (formEstimate f ps a).mired.isSome = true ↔ weakReason f a = .none := by
  by_cases h : weakReason f a = .none
  · simp [formEstimate_mired_of_good h, h]
  · simp [formEstimate_mired_of_weak h, h]

theorem blueShare_mem_estimateFields (e : Estimate) : (⟨0x2A, 2, e.blueShare⟩ : Field) ∈ estimateFields e := by
  simp [estimateFields]

/-- Settles O46: the reason by the two tests of R48 in order, the blue share by its quotient. -/
theorem qualityAndBlueShare : Obligations.QualityAndBlueShare := by
  unfold Obligations.QualityAndBlueShare
  intro f ps a e
  exact ⟨weakReason_fewTiles_iff f a, weakReason_noChroma_iff f a, formEstimate_mired_isSome_iff f ps a, rfl,
    blueShare_le a, blueShare_of_sum_pos, blueShare_of_sum_eq_zero, blueShare_eq_full_iff a,
    blueShare_eq_zero_iff a, blueShare_mem_estimateFields e⟩

end Sys2Proof.Machine

/-! O47: the measured mired against the point list (R50, R51). -/

namespace Sys2Proof.Machine

/-! ## Two points of an ordered list -/

/-- β rises and the mired falls from one point to a later one (R64). -/
def Follows (p q : CalPoint) : Prop := p.beta < q.beta ∧ q.mired < p.mired

/-- No point of an ordered list has a lower β or a higher mired than the first. -/
theorem first_extreme {p q : CalPoint} {ps : List CalPoint} (ho : (p :: ps).Pairwise Follows) (hq : q ∈ p :: ps) :
    p.beta ≤ q.beta ∧ q.mired ≤ p.mired := by
  rcases List.mem_cons.1 hq with rfl | hmem
  · exact ⟨le_rfl, le_rfl⟩
  · obtain ⟨hbeta, hmired⟩ := (List.pairwise_cons.1 ho).1 q hmem
    exact ⟨hbeta.le, hmired.le⟩

theorem betweenPoints_start (p q : CalPoint) : betweenPoints p q p.beta = p.mired := by
  simp [betweenPoints]

/-- Before the second point's β the interpolated mired has not fallen as far as the second point's. -/
theorem betweenPoints_bounds {p q : CalPoint} {b : Nat} (hf : Follows p q) (hp : p.beta ≤ b) (hq : b < q.beta) :
    q.mired < betweenPoints p q b ∧ betweenPoints p q b ≤ p.mired := by
  obtain ⟨hbeta, hmired⟩ := hf
  have hfall : (p.mired - q.mired) * (b - p.beta) / (q.beta - p.beta) < p.mired - q.mired :=
    Nat.div_lt_of_lt_mul (by
      rw [Nat.mul_comm (q.beta - p.beta)]
      exact Nat.mul_lt_mul_of_pos_left (by omega) (by omega))
  exact ⟨lt_tsub_comm.1 hfall, Nat.sub_le _ _⟩

/-! ## Along the list -/

theorem measuredMired_of_le_head {p : CalPoint} {b : Nat} (h : b ≤ p.beta) (ps : List CalPoint) :
    measuredMired (p :: ps) b = p.mired := by
  cases ps with
  | nil => rfl
  | cons q rest => exact if_pos h

theorem measuredMired_first_segment {p q : CalPoint} {b : Nat} (hp : p.beta ≤ b) (hq : b < q.beta)
    (rest : List CalPoint) : measuredMired (p :: q :: rest) b = betweenPoints p q b := by
  rcases hp.eq_or_lt with rfl | hlt
  · rw [measuredMired_of_le_head le_rfl, betweenPoints_start]
  · rw [measuredMired, if_neg hlt.not_ge, if_pos hq]

theorem measuredMired_past_first {p q : CalPoint} {b : Nat} (hf : Follows p q) (hq : q.beta ≤ b)
    (rest : List CalPoint) : measuredMired (p :: q :: rest) b = measuredMired (q :: rest) b := by
  rw [measuredMired, if_neg (hf.1.trans_le hq).not_ge, if_neg hq.not_gt]

theorem measuredMired_of_last_le {b : Nat} {pl : CalPoint} (hb : pl.beta ≤ b) :
    ∀ {ps : List CalPoint}, ps.Pairwise Follows → ps.getLast? = some pl → measuredMired ps b = pl.mired
  | [p], _, hl => by
    cases hl
    rfl
  | p :: q :: rest, ho, hl => by
    obtain ⟨hp, ho⟩ := List.pairwise_cons.1 ho
    rw [List.getLast?_cons_cons] at hl
    have hq : q.beta ≤ b := (first_extreme ho (List.mem_of_getLast? hl)).1.trans hb
    rw [measuredMired_past_first (hp q List.mem_cons_self) hq]
    exact measuredMired_of_last_le hb ho hl

/-- Within a segment the measured mired is that segment's interpolation (R51). -/
theorem measuredMired_segment {b : Nat} {p q : CalPoint} (hp : p.beta ≤ b) (hq : b < q.beta) :
    ∀ {ps : List CalPoint} {i : Nat}, ps.Pairwise Follows → ps[i]? = some p → ps[i + 1]? = some q →
      measuredMired ps b = betweenPoints p q b
  | x :: y :: rest, 0, _, hx, hy => by
    cases hx
    cases hy
    exact measuredMired_first_segment hp hq rest
  | x :: y :: rest, i + 1, ho, hx, hy => by
    obtain ⟨hfirst, ho⟩ := List.pairwise_cons.1 ho
    rw [List.getElem?_cons_succ] at hx hy
    have hyb : y.beta ≤ b := (first_extreme ho (List.mem_of_getElem? hx)).1.trans hp
    rw [measuredMired_past_first (hfirst y List.mem_cons_self) hyb]
    exact measuredMired_segment hp hq ho hx hy

/-- The measured mired lies between the last point's mired and the first's. -/
theorem measuredMired_range (b : Nat) {pl : CalPoint} :
    ∀ {p : CalPoint} {ps : List CalPoint}, (p :: ps).Pairwise Follows → (p :: ps).getLast? = some pl →
      pl.mired ≤ measuredMired (p :: ps) b ∧ measuredMired (p :: ps) b ≤ p.mired
  | p, [], _, hl => by
    cases hl
    exact ⟨le_rfl, le_rfl⟩
  | p, q :: rest, ho, hl => by
    obtain ⟨hfirst, ho⟩ := List.pairwise_cons.1 ho
    have hf : Follows p q := hfirst q List.mem_cons_self
    rw [List.getLast?_cons_cons] at hl
    have hlq : pl.mired ≤ q.mired := (first_extreme ho (List.mem_of_getLast? hl)).2
    rcases le_total b p.beta with hp | hp
    · rw [measuredMired_of_le_head hp]
      exact ⟨hlq.trans hf.2.le, le_rfl⟩
    · rcases lt_or_ge b q.beta with hq | hq
      · obtain ⟨hlow, hhigh⟩ := betweenPoints_bounds hf hp hq
        rw [measuredMired_first_segment hp hq]
        exact ⟨hlq.trans hlow.le, hhigh⟩
      · obtain ⟨hlow, hhigh⟩ := measuredMired_range b ho hl
        rw [measuredMired_past_first hf hq]
        exact ⟨hlow, hhigh.trans hf.2.le⟩

/-- Points at two places of an ordered list stand in its order. -/
theorem follows_of_getElem? {ps : List CalPoint} {i : Nat} {p q : CalPoint} (ho : ps.Pairwise Follows)
    (hp : ps[i]? = some p) (hq : ps[i + 1]? = some q) : Follows p q := by
  obtain ⟨hi, rfl⟩ := List.getElem?_eq_some_iff.1 hp
  obtain ⟨hj, rfl⟩ := List.getElem?_eq_some_iff.1 hq
  exact List.pairwise_iff_getElem.1 ho i (i + 1) hi hj i.lt_succ_self

/-- Settles O47: by walking the list to the segment that holds the blue share. -/
theorem measuredMiredFollowsTheList : Obligations.MeasuredMiredFollowsTheList := by
  unfold Obligations.MeasuredMiredFollowsTheList
  rintro (_ | ⟨p0, ps⟩) b p pl ⟨-, -, hpoints, ho⟩ hhead hlast
  · cases hhead
  cases hhead
  replace ho : (p0 :: ps).Pairwise Follows := ho
  obtain ⟨hlow, hhigh⟩ := measuredMired_range b ho hlast
  obtain ⟨-, hlast16, -⟩ := hpoints pl (List.mem_of_getLast? hlast)
  obtain ⟨-, -, hfirst16383, -⟩ := hpoints p0 List.mem_cons_self
  refine ⟨fun h => measuredMired_of_le_head h ps, fun h => measuredMired_of_last_le h ho hlast,
    fun i p q hp hq hpb hbq => ?segment, hlow, hhigh, hlast16.trans hlow, hhigh.trans hfirst16383,
    fun f a => ⟨fun h => formEstimate_mired_of_good h _, fun h => formEstimate_mired_of_weak h _⟩⟩
  case segment =>
    rw [measuredMired_segment hpb hbq ho hp hq]
    obtain ⟨hgt, hle⟩ := betweenPoints_bounds (follows_of_getElem? ho hp hq) hpb hbq
    exact ⟨rfl, hgt, hle, fun h => h ▸ betweenPoints_start p q⟩

end Sys2Proof.Machine

/-! O37 and O38: LOAD_CALIBRATION, its checks and its commit (R62 to R67, R176). -/

namespace Sys2Proof.Machine

/-! ## The checks of a list (R64) -/

theorem Follows.trans {p q r : CalPoint} (h : Follows p q) (k : Follows q r) : Follows p r :=
  ⟨h.1.trans k.1, k.2.trans h.2⟩

/-- Each point against the one before it is each point against every earlier one. -/
theorem pointsOrdered_iff (ps : List CalPoint) : pointsOrdered ps = true ↔ ps.Pairwise Follows := by
  have : Trans Follows Follows Follows := ⟨Follows.trans⟩
  rw [← List.isChain_iff_pairwise]
  induction ps using pointsOrdered.induct with
  | case1 => simp [pointsOrdered]
  | case2 p => simp [pointsOrdered]
  | case3 p q rest ih => simp [pointsOrdered, ih, Follows]

theorem pointInRange_iff (p : CalPoint) :
    pointInRange p = true ↔ p.beta ≤ 4096 ∧ 16 ≤ p.mired ∧ p.mired ≤ 16383 ∧ 1024 ≤ p.redGain
      ∧ p.redGain ≤ 16383 ∧ 1024 ≤ p.blueGain ∧ p.blueGain ≤ 16383 := by
  simp only [pointInRange, Bool.and_eq_true, decide_eq_true_eq, and_assoc]

theorem validPoints_iff (ps : List CalPoint) : validPoints ps = true ↔ PointsPass ps := by
  simp only [validPoints, Bool.and_eq_true, List.all_eq_true, pointInRange_iff, pointsOrdered_iff, PointsPass]
  rfl

/-! ## The read phase (R63, R176) -/

theorem pointsAnswer_succ (s : State) (addr n : Nat) :
    PointsAnswer s addr (n + 1)
      ↔ (addr + 32 ≤ 2 ^ 32 ∧ s.bus.answers addr 26 = true) ∧ PointsAnswer s (addr + 32) n := by
  have hi : ∀ i, addr + 32 * (i + 1) = addr + 32 + 32 * i := fun i => by ring
  unfold PointsAnswer
  constructor
  · exact fun h => ⟨h 0 n.succ_pos, fun i hn => hi i ▸ h (i + 1) (Nat.succ_lt_succ hn)⟩
  · rintro ⟨h0, h⟩ (_ | i) hn
    · exact h0
    · exact (hi i).symm ▸ h i (Nat.lt_of_succ_lt_succ hn)

theorem pointsAt_succ (s : State) (addr n : Nat) :
    pointsAt s addr (n + 1) = calPointRecord (s.bus.mem.readLE addr 26) :: pointsAt s (addr + 32) n := by
  have hi : ∀ i, addr + 32 * (i + 1) = addr + 32 + 32 * i := fun i => by ring
  simp only [pointsAt, List.range_succ_eq_map, List.map_cons, List.map_map, Function.comp_def, hi,
    Nat.mul_zero, Nat.add_zero]

theorem onBus_spend_of_noPlan {s : State} (hp : s.bus.failPlan = []) : s.onBus s.bus.spend = s := by
  have hb : s.bus.spend = s.bus := by
    unfold Bus.spend
    rw [hp, List.tail_nil, ← hp]
  rw [hb, onBus_self]

/-- With no planned failure the read of a record answers exactly when its place is in the address space and memory
answers at the bytes read. -/
theorem readPoint_noPlan {s : State} (hp : s.bus.failPlan = []) (addr : Nat) :
    readPoint addr s
      = (if addr + 32 ≤ 2 ^ 32 ∧ s.bus.answers addr 26 = true then some (s.bus.mem.readLE addr 26) else none, s) := by
  unfold readPoint
  by_cases htop : addr + 32 ≤ 2 ^ 32
  · rw [if_pos htop, busRead, spendAccess_eq, onBus_spend_of_noPlan hp, Bus.succeeds_of_noPlan hp]
    simp only [htop, true_and]
  · rw [if_neg htop, if_neg fun h => htop h.1]

/-- With no planned failure the read phase finds the list exactly when every record can be read. -/
theorem readPoints_noPlan {s : State} (hp : s.bus.failPlan = []) (n addr : Nat) :
    (PointsAnswer s addr n → readPoints n addr s = (some (pointsAt s addr n), s))
      ∧ (¬ PointsAnswer s addr n → readPoints n addr s = (none, s)) := by
  induction n generalizing addr with
  | zero => exact ⟨fun _ => rfl, fun h => absurd (fun i hi => absurd hi i.not_lt_zero) h⟩
  | succ n ih =>
    obtain ⟨hall, hnone⟩ := ih (addr + 32)
    rw [pointsAnswer_succ, pointsAt_succ, readPoints, readPoint_noPlan hp]
    by_cases h : addr + 32 ≤ 2 ^ 32 ∧ s.bus.answers addr 26 = true
    · rw [if_pos h]
      exact ⟨fun hl => by simp only [hall hl.2], fun hl => by simp only [hnone fun hr => hl ⟨h, hr⟩]⟩
    · rw [if_neg h]
      exact ⟨fun hl => absurd hl.1 h, fun _ => rfl⟩

/-! ## The checks -/

/-- A directive about to be prepared: the row runs the preparation of its body and goes on with what it decides. -/
theorem runDirective_prepare (k : DirKind) (b : DirBody) {s : State} {j : DirJob} (he : s.ce.engine = .directive j)
    (hn : j.next = .prepare) (hk : j.kind = some k) (hr : j.result = none) :
    runDirective (some k) b .prepare s = advanceDir .effect (b.prepare j.payload s).1 (b.prepare j.payload s).2 := by
  have hskip : ∀ st, st ≠ .prepare → dirStage b s st = s := fun st hst =>
    dirStage_skip b s st fun j' e hn' => by
      cases he.symm.trans e
      exact hst (hn'.symm.trans hn)
  rw [runDirective_applies b .prepare he (by simp [dirRowApplies, hn, hk])]
  show dirStage b (dirStage b (dirStage b (dirStage b s .take) .kind) .payload) .prepare = _
  rw [hskip .take nofun, hskip .kind nofun, hskip .payload nofun, dirStage_work b he hn]
  exact if_neg (by simp [hr])

/-- What the preparation decides goes into the job in hand. -/
theorem advanceDir_prepared {s : State} {j : DirJob} {r : Option ResultCode} (he : s.ce.engine = .directive j)
    (hr : j.result = none) : advanceDir .effect r s = putDirJob { j with next := .effect, result := r } s := by
  unfold advanceDir
  simp only [he, hr, Option.or_none]

/-- The load buffer replaced. -/
def buffered (ps : List CalPoint) (s : State) : State := { s with cs := { s.cs with loadBuffer := ps } }

theorem prepareLoad_badCount {p : Nat} (h : field p 4 2 < 2 ∨ 12 < field p 4 2) (s : State) :
    prepareLoad p s = (some .refusedValue, s) :=
  if_pos h

/-- What the load makes of the read phase's answer (R63, R64). -/
def readDecided : Option (List CalPoint) → State → Option ResultCode × State
  | none, t => (some .busError, buffered [] t)
  | some ps, t => if validPoints ps then (none, buffered ps t) else (some .refusedValue, buffered [] t)

theorem prepareLoad_counted {p : Nat} (h2 : 2 ≤ field p 4 2) (h12 : field p 4 2 ≤ 12) (s : State) :
    prepareLoad p s = readDecided (readPoints (field p 4 2) (field p 0 4) s).1
      (readPoints (field p 4 2) (field p 0 4) s).2 := by
  unfold prepareLoad
  dsimp only
  rw [if_neg (by omega)]
  generalize readPoints (field p 4 2) (field p 0 4) s = r
  obtain ⟨_ | ps, t⟩ := r <;> rfl

/-- Settles O37, by the three phases of the preparation: the count, the read phase, the validation. -/
theorem loadCalibrationChecks : Obligations.LoadCalibrationChecks := by
  unfold Obligations.LoadCalibrationChecks
  rintro s j addr n he hn hk hr hp rfl rfl
  obtain ⟨hall, hnone⟩ := readPoints_noPlan hp (field j.payload 4 2) (field j.payload 0 4)
  have decided {r : Option ResultCode} {t : State} (h : prepareLoad j.payload s = (r, t))
      (ht : t.ce.engine = s.ce.engine) :
      exec (.loadCalibration .prepare) s = .next (putDirJob { j with next := .effect, result := r } t) := by
    show Host.Outcome.next (runDirective _ _ _ s) = _
    rw [runDirective_prepare .loadCalibration _ he hn hk hr]
    dsimp only
    rw [h, advanceDir_prepared (ht.trans he) hr]
  refine ⟨fun hc => decided (prepareLoad_badCount hc s) rfl, fun h2 h12 ha => decided ?_ rfl,
    fun h2 h12 ha hv => decided ?_ rfl, fun h2 h12 ha hv => decided ?_ rfl⟩
  all_goals rw [prepareLoad_counted h2 h12]
  · rw [hnone ha]
    rfl
  · rw [hall ha]
    exact if_neg fun h => hv ((validPoints_iff _).1 h)
  · rw [hall ha]
    exact if_pos ((validPoints_iff _).2 hv)

/-! ## The commit (R65 to R67) -/

/-- The clamp of the commit leaves a context in range alone and brings any other to the nearer end (R66). -/
theorem clampContext_eq (c : Cs) (x : Context) :
    clampContext c x =
      if storeBottom c ≤ x.mired ∧ x.mired ≤ storeTop c then x
      else { x with mired := if storeTop c < x.mired then storeTop c else storeBottom c,
                    generation := x.generation + 1 } := by
  unfold clampContext intoRange
  by_cases h : storeBottom c ≤ x.mired ∧ x.mired ≤ storeTop c
  · obtain ⟨hlow, hhigh⟩ := h
    rw [if_neg hhigh.not_gt, if_neg hlow.not_gt, if_pos rfl, if_pos ⟨hlow, hhigh⟩]
  · rw [if_neg h]
    by_cases htop : storeTop c < x.mired
    · simp only [if_pos htop, if_neg htop.ne]
    · have hbot : x.mired < storeBottom c := by omega
      simp only [if_neg htop, if_pos hbot, if_neg hbot.ne']

/-- What the commit with its status writes does (R65 to R67, R70, R94). -/
theorem commitEffect_shown (p : Nat) (s : State) :
    Shown (StatusBytes s) (commitState s) (commitEffect p s).2 :=
  Shown.status (s := commitState s) (rewrite_shown [.it] s (commitState s))
    (putStatus_shown .cs _ _ (ownerFields_bound .cs _))

/-- Settles O38: the commit's one update, whose clamp is that of R66. -/
theorem loadCalibrationCommits : Obligations.LoadCalibrationCommits := by
  unfold Obligations.LoadCalibrationCommits
  rintro s p j _ h hc rfl
  obtain ⟨b, hw, e⟩ := effect_shown .loadCalibration { prepare := prepareLoad, effect := commitEffect } s
    (commitState s) _ p j .done (StatusBytes s) h hc rfl rfl rfl h.1 (commitEffect_shown p s)
  refine ⟨b, hw, (congrArg Host.Outcome.next e).trans ?_⟩
  have hclamp : clampContext (committedStore s.cs) = _ := funext (clampContext_eq (committedStore s.cs))
  unfold commitState
  rw [hclamp]
  rfl

end Sys2Proof.Machine

/-! The law of the calibration store (R60, R61, R64, R66) under the part's shared operations, those of its blocks and
the two resets. -/

namespace Sys2Proof.Machine

/-! ## The law -/

/-- What R60, R61 and R66 say of the store and of the contexts. -/
structure StoreSound (s : State) : Prop where
  good : s.cs.valid = true → GoodList s.cs.points
  empty : s.cs.valid = false → s.cs.points = []
  tracked : TrackedLaw s

/-- A load about to commit has a list that met the checks in its buffer (R64). -/
def LoadReady (s : State) : Prop := ∀ j p, AtEffect s .loadCalibration p j → GoodList s.cs.loadBuffer

/-- The law that every step keeps. -/
structure Calibrated (s : State) : Prop extends StoreSound s where
  ready : LoadReady s

theorem calibrated_iff (s : State) : Calibrated s ↔ StoreLaw s ∧ TrackedLaw s :=
  ⟨fun ⟨⟨hg, he, ht⟩, hl⟩ => ⟨⟨hg, he, hl⟩, ht⟩, fun ⟨⟨hg, he, hl⟩, ht⟩ => ⟨⟨hg, he, ht⟩, hl⟩⟩

/-- An update beside the store's list and the contexts. -/
theorem StoreSound.of_same {s t : State} (h : StoreSound s) (hv : t.cs.valid = s.cs.valid)
    (hp : t.cs.points = s.cs.points) (hx : t.it.contexts = s.it.contexts) : StoreSound t := by
  obtain ⟨hg, he, ht⟩ := h
  refine ⟨hv ▸ hp ▸ hg, hv ▸ hp ▸ he, ?_⟩
  unfold TrackedLaw storeBottom storeTop at ht ⊢
  rwa [hv, hp, hx]

/-- No load is about to commit while no directive stands at its effect. -/
theorem Calibrated.of_idle {s : State} (h : StoreSound s)
    (he : ∀ j, s.ce.engine = .directive j → j.next ≠ .effect) : Calibrated s :=
  ⟨h, fun j _ ⟨hj, hn, _⟩ => absurd hn (he j hj)⟩

theorem Calibrated.of_free {s : State} (h : StoreSound s) (he : s.ce.engine = .free) : Calibrated s :=
  .of_idle h fun _ hj => nomatch he.symm.trans hj

/-- An update beside the load buffer and the engine. -/
theorem Calibrated.update {s t : State} (h : Calibrated s) (ht : StoreSound t)
    (hl : t.cs.loadBuffer = s.cs.loadBuffer) (he : t.ce.engine = s.ce.engine) : Calibrated t := by
  refine ⟨ht, fun j p ⟨hj, hrest⟩ => ?_⟩
  rw [hl]
  exact h.ready j p ⟨he ▸ hj, hrest⟩

/-- An update beside the store, the contexts and the engine. -/
theorem Calibrated.of_same {s t : State} (h : Calibrated s) (hc : t.cs = s.cs)
    (hx : t.it.contexts = s.it.contexts) (he : t.ce.engine = s.ce.engine) : Calibrated t :=
  h.update (h.toStoreSound.of_same (congrArg _ hc) (congrArg _ hc) hx) (congrArg _ hc) he

/-! ## Accesses -/

theorem StoreSound.shown {P : Nat → Prop} {s t : State} (h : StoreSound s) (k : Shown P s t) : StoreSound t := by
  obtain ⟨c, -, rfl⟩ | ⟨-, -, x, c, -, rfl⟩ := k
  · exact h.of_same rfl rfl rfl
  · exact h.of_same rfl rfl rfl

theorem Calibrated.onBus {s : State} (h : Calibrated s) (b : Bus) : Calibrated (s.onBus b) := h.of_same rfl rfl rfl

/-- The entry to FAULTED leaves the engine FREE (R38) and of the store the load buffer alone changed (R69). -/
theorem Calibrated.faulted {s : State} (h : Calibrated s) (k : FaultKind) : Calibrated (faultedState k s) :=
  .of_free (h.toStoreSound.of_same rfl rfl rfl) (faultedState_engine k s)

theorem Calibrated.shown {P : Nat → Prop} {s t : State} (h : Calibrated s) (k : Shown P s t) : Calibrated t := by
  obtain ⟨c, -, rfl⟩ | ⟨-, -, x, c, -, rfl⟩ := k
  · exact h.onBus c
  · exact (h.faulted x).onBus c

theorem enterFault_calibrated (k : FaultKind) {s : State} (h : Calibrated s) : Calibrated (enterFault k s) := by
  obtain ⟨c, -, e⟩ := enterFault_spec k s
  rw [e]
  split
  · exact h.onBus c
  · exact (h.faulted k).onBus c

theorem busRead_calibrated {s t : State} {a n : Nat} {o : Option Nat} (hr : busRead s a n = (o, t))
    (h : Calibrated s) : Calibrated t := by
  cases busRead_onBus hr
  exact h.onBus _

theorem readSpans_calibrated {s t : State} {a : Nat} {ps : List (Nat × Nat)} {o : Option Nat}
    (hr : readSpans s a ps = (o, t)) (h : Calibrated s) : Calibrated t := by
  obtain ⟨c, -, e, -⟩ := readSpans_spec s a ps
  rw [hr] at e
  cases (show t = s.onBus c from e)
  exact h.onBus c

/-- A record's writing changes nothing but the bus, or ends with the fault of its kind. -/
theorem writeFields_ends {k : FaultKind} {fs : List Field} {s t : State} {ok : Bool}
    (hw : writeFields k fs s = (ok, t)) : ∃ c, t = s.onBus c ∨ t = enterFault k (s.onBus c) := by
  induction fs generalizing s with
  | nil =>
    cases hw
    exact ⟨_, .inl rfl⟩
  | cons f fs ih =>
    obtain ⟨c, hc, -⟩ := busWrite_spec s f
    unfold writeFields at hw
    split at hw <;> rename_i u hu <;> rw [hu] at hc <;> cases (show u = s.onBus c from hc)
    · exact ih (s := s.onBus c) hw
    · cases hw
      exact ⟨c, .inr rfl⟩

theorem writeFields_calibrated {k : FaultKind} {fs : List Field} {s t : State} {ok : Bool}
    (hw : writeFields k fs s = (ok, t)) (h : Calibrated s) : Calibrated t := by
  obtain ⟨c, rfl | rfl⟩ := writeFields_ends hw
  · exact h.onBus c
  · exact enterFault_calibrated k (h.onBus c)

/-- After a failed write of a result code the write of ENDED changes nothing but the bus and the count of free values
(R173). -/
theorem staleEnded_eq (s : State) : ∃ c, staleEnded s = ({ s with freeUses := s.freeUses + 1 } : State).onBus c := by
  unfold staleEnded
  dsimp only
  split
  · obtain ⟨c, e, -⟩ := busWrite_spec { s with freeUses := s.freeUses + 1 }
      ⟨slotAddr { s with freeUses := s.freeUses + 1 }, 4, Config.slotEnded⟩
    exact ⟨c, e⟩
  · exact ⟨s.bus, rfl⟩

/-! ## Shared operations -/

section
variable {t : State}

theorem rewrite_calibrated (os : List Owner) (before : State) (h : Calibrated t) :
    Calibrated (rewrite os before t) :=
  h.shown (rewrite_shown os before t)

theorem rewriteAll_calibrated (h : Calibrated t) : Calibrated (rewriteAll t) := h.shown (rewriteAll_shown t)

theorem rewriteHeaders_calibrated (before : State) (h : Calibrated t) : Calibrated (rewriteHeaders before t) :=
  h.shown (rewriteHeaders_shown before t)

theorem writeHeader_calibrated (b : BankIx) (h : Calibrated t) : Calibrated (writeHeader b t) :=
  h.shown (writeHeader_shown b t)

theorem setCauseIf_calibrated (p : Bool) (c : Cause) (h : Calibrated t) : Calibrated (setCauseIf p c t) :=
  Calibrated.shown (s := causedState p c t) (h.of_same rfl rfl rfl) (setCauseIf_shown p c t)

theorem setCause_calibrated (c : Cause) (h : Calibrated t) : Calibrated (setCause c t) :=
  setCauseIf_calibrated true c h

theorem deliver_calibrated (e : MonEvent) (h : Calibrated t) : Calibrated (deliver e t) :=
  Calibrated.shown (s := deliveredState e t) (h.of_same rfl rfl rfl) (deliver_shown e t)

theorem retire_calibrated (h : Calibrated t) : Calibrated (retire t) :=
  Calibrated.shown (s := retiredState t) (h.of_same rfl rfl rfl) (retire_shown t)

theorem dropQuery_calibrated (h : Calibrated t) : Calibrated (dropQuery t) :=
  Calibrated.shown (s := droppedState t) (h.of_same rfl rfl rfl) (dropQuery_shown t)

theorem cutActions_calibrated (cut : Bool) (h : Calibrated t) : Calibrated (cutActions cut t) :=
  Calibrated.shown (s := cutState cut t) (h.of_same rfl rfl rfl) (cutActions_shown cut t)

theorem swap_calibrated (h : Calibrated t) : Calibrated (swap t) := by
  have hs : Calibrated (swappedState t) := by
    unfold swappedState
    split
    · exact h
    · exact h.of_same rfl rfl rfl
  exact hs.shown (swap_shown t)

theorem sweep_calibrated (h : Calibrated t) : Calibrated (sweep t) := by
  by_cases hr : t.aiu.run = .running
  · rcases sweep_shown t hr with k | ⟨-, k⟩
    · exact Calibrated.shown (s := sweptState t) (h.of_same rfl rfl rfl) k
    · exact Calibrated.shown (s := clearedClaims t) (h.of_same rfl rfl rfl) k
  · rwa [sweep_not_running t hr]

/-- A job just granted is not at its effect. -/
theorem grantedState_calibrated (c : Claimant) (h : Calibrated t) : Calibrated (grantedState c t) := by
  unfold grantedState
  split
  · split
    · exact h
    · exact .of_idle (h.toStoreSound.of_same rfl rfl rfl) nofun
  · split
    · exact .of_idle (h.toStoreSound.of_same rfl rfl rfl) fun _ e => by cases e; nofun
    · split
      · exact h
      · exact .of_idle (h.toStoreSound.of_same rfl rfl rfl) nofun

theorem grant_calibrated (h : Calibrated t) : Calibrated (grant t) := by
  have hg : Calibrated (afterGrant t) := by
    unfold afterGrant
    split
    · split
      · exact h
      · exact grantedState_calibrated _ h
    · exact h
  exact hg.shown (grant_shown t)

theorem sweepAndGrant_calibrated (h : Calibrated t) : Calibrated (sweepAndGrant t) :=
  grant_calibrated (sweep_calibrated h)

theorem releaseEngine_calibrated (e : Option (JobEnding × JobKind)) (h : Calibrated t) :
    Calibrated (releaseEngine e t) :=
  Calibrated.shown (s := releasedState e t) (.of_free (h.toStoreSound.of_same rfl rfl rfl) rfl)
    (releaseEngine_shown e t)

theorem fallFree_calibrated (e : Option (JobEnding × JobKind)) (h : Calibrated t) : Calibrated (fallFree e t) :=
  sweepAndGrant_calibrated (releaseEngine_calibrated e h)

end

/-! ## The calibrated range (R66) -/

theorem storeBottom_le_storeTop {c : Cs} (h : GoodList c.points) : storeBottom c ≤ storeTop c := by
  obtain ⟨h2, -, -, ho⟩ := h
  unfold storeBottom storeTop
  generalize c.points = ps at h2 ho
  rcases ps with _ | ⟨p, ps⟩
  · simp at h2
  · rw [List.getLast?_eq_getLast_of_ne_nil (List.cons_ne_nil p ps)]
    exact (first_extreme ho (List.getLast_mem _)).2

theorem intoRange_bounds {c : Cs} (h : GoodList c.points) (m : Nat) :
    storeBottom c ≤ intoRange c m ∧ intoRange c m ≤ storeTop c := by
  have := storeBottom_le_storeTop h
  unfold intoRange
  split
  · omega
  · split <;> omega

/-- One context replaced by one in the calibrated range. -/
theorem StoreSound.set_context {s t : State} (h : StoreSound s) (i : Fin 4) (x : Context) (hc : t.cs = s.cs)
    (ht : t.it.contexts = s.it.contexts.set i (some x))
    (hx : s.cs.valid = true → storeBottom s.cs ≤ x.mired ∧ x.mired ≤ storeTop s.cs) : StoreSound t := by
  refine ⟨hc ▸ h.good, hc ▸ h.empty, ?_⟩
  unfold TrackedLaw
  rw [hc, ht]
  intro hv k y hy
  by_cases hk : k = i
  · subst hk
    rw [Quad.get_set_eq] at hy
    cases hy
    exact hx hv
  · rw [Quad.get_set_ne _ _ _ _ hk] at hy
    exact h.tracked hv k y hy

/-! ## The tracker step (R83 to R90) -/

/-- The slew does not leave the way from the applied mired to the target (R89). -/
theorem slewed_between (st : ContextSettings) (m target : Nat) :
    min m target ≤ slewed st m target ∧ slewed st m target ≤ max m target := by
  unfold slewed
  split
  · omega
  · split <;> omega

/-- A step keeps the applied mired of its context in the calibrated range. -/
theorem decideStep_bounds {x : Context} {s : State} (h : StoreSound s) (hv : s.cs.valid = true)
    (hx : storeBottom s.cs ≤ x.mired ∧ x.mired ≤ storeTop s.cs) :
    storeBottom s.cs ≤ (decideStep x s).mired ∧ (decideStep x s).mired ≤ storeTop s.cs := by
  have htarget : ∀ vs, storeBottom s.cs ≤ targetOf s.cs x.settings vs
      ∧ targetOf s.cs x.settings vs ≤ storeTop s.cs := fun vs => by
    rw [targetOf, if_pos hv]
    exact intoRange_bounds (h.good hv) _
  unfold decideStep
  dsimp only
  split
  · exact hx
  · split
    · exact hx
    · have ht := htarget (sourceValues (sourcesAt x.settings s))
      split
      · exact ht
      · have hs := slewed_between x.settings x.mired
          (targetOf s.cs x.settings (sourceValues (sourcesAt x.settings s)))
        exact ⟨(le_min hx.1 ht.1).trans hs.1, hs.2.trans (max_le hx.2 ht.2)⟩

theorem steppedContext_mired (x : Context) (d : StepDecision) : (steppedContext x d).mired = d.mired := by
  unfold steppedContext
  split
  · rename_i h
    exact h.symm
  · rfl

theorem takeStep_calibrated {s : State} (h : Calibrated s) : Calibrated (takeStep s) := by
  cases hx : s.it.contexts.get s.it.active with
  | none =>
    unfold takeStep
    rw [hx]
    exact h
  | some x =>
    have hs : StoreSound (deliveredState (stepEvent (decideStep x s)) (steppedState x (decideStep x s) s)) :=
      h.toStoreSound.set_context s.it.active (steppedContext x (decideStep x s)) rfl rfl fun hv => by
        rw [steppedContext_mired]
        exact decideStep_bounds h.toStoreSound hv (h.tracked hv s.it.active x hx)
    exact (h.update hs rfl rfl).shown (takeStep_shown s x hx)

theorem trackerStep_calibrated {s : State} (h : Calibrated s) : Calibrated (trackerStep s) := by
  unfold trackerStep
  split
  · exact takeStep_calibrated (h.of_same rfl rfl rfl)
  · exact h

/-! ## The pod link and the timers -/

section
variable {s : State}

theorem endMiss_calibrated (h : Calibrated s) : Calibrated (endMiss s) :=
  Calibrated.shown (s := missedState s) (h.of_same rfl rfl rfl) (endMiss_shown s)

theorem judge_calibrated (k : ExchangeKind) (cs : List RxChar) (h : Calibrated s) : Calibrated (judge k cs s) := by
  unfold judge
  split
  · cases k
    · exact Calibrated.shown (s := probedState cs s) (h.of_same rfl rfl rfl) (endProbe_shown cs s)
    · exact Calibrated.shown (s := readState cs s) (h.of_same rfl rfl rfl) (endRead_shown cs s)
  · exact endMiss_calibrated h

theorem takeChar_calibrated (k : ExchangeKind) (cs : List RxChar) (h : Calibrated s) :
    Calibrated (takeChar k cs s) := by
  unfold takeChar
  split
  · exact judge_calibrated k cs h
  · exact h.of_same rfl rfl rfl

theorem requestSent_calibrated (h : Calibrated s) : Calibrated (requestSent s) := by
  unfold requestSent
  split <;> exact h.of_same rfl rfl rfl

theorem replyWindowExpiry_calibrated (h : Calibrated s) : Calibrated (replyWindowExpiry s) := by
  unfold replyWindowExpiry
  split
  · exact endMiss_calibrated h
  all_goals exact h

theorem replyCharacter_calibrated (c : RxChar) (h : Calibrated s) : Calibrated (replyCharacter c s) := by
  unfold replyCharacter
  split
  · exact takeChar_calibrated _ _ h
  · exact takeChar_calibrated _ _ h
  all_goals exact h

theorem replyGapTimeout_calibrated (h : Calibrated s) : Calibrated (replyGapTimeout s) := by
  unfold replyGapTimeout
  split
  · exact judge_calibrated _ _ h
  all_goals exact h

theorem pollExpiry_calibrated (h : Calibrated s) : Calibrated (pollExpiry s) := by
  unfold pollExpiry
  split
  · dsimp only
    split
    · exact h.of_same rfl rfl rfl
    · exact rewrite_calibrated _ _ (h.of_same rfl rfl rfl)
  · exact h

theorem settleExpiry_calibrated (h : Calibrated s) : Calibrated (settleExpiry s) :=
  Calibrated.shown (s := { s with ct := settleExpired s.ct }) (h.of_same rfl rfl rfl) (settleExpiry_shown s)

theorem countAdvance_calibrated (h : Calibrated s) : Calibrated (countAdvance s) := by
  have ha : Calibrated (rewrite [.aiu] s { s with aiu := advancedAiu s.aiu }) :=
    rewrite_calibrated _ _ (h.of_same rfl rfl rfl)
  exact rewrite_calibrated _ _ (ha.of_same rfl rfl rfl)

theorem frameSync_calibrated (h : Calibrated s) : Calibrated (frameSync s) := by
  have hd : Calibrated (takeDue s) :=
    settleExpiry_calibrated (pollExpiry_calibrated (trackerStep_calibrated h))
  unfold frameSync
  split
  · dsimp only
    split
    · split
      · exact sweepAndGrant_calibrated (retire_calibrated (swap_calibrated (countAdvance_calibrated hd)))
      · exact sweepAndGrant_calibrated hd
    · exact hd
  · exact h

/-! ## The run states and the resets -/

theorem runSet_calibrated (w : BitVec 32) (h : Calibrated s) : Calibrated (runSet w s) := by
  unfold runSet enterRunning
  dsimp only
  split
  · split
    · exact h.of_same rfl rfl rfl
    · refine sweepAndGrant_calibrated (writeHeader_calibrated _ (writeHeader_calibrated _ ?_))
      exact rewriteAll_calibrated (h.of_same rfl rfl rfl)
  · exact h.of_same rfl rfl rfl

theorem runClear_calibrated (w : BitVec 32) (h : Calibrated s) : Calibrated (runClear w s) := by
  unfold runClear
  dsimp only
  split
  · split
    · exact h.of_same rfl rfl rfl
    · exact rewrite_calibrated _ _ (h.of_same rfl rfl rfl)
  · exact h.of_same rfl rfl rfl

theorem drainComplete_calibrated (h : Calibrated s) : Calibrated (drainComplete s) := by
  unfold drainComplete
  split
  · exact h.of_same rfl rfl rfl
  · exact h

/-- An engine reset keeps the store's list and the contexts (R61, R73). -/
theorem engineReset_calibrated (w : BitVec 32) (h : Calibrated s) : Calibrated (engineReset w s) :=
  .of_free (h.toStoreSound.of_same rfl rfl rfl) rfl

/-- A device reset leaves no valid store (R61). -/
theorem deviceReset_calibrated (s : State) : Calibrated (deviceReset s) :=
  .of_free ⟨nofun, fun _ => rfl, nofun⟩ rfl

end

/-! ## The bake -/

theorem rowBoundary_calibrated (b : BankIx) {s : State} (h : Calibrated s) : Calibrated (rowBoundary b s) := by
  unfold rowBoundary
  split
  · split
    · split
      · exact fallFree_calibrated _ h
      · exact h
    · exact sweepAndGrant_calibrated (setCause_calibrated _ (releaseEngine_calibrated _ h))
  · split
    · exact setCause_calibrated _ h
    · exact h

theorem bakeRow_calibrated {s : State} (h : Calibrated s) : Calibrated (bakeRow s) := by
  unfold bakeRow
  split
  case h_1 b _ =>
    split
    case h_1 c look _ =>
      split <;> rename_i u hu <;> have hu := writeFields_calibrated hu h
      · exact hu
      · have hp : Calibrated (putBank b (raisedBank u.aiu.frameCount c look) u) := hu.of_same rfl rfl rfl
        exact rowBoundary_calibrated b (writeHeader_calibrated b hp)
    all_goals exact h
  all_goals exact h

end Sys2Proof.Machine

/-! O55: the law of the calibration store under the jobs of the engine and so under every step. A directive is prepared
and carried out by its own kind's row, so a load commits what its own checks have passed (R62 to R65). -/

namespace Sys2Proof.Machine

/-! ## The take -/

section
variable {s : State} (h : Head) (k : Fin 8)

/-- With a take in hand no load is about to commit. -/
theorem putTake_calibrated (j : TakeJob) (hs : Calibrated s) : Calibrated (putTake h k j s) :=
  .of_idle (hs.toStoreSound.of_same rfl rfl rfl) nofun

theorem afterEnded_calibrated (e : Ending) (n : Bool) (hs : Calibrated s) : Calibrated (afterEnded h e n s) := by
  have hc := setCauseIf_calibrated n .card (releaseEngine_calibrated (some (cardEnding e, .card)) hs)
  unfold afterEnded
  refine sweepAndGrant_calibrated ?_
  split
  · exact deliver_calibrated _ hc
  · exact hc

theorem endCard_calibrated (e : Ending) (n : Bool) (hs : Calibrated s) : Calibrated (endCard h k e n s) := by
  unfold endCard
  split <;> rename_i hw <;> have hw := writeFields_calibrated hw hs
  · exact hw
  · exact afterEnded_calibrated h e n hw

theorem takeReread_calibrated (j : TakeJob) (hs : Calibrated s) : Calibrated (takeReread h k j s) := by
  unfold takeReread
  split <;> rename_i hr <;> have hr := readSpans_calibrated hr hs
  · exact enterFault_calibrated _ hr
  · split
    · exact putTake_calibrated h k _ (hr.of_same rfl rfl rfl)
    · exact fallFree_calibrated _ hr

theorem takeWriteTaken_calibrated (j : TakeJob) (hs : Calibrated s) : Calibrated (takeWriteTaken h k j s) := by
  unfold takeWriteTaken
  split <;> rename_i hw <;> have hw := writeFields_calibrated hw hs
  · exact hw
  · exact putTake_calibrated h k _ hw

theorem takeLastTaken_calibrated (j : TakeJob) (hs : Calibrated s) : Calibrated (takeLastTaken h k j s) := by
  have ht := putTake_calibrated h k { j with next := .finish, lastBefore := s.ciu.lastTaken.get h } hs
  unfold takeLastTaken
  dsimp only
  split
  · exact ht
  · exact rewrite_calibrated _ _ (ht.of_same rfl rfl rfl)

theorem takeFinish_calibrated (j : TakeJob) (hs : Calibrated s) : Calibrated (takeFinish h k j s) := by
  have hc := cutActions_calibrated j.req.cut hs
  unfold takeFinish
  split
  · exact endCard_calibrated h k _ _ hs
  · dsimp only
    split
    · exact rewrite_calibrated _ _ (.of_idle (hc.toStoreSound.of_same rfl rfl rfl) nofun)
    · exact hc

theorem takeStage_calibrated (st : TakeStage) (hs : Calibrated s) : Calibrated (takeStage s st) := by
  unfold takeStage
  split
  case h_1 h k j _ =>
    split
    · cases st
      case reread => exact takeReread_calibrated h k j hs
      case writeTaken => exact takeWriteTaken_calibrated h k j hs
      case checks => exact putTake_calibrated h k _ hs
      case lastTaken => exact takeLastTaken_calibrated h k j hs
      case finish => exact takeFinish_calibrated h k j hs
    · exact hs
  all_goals exact hs

/-! ## The card job -/

/-- With a card job in hand no load is about to commit. -/
theorem putCard_calibrated (j : CardJob) (hs : Calibrated s) : Calibrated (putCard h k j s) :=
  .of_idle (hs.toStoreSound.of_same rfl rfl rfl) nofun

theorem cardCalibration_calibrated (j : CardJob) (hs : Calibrated s) : Calibrated (cardCalibration h k j s) := by
  have hl : Calibrated (rewrite [.ciu] s (putLastTaken h j.lastBefore s)) :=
    rewrite_calibrated _ _ (hs.of_same rfl rfl rfl)
  unfold cardCalibration
  split
  · exact putCard_calibrated h k _ hs
  · dsimp only
    split
    · exact endCard_calibrated h k _ _ hl
    all_goals exact hl

theorem cardTilePass_calibrated (j : CardJob) (hs : Calibrated s) : Calibrated (cardTilePass h k j s) := by
  unfold cardTilePass
  split <;> rename_i hr <;> obtain ⟨b, rfl⟩ := tilePass_onBus hr
  · exact endCard_calibrated h k _ _ (hs.onBus b)
  · exact putCard_calibrated h k _ (hs.onBus b)

theorem cardEstimate_calibrated (j : CardJob) (hs : Calibrated s) : Calibrated (cardEstimate h k j s) := by
  unfold cardEstimate
  dsimp only
  split
  · exact putCard_calibrated h k _ hs
  · exact rewrite_calibrated _ _ (.of_idle (hs.toStoreSound.of_same rfl rfl rfl) nofun)

theorem cardMarks_calibrated (j : CardJob) (hs : Calibrated s) : Calibrated (cardMarks h k j s) :=
  rewrite_calibrated _ _ (putCard_calibrated h k _ (hs.of_same rfl rfl rfl))

theorem cardWriteResult_calibrated (j : CardJob) (hs : Calibrated s) : Calibrated (cardWriteResult h k j s) := by
  unfold cardWriteResult
  split <;> rename_i hw <;> have hw := writeFields_calibrated hw hs
  · exact hw
  · exact putCard_calibrated h k _ hw

theorem cardWriteEnding_calibrated (j : CardJob) (hs : Calibrated s) : Calibrated (cardWriteEnding h k j s) := by
  unfold cardWriteEnding
  split <;> rename_i hw <;> have hw := writeFields_calibrated hw hs
  · exact hw
  · exact putCard_calibrated h k _ hw

theorem cardFinish_calibrated (j : CardJob) (hs : Calibrated s) : Calibrated (cardFinish h k j s) := by
  unfold cardFinish
  split <;> rename_i hw <;> have hw := writeFields_calibrated hw hs
  · exact hw
  · exact afterEnded_calibrated h _ _ hw

theorem cardStage_calibrated (st : CardStage) (hs : Calibrated s) : Calibrated (cardStage s st) := by
  unfold cardStage
  split
  case h_1 h k j _ =>
    split
    · cases st
      case calibration => exact cardCalibration_calibrated h k j hs
      case tilePass => exact cardTilePass_calibrated h k j hs
      case estimate => exact cardEstimate_calibrated h k j hs
      case bankQuery => exact dropQuery_calibrated (putCard_calibrated h k _ hs)
      case marks => exact cardMarks_calibrated h k j hs
      case monitorEvents => exact deliver_calibrated _ (putCard_calibrated h k _ hs)
      case writeResult => exact cardWriteResult_calibrated h k j hs
      case writeEnding => exact cardWriteEnding_calibrated h k j hs
      case finish => exact cardFinish_calibrated h k j hs
      all_goals exact putCard_calibrated h k _ hs
    · exact hs
  all_goals exact hs

end

/-! ## The load (R62 to R67) -/

/-- The read phase leaves everything but the plan alone, and a list it finds has a point for each record (R63). -/
theorem readPoints_found {n addr : Nat} {s t : State} {o : Option (List CalPoint)}
    (h : readPoints n addr s = (o, t)) : (∃ b, t = s.onBus b) ∧ ∀ ps, o = some ps → ps.length = n := by
  have hp {a : Nat} {s t : State} {o : Option Nat} (h : readPoint a s = (o, t)) : ∃ b, t = s.onBus b := by
    unfold readPoint at h
    split at h
    · exact ⟨_, busRead_onBus h⟩
    · cases h
      exact ⟨s.bus, rfl⟩
  induction n generalizing addr s o t with
  | zero =>
    cases h
    exact ⟨⟨s.bus, rfl⟩, fun ps e => by cases e; rfl⟩
  | succ n ih =>
    unfold readPoints at h
    split at h <;> rename_i hrd <;> obtain ⟨b, rfl⟩ := hp hrd
    · cases h
      exact ⟨⟨b, rfl⟩, nofun⟩
    · split at h <;> rename_i hrest <;> obtain ⟨⟨c, rfl⟩, hlen⟩ := ih hrest <;> cases h
      · exact ⟨⟨c, rfl⟩, nofun⟩
      · refine ⟨⟨c, rfl⟩, fun ps e => ?_⟩
        cases e
        exact congrArg Nat.succ (hlen _ rfl)

/-- The preparation of a load leaves the store's list and the contexts alone, and, when it decides no refusal, a list
that met the checks in the load buffer (R62 to R64). -/
theorem prepareLoad_sound (p : Nat) {s : State} (h : StoreSound s) :
    StoreSound (prepareLoad p s).2
      ∧ ((prepareLoad p s).1 = none → GoodList (prepareLoad p s).2.cs.loadBuffer) := by
  by_cases hcount : field p 4 2 < 2 ∨ 12 < field p 4 2
  · rw [prepareLoad_badCount hcount]
    exact ⟨h, nofun⟩
  · have h2 : 2 ≤ field p 4 2 := by omega
    have h12 : field p 4 2 ≤ 12 := by omega
    rw [prepareLoad_counted h2 h12]
    obtain ⟨⟨b, ht⟩, hlen⟩ := readPoints_found (Prod.mk.eta (p := readPoints (field p 4 2) (field p 0 4) s)).symm
    rw [ht]
    cases hps : (readPoints (field p 4 2) (field p 0 4) s).1 with
    | none => exact ⟨h.of_same rfl rfl rfl, nofun⟩
    | some ps =>
      unfold readDecided
      dsimp only
      split
      · rename_i hv
        have hgood : GoodList ps := ⟨hlen ps hps ▸ h2, hlen ps hps ▸ h12, (validPoints_iff ps).1 hv⟩
        exact ⟨h.of_same rfl rfl rfl, fun _ => hgood⟩
      · exact ⟨h.of_same rfl rfl rfl, nofun⟩

theorem clampContext_mired (c : Cs) (x : Context) : (clampContext c x).mired = intoRange c x.mired := by
  unfold clampContext
  split
  · rename_i h
    exact h.symm
  · rfl

/-- The commit of a list that met the checks brings every context into its range (R65, R66). -/
theorem commitState_sound {s : State} (h : GoodList s.cs.loadBuffer) : StoreSound (commitState s) := by
  refine ⟨fun _ => h, nofun, fun _ i x hx => ?_⟩
  have hget : (commitState s).it.contexts.get i = (s.it.contexts.get i).map (clampContext (committedStore s.cs)) :=
    Quad.get_mapIdx (fun _ (x : Option Context) => x.map (clampContext (committedStore s.cs))) s.it.contexts i
  rw [hget, Option.map_eq_some_iff] at hx
  obtain ⟨y, -, rfl⟩ := hx
  rw [clampContext_mired]
  exact intoRange_bounds (c := committedStore s.cs) h y.mired

/-! ## The work of each kind -/

/-- The preparation of any kind, and what it leaves in the load buffer where the kind is a load. -/
theorem kindBody_prepare_sound (row : Option DirKind) (p : Nat) {s : State} (h : StoreSound s) :
    StoreSound ((kindBody row).prepare p s).2
      ∧ (row = some .loadCalibration → ((kindBody row).prepare p s).1 = none →
          GoodList ((kindBody row).prepare p s).2.cs.loadBuffer) := by
  rcases row with _ | k
  · exact ⟨h, nofun⟩
  · cases k
    case loadCalibration =>
      obtain ⟨hs, hb⟩ := prepareLoad_sound p h
      exact ⟨hs, fun _ => hb⟩
    all_goals exact ⟨h, nofun⟩

theorem rewrite_sound {t : State} (os : List Owner) (before : State) (h : StoreSound t) :
    StoreSound (rewrite os before t) :=
  h.shown (rewrite_shown os before t)

theorem rewriteHeaders_sound {t : State} (before : State) (h : StoreSound t) :
    StoreSound (rewriteHeaders before t) :=
  h.shown (rewriteHeaders_shown before t)

theorem setTrackingEffect_sound (p : Nat) {s : State} (h : StoreSound s) :
    StoreSound (setTrackingEffect p s).2 := by
  unfold setTrackingEffect
  cases quadIndex (field p 0 2) with
  | none => exact h
  | some i =>
    cases policyOf (field p 2 2) with
    | none => exact h
    | some policy =>
      refine rewrite_sound _ _ (h.set_context i _ rfl rfl fun hv => ?_)
      cases hx : s.it.contexts.get i with
      | none =>
        show storeBottom s.cs ≤ initialMired s.cs p ∧ initialMired s.cs p ≤ storeTop s.cs
        unfold initialMired
        dsimp only
        rw [if_pos hv]
        exact intoRange_bounds (h.good hv) _
      | some x => exact h.tracked hv i x hx

theorem switchContextEffect_sound (p : Nat) {s : State} (h : StoreSound s) :
    StoreSound (switchContextEffect p s).2 := by
  unfold switchContextEffect
  cases quadIndex (field p 0 2) with
  | none => exact h
  | some i =>
    dsimp only
    cases hx : s.it.contexts.get i with
    | none => exact h
    | some x => exact rewrite_sound _ _ (h.set_context i _ rfl rfl fun hv => h.tracked hv i x hx)

theorem bakeLutEffect_sound (p : Nat) {s : State} (h : StoreSound s) : StoreSound (bakeLutEffect p s).2 := by
  unfold bakeLutEffect
  split
  · exact h
  · split <;> rename_i hr <;> cases busRead_onBus hr
    · exact h.of_same rfl rfl rfl
    · exact rewriteHeaders_sound _ (h.of_same rfl rfl rfl)

theorem abortBakeEffect_sound (p : Nat) {s : State} (h : Calibrated s) : StoreSound (abortBakeEffect p s).2 := by
  have hs := swap_calibrated h
  unfold abortBakeEffect
  dsimp only
  split
  · exact rewriteHeaders_sound _ (hs.toStoreSound.of_same rfl rfl rfl)
  · exact hs.toStoreSound

/-- A directive carried out by its own kind's row. -/
theorem kindBody_effect_sound (row : Option DirKind) {s : State} {j : DirJob} (h : Calibrated s)
    (he : s.ce.engine = .directive j) (hn : j.next = .effect) (hk : j.kind = row) (hr : j.result = none) :
    StoreSound ((kindBody row).effect j.payload s).2 := by
  have same : StoreSound s := h.toStoreSound
  rcases row with _ | k
  · exact same
  · cases k <;> simp only [kindBody]
    case loadCalibration =>
      exact (commitState_sound (h.ready j j.payload ⟨he, hn, hk, rfl, hr⟩)).shown (commitEffect_shown _ s)
    case setTracking => exact setTrackingEffect_sound _ same
    case switchContext => exact switchContextEffect_sound _ same
    case bakeLut => exact bakeLutEffect_sound _ same
    case abortBake => exact abortBakeEffect_sound _ h
    case setOrder =>
      unfold setOrderEffect
      split
      · exact same
      · exact rewrite_sound _ _ (same.of_same rfl rfl rfl)
    case setFilter =>
      unfold setFilterEffect
      split
      · exact same
      · exact same.of_same rfl rfl rfl
    case setGrade =>
      unfold setGradeEffect
      split
      · exact same
      · exact same.of_same rfl rfl rfl
    case setMonitor =>
      unfold setMonitorEffect
      split
      · exact rewrite_sound _ _ (same.of_same rfl rfl rfl)
      all_goals exact same
    all_goals exact rewrite_sound _ _ (same.of_same rfl rfl rfl)

/-! ## The stages of a directive -/

/-- A directive job that stands at a load's effect has the list in the buffer. -/
theorem putDirJob_calibrated {j : DirJob} {s : State} (h : StoreSound s)
    (hl : j.next = .effect → j.kind = some .loadCalibration → j.result = none → GoodList s.cs.loadBuffer) :
    Calibrated (putDirJob j s) := by
  refine ⟨h.of_same rfl rfl rfl, fun j' p ⟨he, hn, hk, _, hr⟩ => ?_⟩
  cases he
  exact hl hn hk hr

theorem advanceDir_calibrated {next : DirStage} {r : Option ResultCode} {t : State} (h : StoreSound t)
    (hl : next = .effect → ∀ j, t.ce.engine = .directive j → j.kind = some .loadCalibration → r = none →
      GoodList t.cs.loadBuffer) : Calibrated (advanceDir next r t) := by
  unfold advanceDir
  split
  case h_1 j he => exact putDirJob_calibrated h fun hn hk hr => hl hn j he hk (Option.or_eq_none_iff.1 hr).1
  all_goals
    rename_i he
    exact .of_idle h fun j hj => nomatch he.symm.trans hj

theorem dirTake_calibrated (j : DirJob) {s : State} (h : Calibrated s) : Calibrated (dirTake j s) := by
  unfold dirTake
  split <;> rename_i hr <;> have hr := busRead_calibrated hr h
  · exact enterFault_calibrated _ hr
  · split
    · split <;> rename_i hw <;> have hw := writeFields_calibrated hw hr
      · exact hw
      · exact putDirJob_calibrated hw.toStoreSound nofun
    · exact fallFree_calibrated _ hr

theorem dirReadKind_calibrated (j : DirJob) {s : State} (h : Calibrated s) : Calibrated (dirReadKind j s) := by
  unfold dirReadKind
  split <;> rename_i hr <;> have hr := busRead_calibrated hr h
  · exact enterFault_calibrated _ hr
  · exact putDirJob_calibrated hr.toStoreSound nofun

theorem dirReadPayload_calibrated (j : DirJob) {s : State} (h : Calibrated s) :
    Calibrated (dirReadPayload j s) := by
  unfold dirReadPayload
  split
  · exact putDirJob_calibrated h.toStoreSound nofun
  · split <;> rename_i hr <;> exact putDirJob_calibrated (readSpans_calibrated hr h).toStoreSound nofun

theorem dirPrepare_calibrated (row : Option DirKind) {j : DirJob} {s : State} (h : Calibrated s)
    (he : s.ce.engine = .directive j) (hk : j.kind = row) : Calibrated (dirPrepare (kindBody row) j s) := by
  obtain ⟨hs, hb⟩ := kindBody_prepare_sound row j.payload h.toStoreSound
  unfold dirPrepare
  split
  · rename_i hr
    refine putDirJob_calibrated h.toStoreSound fun _ _ (hn : j.result = none) => ?_
    simp [hn] at hr
  · refine advanceDir_calibrated hs fun _ j' he' hk' hn => hb ?_ hn
    rcases ((kindBody_keeps row).prepare j.payload s).engine with e | e <;> rw [e] at he'
    · cases he.symm.trans he'
      exact hk.symm.trans hk'
    · cases he'

theorem dirEffect_calibrated (row : Option DirKind) {j : DirJob} {s : State} (h : Calibrated s)
    (he : s.ce.engine = .directive j) (hn : j.next = .effect) (hk : j.kind = row) :
    Calibrated (dirEffect (kindBody row) j s) := by
  unfold dirEffect
  split
  · exact putDirJob_calibrated h.toStoreSound nofun
  · rename_i hr
    exact advanceDir_calibrated (kindBody_effect_sound row h he hn hk (by simpa using hr)) nofun

theorem staleEnded_calibrated {s : State} (h : Calibrated s) : Calibrated (staleEnded s) := by
  obtain ⟨c, e⟩ := staleEnded_eq s
  rw [e]
  exact h.of_same rfl rfl rfl

theorem dirWriteResult_calibrated (j : DirJob) {s : State} (h : Calibrated s) :
    Calibrated (dirWriteResult j s) := by
  unfold dirWriteResult
  split <;> rename_i hw <;> have hw := writeFields_calibrated hw h
  · exact staleEnded_calibrated hw
  · exact putDirJob_calibrated hw.toStoreSound nofun

theorem dirFinish_calibrated (j : DirJob) {s : State} (h : Calibrated s) : Calibrated (dirFinish j s) := by
  unfold dirFinish
  split <;> rename_i hw <;> have hw := writeFields_calibrated hw h
  · exact hw
  · exact sweepAndGrant_calibrated (setCause_calibrated _ (releaseEngine_calibrated _ hw))

/-- A stage of a directive job run by the row that goes on with it. -/
theorem dirStage_calibrated (row : Option DirKind) {s : State} (st : DirStage) (h : Calibrated s)
    (ha : ∀ j, s.ce.engine = .directive j → j.next = st → dirRowApplies row j s = true) :
    Calibrated (dirStage (kindBody row) s st) := by
  by_cases hn : ∀ j, s.ce.engine = .directive j → j.next ≠ st
  · rwa [dirStage_skip _ s st hn]
  · push Not at hn
    obtain ⟨j, he, rfl⟩ := hn
    replace ha := ha j he rfl
    rw [dirStage_work _ he rfl]
    cases hst : j.next <;> simp only [dirRowApplies, hst, beq_iff_eq] at ha
    case take => exact dirTake_calibrated j h
    case kind => exact dirReadKind_calibrated j h
    case payload => exact dirReadPayload_calibrated j h
    case prepare => exact dirPrepare_calibrated row h he ha
    case effect => exact dirEffect_calibrated row h he hst ha
    case result => exact dirWriteResult_calibrated j h
    case finish => exact dirFinish_calibrated j h

/-! ## The row of the job in hand -/

/-- A directive in hand goes on with a row of the table, or, after the first stage, is still to be taken. -/
def GoesOn (row : Option DirKind) (r : Nat) (s : State) : Prop :=
  ∀ j, s.ce.engine = .directive j → dirRowApplies row j s = true ∨ j.next = .take ∧ 0 < r

theorem goesOn_of_free {row : Option DirKind} {r : Nat} {s : State} (h : s.ce.engine = .free) : GoesOn row r s :=
  fun _ e => nomatch h.symm.trans e

theorem JobEnded.goesOn {t : State} (h : JobEnded t) (row : Option DirKind) (r : Nat) : GoesOn row (r + 1) t :=
  fun j e => ((h.dirPast row r.succ_pos).2 j e).imp And.right id

theorem putDirJob_goesOn {row : Option DirKind} {r : Nat} {j : DirJob} {s : State}
    (ha : dirRowApplies row j s = true) : GoesOn row r (putDirJob j s) := fun _ e => by
  cases e
  exact .inl ha

theorem enterFault_keeps (k : FaultKind) (s : State) : KeepsJob s (enterFault k s) := by
  by_cases hr : s.aiu.run = .faulted
  · have e : enterFault k s = s := if_pos hr
    rw [e]
    exact .refl s
  · exact .inr (enterFault_free k hr)

theorem writeFields_keeps {k : FaultKind} {fs : List Field} {s t : State} {ok : Bool}
    (hw : writeFields k fs s = (ok, t)) : KeepsJob s t := by
  obtain ⟨c, rfl | rfl⟩ := writeFields_ends hw
  · exact .refl s
  · exact enterFault_keeps k (s.onBus c)

/-- A job kept that goes on with its row in any state. -/
theorem KeepsJob.goesOn {row : Option DirKind} {r : Nat} {s t : State} {j : DirJob} (h : KeepsJob s t)
    (he : s.ce.engine = .directive j) (ha : dirRowApplies row j t = true ∨ j.next = .take ∧ 0 < r) :
    GoesOn row r t := fun j' e => by
  rcases h.engine with e' | e' <;> rw [e'] at e
  · cases he.symm.trans e
    exact ha
  · cases e

theorem dirTake_goesOn {row : Option DirKind} {j : DirJob} {s : State} (he : s.ce.engine = .directive j)
    (hn : j.next = .take) (ha : dirRowApplies row j s = true) : GoesOn row 1 (dirTake j s) := by
  unfold dirTake
  split <;> rename_i t ht <;> cases busRead_onBus ht
  · exact KeepsJob.goesOn (s := s.onBus s.bus.spend) (enterFault_keeps _ _) he (.inr ⟨hn, Nat.one_pos⟩)
  · rename_i v
    cases busRead_some ht
    split
    · rename_i hp
      simp only [dirRowApplies, hn, hp, bne_self_eq_false, Bool.false_or] at ha
      split <;> rename_i hw
      · exact KeepsJob.goesOn (s := s.onBus s.bus.spend) (writeFields_keeps hw) he (.inr ⟨hn, Nat.one_pos⟩)
      · obtain ⟨c, hc, rfl⟩ := writeFields_written hw
        have hk : c.mem.readLE (slotAddr s + 4) 2 = s.bus.mem.readLE (slotAddr s + 4) 2 :=
          hc.readLE fun a h1 _ ⟨f, hf, hb⟩ => by
            cases List.mem_singleton.1 hf
            simp only [Bytes, slotAddr_onBus] at hb
            omega
        refine putDirJob_goesOn ?_
        simpa only [dirRowApplies, onBus_bus, slotAddr_onBus, hk] using ha
    · exact (fallFree_ended _ _).goesOn row 0

theorem dirReadKind_goesOn {row : Option DirKind} {j : DirJob} {s : State} (he : s.ce.engine = .directive j)
    (hn : j.next = .kind) (ha : dirRowApplies row j s = true) : GoesOn row 2 (dirReadKind j s) := by
  unfold dirReadKind
  split <;> rename_i t ht <;> cases busRead_onBus ht
  · by_cases hr : s.aiu.run = .faulted
    · rw [enterFault, if_pos (by exact hr)]
      intro j' e
      cases he.symm.trans e
      simp only [dirRowApplies, hn] at ha ⊢
      exact .inl ha
    · exact goesOn_of_free (enterFault_free _ (s := s.onBus _) hr)
  · cases busRead_some ht
    simp only [dirRowApplies, hn] at ha
    exact putDirJob_goesOn ha

/-- A directive job moved on after work that keeps the job. -/
theorem advanceDir_goesOn {row : Option DirKind} {r : Nat} {j : DirJob} {s t : State} {next : DirStage}
    {o : Option ResultCode} (he : s.ce.engine = .directive j) (h : KeepsJob s t)
    (ha : ∀ o, dirRowApplies row { j with next := next, result := o } t = true) :
    GoesOn row r (advanceDir next o t) := by
  unfold advanceDir
  rcases h.engine with e | e
  · rw [e, he]
    exact putDirJob_goesOn (ha _)
  · rw [e]
    exact goesOn_of_free e

theorem staleEnded_keeps (s : State) : KeepsJob s (staleEnded s) := by
  obtain ⟨c, e⟩ := staleEnded_eq s
  rw [e]
  exact .of_same rfl rfl

/-- A stage carries the job's row along. -/
theorem dirStage_goesOn {b : DirBody} (hb : b.Keeps) (row : Option DirKind) (s : State) (st : DirStage)
    (h : GoesOn row st.rank s) : GoesOn row (st.rank + 1) (dirStage b s st) := by
  by_cases hn : ∀ j, s.ce.engine = .directive j → j.next ≠ st
  · rw [dirStage_skip b s st hn]
    exact fun j e => (h j e).imp id fun ⟨ht, _⟩ => ⟨ht, Nat.succ_pos _⟩
  · push Not at hn
    obtain ⟨j, he, rfl⟩ := hn
    have ha : dirRowApplies row j s = true := (h j he).resolve_right fun ⟨ht, hp⟩ => by
      rw [ht] at hp
      cases hp
    rw [dirStage_work b he rfl]
    cases hst : j.next
    case take => exact dirTake_goesOn he hst ha
    case kind => exact dirReadKind_goesOn he hst ha
    all_goals
      have hk : (j.kind == row) = true := by simpa only [dirRowApplies, hst] using ha
      have hrow : ∀ t, dirRowApplies row j t = true := fun t => by simpa only [dirRowApplies, hst] using hk
    case payload =>
      show GoesOn row _ (dirReadPayload j s)
      unfold dirReadPayload
      split
      · exact putDirJob_goesOn hk
      · split
        · exact putDirJob_goesOn hk
        · exact putDirJob_goesOn hk
    case prepare =>
      show GoesOn row _ (dirPrepare b j s)
      unfold dirPrepare
      split
      · exact putDirJob_goesOn hk
      · exact advanceDir_goesOn he (hb.prepare _ s) fun _ => hk
    case effect =>
      show GoesOn row _ (dirEffect b j s)
      unfold dirEffect
      split
      · exact putDirJob_goesOn hk
      · exact advanceDir_goesOn he (hb.effect _ s) fun _ => hk
    case result =>
      show GoesOn row _ (dirWriteResult j s)
      unfold dirWriteResult
      split <;> rename_i hw
      · exact ((writeFields_keeps hw).trans (staleEnded_keeps _)).goesOn he (.inl (hrow _))
      · exact putDirJob_goesOn hk
    case finish =>
      show GoesOn row _ (dirFinish j s)
      unfold dirFinish
      split <;> rename_i hw
      · exact (writeFields_keeps hw).goesOn he (.inl (hrow _))
      · exact (sweepAndGrant_ended ((setCause_keeps (.refl _)).free (releaseEngine_free _ _))).goesOn row _

theorem runDirective_calibrated (row : Option DirKind) (u : DirStage) {s : State} (h : Calibrated s) :
    Calibrated (runDirective row (kindBody row) u s) := by
  rcases runDirective_cases row (kindBody row) s with e | ⟨⟨j, he, ha⟩, e⟩
  · rwa [e u]
  · rw [e u]
    have hg : GoesOn row 0 s := fun j' e => by
      cases he.symm.trans e
      exact .inl ha
    refine (foldl_reached (Q := fun r t => Calibrated t ∧ GoesOn row r t) (fun t st ⟨hc, hg⟩ => ⟨?_, ?_⟩)
      (DirStage.upTo_eq u).2 ⟨h, hg⟩).1
    · refine dirStage_calibrated row st hc fun j e hn => (hg j e).resolve_right fun ⟨ht, hp⟩ => ?_
      rw [← hn, ht] at hp
      cases hp
    · exact dirStage_goesOn (kindBody_keeps row) row t st hg

/-! ## Every command -/

theorem exec_calibrated (c : Instr) (s t : State) (hs : Calibrated s) (h : exec c s = .next t) : Calibrated t := by
  have dir (row : Option DirKind) (u : DirStage) (e : exec (directiveRow row u) s = .next t) : Calibrated t := by
    rw [exec_directiveRow] at e
    cases e
    exact runDirective_calibrated row u hs
  cases c
  case refusedKind u => exact dir none u h
  case setOrder u => exact dir (some .setOrder) u h
  case setFilter u => exact dir (some .setFilter) u h
  case loadCalibration u => exact dir (some .loadCalibration) u h
  case setTracking u => exact dir (some .setTracking) u h
  case switchContext u => exact dir (some .switchContext) u h
  case snap u => exact dir (some .snap) u h
  case setGrade u => exact dir (some .setGrade) u h
  case bakeLut u => exact dir (some .bakeLut) u h
  case abortBake u => exact dir (some .abortBake) u h
  case setCadence u => exact dir (some .setCadence) u h
  case setPod u => exact dir (some .setPod) u h
  case setMonitor u => exact dir (some .setMonitor) u h
  case setFreeze u => exact dir (some .setFreeze) u h
  case clearMonitor u => exact dir (some .clearMonitor) u h
  all_goals cases h
  case frameSync => exact frameSync_calibrated hs
  case retirement => exact retire_calibrated hs
  case trackerStep => exact trackerStep_calibrated hs
  case pollExpiry => exact pollExpiry_calibrated hs
  case settleExpiry => exact settleExpiry_calibrated hs
  case requestSent => exact requestSent_calibrated hs
  case replyWindowExpiry => exact replyWindowExpiry_calibrated hs
  case replyCharacter data parity stop => exact replyCharacter_calibrated _ hs
  case replyGapTimeout => exact replyGapTimeout_calibrated hs
  case take u => exact List.foldlRecOn _ _ hs fun _ hb st _ => takeStage_calibrated st hb
  case cardJob u => exact List.foldlRecOn _ _ hs fun _ hb st _ => cardStage_calibrated st hb
  case bakeRow => exact bakeRow_calibrated hs
  case drainComplete => exact drainComplete_calibrated hs
  case runSet w => exact runSet_calibrated w hs
  case runClear w => exact runClear_calibrated w hs
  case engineReset w => exact engineReset_calibrated w hs
  case attentionMaskWrite w =>
    cases controlRun w
    · exact runClear_calibrated w hs
    · exact runSet_calibrated w hs
  case areaWrite w =>
    show Calibrated (areaWrite w s)
    unfold areaWrite
    split
    · exact hs.of_same rfl rfl rfl
    · exact hs
  case attnWrite w => exact rewrite_calibrated _ _ (hs.of_same rfl rfl rfl)
  case registerWriteIgnored r w => exact hs
  case deviceReset => exact deviceReset_calibrated s

/-- Settles O55: the law is kept by each operation of each command; a load commits the list that its own preparation
has checked. -/
theorem everyStepKeepsTrackedLaw : Obligations.EveryStepKeepsTrackedLaw := by
  unfold Obligations.EveryStepKeepsTrackedLaw
  intro s t hs ht h
  have hc : Calibrated s := (calibrated_iff s).2 ⟨hs, ht⟩
  refine (calibrated_iff t).1 ?_
  unfold step at h
  split at h
  · cases h
    exact hc
  · refine exec_calibrated _ _ t ?_ h
    exact hc.of_same rfl rfl rfl

end Sys2Proof.Machine

/-! The tracker's step (R83 to R91): the sources and the target they form, the outcomes one by one, and what TRACKER_STEP
leaves of the part. -/

namespace Sys2Proof.Machine

/-! ## The sources and the target (R81, R82, R86, R87) -/

/-- A head counts while its flag is set and its latest estimate is young enough (R81). -/
theorem headSource_eq_some_iff {inSet : Bool} {maxAge count : Nat} {l : Option Latest} {v : Nat} :
    headSource inSet maxAge count l = some v
      ↔ ∃ e, l = some e ∧ inSet = true ∧ count - e.frame ≤ maxAge ∧ v = e.mired := by
  cases l with
  | none => simp [headSource]
  | some e => simp [headSource, and_assoc, eq_comm]

/-- The pod counts while it is linked and its reading is neither quit nor dim, bright enough and young enough (R82). -/
theorem podSource_eq_some_iff {inSet : Bool} {maxAge count : Nat} {m : Mlc} {v : Nat} :
    podSource inSet maxAge count m = some v
      ↔ ∃ r, m.reading = some r ∧ inSet = true ∧ m.link = .linked ∧ r.quit = false ∧ r.dim = false
          ∧ m.luxFloor ≤ r.lux ∧ count - r.stamp ≤ maxAge ∧ v = min r.mired 16383 := by
  unfold podSource
  cases m.reading with
  | none => simp
  | some r =>
    have hv : some (min r.mired 16383) = some v ↔ v = min r.mired 16383 :=
      (Option.some_inj).trans eq_comm
    simp only [Option.ite_none_right_eq_some, hv, and_assoc, Option.some.injEq, exists_eq_left']

theorem sourceValues_eq (x : Sources) : sourceValues x = x.h0.toList ++ x.h1.toList ++ x.pod.toList := by
  obtain ⟨h0, h1, pod⟩ := x
  cases h0 <;> cases h1 <;> cases pod <;> rfl

theorem smallest_least {vs : List Nat} (h : vs ≠ []) : smallest vs ∈ vs ∧ ∀ v ∈ vs, smallest vs ≤ v := by
  obtain ⟨m, hm⟩ := Option.isSome_iff_exists.1 (List.isSome_min?_of_ne_nil h)
  rw [smallest, hm]
  exact List.min?_eq_some_iff.1 hm

theorem largest_greatest {vs : List Nat} (h : vs ≠ []) : largest vs ∈ vs ∧ ∀ v ∈ vs, v ≤ largest vs := by
  obtain ⟨m, hm⟩ := Option.isSome_iff_exists.1 (List.isSome_max?_of_ne_nil h)
  rw [largest, hm]
  exact List.max?_eq_some_iff.1 hm

/-- The clamp into the calibrated range, of a list whose ends are in order (R66). -/
theorem intoRange_eq_clamp {c : Cs} (h : storeBottom c ≤ storeTop c) (m : Nat) :
    intoRange c m = max (storeBottom c) (min (storeTop c) m) := by
  unfold intoRange
  split
  · omega
  · split <;> omega

/-- Settles O17: the two kinds of source, the extremes of the values, and the clamp of the target. -/
theorem sourcesAndTarget : Obligations.SourcesAndTarget := by
  unfold Obligations.SourcesAndTarget
  refine ⟨fun st s => ⟨rfl, rfl, rfl, rfl, sourceValues_eq _⟩, fun _ _ _ _ _ => headSource_eq_some_iff,
    fun _ _ _ _ _ => podSource_eq_some_iff, fun c st vs hvs => ?_⟩
  obtain ⟨hs, hsl⟩ := smallest_least hvs
  obtain ⟨hl, hlg⟩ := largest_greatest hvs
  refine ⟨⟨hs, hl, fun v hv => ⟨hsl v hv, hlg v hv⟩⟩, ?_, fun hv => ?_, fun hv hb => ?_⟩
  · unfold policyTarget spreadOf
    cases st.policy <;> rfl
  · rw [targetOf, hv, if_neg Bool.false_ne_true]
  · rw [targetOf, if_pos hv, intoRange_eq_clamp hb]

/-! ## The slew (R88, R89) -/

theorem apart_le_iff (a b n : Nat) : apart a b ≤ n ↔ -(n : Int) ≤ (a : Int) - b ∧ (a : Int) - b ≤ n := by
  unfold apart
  omega

theorem slewed_inside {st : ContextSettings} {m t : Nat} (h : apart t m ≤ st.holdBand) : slewed st m t = m :=
  if_pos h

theorem slewed_up {st : ContextSettings} {m t : Nat} (h : (st.holdBand : Int) < (t : Int) - m) :
    (slewed st m t : Int) = m + min (st.stepLimit : Int) ((t : Int) - m) := by
  rw [slewed, if_neg (by rw [apart_le_iff]; omega), if_pos (by omega)]
  omega

theorem slewed_down {st : ContextSettings} {m t : Nat} (h : (t : Int) - m < -(st.holdBand : Int)) :
    (slewed st m t : Int) = m - min (st.stepLimit : Int) (-((t : Int) - m)) := by
  rw [slewed, if_neg (by rw [apart_le_iff]; omega), if_neg (by omega)]
  omega

/-- The slew moves by at most the step (R89). -/
theorem slewed_within (st : ContextSettings) (m t : Nat) :
    m ≤ slewed st m t + st.stepLimit ∧ slewed st m t ≤ m + st.stepLimit := by
  unfold slewed
  split
  · omega
  · split <;> omega

/-! ## The outcomes (R84, R85, R88, R89) -/

section
variable {x : Context} {s : State}

/-- The target that the sources of a step form, if one counts (R86, R87). -/
def stepTarget (x : Context) (s : State) : Nat :=
  targetOf s.cs x.settings (sourceValues (sourcesAt x.settings s))

/-- A step forms a target: no pod hold, and a source that counts (R84, R85). -/
def FormsTarget (x : Context) (s : State) : Prop :=
  s.mlc.hold = false ∧ sourceValues (sourcesAt x.settings s) ≠ []

/-- A cause of a snap stands (R88). -/
def SnapCause (s : State) : Prop := s.ct.settleRunning = true ∨ s.it.snapRequest = true

theorem not_snapCause (hc : s.ct.settleRunning = false) (hr : s.it.snapRequest = false) : ¬ SnapCause s := by
  simp [SnapCause, hc, hr]

theorem decideStep_podHold (h : s.mlc.hold = true) :
    decideStep x s = { outcome := .podHold, mired := x.mired, target := none, spread := none,
                       counted := SourceSet.none, slewLimited := false } :=
  if_pos h

theorem decideStep_noSource (h : s.mlc.hold = false) (hv : sourceValues (sourcesAt x.settings s) = []) :
    decideStep x s = { outcome := .noSource, mired := x.mired, target := none, spread := none,
                       counted := SourceSet.none, slewLimited := false } := by
  unfold decideStep
  dsimp only
  rw [if_neg (by simp [h]), if_pos hv]

theorem decideStep_snap (h : FormsTarget x s) (hs : SnapCause s) :
    decideStep x s
      = { outcome := .snapped, mired := stepTarget x s, target := some (stepTarget x s),
          spread := some (spreadOf (sourceValues (sourcesAt x.settings s))),
          counted := countedSet (sourcesAt x.settings s), slewLimited := false } := by
  obtain ⟨hh, hv⟩ := h
  unfold decideStep
  dsimp only
  rw [if_neg (by simp [hh]), if_neg hv]
  exact if_pos hs

theorem decideStep_slew (h : FormsTarget x s) (hs : ¬ SnapCause s) :
    decideStep x s
      = { outcome := if apart (stepTarget x s) x.mired ≤ x.settings.holdBand then .held else .moved,
          mired := slewed x.settings x.mired (stepTarget x s), target := some (stepTarget x s),
          spread := some (spreadOf (sourceValues (sourcesAt x.settings s))),
          counted := countedSet (sourcesAt x.settings s),
          slewLimited := decide (x.settings.holdBand < apart (stepTarget x s) x.mired)
            && decide (x.settings.stepLimit + x.settings.holdBand < apart (stepTarget x s) x.mired) } := by
  obtain ⟨hh, hv⟩ := h
  unfold decideStep
  dsimp only
  rw [if_neg (by simp [hh]), if_neg hv]
  exact if_neg hs

/-- A step that forms no target keeps the applied mired and is no snap (R84, R85). -/
theorem decideStep_unformed (h : ¬ FormsTarget x s) :
    (decideStep x s).mired = x.mired ∧ (decideStep x s).outcome ≠ .snapped := by
  by_cases hh : s.mlc.hold = true
  · rw [decideStep_podHold hh]
    exact ⟨rfl, nofun⟩
  · have hh : s.mlc.hold = false := Bool.not_eq_true _ ▸ hh
    have hv : sourceValues (sourcesAt x.settings s) = [] := by
      by_contra hv
      exact h ⟨hh, hv⟩
    rw [decideStep_noSource hh hv]
    exact ⟨rfl, nofun⟩

/-- A step ends SNAPPED exactly when it forms a target while a cause of a snap stands (R88). -/
theorem decideStep_snapped_iff : (decideStep x s).outcome = .snapped ↔ FormsTarget x s ∧ SnapCause s := by
  by_cases h : FormsTarget x s
  · by_cases hs : SnapCause s
    · rw [decideStep_snap h hs]
      exact iff_of_true rfl ⟨h, hs⟩
    · rw [decideStep_slew h hs]
      refine iff_of_false ?_ fun hc => hs hc.2
      dsimp only
      split <;> nofun
  · exact iff_of_false (decideStep_unformed h).2 fun hc => h hc.1

/-- Only a snap moves by more than the step (R89). -/
theorem decideStep_within (h : (decideStep x s).outcome ≠ .snapped) :
    x.mired ≤ (decideStep x s).mired + x.settings.stepLimit
      ∧ (decideStep x s).mired ≤ x.mired + x.settings.stepLimit := by
  by_cases hf : FormsTarget x s
  · have hs : ¬ SnapCause s := fun hs => h (decideStep_snapped_iff.2 ⟨hf, hs⟩)
    rw [decideStep_slew hf hs]
    exact slewed_within _ _ _
  · rw [(decideStep_unformed hf).1]
    omega

/-- Within the hold band the applied mired stays (R89). -/
theorem decideStep_held (h : FormsTarget x s) (hs : ¬ SnapCause s)
    (hg : apart (stepTarget x s) x.mired ≤ x.settings.holdBand) :
    (decideStep x s).outcome = .held ∧ (decideStep x s).mired = x.mired
      ∧ (decideStep x s).slewLimited = false := by
  rw [decideStep_slew h hs]
  refine ⟨if_pos hg, slewed_inside hg, ?_⟩
  rw [decide_eq_false hg.not_gt, Bool.false_and]

/-- Beyond the hold band the step moves, and is slew-limited when the distance exceeds S + H (R89). -/
theorem decideStep_moved (h : FormsTarget x s) (hs : ¬ SnapCause s)
    (hg : x.settings.holdBand < apart (stepTarget x s) x.mired) :
    (decideStep x s).outcome = .moved
      ∧ (decideStep x s).mired = slewed x.settings x.mired (stepTarget x s)
      ∧ ((decideStep x s).slewLimited = true
        ↔ x.settings.stepLimit + x.settings.holdBand < apart (stepTarget x s) x.mired) := by
  rw [decideStep_slew h hs]
  refine ⟨if_neg hg.not_ge, rfl, ?_⟩
  rw [decide_eq_true hg, Bool.true_and, decide_eq_true_iff]

theorem decideStep_moved_up (h : FormsTarget x s) (hs : ¬ SnapCause s)
    (hg : (x.settings.holdBand : Int) < (stepTarget x s : Int) - x.mired) :
    (decideStep x s).outcome = .moved
      ∧ ((decideStep x s).mired : Int)
        = x.mired + min (x.settings.stepLimit : Int) ((stepTarget x s : Int) - x.mired)
      ∧ ((decideStep x s).slewLimited = true
        ↔ (x.settings.stepLimit + x.settings.holdBand : Int) < (stepTarget x s : Int) - x.mired) := by
  obtain ⟨ho, hm, hl⟩ := decideStep_moved h hs (by unfold apart; omega)
  refine ⟨ho, by rw [hm, slewed_up hg], hl.trans ?_⟩
  unfold apart
  omega

theorem decideStep_moved_down (h : FormsTarget x s) (hs : ¬ SnapCause s)
    (hg : (stepTarget x s : Int) - x.mired < -(x.settings.holdBand : Int)) :
    (decideStep x s).outcome = .moved
      ∧ ((decideStep x s).mired : Int)
        = x.mired - min (x.settings.stepLimit : Int) (-((stepTarget x s : Int) - x.mired))
      ∧ ((decideStep x s).slewLimited = true
        ↔ (x.settings.stepLimit + x.settings.holdBand : Int) < -((stepTarget x s : Int) - x.mired)) := by
  obtain ⟨ho, hm, hl⟩ := decideStep_moved h hs (by unfold apart; omega)
  refine ⟨ho, by rw [hm, slewed_down hg], hl.trans ?_⟩
  unfold apart
  omega

/-- The record of a step that forms a target (R90). -/
theorem decideStep_formed (h : FormsTarget x s) :
    (decideStep x s).target = some (stepTarget x s)
      ∧ (decideStep x s).spread = some (spreadOf (sourceValues (sourcesAt x.settings s)))
      ∧ (decideStep x s).counted = countedSet (sourcesAt x.settings s) := by
  by_cases hs : SnapCause s
  · rw [decideStep_snap h hs]
    exact ⟨rfl, rfl, rfl⟩
  · rw [decideStep_slew h hs]
    exact ⟨rfl, rfl, rfl⟩

/-- Only a snap clears the snap request (R88). -/
theorem steppedState_snapRequest (x : Context) (d : StepDecision) (s : State) :
    (steppedState x d s).it.snapRequest = if d.outcome = .snapped then false else s.it.snapRequest := by
  show (s.it.snapRequest && d.outcome != .snapped) = _
  split <;> simp [*]

end

/-- Settles O16: the outcomes by pod hold, by the sources that count, by the snap and by the distance of the target. -/
theorem stepOutcomes : Obligations.StepOutcomes := by
  unfold Obligations.StepOutcomes
  intro x s vs d t gap
  refine ⟨decideStep_podHold, decideStep_noSource, fun hh hv hs => ?_, fun hh hv hc hr => ?_,
    fun hh hv => decideStep_formed ⟨hh, hv⟩, decideStep_within, steppedState_snapRequest x d s, rfl⟩
  · have hd : d = _ := decideStep_snap ⟨hh, hv⟩ hs
    rw [hd]
    exact ⟨rfl, rfl, rfl⟩
  · have hs := not_snapCause hc hr
    exact ⟨fun hg => decideStep_held ⟨hh, hv⟩ hs ((apart_le_iff _ _ _).2 hg),
      decideStep_moved_up ⟨hh, hv⟩ hs, decideStep_moved_down ⟨hh, hv⟩ hs⟩

/-! ## TRACKER_STEP (R83, R90, R91) -/

/-- The part with the tracker's expiry taken (R83). -/
def expiryTaken (s : State) : State := { s with ct := { s.ct with trackerDue := false } }

theorem trackerStep_taken {s : State} (hd : s.ct.trackerDue = true) (hr : s.aiu.run = .running) :
    trackerStep s = takeStep (expiryTaken s) :=
  if_pos ⟨hd, hr⟩

theorem trackerStep_idle {s : State} (h : s.ct.trackerDue = false ∨ s.aiu.run ≠ .running) : trackerStep s = s :=
  if_neg fun ⟨hd, hr⟩ => h.elim (fun h => by simp [h] at hd) fun h => h hr

/-- Settles O15: a due step is taken with no failing access, and none is taken otherwise. -/
theorem trackerStepTaken : Obligations.TrackerStepTaken := by
  unfold Obligations.TrackerStepTaken
  refine fun s x => ⟨fun hd hr hx hc => ?_, fun h => congrArg Host.Outcome.next (trackerStep_idle h)⟩
  obtain ⟨b, hb, e⟩ := (takeStep_shown (expiryTaken s) x hx).of_clear hc
  exact ⟨b, hb, congrArg Host.Outcome.next ((trackerStep_taken hd hr).trans e)⟩

/-- No access changes what the tracker holds, failing or not. -/
theorem Shown.it_eq {P : Nat → Prop} {s t : State} (h : Shown P s t) : t.it = s.it := by
  obtain ⟨c, -, rfl⟩ | ⟨-, -, k, c, -, rfl⟩ := h <;> rfl

/-- What TRACKER_STEP leaves of the tracker, whatever accesses fail: what it was, or a step in the active context. -/
theorem trackerStep_it {s : State} {x : Context} (hx : s.it.contexts.get s.it.active = some x) :
    (trackerStep s).it = s.it ∨ (trackerStep s).it = (steppedState x (decideStep x s) s).it := by
  by_cases h : s.ct.trackerDue = true ∧ s.aiu.run = .running
  · obtain ⟨hd, hr⟩ := h
    rw [trackerStep_taken hd hr]
    exact .inr (takeStep_shown (expiryTaken s) x hx).it_eq
  · exact .inl (congrArg State.it (if_neg h))

/-- The context a step leaves: its settings kept, its generation advanced exactly when its applied mired changed
(R90). -/
theorem steppedContext_kept (x : Context) (d : StepDecision) :
    (steppedContext x d).generation
        = (if (steppedContext x d).mired = x.mired then x.generation else x.generation + 1)
      ∧ (steppedContext x d).settings = x.settings := by
  rw [steppedContext_mired]
  unfold steppedContext
  split <;> exact ⟨rfl, rfl⟩

/-- Settles O18: the active context is as it was or stepped, and every other context is as it was. -/
theorem stepChangesAtMostS : Obligations.StepChangesAtMostS := by
  unfold Obligations.StepChangesAtMostS
  intro s t x hx h
  obtain rfl : trackerStep s = t := Host.Outcome.next.inj h
  rcases trackerStep_it hx with e | e <;> rw [e]
  · exact ⟨x, hx, fun _ _ => by omega, (if_pos rfl).symm, rfl, fun _ _ => rfl⟩
  · obtain ⟨hgen, hset⟩ := steppedContext_kept x (decideStep x s)
    refine ⟨steppedContext x (decideStep x s), Quad.get_set_eq _ _ _, fun hc hr => ?_, hgen, hset,
      fun i hi => Quad.get_set_ne _ _ _ _ hi⟩
    rw [steppedContext_mired]
    exact decideStep_within fun ho => not_snapCause hc hr (decideStep_snapped_iff.1 ho).2

end Sys2Proof.Machine

/-! The tracker's directives: SET_TRACKING (R75 to R77), SWITCH_CONTEXT (R78) and SNAP (R79). -/

namespace Sys2Proof.Machine

/-! ## The fields they carry -/

theorem quadIndex_val (i : Fin 4) : quadIndex i.val = some i := dif_pos i.isLt

theorem quadIndex_high {n : Nat} (h : 3 < n) : quadIndex n = none := dif_neg (by omega)

theorem policyOf_high {n : Nat} (h : 2 < n) : policyOf n = none := by
  unfold policyOf
  split <;> first | rfl | omega

theorem clampInt_eq {lo hi : Int} (h : lo ≤ hi) (v : Int) : clampInt lo hi v = max lo (min hi v) := by
  unfold clampInt
  split
  · omega
  · split <;> omega

/-- A field of two bytes read as two's complement is the value of its word. -/
theorem signed_field (r off : Nat) : signed 16 (field r off 2) = (BitVec.ofNat 16 (field r off 2)).toInt := by
  have hlt : field r off 2 < 2 ^ 16 := Nat.mod_lt _ (by decide)
  rw [BitVec.toInt_eq_toNat_cond, BitVec.toNat_ofNat, Nat.mod_eq_of_lt hlt]
  unfold signed
  split <;> split <;> omega

/-- The settings that SET_TRACKING carries, clamp by clamp (R76). -/
theorem carriedSettings_eq (policy : Policy) (p : Nat) :
    carriedSettings policy p
      = { policy := policy, holdBand := min 1023 (field p 4 2),
          stepLimit := max 1 (min 1023 (field p 6 2)), agreeSpread := min 4095 (field p 8 2),
          sources := { h0 := bit (field p 0xA 2) 0, h1 := bit (field p 0xA 2) 1,
                       pod := bit (field p 0xA 2) 2 },
          maxAge := max 1 (min 255 (field p 0xC 2)),
          trims := { i0 := max (-1024) (min 1023 (BitVec.ofNat 16 (field p 0xE 2)).toInt),
                     i1 := max (-1024) (min 1023 (BitVec.ofNat 16 (field p 0x10 2)).toInt) } } := by
  unfold carriedSettings
  rw [clamp_zero, clamp_zero, clamp_one _ _ (by decide), clamp_one _ _ (by decide),
    clampInt_eq (by decide), clampInt_eq (by decide), signed_field, signed_field]

/-! ## The effects -/

/-- A directive whose effect is one update and the rewrite of the tracker's fields, with no failing access. -/
theorem exec_rewritten {k : DirKind} {s u : State} {p : Nat} {j : DirJob} {r : ResultCode}
    (h : AtEffect s k p j) (hc : Clear s) (hb : (kindBody (some k)).effect p s = (r, rewrite [.it] s u))
    (hbus : u.bus = s.bus) (hbase : base u = base s) (he : u.ce.engine = s.ce.engine) :
    ∃ b, s.bus.Within (StatusBytes s) b
      ∧ exec (directiveRow (some k) .effect) s = .next ((putDirJob (decidedJob j r) u).onBus b) := by
  obtain ⟨b, hw, e⟩ := effect_shown k (kindBody (some k)) s u _ p j r (StatusBytes s) h hc hb hbus hbase
    (he.trans h.1) (rewrite_from [.it] s u hbase)
  exact ⟨b, hw, (exec_directiveRow _ _ s).trans (congrArg Host.Outcome.next e)⟩

theorem setTrackingEffect_done {p : Nat} {i : Fin 4} {policy : Policy} (hi : field p 0 2 = i.val)
    (hpol : policyOf (field p 2 2) = some policy) (s : State) :
    setTrackingEffect p s
      = (.done, rewrite [.it] s
          (putContext i (trackedContext s.cs (carriedSettings policy p) p (s.it.contexts.get i)) s)) := by
  unfold setTrackingEffect
  rw [hi, quadIndex_val, hpol]

theorem setTrackingEffect_refused {p : Nat} (h : 3 < field p 0 2 ∨ 2 < field p 2 2) (s : State) :
    setTrackingEffect p s = (.refusedValue, s) := by
  unfold setTrackingEffect
  rcases h with h | h
  · rw [quadIndex_high h]
  · rw [policyOf_high h]
    cases quadIndex (field p 0 2) <;> rfl

/-- Settles O35: the context takes the settings carried, or the index or the policy is refused. -/
theorem setTrackingDirective : Obligations.SetTrackingDirective := by
  unfold Obligations.SetTrackingDirective
  refine fun s p j h hc => ⟨fun i policy st hi hpol hst => ?_,
    fun hbad => exec_atEffect h (setTrackingEffect_refused hbad s) h.1⟩
  have hcode : policyOf (field p 2 2) = some policy := by
    rw [hpol]
    cases policy <;> rfl
  rw [← carriedSettings_eq] at hst
  subst hst
  obtain ⟨b, hw, e⟩ := exec_rewritten h hc (setTrackingEffect_done hi hcode s) rfl rfl rfl
  refine ⟨b, hw, e.trans ?_⟩
  cases s.it.contexts.get i with
  | some x => rfl
  | none =>
    unfold trackedContext initialMired
    rw [clamp_zero]

theorem switchContextEffect_done {p : Nat} {i : Fin 4} {s : State} {x : Context} (hi : field p 0 2 = i.val)
    (hx : s.it.contexts.get i = some x) :
    switchContextEffect p s
      = (.done, rewrite [.it] s
          { s with it := { s.it with
              active := i,
              contexts := s.it.contexts.set i (some { x with generation := x.generation + 1 }) } }) := by
  unfold switchContextEffect
  rw [hi, quadIndex_val]
  dsimp only
  rw [hx]

theorem switchContextEffect_uninitialised {p : Nat} {i : Fin 4} {s : State} (hi : field p 0 2 = i.val)
    (hx : s.it.contexts.get i = none) : switchContextEffect p s = (.refusedState, s) := by
  unfold switchContextEffect
  rw [hi, quadIndex_val]
  dsimp only
  rw [hx]

theorem switchContextEffect_high {p : Nat} (h : 3 < field p 0 2) (s : State) :
    switchContextEffect p s = (.refusedValue, s) := by
  unfold switchContextEffect
  rw [quadIndex_high h]

/-- Settles O36: each directive is its one update at the effect, or a refusal. -/
theorem switchAndSnapDirectives : Obligations.SwitchAndSnapDirectives := by
  unfold Obligations.SwitchAndSnapDirectives
  refine fun s p j hc => ⟨fun h => ⟨fun hi => exec_atEffect h (switchContextEffect_high hi s) h.1,
    fun i hi => ⟨fun hx => exec_atEffect h (switchContextEffect_uninitialised hi hx) h.1,
      fun x hx => exec_rewritten h hc (switchContextEffect_done hi hx) rfl rfl rfl⟩⟩,
    fun h => exec_rewritten h hc rfl rfl rfl rfl⟩

end Sys2Proof.Machine

/-! O48: the head mired, the segment and its weight, and the interpolated values (R98 to R100). -/

namespace Sys2Proof.Machine

/-! ## One interpolated value (R100) -/

/-- A rounded share of a difference lies between no share and the whole difference. -/
theorem shr12_share_bounds {w : Nat} (hw : w ≤ 4096) (d : Int) :
    min 0 d ≤ shr12 (d * w + 2048) ∧ shr12 (d * w + 2048) ≤ max 0 d := by
  have hcast : (w : Int) ≤ 4096 := by exact_mod_cast hw
  unfold shr12
  rcases le_total 0 d with hd | hd
  · have hlow : 0 ≤ d * w := mul_nonneg hd w.cast_nonneg
    have hhigh : d * w ≤ d * 4096 := mul_le_mul_of_nonneg_left hcast hd
    omega
  · have hlow : d * 4096 ≤ d * w := mul_le_mul_of_nonpos_left hcast hd
    have hhigh : d * w ≤ 0 := mul_nonpos_of_nonpos_of_nonneg hd w.cast_nonneg
    omega

theorem interpolate_bounds {w : Nat} (hw : w ≤ 4096) (a b : Int) :
    min a b ≤ interpolate w a b ∧ interpolate w a b ≤ max a b := by
  have := shr12_share_bounds hw (b - a)
  unfold interpolate
  omega

/-- A range that holds both values holds every value interpolated between them. -/
theorem interpolate_within {w : Nat} {a b lo hi : Int} (hw : w ≤ 4096) (ha : lo ≤ a ∧ a ≤ hi)
    (hb : lo ≤ b ∧ b ≤ hi) : lo ≤ interpolate w a b ∧ interpolate w a b ≤ hi := by
  have := interpolate_bounds hw a b
  omega

theorem interpolate_zero (a b : Int) : interpolate 0 a b = a := by
  simp [interpolate, shr12]

theorem interpolate_full (a b : Int) : interpolate 4096 a b = b := by
  unfold interpolate shr12
  omega

/-- The coefficients of an interpolated matrix, each by itself. -/
theorem interpolateMatrix_apply (w : Nat) (a b : Mat3) :
    ∀ row ∈ [Mat3.r0, Mat3.r1, Mat3.r2], ∀ col ∈ [Row3.c0, Row3.c1, Row3.c2],
      col (row (interpolateMatrix w a b)) = interpolate w (col (row a)) (col (row b)) := by
  simp [interpolateMatrix, interpolateRow]

/-! ## The head mired (R98) -/

theorem headMired_eq {c : Cs} (h : storeBottom c ≤ storeTop c) (r : ContextRead) :
    (headMired c r : Int) = max (storeBottom c : Int) (min (storeTop c) (r.mired + r.trim)) := by
  unfold headMired
  rw [clampInt_eq (by exact_mod_cast h)]
  omega

theorem headMired_bounds {c : Cs} (h : storeBottom c ≤ storeTop c) (r : ContextRead) :
    storeBottom c ≤ headMired c r ∧ headMired c r ≤ storeTop c := by
  have := headMired_eq h r
  omega

/-! ## The segment and the weight (R99) -/

/-- The last index a test accepts among those up to `n`. -/
theorem getLastD_filter_range_succ (test : Nat → Prop) [DecidablePred test] (n : Nat) :
    ((List.range (n + 1)).filter (fun i => test i)).getLastD 0 = Nat.findGreatest test n := by
  induction n with
  | zero => by_cases h : test 0 <;> simp [h]
  | succ n ih =>
    rw [List.range_succ, List.filter_append, Nat.findGreatest_succ]
    by_cases h : test (n + 1)
    · simp [h]
    · simpa [h] using ih

/-- Where the first point's mired is not below a value, R99.1 finds the last point of that kind. -/
theorem lastAtOrAbove_spec {ps : List CalPoint} {m : Nat} {first : CalPoint} (hfirst : ps[0]? = some first)
    (hm : m ≤ first.mired) :
    (∃ p, ps[lastAtOrAbove ps m]? = some p ∧ m ≤ p.mired)
      ∧ ∀ i q, lastAtOrAbove ps m < i → ps[i]? = some q → q.mired < m := by
  obtain ⟨n, hn⟩ : ∃ n, ps.length = n + 1 :=
    Nat.exists_eq_succ_of_ne_zero (List.getElem?_eq_some_iff.1 hfirst).1.ne'
  have hget : ∀ {i q}, ps[i]? = some q → ps.getD i CalPoint.zero = q := fun h => by
    simp [List.getD_eq_getElem?_getD, h]
  have hzero : m ≤ (ps.getD 0 CalPoint.zero).mired := by rwa [hget hfirst]
  unfold lastAtOrAbove
  rw [hn, getLastD_filter_range_succ]
  generalize hi : Nat.findGreatest (fun i => m ≤ (ps.getD i CalPoint.zero).mired) n = i
  obtain ⟨hin, hholds, hbeyond⟩ := Nat.findGreatest_eq_iff.1 hi
  have hsome : ps[i]? = some ps[i] := List.getElem?_eq_getElem (by omega)
  have hat : m ≤ (ps.getD i CalPoint.zero).mired := by
    rcases Nat.eq_zero_or_pos i with h0 | hpos
    · rwa [h0]
    · exact hholds hpos.ne'
  rw [hget hsome] at hat
  refine ⟨⟨_, hsome, hat⟩, fun j q hj hq => ?_⟩
  have hjn : j < ps.length := (List.getElem?_eq_some_iff.1 hq).1
  have hnot := hbeyond hj (by omega)
  rw [hget hq] at hnot
  exact Nat.lt_of_not_le hnot

/-- At the last point the segment is the last one, at its full weight. -/
theorem segmentWeight_last {ps : List CalPoint} {m : Nat} (h : lastAtOrAbove ps m + 1 = ps.length) :
    segmentWeight ps m = (ps.length - 2, 4096) :=
  if_pos h

/-- Before the last point the segment opens at the point R99.1 finds. -/
theorem segmentWeight_inner {ps : List CalPoint} {m : Nat} {p q : CalPoint}
    (hp : ps[lastAtOrAbove ps m]? = some p) (hq : ps[lastAtOrAbove ps m + 1]? = some q) :
    segmentWeight ps m = (lastAtOrAbove ps m, 4096 * (p.mired - m) / (p.mired - q.mired)) := by
  have hlt := (List.getElem?_eq_some_iff.1 hq).1
  simp [segmentWeight, List.getD_eq_getElem?_getD, hp, hq, hlt.ne]

/-- What R99 says of a segment index and a weight: the two points of the segment hold the head mired between them,
with the full weight at the end of the list only. -/
def SegmentHolds (ps : List CalPoint) (m : Nat) (seg : Nat × Nat) (last p q : CalPoint) : Prop :=
  ps[seg.1]? = some p ∧ ps[seg.1 + 1]? = some q ∧ q.mired ≤ m ∧ m ≤ p.mired
    ∧ (m = last.mired → seg.1 + 2 = ps.length ∧ seg.2 = 4096)
    ∧ (m ≠ last.mired → q.mired < m ∧ seg.2 < 4096 ∧ seg.2 = 4096 * (p.mired - m) / (p.mired - q.mired))

/-- A mired in the range of the list lies in the segment chosen for it. -/
theorem segmentWeight_holds {ps : List CalPoint} {m : Nat} {first last : CalPoint} (h2 : 2 ≤ ps.length)
    (ho : ps.Pairwise Follows) (hfirst : ps[0]? = some first) (hlast : ps[ps.length - 1]? = some last)
    (hlo : last.mired ≤ m) (hhi : m ≤ first.mired) :
    ∃ p q, SegmentHolds ps m (segmentWeight ps m) last p q := by
  obtain ⟨⟨p, hp, hmp⟩, hbeyond⟩ := lastAtOrAbove_spec hfirst hhi
  have hlt : lastAtOrAbove ps m < ps.length := (List.getElem?_eq_some_iff.1 hp).1
  by_cases hend : lastAtOrAbove ps m + 1 = ps.length
  · have hm : m = last.mired := by
      rw [← hend, Nat.add_sub_cancel, hp] at hlast
      cases hlast
      omega
    obtain ⟨x, hx⟩ : ∃ x, ps[ps.length - 2]? = some x := ⟨_, List.getElem?_eq_getElem (by omega)⟩
    have hnext : ps[ps.length - 2 + 1]? = some last := by
      rwa [show ps.length - 2 + 1 = ps.length - 1 by omega]
    obtain ⟨-, hmired⟩ := follows_of_getElem? ho hx hnext
    rw [segmentWeight_last hend]
    exact ⟨x, last, hx, hnext, hlo, by omega, fun _ => ⟨by omega, rfl⟩, fun h => absurd hm h⟩
  · obtain ⟨q, hq⟩ : ∃ q, ps[lastAtOrAbove ps m + 1]? = some q := ⟨_, List.getElem?_eq_getElem (by omega)⟩
    have hqm : q.mired < m := hbeyond _ q (Nat.lt_succ_self _) hq
    have hlm : last.mired < m := hbeyond _ last (by omega) hlast
    have hweight : 4096 * (p.mired - m) / (p.mired - q.mired) < 4096 :=
      Nat.div_lt_of_lt_mul (by omega)
    rw [segmentWeight_inner hp hq]
    exact ⟨p, q, hp, hq, hqm.le, hmp, fun h => absurd h hlm.ne', fun _ => ⟨hqm, hweight, rfl⟩⟩

theorem SegmentHolds.weight_le {ps : List CalPoint} {m : Nat} {seg : Nat × Nat} {last p q : CalPoint}
    (h : SegmentHolds ps m seg last p q) : seg.2 ≤ 4096 := by
  obtain ⟨-, -, -, -, hend, hinner⟩ := h
  by_cases hm : m = last.mired
  · exact (hend hm).2.le
  · exact (hinner hm).2.1.le

/-! ## The grade -/

/-- The two ends of a store's list, whose mireds are its calibrated range. -/
theorem exists_ends {c : Cs} (h2 : 2 ≤ c.points.length) :
    ∃ first last, c.points[0]? = some first ∧ c.points[c.points.length - 1]? = some last
      ∧ storeTop c = first.mired ∧ storeBottom c = last.mired := by
  have hfirst : c.points[0]? = some c.points[0] := List.getElem?_eq_getElem (by omega)
  have hlast : c.points[c.points.length - 1]? = some c.points[c.points.length - 1] :=
    List.getElem?_eq_getElem (by omega)
  refine ⟨_, _, hfirst, hlast, ?_, ?_⟩
  · simp [storeTop, List.head?_eq_getElem?, hfirst, orZero]
  · simp [storeBottom, List.getLast?_eq_getElem?, hlast, orZero]

/-- Under a good list the head mired lies in the segment of the grade. -/
theorem headMired_segment {c : Cs} (h : GoodList c.points) (r : ContextRead) :
    ∃ last p q, storeBottom c = last.mired
      ∧ SegmentHolds c.points (headMired c r) (segmentWeight c.points (headMired c r)) last p q := by
  obtain ⟨hlo, hhi⟩ := headMired_bounds (storeBottom_le_storeTop h) r
  obtain ⟨h2, -, -, ho⟩ := h
  obtain ⟨first, last, hfirst, hlast, htop, hbottom⟩ := exists_ends h2
  rw [hbottom] at hlo
  rw [htop] at hhi
  obtain ⟨p, q, hseg⟩ := segmentWeight_holds h2 ho hfirst hlast hlo hhi
  exact ⟨last, p, q, hbottom, hseg⟩

/-- Every value of a grade is interpolated between the points at its segment (R100). -/
theorem formGrade_interpolated (gs : GradeSettings) (gain : Nat) {c : Cs} {r : ContextRead} {p q : CalPoint}
    (hp : c.points[(segmentWeight c.points (headMired c r)).1]? = some p)
    (hq : c.points[(segmentWeight c.points (headMired c r)).1 + 1]? = some q) :
    let g := formGrade c gs r gain
    g.redGain = interpolate g.weight p.redGain q.redGain
      ∧ g.blueGain = interpolate g.weight p.blueGain q.blueGain
      ∧ g.interpolated = interpolateMatrix g.weight p.matrix q.matrix := by
  simp [formGrade, List.getD_eq_getElem?_getD, hp, hq]

/-- Settles O48: the clamp puts the head mired in the list's range, so that a segment holds it, and a rounded share
of at most the whole keeps each value between those of the segment's points. -/
theorem interpolationStaysBetween : Obligations.InterpolationStaysBetween := by
  unfold Obligations.InterpolationStaysBetween
  refine ⟨fun c r h => headMired_eq h r, fun c gs r gain h => ⟨rfl, ?grade⟩,
    fun w a b hw => ⟨rfl, (interpolate_bounds hw a b).1, (interpolate_bounds hw a b).2, interpolate_zero a b,
      interpolate_full a b⟩⟩
  case grade =>
    obtain ⟨last, p, q, hbottom, hseg⟩ := headMired_segment h r
    have hw := hseg.weight_le
    obtain ⟨hp, hq, hqm, hmp, hend, hinner⟩ := hseg
    obtain ⟨hred, hblue, hmat⟩ := formGrade_interpolated gs gain hp hq
    obtain ⟨-, -, hpoints, -⟩ := h
    obtain ⟨-, -, -, hpr1024, hpr16383, hpb1024, hpb16383⟩ := hpoints p (List.mem_of_getElem? hp)
    obtain ⟨-, -, -, hqr1024, hqr16383, hqb1024, hqb16383⟩ := hpoints q (List.mem_of_getElem? hq)
    have hr : 1024 ≤ (formGrade c gs r gain).redGain ∧ (formGrade c gs r gain).redGain ≤ 16383 :=
      hred ▸ interpolate_within hw (by omega) (by omega)
    have hb : 1024 ≤ (formGrade c gs r gain).blueGain ∧ (formGrade c gs r gain).blueGain ≤ 16383 :=
      hblue ▸ interpolate_within hw (by omega) (by omega)
    rw [hbottom]
    exact ⟨p, q, hp, hq, hqm, hmp, hend, hinner, hred, hblue, hr.1, hr.2, hb.1, hb.2,
      hmat ▸ interpolateMatrix_apply _ _ _⟩

end Sys2Proof.Machine

/-! O49: the saturation factor, the pull toward grey and the balance of the rows (R102 to R104). -/

namespace Sys2Proof.Machine

/-! ## The saturation factor (R102) -/

theorem saturation_of_le {gs : GradeSettings} {g : Nat} (h : g ≤ gs.gK) : saturation gs g = 4096 :=
  if_pos h

theorem saturation_of_ge {gs : GradeSettings} {g : Nat} (hkm : gs.gK < gs.gM) (h : gs.gM ≤ g) :
    saturation gs g = gs.sMin := by
  rw [saturation, if_neg (by omega), if_pos h]

theorem saturation_of_between {gs : GradeSettings} {g : Nat} (hk : gs.gK < g) (hm : g < gs.gM) :
    saturation gs g = 4096 - (4096 - gs.sMin) * (g - gs.gK) / (gs.gM - gs.gK) := by
  rw [saturation, if_neg hk.not_ge, if_neg hm.not_ge]

/-- Between the knee and the floor the factor has lost no more than the whole way down to s_min. -/
theorem saturation_bounds {gs : GradeSettings} (hkm : gs.gK < gs.gM) (hs : gs.sMin ≤ 4096) (g : Nat) :
    gs.sMin ≤ saturation gs g ∧ saturation gs g ≤ 4096 := by
  rcases le_or_gt g gs.gK with hk | hk
  · rw [saturation_of_le hk]
    exact ⟨hs, le_rfl⟩
  · rcases le_or_gt gs.gM g with hm | hm
    · rw [saturation_of_ge hkm hm]
      exact ⟨le_rfl, hs⟩
    · have hloss : (4096 - gs.sMin) * (g - gs.gK) / (gs.gM - gs.gK) ≤ 4096 - gs.sMin :=
        Nat.div_le_of_le_mul (by
          rw [Nat.mul_comm (gs.gM - gs.gK)]
          exact Nat.mul_le_mul_left _ (by omega))
      rw [saturation_of_between hk hm]
      exact ⟨(Nat.sub_sub_self hs).symm.trans_le (Nat.sub_le_sub_left hloss 4096), Nat.sub_le _ _⟩

theorem usedGain_eq (g : Nat) : usedGain g = min 480 g :=
  clamp_zero 480 g

/-- A gain above 480 is above the floor gain also as used (R3, R96). -/
theorem saturation_usedGain {gs : GradeSettings} (hkm : gs.gK < gs.gM) (hm : gs.gM ≤ 480) (g : Nat) :
    saturation gs (usedGain g) = saturation gs g := by
  rw [usedGain_eq]
  rcases le_total g 480 with h | h
  · rw [min_eq_right h]
  · rw [min_eq_left h, saturation_of_ge hkm hm, saturation_of_ge hkm (hm.trans h)]

/-! ## The pull toward grey (R103) -/

/-- The pull toward grey is R100's interpolation, from the grey value to the coefficient. -/
theorem towardGrey_eq_interpolate (s : Nat) (k c : Int) : towardGrey s k c = interpolate s k c := rfl

/-- A range that holds a row holds its grey value. -/
theorem grey_within {r : Row3} {lo hi : Int} (h : ∀ x ∈ [r.c0, r.c1, r.c2], lo ≤ x ∧ x ≤ hi) :
    lo ≤ rowSum r / 3 ∧ rowSum r / 3 ≤ hi := by
  have h0 := h r.c0 (by simp)
  have h1 := h r.c1 (by simp)
  have h2 := h r.c2 (by simp)
  unfold rowSum
  omega

/-- A range that holds a row holds each of its coefficients pulled toward grey. -/
theorem towardGrey_within {s : Nat} {r : Row3} {lo hi c : Int} (hs : s ≤ 4096)
    (h : ∀ x ∈ [r.c0, r.c1, r.c2], lo ≤ x ∧ x ≤ hi) (hc : c ∈ [r.c0, r.c1, r.c2]) :
    lo ≤ towardGrey s (rowSum r / 3) c ∧ towardGrey s (rowSum r / 3) c ≤ hi :=
  interpolate_within hs (grey_within h) (h c hc)

/-! ## The balance (R104) -/

/-- The rest of a row's sum over its grey value is 0, 1 or 2; the pull keeps a share of it, and each of the three
roundings moves the sum by at most a half. -/
theorem rowBalance_bounds {s : Nat} (hs : s ≤ 4096) (r : Row3) : -1 ≤ rowBalance s r ∧ rowBalance s r ≤ 3 := by
  simp only [rowBalance, desaturateRow, towardGrey, shr12, rowSum]
  generalize hk : (r.c0 + r.c1 + r.c2) / 3 = k
  have hrest : 0 ≤ r.c0 + r.c1 + r.c2 - 3 * k ∧ r.c0 + r.c1 + r.c2 - 3 * k ≤ 2 := by omega
  have hshares : (r.c0 - k) * s + (r.c1 - k) * s + (r.c2 - k) * s = (r.c0 + r.c1 + r.c2 - 3 * k) * s := by ring
  have hlow : 0 ≤ (r.c0 + r.c1 + r.c2 - 3 * k) * s := mul_nonneg hrest.1 s.cast_nonneg
  have hhigh : (r.c0 + r.c1 + r.c2 - 3 * k) * s ≤ (r.c0 + r.c1 + r.c2 - 3 * k) * 4096 :=
    mul_le_mul_of_nonneg_left (by exact_mod_cast hs) hrest.1
  omega

/-- At the full factor no coefficient moves, and none needs a balance. -/
theorem rowBalance_full (r : Row3) : rowBalance 4096 r = 0 := by
  simp [rowBalance, desaturateRow, towardGrey_eq_interpolate, interpolate_full]

/-- The balance restores the sum that the pull changed. -/
theorem rowSum_desaturateRow_add_rowBalance (s : Nat) (r : Row3) :
    rowSum (desaturateRow s r) + rowBalance s r = rowSum r := by
  unfold rowBalance
  omega

/-- Every row of a desaturated matrix has the sum it had. -/
theorem rowSum_desaturate (s : Nat) (m : Mat3) :
    rowSum (desaturate s m).r0 = rowSum m.r0 ∧ rowSum (desaturate s m).r1 = rowSum m.r1
      ∧ rowSum (desaturate s m).r2 = rowSum m.r2 := by
  have h := rowSum_desaturateRow_add_rowBalance s
  refine ⟨.trans ?_ (h m.r0), .trans ?_ (h m.r1), .trans ?_ (h m.r2)⟩ <;>
    simp only [desaturate, rowSum] <;> omega

/-! ## The result's fields (12.4) -/

theorem saturation_mem_resultFields (j : CardJob) : (⟨0x3C, 2, j.grade.saturation⟩ : Field) ∈ resultFields j := by
  simp [resultFields, tailFields]

/-- A field of the desaturated matrix's section is one of the result's. -/
theorem mem_resultFields_of_matrix {j : CardJob} {f : Field} (h : f ∈ matrixFields j.grade.desaturated) :
    f ∈ resultFields j := by
  simp [resultFields, h]

theorem rowFields_mem_resultFields (j : CardJob) :
    (∀ f ∈ rowFieldsAt 0x40 j.grade.desaturated.r0, f ∈ resultFields j)
      ∧ (∀ f ∈ rowFieldsAt 0x4C j.grade.desaturated.r1, f ∈ resultFields j)
      ∧ ∀ f ∈ rowFieldsAt 0x58 j.grade.desaturated.r2, f ∈ resultFields j := by
  refine ⟨fun f hf => ?_, fun f hf => ?_, fun f hf => ?_⟩ <;>
    exact mem_resultFields_of_matrix (by simp [matrixFields, hf])

/-! ## The grade -/

/-- Settles O49: the factor by the three ranges of R102, the pull as an interpolation, the balance by what three
roundings can move. -/
theorem saturationAndDesaturation : Obligations.SaturationAndDesaturation := by
  unfold Obligations.SaturationAndDesaturation
  refine ⟨fun gs gain hkm hm hs => ?factor, fun _ _ _ _ => ⟨rfl, rfl⟩,
    fun j => ⟨saturation_mem_resultFields j, rowFields_mem_resultFields j⟩,
    fun s k c hs => ⟨rfl, (interpolate_bounds hs k c).1, (interpolate_bounds hs k c).2, interpolate_full k c,
      interpolate_zero k c⟩,
    fun s m hs => ?rows⟩
  case factor =>
    rw [saturation_usedGain hkm hm]
    exact ⟨saturation_of_le, saturation_of_ge hkm, saturation_of_between, saturation_bounds hkm hs gain⟩
  case rows =>
    obtain ⟨hsum0, hsum1, hsum2⟩ := rowSum_desaturate s m
    refine ⟨⟨rfl, rfl, rfl⟩, ⟨rfl, rfl, rfl⟩, ⟨rfl, rfl, rfl⟩, fun r => ?balance, hsum0, hsum1, hsum2,
      fun r c hc hr => ?range⟩
    case balance =>
      obtain ⟨hlow, hhigh⟩ := rowBalance_bounds hs r
      exact ⟨hlow, hhigh, fun h => h ▸ rowBalance_full r⟩
    case range =>
      have hbal : -1 ≤ rowBalance s r ∧ rowBalance s r ≤ 3 := rowBalance_bounds hs r
      have hpull := towardGrey_within hs hr hc
      exact ⟨hpull, add_le_add hpull.1 hbal.1, add_le_add hpull.2 hbal.2⟩

end Sys2Proof.Machine

/-! The law of the banks (R112, R116) under what the LUT bank unit does: the retirement, the swap, the raise of the
cursor, a bake's start and abort, the engine reset. -/

namespace Sys2Proof.Machine

/-! ## One bank beside the other -/

/-- What R112 and R116 say of a bank beside the other one. -/
structure Bank.Beside (b other : Bank) : Prop where
  live : isLive b = true → isLive other = false
  busy : bakingOrArmed b = true → bakingOrArmed other = false
  retiring : isRetiring b = true → isLive other = true
  row : ∀ c k, b = .baking c k → c % 17 = 0 ∧ c < lutEntries

@[simp] theorem other_other (i : Ix2) : i.other.other = i := by cases i <;> rfl

theorem other_ne (i : Ix2) : i.other ≠ i := by cases i <;> nofun

theorem eq_or_other (i k : Ix2) : k = i ∨ k = i.other := by cases i <;> cases k <;> decide

/-- The law of the banks, bank by bank. -/
theorem bankLaw_iff (l : Lbu) : BankLaw l ↔ ∀ i, (l.banks.get i).Beside (l.banks.get i.other) := by
  constructor
  · rintro ⟨hlive, hbusy, hret, hrow⟩ i
    refine ⟨fun h => Bool.eq_false_iff.2 fun ho => hlive ?_, fun h => Bool.eq_false_iff.2 fun ho => hbusy ?_, hret i,
      hrow i⟩ <;> cases i
    exacts [⟨h, ho⟩, ⟨ho, h⟩, ⟨h, ho⟩, ⟨ho, h⟩]
  · refine fun h => ⟨fun ⟨h0, h1⟩ => ?_, fun ⟨h0, h1⟩ => ?_, fun i => (h i).retiring, fun i => (h i).row⟩
    · exact Bool.eq_false_iff.1 ((h .i0).live h0) h1
    · exact Bool.eq_false_iff.1 ((h .i0).busy h0) h1

/-- The law from the two banks, in either order. -/
theorem bankLaw_of_pair {l : Lbu} {b o : Bank} (i : BankIx) (hb : l.banks.get i = b) (ho : l.banks.get i.other = o)
    (h : b.Beside o) (h' : o.Beside b) : BankLaw l := by
  subst hb ho
  refine (bankLaw_iff l).2 fun k => ?_
  rcases eq_or_other i k with rfl | rfl
  · exact h
  · rwa [other_other]

theorem BankLaw.of_banks {l m : Lbu} (h : BankLaw l) (hb : m.banks = l.banks) : BankLaw m := by
  rw [bankLaw_iff, hb]
  exact (bankLaw_iff l).1 h

theorem Bank.Beside.empty (o : Bank) : Bank.Beside .empty o :=
  ⟨nofun, nofun, nofun, nofun⟩

theorem Bank.Beside.beside_empty {b : Bank} (h : isRetiring b = false)
    (hr : ∀ c k, b = .baking c k → c % 17 = 0 ∧ c < lutEntries) : b.Beside .empty :=
  ⟨fun _ => rfl, fun _ => rfl, fun e => (nomatch h.symm.trans e), hr⟩

/-! ## What becomes of a bank -/

/-- Each bank is as it was, or has become EMPTY without having been LIVE. -/
theorem BankLaw.of_emptied {l m : Lbu} (h : BankLaw l)
    (hm : ∀ i, m.banks.get i = l.banks.get i ∨ m.banks.get i = .empty ∧ isLive (l.banks.get i) = false) :
    BankLaw m := by
  refine (bankLaw_iff m).2 fun i => ?_
  have hi := (bankLaw_iff l).1 h i
  rcases hm i with e | ⟨e, -⟩ <;> rw [e]
  · rcases hm i.other with eo | ⟨eo, hl⟩ <;> rw [eo]
    · exact hi
    · exact .beside_empty (Bool.eq_false_iff.2 fun hr => Bool.eq_false_iff.1 hl (hi.retiring hr)) hi.row
  · exact .empty _

theorem retiredBank_emptied (n : Nat) (l : Lbu) (i : BankIx) :
    retiredBank n l i = l.banks.get i ∨ retiredBank n l i = .empty ∧ isLive (l.banks.get i) = false := by
  refine (retiredBank_cases n l i).imp_right fun ⟨he, st, p, f, hb, _⟩ => ⟨he, ?_⟩
  rw [hb]
  rfl

theorem BankLaw.retired {l : Lbu} (h : BankLaw l) (n : Nat) : BankLaw (retiredLbu n l) :=
  h.of_emptied fun i => retiredLbu_get n l i ▸ retiredBank_emptied n l i

theorem BankLaw.queryAbsent {l : Lbu} (h : BankLaw l) (n : Nat) : BankLaw (queryAbsent n l) :=
  (h.of_banks (m := { l with pendingQuery := none }) rfl).retired n

/-- A retirement leaves a BAKING bank alone. -/
theorem isBaking_retiredBank {n : Nat} {l : Lbu} {i : BankIx} (h : isBaking (l.banks.get i) = true) :
    isBaking (retiredBank n l i) = true := by
  rcases retiredBank_cases n l i with e | ⟨-, st, p, f, e, -⟩
  · rwa [e]
  · rw [e] at h
    cases h

/-- One bank replaced by one that fits beside the other. -/
theorem BankLaw.put {l m : Lbu} (h : BankLaw l) (i : BankIx) {b : Bank} (hm : m.banks = l.banks.set i b)
    (hb : b.Beside (l.banks.get i.other)) (hl : isRetiring (l.banks.get i.other) = true → isLive b = true) :
    BankLaw m := by
  have ho := (bankLaw_iff l).1 h i.other
  rw [other_other] at ho
  refine bankLaw_of_pair i (b := b) (o := l.banks.get i.other) (by rw [hm, Two.get_set_eq])
    (by rw [hm, Two.get_set_ne _ _ _ _ (other_ne i)]) hb
    ⟨fun e => Bool.eq_false_iff.2 fun e' => ?_, fun e => Bool.eq_false_iff.2 fun e' => ?_, hl, ho.row⟩
  · exact Bool.eq_false_iff.1 (hb.live e') e
  · exact Bool.eq_false_iff.1 (hb.busy e') e

/-- The raise after a row: the cursor stands at the next row, or the bank is ARMED (R116, R120). -/
theorem BankLaw.raised {l m : Lbu} (h : BankLaw l) {i : BankIx} {c : Nat} {look : Look}
    (hb : l.banks.get i = .baking c look) (n : Nat) (hm : m.banks = l.banks.set i (raisedBank n c look)) :
    BankLaw m := by
  have hi := (bankLaw_iff l).1 h i
  have ho := (bankLaw_iff l).1 h i.other
  rw [hb] at hi
  rw [other_other, hb] at ho
  obtain ⟨hmod, -⟩ := hi.row c look rfl
  have hbusy := hi.busy rfl
  refine h.put i hm ?_ fun e => nomatch ho.retiring e
  unfold raisedBank
  split
  · exact ⟨nofun, fun _ => hbusy, nofun, nofun⟩
  · refine ⟨nofun, fun _ => hbusy, nofun, fun c' k e => ?_⟩
    cases e
    omega

/-- The start of a bake (R114, R115). -/
theorem BankLaw.bakeStarted {l m : Lbu} (h : BankLaw l) {i : BankIx} (hi : chooseBank l.banks = some i) (look : Look)
    (hm : m.banks = l.banks.set i (.baking 0 look)) : BankLaw m := by
  unfold chooseBank at hi
  split at hi
  · cases hi
  · rename_i hbusy
    simp only [Bool.or_eq_true, not_or, Bool.not_eq_true] at hbusy
    have hempty : l.banks.get i = .empty := by
      split at hi
      · cases hi
        assumption
      · split at hi <;> cases hi
        assumption
    have ho := (bankLaw_iff l).1 h i.other
    rw [other_other, hempty] at ho
    refine h.put i hm ⟨nofun, fun _ => ?_, nofun, fun c k e => ?_⟩ fun e => nomatch ho.retiring e
    · cases i
      exacts [hbusy.2, hbusy.1]
    · cases e
      decide

/-! ## The swap (R122) -/

/-- Beside an ARMED bank stands a LIVE one or an EMPTY one (R112). -/
theorem BankLaw.beside_armed {l : Lbu} (h : BankLaw l) {i : BankIx} {f : Nat} (hi : l.banks.get i = .armed f) :
    l.banks.get i.other = .empty ∨ ∃ st p, l.banks.get i.other = .live st p := by
  have hb := ((bankLaw_iff l).1 h i).busy
  have hr := ((bankLaw_iff l).1 h i.other).retiring
  rw [hi] at hb
  rw [other_other, hi] at hr
  cases ho : l.banks.get i.other with
  | empty => exact .inl rfl
  | live st p => exact .inr ⟨st, p, rfl⟩
  | baking c k => rw [ho] at hb; exact nomatch hb rfl
  | armed g => rw [ho] at hb; exact nomatch hb rfl
  | retiring st p g => rw [ho] at hr; exact nomatch hr rfl

theorem swappedBanks_empty {banks : Two Bank} {i : BankIx} (h : banks.get i.other = .empty) (f : Nat) :
    swappedBanks banks i f = banks.set i (.live f false) := by
  unfold swappedBanks
  rw [h]

theorem swappedBanks_live {banks : Two Bank} {i : BankIx} {st : Nat} {p : Bool}
    (h : banks.get i.other = .live st p) (f : Nat) :
    swappedBanks banks i f = (banks.set i (.live f true)).set i.other (.retiring st p (f + 8)) := by
  unfold swappedBanks
  rw [h]

/-- The records after a swap, beside an EMPTY bank and beside a LIVE one. -/
theorem BankLaw.swapped_get {l : Lbu} (h : BankLaw l) {i : BankIx} {f : Nat} (hi : l.banks.get i = .armed f) :
    (l.banks.get i.other = .empty ∧ (swappedBanks l.banks i f).get i = .live f false
        ∧ (swappedBanks l.banks i f).get i.other = .empty)
      ∨ ∃ st p, l.banks.get i.other = .live st p ∧ (swappedBanks l.banks i f).get i = .live f true
        ∧ (swappedBanks l.banks i f).get i.other = .retiring st p (f + 8) := by
  rcases h.beside_armed hi with ho | ⟨st, p, ho⟩
  · rw [swappedBanks_empty ho, Two.get_set_eq, Two.get_set_ne _ _ _ _ (other_ne i)]
    exact .inl ⟨ho, rfl, ho⟩
  · rw [swappedBanks_live ho, Two.get_set_eq, Two.get_set_ne _ _ _ _ (other_ne i).symm, Two.get_set_eq]
    exact .inr ⟨st, p, ho, rfl, rfl⟩

theorem BankLaw.swapped {l m : Lbu} (h : BankLaw l) {i : BankIx} {f : Nat} (hi : l.banks.get i = .armed f)
    (hm : m.banks = swappedBanks l.banks i f) : BankLaw m := by
  rcases h.swapped_get hi with ⟨-, h1, h2⟩ | ⟨st, p, -, h1, h2⟩ <;> rw [← hm] at h1 h2
  · exact bankLaw_of_pair i h1 h2 (.beside_empty rfl nofun) (.empty _)
  · exact bankLaw_of_pair i h1 h2 ⟨fun _ => rfl, nofun, nofun, nofun⟩ ⟨nofun, nofun, fun _ => rfl, nofun⟩

/-- A swap that is due is of an ARMED bank whose swap frame the count has reached. -/
theorem dueSwap_armed {n : Nat} {banks : Two Bank} {i : BankIx} {f : Nat} (h : dueSwap n banks = some (i, f)) :
    banks.get i = .armed f ∧ f ≤ n := by
  have harmed {b : Bank} {g : Nat} (e : bankSwap b = some g) : b = .armed g := by
    cases b <;> cases e
    rfl
  unfold dueSwap at h
  split at h
  case h_1 g h0 _ =>
    split at h <;> cases h
    exact ⟨harmed h0, ‹_›⟩
  case h_2 g g' h0 h1 =>
    split at h
    · cases h
      exact ⟨harmed h0, ‹_›⟩
    · split at h <;> cases h
      exact ⟨harmed h1, ‹_›⟩
  case h_3 g _ h1 =>
    split at h <;> cases h
    exact ⟨harmed h1, ‹_›⟩
  case h_4 => cases h

/-- A swap leaves a BAKING bank alone. -/
theorem isBaking_swapped {banks : Two Bank} {i k : BankIx} {f : Nat} (hi : banks.get i = .armed f)
    (hk : isBaking (banks.get k) = true) : isBaking ((swappedBanks banks i f).get k) = true := by
  rcases eq_or_other i k with rfl | rfl
  · rw [hi] at hk
    cases hk
  · obtain ⟨c, look, e⟩ := (isBaking_iff _).1 hk
    have hs : swappedBanks banks i f = banks.set i (.live f false) := by
      unfold swappedBanks
      rw [e]
    rwa [hs, Two.get_set_ne _ _ _ _ (other_ne i)]

/-! ## The engine reset (R125) -/

/-- What an engine reset makes of each bank, given the other one. -/
theorem engineResetLbu_get (l : Lbu) (i : BankIx) :
    (engineResetLbu l).banks.get i = resetBank (isArmed (l.banks.get i.other)) (l.banks.get i) := by
  cases i <;> rfl

/-- An engine reset leaves a bank EMPTY or LIVE from frame 0, the latter one that was ARMED or that was LIVE beside none
ARMED. -/
theorem resetBank_cases (p : Bool) (b : Bank) :
    resetBank p b = .empty
      ∨ ∃ pr, resetBank p b = .live 0 pr ∧ (isArmed b = true ∨ isLive b = true ∧ p = false) := by
  cases b with
  | armed f => exact .inr ⟨_, rfl, .inl rfl⟩
  | live st pr =>
    cases p
    · exact .inr ⟨pr, rfl, .inr ⟨rfl, rfl⟩⟩
    · exact .inl rfl
  | _ => exact .inl rfl

theorem isArmed_busy {b : Bank} (h : isArmed b = true) : bakingOrArmed b = true := by
  cases b <;> first | rfl | cases h

theorem BankLaw.engineReset {l : Lbu} (h : BankLaw l) : BankLaw (engineResetLbu l) := by
  refine (bankLaw_iff _).2 fun i => ?_
  have hi := (bankLaw_iff l).1 h i
  rw [engineResetLbu_get, engineResetLbu_get, other_other]
  rcases resetBank_cases (isArmed (l.banks.get i.other)) (l.banks.get i) with e | ⟨pr, e, hb⟩ <;> rw [e]
  · exact .empty _
  · rcases resetBank_cases (isArmed (l.banks.get i)) (l.banks.get i.other) with eo | ⟨pr', eo, hbo⟩ <;> rw [eo]
    · exact .beside_empty rfl nofun
    · rcases hb with ha | ⟨hl, hna⟩ <;> rcases hbo with hao | ⟨hlo, hnao⟩
      · exact nomatch (hi.busy (isArmed_busy ha)).symm.trans (isArmed_busy hao)
      · exact nomatch hnao.symm.trans ha
      · exact nomatch hna.symm.trans hao
      · exact nomatch (hi.live hl).symm.trans hlo

end Sys2Proof.Machine

/-! O57: the law of the banks and the laws of the engine (R23, R38, R112, R116, R123, R170) under the part's shared
operations, those of its blocks and the jobs of the engine. -/

namespace Sys2Proof.Machine

/-! ## The laws -/

/-- The law of the banks and the two laws of the engine. -/
structure Lawful (s : State) : Prop where
  banks : BankLaw s.lbu
  fault : FaultLaw s
  engine : EngineLaw s

theorem engineLaw_of_free {s : State} (he : s.ce.engine = .free) (hq : s.lbu.pendingQuery = none) : EngineLaw s :=
  ⟨fun _ e => (nomatch he.symm.trans e), fun h => absurd hq h⟩

theorem engineLaw_of_directive {s : State} {j : DirJob} (he : s.ce.engine = .directive j)
    (hq : s.lbu.pendingQuery = none) : EngineLaw s :=
  ⟨fun _ e => (nomatch he.symm.trans e), fun h => absurd hq h⟩

theorem engineLaw_of_take {s : State} {h : Head} {k : Fin 8} {j : TakeJob} (he : s.ce.engine = .take h k j) :
    EngineLaw s :=
  ⟨fun _ e => (nomatch he.symm.trans e), fun _ => .inl ⟨h, k, j, he⟩⟩

theorem engineLaw_of_card {s : State} {h : Head} {k : Fin 8} {j : CardJob} (he : s.ce.engine = .card h k j) :
    EngineLaw s :=
  ⟨fun _ e => (nomatch he.symm.trans e), fun _ => .inr ⟨h, k, j, he⟩⟩

/-- No query is pending but for a take or a card job (R123). -/
theorem EngineLaw.no_query {s : State} (h : EngineLaw s) (ht : ∀ hd k j, s.ce.engine ≠ .take hd k j)
    (hc : ∀ hd k j, s.ce.engine ≠ .card hd k j) : s.lbu.pendingQuery = none := by
  by_contra hq
  rcases h.2 hq with ⟨hd, k, j, e⟩ | ⟨hd, k, j, e⟩
  · exact ht hd k j e
  · exact hc hd k j e

theorem EngineLaw.free_no_query {s : State} (h : EngineLaw s) (he : s.ce.engine = .free) :
    s.lbu.pendingQuery = none :=
  h.no_query (fun _ _ _ e => nomatch he.symm.trans e) fun _ _ _ e => nomatch he.symm.trans e

theorem EngineLaw.directive_no_query {s : State} {j : DirJob} (h : EngineLaw s) (he : s.ce.engine = .directive j) :
    s.lbu.pendingQuery = none :=
  h.no_query (fun _ _ _ e => nomatch he.symm.trans e) fun _ _ _ e => nomatch he.symm.trans e

/-- Banks that keep every BAKING one, beside the same query and engine. -/
theorem EngineLaw.of_baking {s t : State} (h : EngineLaw s) (he : t.ce.engine = s.ce.engine)
    (hb : ∀ i, isBaking (s.lbu.banks.get i) = true → isBaking (t.lbu.banks.get i) = true)
    (hq : t.lbu.pendingQuery = s.lbu.pendingQuery ∨ t.lbu.pendingQuery = none) : EngineLaw t := by
  obtain ⟨hbake, hquery⟩ := h
  refine ⟨fun b e => hb b (hbake b (he ▸ e)), fun hne => ?_⟩
  rw [he]
  rcases hq with hq | hq
  · exact hquery (hq ▸ hne)
  · exact absurd hq hne

/-- FREE, with no query pending, and a fault kind exactly in FAULTED. -/
theorem Lawful.of_free {s : State} (hb : BankLaw s.lbu) (hk : s.aiu.run = .faulted ↔ s.aiu.faultKind.isSome = true)
    (he : s.ce.engine = .free) (hq : s.lbu.pendingQuery = none) : Lawful s :=
  ⟨hb, ⟨hk, fun _ => he⟩, engineLaw_of_free he hq⟩

theorem FaultLaw.of_same {s t : State} (h : FaultLaw s) (hr : t.aiu.run = s.aiu.run)
    (hk : t.aiu.faultKind = s.aiu.faultKind) (he : t.ce.engine = s.ce.engine) : FaultLaw t := by
  unfold FaultLaw
  rw [hr, hk, he]
  exact h

/-- An update beside the banks, the run state, the fault kind and the engine. -/
theorem Lawful.of_same {s t : State} (h : Lawful s) (hl : t.lbu = s.lbu) (hr : t.aiu.run = s.aiu.run)
    (hk : t.aiu.faultKind = s.aiu.faultKind) (he : t.ce.engine = s.ce.engine) : Lawful t :=
  ⟨hl ▸ h.banks, h.fault.of_same hr hk he, h.engine.of_baking he (fun _ => hl ▸ id) (.inl (hl ▸ rfl))⟩

/-- An update of the banks beside the rest of the part. -/
theorem Lawful.of_banks {s t : State} (h : Lawful s) (hl : BankLaw t.lbu)
    (hb : ∀ i, isBaking (s.lbu.banks.get i) = true → isBaking (t.lbu.banks.get i) = true)
    (hq : t.lbu.pendingQuery = s.lbu.pendingQuery ∨ t.lbu.pendingQuery = none) (ha : t.aiu = s.aiu)
    (hc : t.ce = s.ce) : Lawful t :=
  ⟨hl, h.fault.of_same (ha ▸ rfl) (ha ▸ rfl) (hc ▸ rfl), h.engine.of_baking (hc ▸ rfl) hb hq⟩

/-- A job in hand replaced by another one: the part is in RUNNING or DRAINING. -/
theorem Lawful.in_hand {s t : State} (h : Lawful s) (he : s.ce.engine ≠ .free) (ht : EngineLaw t)
    (hl : t.lbu.banks = s.lbu.banks) (ha : t.aiu = s.aiu) : Lawful t :=
  ⟨h.banks.of_banks hl, ⟨ha ▸ h.fault.1, fun hr => absurd (h.fault.2 (ha ▸ hr)) he⟩, ht⟩

/-! ## Accesses -/

theorem Lawful.onBus {s : State} (h : Lawful s) (b : Bus) : Lawful (s.onBus b) := h.of_same rfl rfl rfl rfl

/-- The entry to FAULTED leaves the engine FREE (R38) and no query pending (R123). -/
theorem BankLaw.faulted {s : State} (h : BankLaw s.lbu) (k : FaultKind) : Lawful (faultedState k s) :=
  .of_free (h.queryAbsent _) (by simp) (faultedState_engine k s) rfl

theorem Lawful.shown {P : Nat → Prop} {s t : State} (h : Lawful s) (k : Shown P s t) : Lawful t := by
  obtain ⟨c, -, rfl⟩ | ⟨-, -, x, c, -, rfl⟩ := k
  · exact h.onBus c
  · exact (h.banks.faulted x).onBus c

theorem enterFault_lawful (k : FaultKind) {s : State} (h : Lawful s) : Lawful (enterFault k s) := by
  obtain ⟨c, -, e⟩ := enterFault_spec k s
  rw [e]
  split
  · exact h.onBus c
  · exact (h.banks.faulted k).onBus c

theorem writeFields_lawful {k : FaultKind} {fs : List Field} {s t : State} {ok : Bool}
    (hw : writeFields k fs s = (ok, t)) (h : Lawful s) : Lawful t := by
  obtain ⟨c, rfl | rfl⟩ := writeFields_ends hw
  · exact h.onBus c
  · exact enterFault_lawful k (h.onBus c)

theorem readSpans_onBus {s t : State} {a : Nat} {ps : List (Nat × Nat)} {o : Option Nat}
    (hr : readSpans s a ps = (o, t)) : ∃ c, t = s.onBus c := by
  obtain ⟨c, -, e, -⟩ := readSpans_spec s a ps
  exact ⟨c, (congrArg Prod.snd hr).symm.trans e⟩

/-! ## Shared operations -/

section
variable {t : State}

theorem rewrite_lawful (os : List Owner) (before : State) (h : Lawful t) : Lawful (rewrite os before t) :=
  h.shown (rewrite_shown os before t)

theorem rewriteAll_lawful (h : Lawful t) : Lawful (rewriteAll t) := h.shown (rewriteAll_shown t)

theorem rewriteHeaders_lawful (before : State) (h : Lawful t) : Lawful (rewriteHeaders before t) :=
  h.shown (rewriteHeaders_shown before t)

theorem writeHeader_lawful (b : BankIx) (h : Lawful t) : Lawful (writeHeader b t) := h.shown (writeHeader_shown b t)

theorem setCauseIf_lawful (p : Bool) (c : Cause) (h : Lawful t) : Lawful (setCauseIf p c t) :=
  Lawful.shown (s := causedState p c t) (h.of_same rfl rfl rfl rfl) (setCauseIf_shown p c t)

theorem setCause_lawful (c : Cause) (h : Lawful t) : Lawful (setCause c t) := setCauseIf_lawful true c h

theorem deliver_lawful (e : MonEvent) (h : Lawful t) : Lawful (deliver e t) :=
  Lawful.shown (s := deliveredState e t) (h.of_same rfl rfl rfl rfl) (deliver_shown e t)

theorem cutActions_lawful (cut : Bool) (h : Lawful t) : Lawful (cutActions cut t) :=
  Lawful.shown (s := cutState cut t) (h.of_same rfl rfl rfl rfl) (cutActions_shown cut t)

theorem retire_lawful (h : Lawful t) : Lawful (retire t) := by
  have hr : Lawful (retiredState t) := h.of_banks (h.banks.retired _)
    (fun i hi => (retiredLbu_get _ _ i).symm ▸ isBaking_retiredBank hi) (.inl rfl) rfl rfl
  exact hr.shown (retire_shown t)

theorem dropQuery_lawful (h : Lawful t) : Lawful (dropQuery t) := by
  have hd : Lawful (droppedState t) := h.of_banks (h.banks.queryAbsent _)
    (fun i hi => (retiredLbu_get _ _ i).symm ▸ isBaking_retiredBank (l := { t.lbu with pendingQuery := none }) hi)
    (.inr rfl) rfl rfl
  exact hd.shown (dropQuery_shown t)

theorem swap_lawful (h : Lawful t) : Lawful (swap t) := by
  have hs : Lawful (swappedState t) := by
    unfold swappedState
    split
    · exact h
    · rename_i i f hdue
      obtain ⟨hi, -⟩ := dueSwap_armed hdue
      have hb : Lawful { t with lbu := { t.lbu with banks := swappedBanks t.lbu.banks i f } } :=
        h.of_banks (h.banks.swapped hi rfl) (fun k => isBaking_swapped hi) (.inl rfl) rfl rfl
      exact hb.of_same rfl rfl rfl rfl
  exact hs.shown (swap_shown t)

theorem sweep_lawful (h : Lawful t) : Lawful (sweep t) := by
  by_cases hr : t.aiu.run = .running
  · rcases sweep_shown t hr with k | ⟨-, k⟩
    · exact Lawful.shown (s := sweptState t) (h.of_same rfl rfl rfl rfl) k
    · exact Lawful.shown (s := clearedClaims t) (h.of_same rfl rfl rfl rfl) k
  · rwa [sweep_not_running t hr]

/-- The bank that a grant of the bake claim bakes is BAKING (R24, R25). -/
theorem bakingBank_baking {banks : Two Bank} {b : BankIx} (h : bakingBank banks = some b) :
    isBaking (banks.get b) = true := by
  unfold bakingBank at h
  split at h
  · cases h
    assumption
  · split at h <;> cases h
    assumption

/-- A job granted from FREE in RUNNING (R23, R25). -/
theorem grantedState_lawful (c : Claimant) (h : Lawful t) (hf : t.ce.engine = .free) (hr : t.aiu.run = .running) :
    Lawful (grantedState c t) := by
  have hq := h.engine.free_no_query hf
  have granted {u : State} (hl : u.lbu = t.lbu) (ha : u.aiu = t.aiu) (he : EngineLaw u) : Lawful u := by
    refine ⟨hl ▸ h.banks, ⟨ha ▸ h.fault.1, fun hu => ?_⟩, he⟩
    rw [ha, hr] at hu
    rcases hu with hu | hu <;> cases hu
  unfold grantedState
  split
  · split
    · exact h
    · exact granted rfl rfl (engineLaw_of_take rfl)
  · split
    · exact granted rfl rfl (engineLaw_of_directive rfl hq)
    · split
      · exact h
      · rename_i b hb
        refine granted rfl rfl ⟨fun b' e => ?_, fun hn => absurd hq hn⟩
        cases e
        exact bakingBank_baking hb

theorem grant_lawful (h : Lawful t) : Lawful (grant t) := by
  have hg : Lawful (afterGrant t) := by
    unfold afterGrant
    split
    · rename_i hf
      split
      · exact h
      · exact grantedState_lawful _ h ((isFree_iff _).1 hf.1) hf.2
    · exact h
  exact hg.shown (grant_shown t)

theorem sweepAndGrant_lawful (h : Lawful t) : Lawful (sweepAndGrant t) := grant_lawful (sweep_lawful h)

/-- The engine falls free whatever it held (R28, R123). -/
theorem releaseEngine_lawful (e : Option (JobEnding × JobKind)) (hb : BankLaw t.lbu) (hf : FaultLaw t) :
    Lawful (releaseEngine e t) :=
  Lawful.shown (s := releasedState e t) (.of_free (hb.queryAbsent _) hf.1 rfl rfl) (releaseEngine_shown e t)

theorem fallFree_lawful (e : Option (JobEnding × JobKind)) (h : Lawful t) : Lawful (fallFree e t) :=
  sweepAndGrant_lawful (releaseEngine_lawful e h.banks h.fault)

end

/-! ## The blocks -/

section
variable {s : State}

theorem takeStep_lawful (h : Lawful s) : Lawful (takeStep s) := by
  cases hx : s.it.contexts.get s.it.active with
  | none =>
    unfold takeStep
    rw [hx]
    exact h
  | some x =>
    have hs : Lawful (deliveredState (stepEvent (decideStep x s)) (steppedState x (decideStep x s) s)) :=
      h.of_same rfl rfl rfl rfl
    exact hs.shown (takeStep_shown s x hx)

theorem trackerStep_lawful (h : Lawful s) : Lawful (trackerStep s) := by
  unfold trackerStep
  split
  · exact takeStep_lawful (h.of_same rfl rfl rfl rfl)
  · exact h

theorem endMiss_lawful (h : Lawful s) : Lawful (endMiss s) :=
  Lawful.shown (s := missedState s) (h.of_same rfl rfl rfl rfl) (endMiss_shown s)

theorem judge_lawful (k : ExchangeKind) (cs : List RxChar) (h : Lawful s) : Lawful (judge k cs s) := by
  unfold judge
  split
  · cases k
    · exact Lawful.shown (s := probedState cs s) (h.of_same rfl rfl rfl rfl) (endProbe_shown cs s)
    · exact Lawful.shown (s := readState cs s) (h.of_same rfl rfl rfl rfl) (endRead_shown cs s)
  · exact endMiss_lawful h

theorem takeChar_lawful (k : ExchangeKind) (cs : List RxChar) (h : Lawful s) : Lawful (takeChar k cs s) := by
  unfold takeChar
  split
  · exact judge_lawful k cs h
  · exact h.of_same rfl rfl rfl rfl

theorem requestSent_lawful (h : Lawful s) : Lawful (requestSent s) := by
  unfold requestSent
  split <;> exact h.of_same rfl rfl rfl rfl

theorem replyWindowExpiry_lawful (h : Lawful s) : Lawful (replyWindowExpiry s) := by
  unfold replyWindowExpiry
  split
  · exact endMiss_lawful h
  all_goals exact h

theorem replyCharacter_lawful (c : RxChar) (h : Lawful s) : Lawful (replyCharacter c s) := by
  unfold replyCharacter
  split
  · exact takeChar_lawful _ _ h
  · exact takeChar_lawful _ _ h
  all_goals exact h

theorem replyGapTimeout_lawful (h : Lawful s) : Lawful (replyGapTimeout s) := by
  unfold replyGapTimeout
  split
  · exact judge_lawful _ _ h
  all_goals exact h

theorem pollExpiry_lawful (h : Lawful s) : Lawful (pollExpiry s) := by
  unfold pollExpiry
  split
  · dsimp only
    split
    · exact h.of_same rfl rfl rfl rfl
    · exact rewrite_lawful _ _ (h.of_same rfl rfl rfl rfl)
  · exact h

theorem settleExpiry_lawful (h : Lawful s) : Lawful (settleExpiry s) :=
  Lawful.shown (s := { s with ct := settleExpired s.ct }) (h.of_same rfl rfl rfl rfl) (settleExpiry_shown s)

/-- An advance of the count touches neither the run state nor the fault kind (R169). -/
theorem advancedAiu_kept (a : Aiu) : (advancedAiu a).run = a.run ∧ (advancedAiu a).faultKind = a.faultKind := by
  unfold advancedAiu
  split <;> exact ⟨rfl, rfl⟩

theorem countAdvance_lawful (h : Lawful s) : Lawful (countAdvance s) := by
  obtain ⟨hr, hk⟩ := advancedAiu_kept s.aiu
  have ha : Lawful (rewrite [.aiu] s { s with aiu := advancedAiu s.aiu }) :=
    rewrite_lawful _ _ (h.of_same rfl hr hk rfl)
  exact rewrite_lawful _ _ (ha.of_same rfl rfl rfl rfl)

theorem frameSync_lawful (h : Lawful s) : Lawful (frameSync s) := by
  have hd : Lawful (takeDue s) := settleExpiry_lawful (pollExpiry_lawful (trackerStep_lawful h))
  unfold frameSync
  split
  · dsimp only
    split
    · split
      · exact sweepAndGrant_lawful (retire_lawful (swap_lawful (countAdvance_lawful hd)))
      · exact sweepAndGrant_lawful hd
    · exact hd
  · exact h

/-! ## The run states and the resets -/

/-- A run state left for another, neither of them FAULTED, with the engine FREE where the new one is STOPPED. -/
theorem Lawful.set_run {t : State} (h : Lawful s) (hs : s.aiu.run ≠ .faulted) (ht : t.aiu.run ≠ .faulted)
    (hl : t.lbu = s.lbu) (hk : t.aiu.faultKind = s.aiu.faultKind) (he : t.ce.engine = s.ce.engine)
    (hf : t.aiu.run = .stopped → s.ce.engine = .free) : Lawful t := by
  refine ⟨hl ▸ h.banks, ⟨iff_of_false ht fun e => hs (h.fault.1.2 (hk ▸ e)), fun hr => ?_⟩,
    h.engine.of_baking he (fun _ => hl ▸ id) (.inl (hl ▸ rfl))⟩
  rw [he]
  exact hf (hr.resolve_left ht)

theorem runSet_lawful (w : BitVec 32) (h : Lawful s) : Lawful (runSet w s) := by
  unfold runSet enterRunning
  dsimp only
  split
  · rename_i hr
    split
    · exact h.of_same rfl rfl rfl rfl
    · have hs : s.aiu.run ≠ .faulted := fun e => nomatch (show s.aiu.run = .stopped from hr).symm.trans e
      refine sweepAndGrant_lawful (writeHeader_lawful .i1 (writeHeader_lawful .i0 (rewriteAll_lawful ?_)))
      exact h.set_run hs (nofun : RunState.running ≠ .faulted) rfl rfl rfl
        (nofun : RunState.running = .stopped → _)
  · exact h.of_same rfl rfl rfl rfl

theorem runClear_lawful (w : BitVec 32) (h : Lawful s) : Lawful (runClear w s) := by
  unfold runClear
  dsimp only
  split
  · rename_i hr
    have hs : s.aiu.run ≠ .faulted := fun e => nomatch (show s.aiu.run = .running from hr).symm.trans e
    split
    · rename_i hf
      exact h.set_run hs (nofun : RunState.stopped ≠ .faulted) rfl rfl rfl fun _ => (isFree_iff _).1 hf
    · exact rewrite_lawful _ _ (h.set_run hs (nofun : RunState.draining ≠ .faulted) rfl rfl rfl
        (nofun : RunState.draining = .stopped → _))
  · exact h.of_same rfl rfl rfl rfl

theorem drainComplete_lawful (h : Lawful s) : Lawful (drainComplete s) := by
  unfold drainComplete
  split
  · rename_i hr
    exact h.set_run (fun e => nomatch hr.1.symm.trans e) (nofun : RunState.stopped ≠ .faulted) rfl rfl rfl
      fun _ => (isFree_iff _).1 hr.2
  · exact h

theorem engineReset_lawful (w : BitVec 32) (h : Lawful s) : Lawful (engineReset w s) :=
  .of_free h.banks.engineReset ⟨nofun, nofun⟩ rfl rfl

/-- Two EMPTY banks meet the law of R112. -/
theorem bankLaw_empty : BankLaw Lbu.reset :=
  bankLaw_of_pair .i0 rfl rfl (.empty _) (.empty _)

theorem deviceReset_lawful (s : State) : Lawful (deviceReset s) :=
  .of_free bankLaw_empty ⟨nofun, nofun⟩ rfl rfl

end

/-! ## The bake -/

/-- The laws at a row boundary of a bank, which the engine may still bake though it is ARMED (R36). -/
structure AtBoundary (b : BankIx) (s : State) : Prop where
  banks : BankLaw s.lbu
  fault : FaultLaw s
  bank : ∀ b', s.ce.engine = .bake b' → b' = b
  query : s.lbu.pendingQuery = none

theorem Lawful.atBoundary {s : State} {b : BankIx} (h : Lawful s) (he : s.ce.engine = .free) : AtBoundary b s :=
  ⟨h.banks, h.fault, fun _ e => (nomatch he.symm.trans e), h.engine.free_no_query he⟩

theorem AtBoundary.shown {P : Nat → Prop} {b : BankIx} {s t : State} (h : AtBoundary b s) (k : Shown P s t) :
    AtBoundary b t := by
  obtain ⟨c, -, rfl⟩ | ⟨-, -, x, c, -, rfl⟩ := k
  · exact ⟨h.banks, h.fault.of_same rfl rfl rfl, h.bank, h.query⟩
  · exact ((h.banks.faulted x).onBus c).atBoundary (faultedState_engine x s)

/-- At the boundary the bake goes on with its bank BAKING, or the engine falls free (R36, R120). -/
theorem rowBoundary_lawful {b : BankIx} {s : State} (h : AtBoundary b s) : Lawful (rowBoundary b s) := by
  obtain ⟨hb, hf, hbank, hq⟩ := h
  unfold rowBoundary
  split
  · split
    · rename_i hbaking
      have hs : Lawful s := ⟨hb, hf, fun b' e => hbank b' e ▸ hbaking, fun hn => absurd hq hn⟩
      split
      · exact fallFree_lawful _ hs
      · exact hs
    · exact sweepAndGrant_lawful (setCause_lawful _ (releaseEngine_lawful _ hb hf))
  · rename_i hne
    have hs : Lawful s := ⟨hb, hf, fun b' e => absurd (hbank b' e ▸ e) hne, fun hn => absurd hq hn⟩
    split
    · exact setCause_lawful _ hs
    · exact hs

theorem bakeRow_lawful {s : State} (h : Lawful s) : Lawful (bakeRow s) := by
  unfold bakeRow
  split
  case h_1 b he =>
    split
    case h_1 c look hb =>
      split <;> rename_i hw
      · exact writeFields_lawful hw h
      · obtain ⟨d, -, rfl⟩ := writeFields_written hw
        have hq : s.lbu.pendingQuery = none :=
          h.engine.no_query (fun _ _ _ e => nomatch he.symm.trans e) fun _ _ _ e => nomatch he.symm.trans e
        have hraised : AtBoundary b (putBank b (raisedBank s.aiu.frameCount c look) (s.onBus d)) :=
          ⟨h.banks.raised hb _ rfl, h.fault.of_same rfl rfl rfl, fun b' e => by cases he.symm.trans e; rfl, hq⟩
        exact rowBoundary_lawful (hraised.shown (writeHeader_shown b _))
    all_goals exact h
  all_goals exact h

/-! ## The take and the card job -/

section
variable {s : State} (h : Head) (k : Fin 8)

theorem afterEnded_lawful (e : Ending) (n : Bool) (hs : Lawful s) : Lawful (afterEnded h e n s) := by
  have hc := setCauseIf_lawful n .card (releaseEngine_lawful (some (cardEnding e, .card)) hs.banks hs.fault)
  unfold afterEnded
  refine sweepAndGrant_lawful ?_
  split
  · exact deliver_lawful _ hc
  · exact hc

theorem endCard_lawful (e : Ending) (n : Bool) (hs : Lawful s) : Lawful (endCard h k e n s) := by
  unfold endCard
  split <;> rename_i hw <;> have hw := writeFields_lawful hw hs
  · exact hw
  · exact afterEnded_lawful h e n hw

/-- A take in hand goes on, with any query pending. -/
theorem Lawful.take_on {t : State} {j j' : TakeJob} (hs : Lawful s) (he : s.ce.engine = .take h k j)
    (ht : t.ce.engine = .take h k j') (hl : t.lbu.banks = s.lbu.banks) (ha : t.aiu = s.aiu) : Lawful t :=
  hs.in_hand (by rw [he]; nofun) (engineLaw_of_take ht) hl ha

theorem takeReread_lawful {j : TakeJob} (he : s.ce.engine = .take h k j) (hs : Lawful s) :
    Lawful (takeReread h k j s) := by
  unfold takeReread
  split <;> rename_i hr <;> obtain ⟨c, rfl⟩ := readSpans_onBus hr
  · exact enterFault_lawful _ (hs.onBus c)
  · split
    · exact hs.take_on h k he rfl rfl rfl
    · exact fallFree_lawful _ (hs.onBus c)

theorem takeWriteTaken_lawful {j : TakeJob} (he : s.ce.engine = .take h k j) (hs : Lawful s) :
    Lawful (takeWriteTaken h k j s) := by
  unfold takeWriteTaken
  split <;> rename_i hw
  · exact writeFields_lawful hw hs
  · obtain ⟨c, -, rfl⟩ := writeFields_written hw
    exact hs.take_on h k he rfl rfl rfl

theorem takeLastTaken_lawful {j : TakeJob} (he : s.ce.engine = .take h k j) (hs : Lawful s) :
    Lawful (takeLastTaken h k j s) := by
  unfold takeLastTaken
  dsimp only
  split
  · exact hs.take_on h k he rfl rfl rfl
  · exact rewrite_lawful _ _ (hs.take_on h k he rfl rfl rfl)

theorem takeFinish_lawful (j : TakeJob) (hs : Lawful s) : Lawful (takeFinish h k j s) := by
  have hc := cutActions_lawful j.req.cut hs
  unfold takeFinish
  split
  · exact endCard_lawful h k _ _ hs
  · dsimp only
    split
    · rename_i hh
      refine rewrite_lawful _ _ (hc.in_hand (fun e => ?_) (engineLaw_of_card rfl) rfl rfl)
      rw [e] at hh
      cases hh
    · exact hc

theorem takeStage_lawful (st : TakeStage) (hs : Lawful s) : Lawful (takeStage s st) := by
  unfold takeStage
  split
  case h_1 h k j he =>
    split
    · cases st
      case reread => exact takeReread_lawful h k he hs
      case writeTaken => exact takeWriteTaken_lawful h k he hs
      case checks => exact hs.take_on h k he rfl rfl rfl
      case lastTaken => exact takeLastTaken_lawful h k he hs
      case finish => exact takeFinish_lawful h k j hs
    · exact hs
  all_goals exact hs

/-- A card job in hand goes on. -/
theorem Lawful.card_on {t : State} {j j' : CardJob} (hs : Lawful s) (he : s.ce.engine = .card h k j)
    (ht : t.ce.engine = .card h k j') (hl : t.lbu.banks = s.lbu.banks) (ha : t.aiu = s.aiu) : Lawful t :=
  hs.in_hand (by rw [he]; nofun) (engineLaw_of_card ht) hl ha

theorem cardCalibration_lawful {j : CardJob} (he : s.ce.engine = .card h k j) (hs : Lawful s) :
    Lawful (cardCalibration h k j s) := by
  have hl : Lawful (rewrite [.ciu] s (putLastTaken h j.lastBefore s)) :=
    rewrite_lawful _ _ (hs.of_same rfl rfl rfl rfl)
  unfold cardCalibration
  split
  · exact hs.card_on h k he rfl rfl rfl
  · dsimp only
    split
    · exact endCard_lawful h k _ _ hl
    all_goals exact hl

theorem cardTilePass_lawful {j : CardJob} (he : s.ce.engine = .card h k j) (hs : Lawful s) :
    Lawful (cardTilePass h k j s) := by
  unfold cardTilePass
  split <;> rename_i hr <;> obtain ⟨b, rfl⟩ := tilePass_onBus hr
  · exact endCard_lawful h k _ _ (hs.onBus b)
  · exact hs.card_on h k he rfl rfl rfl

theorem cardEstimate_lawful {j : CardJob} (he : s.ce.engine = .card h k j) (hs : Lawful s) :
    Lawful (cardEstimate h k j s) := by
  unfold cardEstimate
  dsimp only
  split
  · exact hs.card_on h k he rfl rfl rfl
  · exact rewrite_lawful _ _ (hs.card_on h k he rfl rfl rfl)

theorem cardWriteResult_lawful {j : CardJob} (he : s.ce.engine = .card h k j) (hs : Lawful s) :
    Lawful (cardWriteResult h k j s) := by
  unfold cardWriteResult
  split <;> rename_i hw
  · exact writeFields_lawful hw hs
  · obtain ⟨c, -, rfl⟩ := writeFields_written hw
    exact hs.card_on h k he rfl rfl rfl

theorem cardWriteEnding_lawful {j : CardJob} (he : s.ce.engine = .card h k j) (hs : Lawful s) :
    Lawful (cardWriteEnding h k j s) := by
  unfold cardWriteEnding
  split <;> rename_i hw
  · exact writeFields_lawful hw hs
  · obtain ⟨c, -, rfl⟩ := writeFields_written hw
    exact hs.card_on h k he rfl rfl rfl

theorem cardFinish_lawful (j : CardJob) (hs : Lawful s) : Lawful (cardFinish h k j s) := by
  unfold cardFinish
  split <;> rename_i hw <;> have hw := writeFields_lawful hw hs
  · exact hw
  · exact afterEnded_lawful h _ _ hw

theorem cardStage_lawful (st : CardStage) (hs : Lawful s) : Lawful (cardStage s st) := by
  unfold cardStage
  split
  case h_1 h k j he =>
    have on (j' : CardJob) : Lawful (putCard h k j' s) := hs.card_on h k he rfl rfl rfl
    split
    · cases st
      case calibration => exact cardCalibration_lawful h k he hs
      case tilePass => exact cardTilePass_lawful h k he hs
      case estimate => exact cardEstimate_lawful h k he hs
      case bankQuery => exact dropQuery_lawful (on _)
      case marks => exact rewrite_lawful _ _ (hs.card_on h k he rfl rfl rfl)
      case monitorEvents => exact deliver_lawful _ (on _)
      case writeResult => exact cardWriteResult_lawful h k he hs
      case writeEnding => exact cardWriteEnding_lawful h k he hs
      case finish => exact cardFinish_lawful h k j hs
      all_goals exact on _
    · exact hs
  all_goals exact hs

end

/-! ## What each kind of directive carries out -/

/-- BAKE_LUT's effect starts a bake on the bank it chooses (R114, R115). -/
theorem bakeLutEffect_lawful (p : Nat) {s : State} (h : Lawful s) : Lawful (bakeLutEffect p s).2 := by
  unfold bakeLutEffect
  split
  · exact h
  · rename_i i hi
    split <;> rename_i hr <;> cases busRead_onBus hr
    · exact h.onBus _
    · refine rewriteHeaders_lawful _ ((h.onBus s.bus.spend).of_banks (h.banks.bakeStarted hi _ rfl) (fun k hk => ?_)
        (.inl rfl) rfl rfl)
      rw [putBank_banks]
      by_cases hki : k = i
      · rw [hki, Two.get_set_eq]
        rfl
      · rwa [Two.get_set_ne _ _ _ _ hki]

theorem abortedBank_emptied (b : Bank) : abortedBank b = b ∨ abortedBank b = .empty ∧ isLive b = false := by
  cases b
  case live => exact .inl rfl
  case retiring => exact .inl rfl
  all_goals exact .inr ⟨rfl, rfl⟩

theorem BankLaw.aborted {l m : Lbu} (h : BankLaw l) (hm : m.banks = l.banks.map abortedBank) : BankLaw m :=
  h.of_emptied fun i => by
    rw [hm]
    cases i <;> exact abortedBank_emptied _

/-- ABORT_BAKE's effect makes a BAKING or ARMED bank EMPTY; the engine, which holds the directive, bakes none (R121). -/
theorem abortBakeEffect_lawful (p : Nat) {s : State} {j : DirJob} (h : Lawful s) (he : s.ce.engine = .directive j) :
    Lawful (abortBakeEffect p s).2 := by
  have hs := swap_lawful h
  have hk : (swap s).ce.engine = s.ce.engine ∨ (swap s).ce.engine = .free := (swap_keeps (.refl s)).engine
  have hbake : ∀ b, (swap s).ce.engine ≠ .bake b := fun b e => by
    rcases hk with e' | e'
    · exact nomatch e.symm.trans (e'.trans he)
    · exact nomatch e.symm.trans e'
  unfold abortBakeEffect
  dsimp only
  split
  · refine rewriteHeaders_lawful _
      ⟨hs.banks.aborted rfl, hs.fault.of_same rfl rfl rfl, fun b e => absurd e (hbake b), ?_⟩
    exact hs.engine.2
  · exact hs

theorem kindBody_prepare_lawful (row : Option DirKind) (p : Nat) {s : State} (h : Lawful s) :
    Lawful ((kindBody row).prepare p s).2 := by
  rcases row with _ | k
  · exact h
  · cases k
    case loadCalibration =>
      show Lawful (prepareLoad p s).2
      unfold prepareLoad
      dsimp only
      split
      · exact h
      · split <;> rename_i hr <;> obtain ⟨⟨b, rfl⟩, -⟩ := readPoints_found hr
        · exact h.of_same rfl rfl rfl rfl
        · split <;> exact h.of_same rfl rfl rfl rfl
    all_goals exact h

theorem kindBody_effect_lawful (row : Option DirKind) (p : Nat) {s : State} {j : DirJob} (h : Lawful s)
    (he : s.ce.engine = .directive j) : Lawful ((kindBody row).effect p s).2 := by
  rcases row with _ | k
  · exact h
  · cases k <;> simp only [kindBody]
    case setOrder =>
      unfold setOrderEffect
      split
      · exact h
      · exact rewrite_lawful _ _ (h.of_same rfl rfl rfl rfl)
    case setFilter =>
      unfold setFilterEffect
      split
      · exact h
      · exact h.of_same rfl rfl rfl rfl
    case setGrade =>
      unfold setGradeEffect
      split
      · exact h
      · exact h.of_same rfl rfl rfl rfl
    case loadCalibration =>
      exact Lawful.shown (s := commitState s) (h.of_same rfl rfl rfl rfl) (commitEffect_shown p s)
    case setTracking =>
      unfold setTrackingEffect
      split
      · exact rewrite_lawful _ _ (h.of_same rfl rfl rfl rfl)
      all_goals exact h
    case switchContext =>
      unfold switchContextEffect
      split
      · exact h
      · split
        · exact h
        · exact rewrite_lawful _ _ (h.of_same rfl rfl rfl rfl)
    case setMonitor =>
      unfold setMonitorEffect
      split
      · exact rewrite_lawful _ _ (h.of_same rfl rfl rfl rfl)
      all_goals exact h
    case bakeLut => exact bakeLutEffect_lawful p h
    case abortBake => exact abortBakeEffect_lawful p h he
    all_goals exact rewrite_lawful _ _ (h.of_same rfl rfl rfl rfl)

/-! ## The stages of a directive -/

section
variable {s : State} {j : DirJob}

/-- A directive job in hand goes on. -/
theorem Lawful.directive_on {t : State} {j' : DirJob} (hs : Lawful s) (he : s.ce.engine = .directive j)
    (ht : t.ce.engine = .directive j') (hl : t.lbu = s.lbu) (ha : t.aiu = s.aiu) : Lawful t :=
  hs.in_hand (by rw [he]; nofun) (engineLaw_of_directive ht (hl ▸ hs.engine.directive_no_query he)) (hl ▸ rfl) ha

theorem advanceDir_lawful (next : DirStage) (r : Option ResultCode) (hs : Lawful s) :
    Lawful (advanceDir next r s) := by
  unfold advanceDir
  split
  case h_1 j he => exact hs.directive_on he rfl rfl rfl
  all_goals exact hs

theorem dirTake_lawful (he : s.ce.engine = .directive j) (hs : Lawful s) : Lawful (dirTake j s) := by
  unfold dirTake
  split <;> rename_i hr <;> cases busRead_onBus hr
  · exact enterFault_lawful _ (hs.onBus _)
  · split
    · split <;> rename_i hw
      · exact writeFields_lawful hw (hs.onBus _)
      · obtain ⟨c, -, rfl⟩ := writeFields_written hw
        exact hs.directive_on he rfl rfl rfl
    · exact fallFree_lawful _ (hs.onBus _)

theorem dirReadKind_lawful (he : s.ce.engine = .directive j) (hs : Lawful s) : Lawful (dirReadKind j s) := by
  unfold dirReadKind
  split <;> rename_i hr <;> cases busRead_onBus hr
  · exact enterFault_lawful _ (hs.onBus _)
  · exact hs.directive_on he rfl rfl rfl

theorem dirReadPayload_lawful (he : s.ce.engine = .directive j) (hs : Lawful s) : Lawful (dirReadPayload j s) := by
  unfold dirReadPayload
  split
  · exact hs.directive_on he rfl rfl rfl
  · split <;> rename_i hr <;> obtain ⟨c, rfl⟩ := readSpans_onBus hr <;> exact hs.directive_on he rfl rfl rfl

theorem dirPrepare_lawful (row : Option DirKind) (he : s.ce.engine = .directive j) (hs : Lawful s) :
    Lawful (dirPrepare (kindBody row) j s) := by
  unfold dirPrepare
  split
  · exact hs.directive_on he rfl rfl rfl
  · exact advanceDir_lawful _ _ (kindBody_prepare_lawful row _ hs)

theorem dirEffect_lawful (row : Option DirKind) (he : s.ce.engine = .directive j) (hs : Lawful s) :
    Lawful (dirEffect (kindBody row) j s) := by
  unfold dirEffect
  split
  · exact hs.directive_on he rfl rfl rfl
  · exact advanceDir_lawful _ _ (kindBody_effect_lawful row _ hs he)

theorem dirWriteResult_lawful (he : s.ce.engine = .directive j) (hs : Lawful s) : Lawful (dirWriteResult j s) := by
  unfold dirWriteResult
  split <;> rename_i hw
  · obtain ⟨c, e⟩ := staleEnded_eq _
    rw [e]
    exact (writeFields_lawful hw hs).of_same rfl rfl rfl rfl
  · obtain ⟨c, -, rfl⟩ := writeFields_written hw
    exact hs.directive_on he rfl rfl rfl

theorem dirFinish_lawful (j : DirJob) (hs : Lawful s) : Lawful (dirFinish j s) := by
  unfold dirFinish
  split <;> rename_i hw <;> have hw := writeFields_lawful hw hs
  · exact hw
  · exact sweepAndGrant_lawful (setCause_lawful _ (releaseEngine_lawful _ hw.banks hw.fault))

theorem dirStage_lawful (row : Option DirKind) (st : DirStage) (hs : Lawful s) :
    Lawful (dirStage (kindBody row) s st) := by
  by_cases hn : ∀ j, s.ce.engine = .directive j → j.next ≠ st
  · rwa [dirStage_skip _ s st hn]
  · push Not at hn
    obtain ⟨j, he, hst⟩ := hn
    rw [dirStage_work _ he hst]
    cases st
    case take => exact dirTake_lawful he hs
    case kind => exact dirReadKind_lawful he hs
    case payload => exact dirReadPayload_lawful he hs
    case prepare => exact dirPrepare_lawful row he hs
    case effect => exact dirEffect_lawful row he hs
    case result => exact dirWriteResult_lawful he hs
    case finish => exact dirFinish_lawful j hs

theorem runDirective_lawful (row : Option DirKind) (u : DirStage) (hs : Lawful s) :
    Lawful (runDirective row (kindBody row) u s) := by
  rcases runDirective_cases row (kindBody row) s with e | ⟨-, e⟩ <;> rw [e u]
  · exact hs
  · exact List.foldlRecOn _ _ hs fun _ hb st _ => dirStage_lawful row st hb

end

/-! ## Every command -/

/-- The row of the directive table that a command is, and how far it runs. -/
def directiveRowOf : Instr → Option (Option DirKind × DirStage)
  | .refusedKind u => some (none, u)
  | .setOrder u => some (some .setOrder, u)
  | .setFilter u => some (some .setFilter, u)
  | .loadCalibration u => some (some .loadCalibration, u)
  | .setTracking u => some (some .setTracking, u)
  | .switchContext u => some (some .switchContext, u)
  | .snap u => some (some .snap, u)
  | .setGrade u => some (some .setGrade, u)
  | .bakeLut u => some (some .bakeLut, u)
  | .abortBake u => some (some .abortBake, u)
  | .setCadence u => some (some .setCadence, u)
  | .setPod u => some (some .setPod, u)
  | .setMonitor u => some (some .setMonitor, u)
  | .setFreeze u => some (some .setFreeze, u)
  | .clearMonitor u => some (some .clearMonitor, u)
  | _ => none

theorem directiveRowOf_eq_some {c : Instr} {row : Option DirKind} {u : DirStage}
    (h : directiveRowOf c = some (row, u)) : c = directiveRow row u := by
  cases c <;> cases h <;> rfl

/-- A directive's command runs the job in hand with its kind's work. -/
theorem exec_directive {c : Instr} {row : Option DirKind} {u : DirStage} {s t : State}
    (hc : directiveRowOf c = some (row, u)) (h : exec c s = .next t) : t = runDirective row (kindBody row) u s := by
  rw [directiveRowOf_eq_some hc, exec_directiveRow] at h
  cases h
  rfl

/-- The commands that are no directives. -/
theorem exec_plain_lawful (c : Instr) (s t : State) (hc : directiveRowOf c = none) (hs : Lawful s)
    (h : exec c s = .next t) : Lawful t := by
  cases c
  all_goals cases h
  case frameSync => exact frameSync_lawful hs
  case retirement => exact retire_lawful hs
  case trackerStep => exact trackerStep_lawful hs
  case pollExpiry => exact pollExpiry_lawful hs
  case settleExpiry => exact settleExpiry_lawful hs
  case requestSent => exact requestSent_lawful hs
  case replyWindowExpiry => exact replyWindowExpiry_lawful hs
  case replyCharacter data parity stop => exact replyCharacter_lawful _ hs
  case replyGapTimeout => exact replyGapTimeout_lawful hs
  case take u => exact List.foldlRecOn _ _ hs fun _ hb st _ => takeStage_lawful st hb
  case cardJob u => exact List.foldlRecOn _ _ hs fun _ hb st _ => cardStage_lawful st hb
  case bakeRow => exact bakeRow_lawful hs
  case drainComplete => exact drainComplete_lawful hs
  case runSet w => exact runSet_lawful w hs
  case runClear w => exact runClear_lawful w hs
  case engineReset w => exact engineReset_lawful w hs
  case attentionMaskWrite w =>
    cases controlRun w
    · exact runClear_lawful w hs
    · exact runSet_lawful w hs
  case areaWrite w =>
    show Lawful (areaWrite w s)
    unfold areaWrite
    split
    · exact hs.of_same rfl rfl rfl rfl
    · exact hs
  case attnWrite w => exact rewrite_lawful _ _ (hs.of_same rfl rfl rfl rfl)
  case registerWriteIgnored r w => exact hs
  case deviceReset => exact deviceReset_lawful s
  all_goals cases hc

theorem exec_lawful (c : Instr) (s t : State) (hs : Lawful s) (h : exec c s = .next t) : Lawful t := by
  rcases hc : directiveRowOf c with _ | ⟨row, u⟩
  · exact exec_plain_lawful c s t hc hs h
  · rw [exec_directive hc h]
    exact runDirective_lawful row u hs

/-- Settles O57: the three laws are kept together by each operation of each command; a bank that a row has made ARMED
stands under its BAKE job only up to the row's boundary. -/
theorem everyStepKeepsBankAndEngineLaws : Obligations.EveryStepKeepsBankAndEngineLaws := by
  unfold Obligations.EveryStepKeepsBankAndEngineLaws
  intro s t hb hf he h
  have hs : Lawful s := ⟨hb, hf, he⟩
  have ht : Lawful t := by
    unfold step at h
    split at h
    · cases h
      exact hs
    · refine exec_lawful _ _ t ?_ h
      exact hs.of_same rfl rfl rfl rfl
  exact ⟨ht.banks, ht.fault, ht.engine⟩

end Sys2Proof.Machine

/-! O9: the laws at the state after reset, each from the value that its block takes there. -/

namespace Sys2Proof.Machine

theorem countLaw_reset : CountLaw State.reset := ⟨by decide, by decide⟩

theorem faultLaw_reset : FaultLaw State.reset := ⟨by decide, fun _ => rfl⟩

theorem timerLaw_reset : TimerLaw State.reset.ct := by
  unfold TimerLaw
  decide

/-- The link stands OFF with the enable clear, and nothing is in flight. -/
theorem linkLaw_reset : LinkLaw State.reset.mlc :=
  ⟨by decide, fun _ => ⟨rfl, rfl, rfl, rfl⟩, nofun, ⟨fun _ => rfl, fun _ => rfl⟩, fun _ => rfl⟩

theorem storeLaw_reset : StoreLaw State.reset := ⟨nofun, fun _ => rfl, fun _ _ h => nomatch h.1⟩

/-- Only context 0 is initialised at reset. -/
theorem contextReset_get {i : Fin 4} {x : Context} (h : It.reset.contexts.get i = some x) : x = Context.reset := by
  match i, h with
  | 0, h => exact (Option.some.inj h).symm
  | 1, h => cases h
  | 2, h => cases h
  | 3, h => cases h

theorem inTrackingRange_reset : InTrackingRange Context.reset.settings :=
  ⟨by decide, by decide, by decide, by decide, by decide, by decide, fun h => by cases h <;> decide⟩

theorem latestReset_get (h : Ix2) : It.reset.latest.get h = none := by cases h <;> rfl

theorem contextLaw_reset : ContextLaw State.reset.it where
  left i x hx := by
    obtain rfl := contextReset_get (i := i) hx
    exact ⟨by decide, inTrackingRange_reset⟩
  right h e he := nomatch (latestReset_get h).symm.trans he

theorem ageLaw_reset : AgeLaw State.reset :=
  ⟨fun h _ he => absurd ((latestReset_get h).symm.trans he) (by simp),
    fun _ hr => absurd hr (by simp [State.reset, Mlc.reset]),
    fun _ _ _ he => absurd he (by simp [State.reset, Ce.reset]),
    fun _ _ _ he => absurd he (by simp [State.reset, Ce.reset])⟩

theorem quad_get_const {α : Type} (i : Fin 4) (a : α) : (Quad.const a).get i = a := by
  fin_cases i <;> rfl

theorem counterLaw_reset : CounterLaw State.reset.mon := by
  intro i
  have h : (Mon.reset.counters.get i).value = 0 := congrArg Counter.value (quad_get_const i Counter.reset)
  show (Mon.reset.counters.get i).value < 2 ^ 48
  omega

theorem settingsLaw_reset : SettingsLaw State.reset.ce := by
  unfold SettingsLaw
  decide

/-- Settles O9. -/
theorem lawsHoldAtReset : Obligations.LawsHoldAtReset :=
  ⟨by decide, countLaw_reset, faultLaw_reset, bankLaw_empty, engineLaw_of_free rfl rfl, timerLaw_reset, linkLaw_reset,
    storeLaw_reset, nofun, rfl, contextLaw_reset, ⟨by decide, by decide⟩, ageLaw_reset, counterLaw_reset,
    settingsLaw_reset⟩

end Sys2Proof.Machine

/-! O44: the arithmetic of a LUT entry (R117 to R119). Each of its three functions is described once; an entry's
layout follows because each output, lying between two knots, is a halfword. -/

namespace Sys2Proof.Machine

/-! ## The linear value (R117) -/

theorem lutLinear_eq (c : Row3) (x0 x1 x2 : Nat) :
    (lutLinear c x0 x1 x2 : Int) = max 0 (min 8191 ((c.c0 * x0 + c.c1 * x1 + c.c2 * x2 + 2048) / 4096)) := by
  unfold lutLinear shr12
  rw [clampInt_eq (by decide), Int.toNat_of_nonneg (by omega)]

theorem lutLinear_le (c : Row3) (x0 x1 x2 : Nat) : lutLinear c x0 x1 x2 ≤ 8191 := by
  have := lutLinear_eq c x0 x1 x2
  omega

/-! ## The soft clip (R118) -/

theorem softClip_below {knee y : Nat} (h : y ≤ knee) : softClip knee y = y := if_pos h

theorem softClip_above {knee y : Nat} (h : knee < y) :
    softClip knee y = knee + (y - knee) * (4096 - knee) / (8191 - knee) := if_neg (by omega)

/-- The distance above the knee is at most the divisor, so what is added to the knee is at most `4096 - knee`. -/
theorem softClip_le {knee y : Nat} (hk : knee ≤ 4096) (hy : y ≤ 8191) : softClip knee y ≤ 4096 := by
  rcases Nat.lt_or_ge knee y with h | h
  · rw [softClip_above h]
    have : (y - knee) * (4096 - knee) / (8191 - knee) ≤ 4096 - knee :=
      Nat.div_le_of_le_mul (Nat.mul_le_mul_right _ (by omega))
    omega
  · rw [softClip_below h]
    omega

theorem softClip_top {knee : Nat} (hk : knee ≤ 4096) : softClip knee 8191 = 4096 := by
  rw [softClip_above (by omega), Nat.mul_div_cancel_left _ (by omega)]
  omega

theorem softClip_white {y : Nat} (h : 4096 < y) : softClip 4096 y = 4096 := by
  rw [softClip_above h]
  simp

/-! ## The tone curve (R119) -/

theorem toneCurve_white (knots : List Nat) : toneCurve knots 4096 = knots.getD 16 0 := rfl

/-- A rounded part `f / 256` of a difference lies between 0 and the difference. -/
theorem roundedPart_bounds (d : Int) {f : Nat} (hf : f < 256) :
    min 0 d ≤ (d * (f : Int) + 128) / 256 ∧ (d * (f : Int) + 128) / 256 ≤ max 0 d := by
  rcases le_total 0 d with hd | hd
  · have h0 : 0 ≤ d * (f : Int) := mul_nonneg hd (by omega)
    have h1 : d * (f : Int) ≤ d * 255 := mul_le_mul_of_nonneg_left (by omega) hd
    omega
  · have h0 : d * (f : Int) ≤ 0 := mul_nonpos_of_nonpos_of_nonneg hd (by omega)
    have h1 : d * 255 ≤ d * (f : Int) := mul_le_mul_of_nonpos_left (by omega) hd
    omega

section
variable (knots : List Nat) {v : Nat}

theorem toneCurve_eq (h : v < 4096) :
    (toneCurve knots v : Int) = (knots.getD (v / 256) 0 : Int)
      + (((knots.getD (v / 256 + 1) 0 : Int) - (knots.getD (v / 256) 0 : Int)) * ((v % 256 : Nat) : Int) + 128)
        / 256 := by
  have hb := roundedPart_bounds ((knots.getD (v / 256 + 1) 0 : Int) - (knots.getD (v / 256) 0 : Int))
    (Nat.mod_lt v (by decide : 0 < 256))
  have hj : v / 256 ≠ 16 := by omega
  simp only [toneCurve, hj, if_false]
  omega

theorem toneCurve_between (h : v < 4096) :
    min (knots.getD (v / 256) 0) (knots.getD (v / 256 + 1) 0) ≤ toneCurve knots v
      ∧ toneCurve knots v ≤ max (knots.getD (v / 256) 0) (knots.getD (v / 256 + 1) 0) := by
  have hb := roundedPart_bounds ((knots.getD (v / 256 + 1) 0 : Int) - (knots.getD (v / 256) 0 : Int))
    (Nat.mod_lt v (by decide : 0 < 256))
  have he := toneCurve_eq knots h
  omega

theorem toneCurve_knot (h : v < 4096) (hf : v % 256 = 0) : toneCurve knots v = knots.getD (v / 256) 0 := by
  have he := toneCurve_eq knots h
  rw [hf] at he
  simpa using he

variable {knots}

theorem knot_halfword (hk : ∀ k ∈ knots, k < 2 ^ 16) (i : Nat) : knots.getD i 0 < 2 ^ 16 := by
  rw [List.getD_eq_getElem?_getD]
  cases hi : knots[i]? with
  | none => decide
  | some k => exact hk k (List.mem_of_getElem? hi)

theorem toneCurve_halfword (hk : ∀ k ∈ knots, k < 2 ^ 16) (h : v ≤ 4096) : toneCurve knots v < 2 ^ 16 := by
  rcases Nat.lt_or_ge v 4096 with hv | hv
  · exact lt_of_le_of_lt (toneCurve_between knots hv).2
      (max_lt (knot_halfword hk (v / 256)) (knot_halfword hk (v / 256 + 1)))
  · obtain rfl : v = 4096 := by omega
    exact knot_halfword hk 16

end

/-! ## The layout of an entry (R116, 12.5) -/

theorem entryInput_node {r g b : Nat} (hg : g < 17) (hb : b < 17) :
    entryInput (r * 289 + g * 17 + b) = (r * 256, g * 256, b * 256) := by
  have hr : (r * 289 + g * 17 + b) / 289 = r := by omega
  have hgb : (r * 289 + g * 17 + b) / 17 % 17 = g := by omega
  have hbb : (r * 289 + g * 17 + b) % 17 = b := by omega
  simp only [entryInput, hr, hgb, hbb]

theorem lutOutput_halfword {look : Look} (hn : look.knee ≤ 4096) (hk : ∀ k ∈ look.knots, k < 2 ^ 16) (c : Row3)
    (x0 x1 x2 : Nat) : lutOutput look c x0 x1 x2 < 2 ^ 16 :=
  toneCurve_halfword hk (softClip_le hn (lutLinear_le c x0 x1 x2))

/-- Three halfwords put side by side are found again, and the fourth is zero. -/
theorem halfwords_placed {x y z : Nat} (hx : x < 2 ^ 16) (hy : y < 2 ^ 16) (hz : z < 2 ^ 16) :
    let e := x + y * 2 ^ 16 + z * 2 ^ 32
    e % 2 ^ 16 = x ∧ e / 2 ^ 16 % 2 ^ 16 = y ∧ e / 2 ^ 32 % 2 ^ 16 = z ∧ e / 2 ^ 48 = 0 := by
  dsimp only
  omega

theorem lutEntry_node {look : Look} {r g b : Nat} (hg : g < 17) (hb : b < 17) (hn : look.knee ≤ 4096)
    (hk : ∀ k ∈ look.knots, k < 2 ^ 16) :
    let out (c : Row3) : Nat := lutOutput look c (r * 256) (g * 256) (b * 256)
    let e := lutEntry look (r * 289 + g * 17 + b)
    e % 2 ^ 16 = out look.matrix.r0 ∧ e / 2 ^ 16 % 2 ^ 16 = out look.matrix.r1
      ∧ e / 2 ^ 32 % 2 ^ 16 = out look.matrix.r2 ∧ e / 2 ^ 48 = 0 := by
  have hout (c : Row3) := lutOutput_halfword hn hk c (r * 256) (g * 256) (b * 256)
  simp only [lutEntry, entryInput_node hg hb]
  exact halfwords_placed (hout _) (hout _) (hout _)

/-- Settles O44. -/
theorem lutEntryArithmetic : Obligations.LutEntryArithmetic := by
  refine ⟨lutLinear_eq, fun knee y _ hk hy => ?_, fun knots v _ => ?_, fun look r g b _ hg hb _ hn hk => ?_⟩
  · refine ⟨softClip_below, softClip_above, softClip_le hk hy, softClip_top hk, ?_⟩
    rintro rfl h
    exact softClip_white h
  · refine ⟨?_, fun h => ?_⟩
    · rintro rfl
      exact toneCurve_white knots
    · obtain ⟨hlo, hhi⟩ := toneCurve_between knots h
      exact ⟨toneCurve_eq knots h, hlo, hhi, toneCurve_knot knots h⟩
  · exact lutEntry_node hg hb hn hk

end Sys2Proof.Machine

/-! O14: the retirement (R124). Of a RETIRING bank beside a LIVE one, when it is due and what it leaves. -/

namespace Sys2Proof.Machine

theorem retirementDue_of_not_retiring {n : Nat} {l : Lbu} {i : BankIx} (h : isRetiring (l.banks.get i) = false) :
    retirementDue n l i = false := by
  unfold retirementDue
  cases hb : l.banks.get i <;> rw [hb] at h
  case retiring => cases h
  all_goals rfl

theorem retiredLbu_of_none_retiring {l : Lbu} (h : ∀ i, isRetiring (l.banks.get i) = false) (n : Nat) :
    retiredLbu n l = l :=
  retiredLbu_of_not_due fun i => retirementDue_of_not_retiring (h i)

theorem liveStart_of_live {banks : Two Bank} {i : BankIx} {start : Nat} {p : Bool} (hl : banks.get i = .live start p)
    (ho : isLive (banks.get i.other) = false) : liveStart banks = some start := by
  obtain ⟨b0, b1⟩ := banks
  unfold liveStart
  cases i
  · obtain rfl : b0 = _ := hl
    rfl
  · obtain rfl : b1 = _ := hl
    change isLive b0 = false at ho
    cases b0
    case live => cases ho
    all_goals rfl

/-- A pending query holds a retirement back exactly below the LIVE bank's start frame. -/
theorem queryHolds_iff {l : Lbu} {start : Nat} (h : liveStart l.banks = some start) :
    queryHolds l = true ↔ ∃ q, l.pendingQuery = some q ∧ q < start := by
  unfold queryHolds
  rw [h]
  cases l.pendingQuery <;> simp

section
variable {l : Lbu} {i : BankIx} {st r start : Nat} {p pl : Bool} {n : Nat}

theorem retirementDue_retiring (hi : l.banks.get i = .retiring st p r) :
    retirementDue n l i = (decide (r ≤ n) && !queryHolds l) := by
  unfold retirementDue
  rw [hi]
  rfl

/-- The retirement of a RETIRING bank beside a LIVE one is due at its retire frame, unless a query is pending below the
LIVE bank's start frame. -/
theorem retirementDue_iff (hi : l.banks.get i = .retiring st p r) (ho : l.banks.get i.other = .live start pl) :
    retirementDue n l i = true ↔ r ≤ n ∧ ∀ q, l.pendingQuery = some q → start ≤ q := by
  have hs : liveStart l.banks = some start :=
    liveStart_of_live ho (by rw [other_other, hi]; rfl)
  have hq := queryHolds_iff hs
  rw [retirementDue_retiring hi, Bool.and_eq_true, decide_eq_true_eq, Bool.not_eq_true', ← Bool.not_eq_true, hq]
  simp

theorem retiredLbu_due (ho : l.banks.get i.other = .live start pl) (hd : retirementDue n l i = true) :
    retiredLbu n l = { l with banks := l.banks.set i .empty } := by
  have hdo : retirementDue n l i.other = false := retirementDue_of_not_retiring (by rw [ho]; rfl)
  refine lbu_ext (fun k => ?_) rfl
  rw [retiredLbu_get, retiredBank]
  rcases eq_or_other i k with rfl | rfl
  · rw [if_pos hd, Two.get_set_eq]
  · rw [if_neg (by rw [hdo]; nofun), Two.get_set_ne _ _ _ _ (other_ne i)]

theorem retiredLbu_waits (ho : l.banks.get i.other = .live start pl) (hd : ¬ retirementDue n l i = true) :
    retiredLbu n l = l := by
  refine retiredLbu_of_not_due fun k => ?_
  rcases eq_or_other i k with rfl | rfl
  · exact Bool.eq_false_iff.2 hd
  · exact retirementDue_of_not_retiring (by rw [ho]; rfl)

theorem not_due_iff (hi : l.banks.get i = .retiring st p r) (ho : l.banks.get i.other = .live start pl) :
    ¬ retirementDue n l i = true ↔ n < r ∨ ∃ q, l.pendingQuery = some q ∧ q < start := by
  rw [retirementDue_iff hi ho, not_and_or, Nat.not_le]
  push Not
  rfl

/-- With the pending query gone the retire frame alone decides. -/
theorem queryAbsent_due (hi : l.banks.get i = .retiring st p r) (ho : l.banks.get i.other = .live start pl)
    (hr : r ≤ n) : queryAbsent n l = { banks := l.banks.set i .empty, pendingQuery := none } :=
  retiredLbu_due (l := { l with pendingQuery := none }) ho
    ((retirementDue_iff (l := { l with pendingQuery := none }) hi ho).2 ⟨hr, nofun⟩)

theorem queryAbsent_waits (hi : l.banks.get i = .retiring st p r) (ho : l.banks.get i.other = .live start pl)
    (hr : n < r) : queryAbsent n l = { l with pendingQuery := none } :=
  retiredLbu_waits (l := { l with pendingQuery := none }) ho
    ((not_due_iff (l := { l with pendingQuery := none }) hi ho).2 (.inl hr))

end

/-! ## The row RETIREMENT -/

theorem rewriteHeaders_same {s t : State} (h : t.lbu.banks = s.lbu.banks) : rewriteHeaders s t = t := by
  unfold rewriteHeaders
  rw [h]
  simp

theorem retire_of_kept {s : State} (h : retiredLbu s.aiu.frameCount s.lbu = s.lbu) : retire s = s := by
  unfold retire
  rw [h]
  exact rewriteHeaders_same rfl

/-- A bank replaced, with its header written. -/
theorem rewriteHeaders_putBank {s t : State} {i : BankIx} {b : Bank} (hc : Clear s) (ht : t.bus = s.bus)
    (ha : t.aiu.area = s.aiu.area) (hl : t.lbu.banks = s.lbu.banks.set i b) :
    ∃ c, s.bus.Within (HeaderBytes s i) c ∧ rewriteHeaders s t = t.onBus c := by
  have hbase : base t = base s := congrArg BitVec.toNat ha
  have hct : Clear t := by
    unfold Clear
    rwa [hbase, ht]
  have hbytes (a : Nat) : ChangedHeaderBytes s t a → HeaderBytes s i a := by
    rintro ⟨k, hne, hk⟩
    rcases eq_or_other i k with rfl | rfl
    · unfold HeaderBytes at hk ⊢
      rwa [hbase] at hk
    · rw [hl, Two.get_set_ne _ _ _ _ (other_ne i)] at hne
      exact absurd rfl hne
  obtain ⟨c, hw, hx⟩ := ((rewriteHeaders_shown s t).mono hbytes).of_clear hct
  exact ⟨c, ht ▸ hw, hx⟩

/-- Settles O14. -/
theorem retirementWaitsForTheQuery : Obligations.RetirementWaitsForTheQuery := by
  refine ⟨fun l n i st r start p pl hi ho => ⟨fun h => ?_, fun h => ?_, queryAbsent_due hi ho, queryAbsent_waits hi ho⟩,
    fun l n h => ⟨retiredLbu_of_none_retiring h n, ?_⟩, fun s i st r start p pl hc hi ho => ⟨fun h => ?_, fun h => ?_⟩,
    fun s h => congrArg Host.Outcome.next (retire_of_kept (retiredLbu_of_none_retiring h _))⟩
  · exact retiredLbu_due ho ((retirementDue_iff hi ho).2 h)
  · exact retiredLbu_waits ho ((not_due_iff hi ho).2 h)
  · exact retiredLbu_of_none_retiring (l := { l with pendingQuery := none }) h n
  · have hd := retiredLbu_due ho ((retirementDue_iff hi ho).2 h)
    obtain ⟨b, hw, hx⟩ := rewriteHeaders_putBank (t := putBank i .empty s) hc rfl rfl rfl
    refine ⟨b, hw, congrArg Host.Outcome.next ?_⟩
    unfold retire
    rw [hd]
    exact hx
  · exact congrArg Host.Outcome.next (retire_of_kept (retiredLbu_waits ho ((not_due_iff hi ho).2 h)))

end Sys2Proof.Machine

/-! O13: a swap and the bank in force (R122, R123). A frame number at or above the swap frame has the ARMED bank before
the swap and the LIVE one after it; one below it has the bank beside it, LIVE before and RETIRING after, or none. -/

namespace Sys2Proof.Machine

theorem forall_of_pair {P : Ix2 → Prop} (i : Ix2) (h : P i) (ho : P i.other) (k : Ix2) : P k := by
  rcases eq_or_other i k with rfl | rfl
  · exact h
  · exact ho

section
variable {l : Lbu} {i : BankIx} {f q : Nat}

/-- Before the swap, from the swap frame on. -/
theorem bankForFrame_armed (hl : BankLaw l) (hi : l.banks.get i = .armed f) (hq : f ≤ q) :
    bankForFrame l.banks q = some i :=
  (bankForFrame_cases l q hl).1 i (by rw [hi]; exact decide_eq_true hq)

theorem not_armedFor_below (hi : l.banks.get i = .armed f) (ho : armedFor q (l.banks.get i.other) = false)
    (hq : q < f) : ∀ k, ¬ armedFor q (l.banks.get k) = true :=
  forall_of_pair i (by rw [hi]; simpa [armedFor, bankSwap] using hq) (by rw [ho]; nofun)

/-- Before the swap, below the swap frame and beside an EMPTY bank. -/
theorem bankForFrame_armed_alone (hl : BankLaw l) (hi : l.banks.get i = .armed f)
    (ho : l.banks.get i.other = .empty) (hq : q < f) : bankForFrame l.banks q = none := by
  obtain ⟨-, h⟩ := bankForFrame_cases l q hl
  obtain ⟨-, h⟩ := h (not_armedFor_below hi (by rw [ho]; rfl) hq)
  obtain ⟨-, h⟩ := h (forall_of_pair i (by rw [hi]; nofun) (by rw [ho]; nofun))
  obtain ⟨-, h⟩ := h (forall_of_pair i (by rw [hi]; nofun) (by rw [ho]; nofun))
  exact h (forall_of_pair i (by rw [hi]; nofun) (by rw [ho]; nofun))

/-- Before the swap, below the swap frame and beside a LIVE bank that covers the frame number. -/
theorem bankForFrame_armed_beside_live (hl : BankLaw l) (hi : l.banks.get i = .armed f) {st : Nat} {p : Bool}
    (ho : l.banks.get i.other = .live st p) (hc : st ≤ q ∨ p = true) (hq : q < f) :
    bankForFrame l.banks q = some i.other := by
  obtain ⟨-, h⟩ := bankForFrame_cases l q hl
  obtain ⟨hlive, h⟩ := h (not_armedFor_below hi (by rw [ho]; rfl) hq)
  by_cases hs : st ≤ q
  · exact hlive i.other (by rw [ho]; exact decide_eq_true hs)
  · obtain ⟨-, h⟩ := h (forall_of_pair i (by rw [hi]; nofun) (by rw [ho]; simpa [liveFor] using hs))
    obtain ⟨hafter, -⟩ := h (forall_of_pair i (by rw [hi]; nofun) (by rw [ho]; nofun))
    exact hafter i.other (by rw [ho]; exact hc.resolve_left hs)

/-- From a LIVE bank's start frame on, with no bank ARMED. -/
theorem bankForFrame_live (hl : BankLaw l) {p : Bool} (hi : l.banks.get i = .live f p)
    (ho : isArmed (l.banks.get i.other) = false) (hq : f ≤ q) : bankForFrame l.banks q = some i := by
  obtain ⟨-, h⟩ := bankForFrame_cases l q hl
  refine (h (forall_of_pair i (by rw [hi]; nofun) ?_)).1 i (by rw [hi]; exact decide_eq_true hq)
  cases hb : l.banks.get i.other <;> rw [hb] at ho
  case armed => cases ho
  all_goals nofun

/-- After the swap, below the swap frame and beside an EMPTY bank. -/
theorem bankForFrame_live_alone (hl : BankLaw l) (hi : l.banks.get i = .live f false)
    (ho : l.banks.get i.other = .empty) (hq : q < f) : bankForFrame l.banks q = none := by
  have hlow : ¬ liveFor q (l.banks.get i) = true := by rw [hi]; simpa [liveFor] using hq
  obtain ⟨-, h⟩ := bankForFrame_cases l q hl
  obtain ⟨-, h⟩ := h (forall_of_pair i (by rw [hi]; nofun) (by rw [ho]; nofun))
  obtain ⟨-, h⟩ := h (forall_of_pair i hlow (by rw [ho]; nofun))
  obtain ⟨-, h⟩ := h (forall_of_pair i (by rw [hi]; nofun) (by rw [ho]; nofun))
  exact h (forall_of_pair i (by rw [hi]; nofun) (by rw [ho]; nofun))

/-- After the swap, below the swap frame and beside a RETIRING bank. -/
theorem bankForFrame_live_beside_retiring (hl : BankLaw l) (hi : l.banks.get i = .live f true) {st r : Nat} {p : Bool}
    (ho : l.banks.get i.other = .retiring st p r) (hq : q < f) : bankForFrame l.banks q = some i.other := by
  have hlow : ¬ liveFor q (l.banks.get i) = true := by rw [hi]; simpa [liveFor] using hq
  obtain ⟨-, h⟩ := bankForFrame_cases l q hl
  obtain ⟨-, h⟩ := h (forall_of_pair i (by rw [hi]; nofun) (by rw [ho]; nofun))
  obtain ⟨hret, -⟩ := h (forall_of_pair i hlow (by rw [ho]; nofun))
  exact hret i.other (by rw [ho]; rfl)

/-- A swap keeps the bank in force for a frame number that the LIVE bank, if there is one, covers or had a predecessor
for. -/
theorem bankForFrame_swapped (hl : BankLaw l) (hi : l.banks.get i = .armed f)
    (hq : ∀ st p, l.banks.get i.other = .live st p → st ≤ q ∨ p = true) :
    bankForFrame (swappedBanks l.banks i f) q = bankForFrame l.banks q := by
  have hl' : BankLaw { l with banks := swappedBanks l.banks i f } := hl.swapped hi rfl
  rcases Nat.lt_or_ge q f with hlt | hge
  · rcases hl.swapped_get hi with ⟨ho, hi', ho'⟩ | ⟨st, p, ho, hi', ho'⟩
    · exact (bankForFrame_live_alone hl' hi' ho' hlt).trans (bankForFrame_armed_alone hl hi ho hlt).symm
    · exact (bankForFrame_live_beside_retiring hl' hi' ho' hlt).trans
        (bankForFrame_armed_beside_live hl hi ho (hq st p ho) hlt).symm
  · rw [bankForFrame_armed hl hi hge]
    rcases hl.swapped_get hi with ⟨-, hi', ho'⟩ | ⟨st, p, -, hi', ho'⟩
    · exact bankForFrame_live hl' hi' ((congrArg isArmed ho').trans rfl) hge
    · exact bankForFrame_live hl' hi' ((congrArg isArmed ho').trans rfl) hge

end

/-- Settles O13. -/
theorem swapKeepsTheBankOfAFrame : Obligations.SwapKeepsTheBankOfAFrame := by
  intro l i f q hl hi
  refine ⟨?_, fun st p ho => ?_, fun ho => ?_, bankForFrame_swapped hl hi⟩
  · rcases hl.swapped_get hi with ⟨ho, hi', -⟩ | ⟨st, p, ho, hi', -⟩ <;> rw [hi', ho] <;> rfl
  · rw [swappedBanks_live ho, Two.get_set_eq]
  · rcases hl.swapped_get hi with ⟨he, -, he'⟩ | ⟨st, p, hlive, -⟩
    · rw [he, he']
    · rw [hlive] at ho
      cases ho

end Sys2Proof.Machine

/-! O7: the engine reset, block by block (R174), and the banks it leaves (R125). -/

namespace Sys2Proof.Machine

/-- The link after an engine reset: an exchange in flight is abandoned, and the settings are kept (R137, R154). -/
theorem engineResetMlc_eq (m : Mlc) :
    engineResetMlc m = { m with
      link := if m.enable then .detect else .off, missCount := 0, reading := none, lastMark := none, hold := false,
      exchange := none, finishing := (abandoned m).finishing, abandons := (abandoned m).abandons } := by
  unfold engineResetMlc
  rw [abandoned_eq]

/-- After an engine reset every bank is EMPTY or LIVE from frame 0, so a LIVE bank is in force for every frame
number. -/
theorem engineResetLbu_cases (l : Lbu) (i : BankIx) :
    (engineResetLbu l).banks.get i = .empty ∨ ∃ p, (engineResetLbu l).banks.get i = .live 0 p := by
  rw [engineResetLbu_get]
  exact (resetBank_cases _ _).imp_right fun ⟨p, h, _⟩ => ⟨p, h⟩

theorem engineReset_bankForFrame_live {l : Lbu} (hl : BankLaw l) {i : BankIx}
    (hi : isLive ((engineResetLbu l).banks.get i) = true) (q : Nat) :
    bankForFrame (engineResetLbu l).banks q = some i := by
  rcases engineResetLbu_cases l i with e | ⟨p, e⟩
  · rw [e] at hi
    cases hi
  · refine bankForFrame_live hl.engineReset e ?_ (Nat.zero_le q)
    rcases engineResetLbu_cases l i.other with eo | ⟨po, eo⟩ <;> rw [eo] <;> rfl

/-- With no bank LIVE both are EMPTY. -/
theorem engineReset_bankForFrame_none {l : Lbu} (hl : ∀ i, isLive ((engineResetLbu l).banks.get i) = false)
    (q : Nat) : bankForFrame (engineResetLbu l).banks q = none := by
  have hempty (i : BankIx) : (engineResetLbu l).banks.get i = .empty := by
    refine (engineResetLbu_cases l i).resolve_right fun ⟨p, e⟩ => ?_
    have := hl i
    rw [e] at this
    cases this
  have hbanks : (engineResetLbu l).banks = { i0 := .empty, i1 := .empty } :=
    congrArg₂ Two.mk (hempty .i0) (hempty .i1)
  rw [hbanks]
  rfl

/-- Settles O7. -/
theorem engineResetLeaves : Obligations.EngineResetLeaves := by
  refine ⟨fun w s => congrArg Host.Outcome.next ?_, fun l i => ?_, fun l q hl => ⟨fun i hi => ?_, fun h => ?_⟩⟩
  · unfold engineReset
    rw [engineResetMlc_eq]
    rfl
  · dsimp only
    rw [engineResetLbu_get]
    cases l.banks.get i <;> rfl
  · exact engineReset_bankForFrame_live hl hi q
  · exact engineReset_bankForFrame_none h q

end Sys2Proof.Machine

/-! O39: BAKE_LUT (R114, R115) and ABORT_BAKE (R121). -/

namespace Sys2Proof.Machine

/-! ## The bank that BAKE_LUT chooses -/

theorem chooseBank_none {banks : Two Bank}
    (h : (∃ i, bakingOrArmed (banks.get i) = true) ∨ ∀ i, banks.get i ≠ .empty) : chooseBank banks = none := by
  unfold chooseBank
  rcases h with ⟨i, hi⟩ | h
  · refine if_pos ?_
    rw [Bool.or_eq_true]
    cases i
    · exact .inl hi
    · exact .inr hi
  · have h0 : banks.i0 ≠ .empty := h .i0
    have h1 : banks.i1 ≠ .empty := h .i1
    rw [if_neg h0, if_neg h1, ite_self]

theorem chooseBank_some {banks : Two Bank} {i : BankIx} (hb : ∀ k, bakingOrArmed (banks.get k) = false)
    (hi : banks.get i = .empty) (hlow : i = .i1 → banks.get .i0 ≠ .empty) : chooseBank banks = some i := by
  have h0 : bakingOrArmed banks.i0 = false := hb .i0
  have h1 : bakingOrArmed banks.i1 = false := hb .i1
  unfold chooseBank
  rw [h0, h1, if_neg (by decide)]
  cases i
  · exact if_pos hi
  · exact (if_neg (hlow rfl)).trans (if_pos hi)

/-! ## The swap that is due -/

theorem bankSwap_of_not_armed {b : Bank} (h : isArmed b = false) : bankSwap b = none := by
  cases b
  case armed => cases h
  all_goals rfl

theorem not_armed_of_not_busy {b : Bank} (h : bakingOrArmed b = false) : isArmed b = false :=
  Bool.eq_false_iff.2 fun ha => Bool.eq_false_iff.1 h (isArmed_busy ha)

theorem dueSwap_none {n : Nat} {banks : Two Bank} (h : ∀ i f, banks.get i = .armed f → n < f) :
    dueSwap n banks = none := by
  cases hd : dueSwap n banks with
  | none => rfl
  | some x =>
    obtain ⟨hi, hf⟩ := dueSwap_armed (i := x.1) (f := x.2) hd
    exact absurd (h _ _ hi) (by omega)

theorem dueSwap_some {n f : Nat} {banks : Two Bank} {i : BankIx} (hi : banks.get i = .armed f)
    (ho : isArmed (banks.get i.other) = false) (hf : f ≤ n) : dueSwap n banks = some (i, f) := by
  have hs : bankSwap (banks.get i) = some f := by rw [hi]; rfl
  have hso := bankSwap_of_not_armed ho
  unfold dueSwap
  cases i
  · change bankSwap banks.i0 = some f at hs
    change bankSwap banks.i1 = none at hso
    rw [hs, hso]
    exact if_pos hf
  · change bankSwap banks.i1 = some f at hs
    change bankSwap banks.i0 = none at hso
    rw [hs, hso]
    exact if_pos hf

theorem swap_of_not_due {s : State} (h : ∀ i f, s.lbu.banks.get i = .armed f → s.aiu.frameCount < f) : swap s = s := by
  unfold swap
  rw [dueSwap_none h]

/-! ## The banks after an abort -/

/-- An abort empties the one bank that is BAKING or ARMED. -/
theorem map_abortedBank {banks : Two Bank} {i : BankIx} (hi : bakingOrArmed (banks.get i) = true)
    (ho : bakingOrArmed (banks.get i.other) = false) : banks.map abortedBank = banks.set i .empty := by
  obtain ⟨b0, b1⟩ := banks
  cases i
  · change bakingOrArmed b0 = true at hi
    change bakingOrArmed b1 = false at ho
    exact congrArg₂ Two.mk (if_pos hi) (if_neg (by rw [ho]; nofun))
  · change bakingOrArmed b1 = true at hi
    change bakingOrArmed b0 = false at ho
    exact congrArg₂ Two.mk (if_neg (by rw [ho]; nofun)) (if_pos hi)

/-- After a swap no bank is BAKING or ARMED. -/
theorem not_busy_swapped {l : Lbu} {i : BankIx} {f : Nat} (hl : BankLaw l) (hi : l.banks.get i = .armed f)
    (k : BankIx) : bakingOrArmed ((swappedBanks l.banks i f).get k) = false := by
  refine forall_of_pair (P := fun k => bakingOrArmed ((swappedBanks l.banks i f).get k) = false) i ?_ ?_ k <;>
    rcases hl.swapped_get hi with ⟨-, h, ho⟩ | ⟨st, p, -, h, ho⟩
  · rw [h]; rfl
  · rw [h]; rfl
  · rw [ho]; rfl
  · rw [ho]; rfl

/-! ## What the two effects do -/

/-- A directive whose effect is one bank's update and the rewriting of its header, with no failing access. -/
theorem exec_putBank {k : DirKind} {s : State} {p : Nat} {j : DirJob} {r : ResultCode} {i : BankIx} {b : Bank}
    (h : AtEffect s k p j) (hc : Clear s)
    (hb : (kindBody (some k)).effect p s = (r, rewriteHeaders s (putBank i b s))) :
    ∃ c, s.bus.Within (HeaderBytes s i) c ∧ exec (directiveRow (some k) .effect) s
      = .next ((putDirJob (decidedJob j r) (putBank i b s)).onBus c) := by
  obtain ⟨c, hw, hx⟩ := rewriteHeaders_putBank (t := putBank i b s) hc rfl rfl rfl
  rw [hx] at hb
  exact ⟨c, hw, exec_atEffect h hb h.1⟩

theorem bakeLutEffect_refused {s : State} (h : chooseBank s.lbu.banks = none) (p : Nat) :
    bakeLutEffect p s = (.refusedState, s) := by
  unfold bakeLutEffect
  rw [h]

/-- BAKE_LUT's effect on a chosen bank, with no planned failure: the read of the look record decides it. -/
theorem bakeLutEffect_chosen {s : State} {i : BankIx} (h : chooseBank s.lbu.banks = some i)
    (hp : s.bus.failPlan = []) (p : Nat) :
    bakeLutEffect p s
      = if s.bus.answers (field p 0 4) 54 = true then
          (.done, rewriteHeaders s (putBank i (.baking 0 (lookRecord (s.bus.mem.readLE (field p 0 4) 54))) s))
        else (.busError, s) := by
  have hs := Bus.succeeds_of_noPlan hp (field p 0 4) 54
  unfold bakeLutEffect
  rw [h]
  cases ha : s.bus.answers (field p 0 4) 54 <;> rw [ha] at hs
  · rw [busRead_fails hs, onBus_spend_of_noPlan hp]
    rfl
  · rw [busRead_succeeds hs, onBus_spend_of_noPlan hp]
    rfl

theorem abortBakeEffect_busy {s : State} {i : BankIx} (hs : swap s = s) (hi : bakingOrArmed (s.lbu.banks.get i) = true)
    (ho : bakingOrArmed (s.lbu.banks.get i.other) = false) (p : Nat) :
    abortBakeEffect p s = (.done, rewriteHeaders s (putBank i .empty s)) := by
  have hany : (bakingOrArmed s.lbu.banks.i0 || bakingOrArmed s.lbu.banks.i1) = true := by
    rw [Bool.or_eq_true]
    cases i
    · exact .inl hi
    · exact .inr hi
  unfold abortBakeEffect
  dsimp only
  rw [hs, if_pos hany, map_abortedBank hi ho]
  rfl

theorem abortBakeEffect_idle {s : State} (h : ∀ i, bakingOrArmed ((swap s).lbu.banks.get i) = false) (p : Nat) :
    abortBakeEffect p s = (.refusedState, swap s) := by
  have h0 : bakingOrArmed (swap s).lbu.banks.i0 = false := h .i0
  have h1 : bakingOrArmed (swap s).lbu.banks.i1 = false := h .i1
  unfold abortBakeEffect
  dsimp only
  rw [h0, h1]
  exact if_neg (by decide)

/-! ## The two directives -/

/-- BAKE_LUT (R114, R115). -/
theorem bakeLut_atEffect {s : State} {p : Nat} {j : DirJob} (h : AtEffect s .bakeLut p j) (hc : Clear s) {i : BankIx}
    (hch : chooseBank s.lbu.banks = some i) :
    (s.bus.answers (field p 0 4) 54 = false →
      exec (.bakeLut .effect) s = .next (putDirJob (decidedJob j .busError) s))
    ∧ (s.bus.answers (field p 0 4) 54 = true →
      ∃ b, s.bus.Within (HeaderBytes s i) b ∧ exec (.bakeLut .effect) s = .next
        ((putDirJob (decidedJob j .done)
          (putBank i (.baking 0 (lookRecord (s.bus.mem.readLE (field p 0 4) 54))) s)).onBus b)) := by
  have he := bakeLutEffect_chosen hch hc.1 p
  exact ⟨fun ha => exec_atEffect h (he.trans (if_neg (by rw [ha]; nofun))) h.1,
    fun ha => exec_putBank h hc (he.trans (if_pos ha))⟩

section
variable {s : State} {p : Nat} {j : DirJob} (h : AtEffect s .abortBake p j) (hc : Clear s) (hl : BankLaw s.lbu)
include h hc hl

/-- ABORT_BAKE of a BAKING bank, or of an ARMED one whose swap is not due (R121). -/
theorem abortBake_empties {i : BankIx} (hi : bakingOrArmed (s.lbu.banks.get i) = true)
    (hnd : ∀ f, s.lbu.banks.get i = .armed f → s.aiu.frameCount < f) :
    ∃ b, s.bus.Within (HeaderBytes s i) b ∧ exec (.abortBake .effect) s
      = .next ((putDirJob (decidedJob j .done) (putBank i .empty s)).onBus b) := by
  have ho := ((bankLaw_iff _).1 hl i).busy hi
  have hs : swap s = s := swap_of_not_due fun k f hk => by
    rcases eq_or_other i k with rfl | rfl
    · exact hnd f hk
    · rw [hk] at ho
      cases ho
  exact exec_putBank h hc (abortBakeEffect_busy hs hi ho p)

/-- ABORT_BAKE with the swap due: it is made first, and nothing is left to abort (R121). -/
theorem abortBake_swaps {i : BankIx} {f : Nat} (hi : s.lbu.banks.get i = .armed f) (hf : f ≤ s.aiu.frameCount) :
    ∃ b, s.bus.Within (FrontBytes s) b ∧ exec (.abortBake .effect) s
      = .next ((putDirJob (decidedJob j .refusedState) (swappedState s)).onBus b) := by
  have ho := ((bankLaw_iff _).1 hl i).busy (by rw [hi]; rfl)
  have hsw : swappedState s
      = causedState true .bank { s with lbu := { s.lbu with banks := swappedBanks s.lbu.banks i f } } := by
    unfold swappedState
    rw [dueSwap_some hi (not_armed_of_not_busy ho) hf]
  have hcs : Clear (swappedState s) := by
    rw [hsw]
    exact hc
  obtain ⟨b, hw, hx⟩ := (swap_shown s).of_clear hcs
  have hidle (k : BankIx) : bakingOrArmed ((swap s).lbu.banks.get k) = false := by
    rw [hx, hsw]
    exact not_busy_swapped hl hi k
  have he := abortBakeEffect_idle hidle p
  rw [hx] at he
  rw [hsw] at hw he ⊢
  exact ⟨b, hw, exec_atEffect h he h.1⟩

omit hc hl in
/-- ABORT_BAKE with no bank BAKING or ARMED (R121). -/
theorem abortBake_idle (hb : ∀ i, bakingOrArmed (s.lbu.banks.get i) = false) :
    exec (.abortBake .effect) s = .next (putDirJob (decidedJob j .refusedState) s) := by
  have hs : swap s = s := swap_of_not_due fun k f hk => by
    have := hb k
    rw [hk] at this
    cases this
  have he := abortBakeEffect_idle (s := s) (by rwa [hs]) p
  rw [hs] at he
  exact exec_atEffect h he h.1

end

/-- Settles O39. -/
theorem bakeDirectives : Obligations.BakeDirectives := by
  refine ⟨fun s p j h hc => ⟨fun hn => ?_, fun i hb hi hlow => bakeLut_atEffect h hc (chooseBank_some hb hi hlow)⟩,
    fun s p j h hc hl => ⟨fun i hi => ?_, fun i f hi hf => abortBake_swaps h hc hl hi hf, abortBake_idle h⟩⟩
  · exact exec_atEffect h (bakeLutEffect_refused (chooseBank_none hn) p) h.1
  · rcases hi with ⟨c, k, hi⟩ | ⟨f, hi, hf⟩
    · exact abortBake_empties h hc hl (by rw [hi]; rfl) fun f e => nomatch hi.symm.trans e
    · refine abortBake_empties h hc hl (by rw [hi]; rfl) fun g e => ?_
      cases hi.symm.trans e
      exact hf

end Sys2Proof.Machine

/-! The status block and the bank headers with no failing access (R113, R175): a rewrite leaves in shared memory each
field that it writes and each that stood there before, so that memory shows the part as it stands. -/

namespace Sys2Proof.Machine

/-! ## Where the fields lie (12.2, 12.5) -/

/-- Two fields that share no byte. -/
def Apart (f g : Field) : Prop := f.off + f.size ≤ g.off ∨ g.off + g.size ≤ f.off

/-- The places of an owner's fields, each an offset and a size (12.2). -/
def ownerPlaces : Owner → List (Nat × Nat)
  | .aiu => [(0x00, 1), (0x01, 1), (0x02, 1), (0x04, 4), (0x08, 2)]
  | .ce => [(0x03, 1), (0x0A, 1), (0x0B, 1), (0x0C, 1)]
  | .ciu => [(0x0D, 1), (0x0E, 1), (0x10, 4), (0x14, 4)]
  | .cs => [(0x0F, 1), (0x18, 2), (0x1A, 2)]
  | .it =>
    [(0x1C, 1), (0x1E, 1), (0x1F, 1), (0x20, 1), (0x44, 2), (0x46, 2), (0x48, 4), (0x4C, 4), (0x1D, 1), (0x3C, 4),
      (0x40, 2), (0x42, 2), (0x24, 2), (0x2C, 4), (0x26, 2), (0x30, 4), (0x28, 2), (0x34, 4), (0x2A, 2), (0x38, 4)]
  | .ct => [(0x21, 1), (0x22, 1), (0x23, 1), (0x50, 2), (0x52, 2), (0x54, 1), (0x55, 1)]
  | .mlc =>
    [(0x56, 1), (0x57, 1), (0x58, 2), (0x5A, 1), (0x5B, 1), (0x5C, 2), (0x5E, 2), (0x60, 1), (0x64, 4)]
  | .mon => [(0x61, 1), (0x68, 6), (0x6E, 6), (0x74, 6), (0x7A, 6)]

theorem ownerFields_places (o : Owner) (s : State) :
    (ownerFields o s).map (fun f => (f.off, f.size)) = ownerPlaces o := by
  cases o
  case cs =>
    show (csFields s.cs).map _ = _
    unfold csFields
    split <;> rfl
  all_goals rfl

/-- The fields of the status block and the two bytes written with the monitors' fields (12.2, R177). -/
def statusFields (s : State) : List Field := Owner.all.flatMap (ownerFields · s) ++ [monPadding]

theorem statusFields_places (s : State) :
    (statusFields s).map (fun f => (f.off, f.size)) = Owner.all.flatMap ownerPlaces ++ [(0x62, 2)] := by
  simp only [statusFields, List.map_append, List.map_flatMap, ownerFields_places]
  rfl

theorem Owner.mem_all (o : Owner) : o ∈ Owner.all := by cases o <;> decide

theorem mem_statusFields {o : Owner} {s : State} {f : Field} (h : f ∈ ownerFields o s ∨ o = .mon ∧ f = monPadding) :
    f ∈ statusFields s := by
  rcases h with h | ⟨-, rfl⟩
  · exact List.mem_append_left _ (List.mem_flatMap.2 ⟨o, o.mem_all, h⟩)
  · exact List.mem_append_right _ (List.mem_singleton_self _)

/-- Every field has a byte, and no two share one. -/
theorem statusFields_apart (s : State) :
    (∀ f ∈ statusFields s, 1 ≤ f.size ∧ f.off + f.size ≤ 0x80)
      ∧ ∀ f ∈ statusFields s, ∀ g ∈ statusFields s, f ≠ g → Apart f g := by
  have hsize : ∀ p ∈ (statusFields s).map (fun f => (f.off, f.size)), 1 ≤ p.2 ∧ p.1 + p.2 ≤ 0x80 := by
    rw [statusFields_places]
    decide
  have hpair : ((statusFields s).map (fun f => (f.off, f.size))).Pairwise
      (fun p q => p.1 + p.2 ≤ q.1 ∨ q.1 + q.2 ≤ p.1) := by
    rw [statusFields_places]
    decide
  have hsymm : Std.Symm Apart := ⟨fun _ _ => Or.symm⟩
  have happ : (statusFields s).Pairwise Apart :=
    List.pairwise_map (f := fun f : Field => (f.off, f.size)).1 hpair
  exact ⟨fun f hf => hsize _ (List.mem_map_of_mem hf), fun f hf g hg hne => happ.forall hf hg hne⟩

/-! ## One field -/

/-- A field shows as its value. -/
def FieldShown (m : Memory) (a : Nat) (f : Field) : Prop := m.readLE (a + f.off) f.size = f.val % 256 ^ f.size

/-- A field shown is not lost by a write apart from it. -/
theorem FieldShown.kept {P : Nat → Prop} {b c : Bus} {a : Nat} {f : Field} (h : FieldShown b.mem a f)
    (hw : b.Within P c) (hP : ∀ x, Bytes (a + f.off) f.size x → ¬ P x) : FieldShown c.mem a f :=
  (hw.readLE fun x h1 h2 => hP x ⟨h1, h2⟩).trans h

theorem ownerFields_onBus (o : Owner) (s : State) (b : Bus) : ownerFields o (s.onBus b) = ownerFields o s := by
  cases o <;> rfl

/-- The field at an offset of the status block is the one that stands there. -/
theorem freshField_eq {s : State} {o : Owner} {f : Field} (h : f ∈ ownerFields o s ∨ o = .mon ∧ f = monPadding) :
    freshField s o f = f := by
  obtain ⟨hsize, hapart⟩ := statusFields_apart s
  unfold freshField
  cases hf : (ownerFields o s).find? (fun g => g.off == f.off) with
  | none => rfl
  | some g =>
    have hg := mem_statusFields (.inl (List.mem_of_find?_eq_some hf))
    have hoff : g.off = f.off := by simpa using List.find?_some hf
    by_contra hne
    have hfs := mem_statusFields h
    have := hapart g hg f hfs hne
    have := hsize g hg
    have := hsize f hfs
    unfold Apart at *
    omega

/-- One status field written with no failing access. -/
theorem putStatusField_written {s : State} {o : Owner} {f : Field} (hc : Clear s) (hr : s.aiu.run ≠ .stopped)
    (h : f ∈ ownerFields o s ∨ o = .mon ∧ f = monPadding) :
    ∃ c, putStatusField s o f = s.onBus c ∧ s.bus.Within (Bytes (base s + f.off) f.size) c
      ∧ FieldShown c.mem (base s) f := by
  have hb := (statusFields_apart s).1 f (mem_statusFields h)
  have hs : s.bus.succeeds (base s + f.off) f.size = true := hc.succeeds (by omega) (by omega)
  obtain ⟨c, he, hw, hok, -, hm⟩ := busWrite_spec s { f with off := base s + f.off }
  dsimp only at hw hok hm
  rw [hs] at hok
  rw [if_pos hs] at hm
  refine ⟨c, ?_, hw, hm ▸ Memory.readLE_writeLE_eq _ _ _ _⟩
  unfold putStatusField
  rw [if_neg hr, freshField_eq h, show busWrite s { f with off := base s + f.off } = (true, s.onBus c) from
    Prod.ext hok he]

/-! ## Several fields -/

/-- What a rewrite of fields leaves: a field of the status block that is written or was shown is shown. -/
def LeavesShown (s : State) (written : Field → Prop) (c : Bus) : Prop :=
  s.bus.Within (StatusBytes s) c
    ∧ ∀ f ∈ statusFields s, written f ∨ FieldShown s.bus.mem (base s) f → FieldShown c.mem (base s) f

theorem LeavesShown.refl (s : State) : LeavesShown s (fun _ => False) s.bus :=
  ⟨Bus.Within.refl _ _, fun _ _ h => h.resolve_left id⟩

theorem LeavesShown.trans {s : State} {p q r : Field → Prop} {c d : Bus} (h : LeavesShown s p c)
    (k : LeavesShown (s.onBus c) q d) (hr : ∀ f, r f → p f ∨ q f) : LeavesShown s r d := by
  refine ⟨h.1.trans k.1, fun f hf hs => k.2 f hf ?_⟩
  rcases hs with hs | hs
  · exact (hr f hs).symm.imp_right fun hp => h.2 f hf (.inl hp)
  · exact .inr (h.2 f hf (.inr hs))

theorem putStatusField_leaves {s : State} {o : Owner} {f : Field} (hc : Clear s) (hr : s.aiu.run ≠ .stopped)
    (h : f ∈ ownerFields o s ∨ o = .mon ∧ f = monPadding) :
    ∃ c, putStatusField s o f = s.onBus c ∧ LeavesShown s (· = f) c := by
  obtain ⟨c, he, hw, hs⟩ := putStatusField_written hc hr h
  obtain ⟨hsize, hapart⟩ := statusFields_apart s
  have hf := mem_statusFields h
  have hb := hsize f hf
  refine ⟨c, he, hw.mono fun a ⟨h1, h2⟩ => ⟨by omega, by omega⟩, fun g hg hs' => ?_⟩
  by_cases hgf : g = f
  · exact hgf ▸ hs
  · refine (hs'.resolve_left hgf).kept hw fun x ⟨h1, h2⟩ ⟨h3, h4⟩ => ?_
    have := hapart g hg f hf hgf
    unfold Apart at this
    omega

/-- An owner's fields written with no failing access. -/
theorem putStatus_leaves (o : Owner) (fs : List Field) {s : State} (hc : Clear s) (hr : s.aiu.run ≠ .stopped)
    (hf : ∀ f ∈ fs, f ∈ ownerFields o s ∨ o = .mon ∧ f = monPadding) :
    ∃ c, putStatus o fs s = s.onBus c ∧ LeavesShown s (· ∈ fs) c := by
  unfold putStatus
  induction fs generalizing s with
  | nil => exact ⟨s.bus, rfl, (LeavesShown.refl s).trans (LeavesShown.refl s) fun _ h => nomatch h⟩
  | cons f fs ih =>
    obtain ⟨c, he, hl⟩ := putStatusField_leaves hc hr (hf f List.mem_cons_self)
    obtain ⟨d, he', hl'⟩ := ih (s := s.onBus c) (hc.of_within hl.1 rfl) hr fun g hg => by
      rw [ownerFields_onBus]
      exact hf g (List.mem_cons_of_mem _ hg)
    refine ⟨d, ?_, hl.trans hl' fun g hg => List.mem_cons.1 hg⟩
    rw [List.foldl_cons, he, he', onBus_onBus]

/-- Several owners' fields written with no failing access. -/
theorem owners_leave (os : List Owner) (g : Owner → List Field) {s : State} (hc : Clear s)
    (hr : s.aiu.run ≠ .stopped) (hg : ∀ o, ∀ f ∈ g o, f ∈ ownerFields o s ∨ o = .mon ∧ f = monPadding) :
    ∃ c, os.foldl (fun t o => putStatus o (g o) t) s = s.onBus c
      ∧ LeavesShown s (fun f => ∃ o ∈ os, f ∈ g o) c := by
  induction os generalizing s with
  | nil =>
    exact ⟨s.bus, rfl, (LeavesShown.refl s).trans (LeavesShown.refl s) fun _ ⟨_, h, _⟩ => nomatch h⟩
  | cons o os ih =>
    obtain ⟨c, he, hl⟩ := putStatus_leaves o (g o) hc hr (hg o)
    obtain ⟨d, he', hl'⟩ := ih (s := s.onBus c) (hc.of_within hl.1 rfl) hr fun o' f hf => by
      rw [ownerFields_onBus]
      exact hg o' f hf
    refine ⟨d, ?_, hl.trans hl' ?_⟩
    · rw [List.foldl_cons, he, he', onBus_onBus]
    · rintro f ⟨o', ho', hf⟩
      rcases List.mem_cons.1 ho' with rfl | ho'
      · exact .inl hf
      · exact .inr ⟨o', ho', hf⟩

/-! ## The rewrite after an update -/

theorem mem_differing_or_old {f : Field} {new old : List Field} (hlen : new.length = old.length) (h : f ∈ new) :
    f ∈ differing new old ∨ f ∈ old := by
  obtain ⟨i, hi, rfl⟩ := List.mem_iff_getElem.1 h
  have ho : i < old.length := hlen ▸ hi
  by_cases heq : new[i] = old[i]
  · exact .inr (heq ▸ List.getElem_mem ho)
  · refine .inl (List.mem_map.2 ⟨(new[i], old[i]), List.mem_filter.2 ⟨?_, by simpa using heq⟩, rfl⟩)
    exact List.mem_iff_getElem.2 ⟨i, by simp [hi, ho], by simp⟩

theorem ownerFields_length (o : Owner) (s t : State) : (ownerFields o s).length = (ownerFields o t).length := by
  have := congrArg List.length ((ownerFields_places o s).trans (ownerFields_places o t).symm)
  simpa using this

/-- A field after an update is rewritten or is as it was (R175). -/
theorem mem_changedFields_or_old {o : Owner} {s t : State} {f : Field} (h : f ∈ ownerFields o t) :
    f ∈ changedFields o s t ∨ f ∈ ownerFields o s := by
  cases o
  case ce =>
    rcases List.mem_append.1 h with h | h
    · rcases mem_differing_or_old (new := conditionFields t.ce) (old := conditionFields s.ce) rfl h with hd | hd
      · refine .inl (List.mem_append_left _ ?_)
        split
        · exact hd
        · exact h
      · exact .inr (List.mem_append_left _ hd)
    · rcases mem_differing_or_old (new := arbiterFields t.ce) (old := arbiterFields s.ce) rfl h with hd | hd
      · exact .inl (List.mem_append_right _ hd)
      · exact .inr (List.mem_append_right _ hd)
  case mon =>
    refine (mem_differing_or_old (ownerFields_length .mon t s) h).imp_left fun hd => ?_
    simp only [changedFields, changedMonFields]
    change f ∈ differing (monFields t.mon) (monFields s.mon) at hd
    split <;> rename_i heq <;> rw [heq] at hd
    · exact hd
    · exact List.mem_append_left _ hd
  case cs => exact mem_differing_or_old (ownerFields_length .cs t s) h
  all_goals exact mem_differing_or_old rfl h

/-- The rewrite after an update with no failing access: the fields of each owner that rewrites, shown before the update,
are shown after it, and whatever else was shown is (R175). -/
theorem rewrite_leaves (os : List Owner) (s : State) {t : State} (hc : Clear t) (hr : t.aiu.run ≠ .stopped) :
    ∃ c, rewrite os s t = t.onBus c ∧ t.bus.Within (StatusBytes t) c
      ∧ ∀ o, (o ∈ os ∧ Reads t.bus.mem (base t) (ownerFields o s)) ∨ Reads t.bus.mem (base t) (ownerFields o t) →
          Reads c.mem (base t) (ownerFields o t) := by
  obtain ⟨c, he, hw, hl⟩ := owners_leave os (fun o => changedFields o s t) hc hr fun _ _ => mem_changedFields
  refine ⟨c, he, hw, fun o ho f hf => hl f (mem_statusFields (.inl hf)) ?_⟩
  rcases ho with ⟨hos, hold⟩ | hnew
  · exact (mem_changedFields_or_old hf).imp (fun h => ⟨o, hos, h⟩) (hold f)
  · exact .inr (hnew f hf)

/-- The rewrite of every field with no failing access shows them all (R175). -/
theorem rewriteAll_leaves {s : State} (hc : Clear s) (hr : s.aiu.run ≠ .stopped) :
    ∃ c, rewriteAll s = s.onBus c ∧ s.bus.Within (StatusBytes s) c ∧ ∀ o, Shows (s.onBus c) o := by
  obtain ⟨c, he, hw, hl⟩ := owners_leave Owner.all
    (fun o => ownerFields o s ++ (if o = .mon then [monPadding] else [])) hc hr fun o f hf => by
      refine (List.mem_append.1 hf).imp_right fun h => ?_
      split at h
      · exact ⟨‹_›, List.mem_singleton.1 h⟩
      · cases h
  refine ⟨c, he, hw, fun o f hf => ?_⟩
  rw [ownerFields_onBus] at hf
  exact hl f (mem_statusFields (.inl hf)) (.inl ⟨o, o.mem_all, List.mem_append_left _ hf⟩)

/-! ## The headers (R113) -/

/-- A header's place holds its fields apart from each other (12.5). -/
theorem headerFields_apart (b : Bank) :
    (headerFields b).Pairwise (fun f g => f.off + f.size ≤ g.off ∨ g.off + g.size ≤ f.off) := by
  have hm : ((headerFields b).map (fun f => (f.off, f.size))).Pairwise
      (fun p q => p.1 + p.2 ≤ q.1 ∨ q.1 + q.2 ≤ p.1) := by
    rw [show (headerFields b).map (fun f => (f.off, f.size))
      = [(0x00, 1), (0x01, 1), (0x02, 2), (0x08, 8), (0x10, 4), (0x18, 8)] from rfl]
    decide
  exact List.pairwise_map.1 hm

/-- A header written with no failing access shows its bank. -/
theorem writeHeader_shows (i : BankIx) {s : State} (hc : Clear s) :
    ∃ c, writeHeader i s = s.onBus c ∧ s.bus.Within (HeaderBytes s i) c ∧ ShowsBank (s.onBus c) i := by
  have hrange := bankHeader_range i
  obtain ⟨c, he, hw, hs⟩ := writeFields_clear .bankWrite
    (placed (base s + Config.bankHeader i) (headerFields (s.lbu.banks.get i))) s hc.1 fun f hf => by
      obtain ⟨g, hg, rfl⟩ := List.mem_map.1 hf
      have := headerFields_bound _ g hg
      exact Bus.answers_sub hc.2 (by dsimp only; omega) (by dsimp only; omega)
  refine ⟨c, congrArg Prod.snd he, hw.mono fun a ⟨f, hf, ha⟩ => ?_, fun f hf => ?_⟩
  · exact placed_bound (headerFields_bound _) f hf a ha
  · exact hs (placed_disjoint _ _ (headerFields_apart _)) _ (List.mem_map_of_mem hf)

/-- A header that shows its bank, or is written. -/
theorem writeHeaderIf_shows {p : Prop} [Decidable p] {i : BankIx} {s : State} (hc : Clear s)
    (hs : p → ShowsBank s i) :
    ∃ c, (if p then s else writeHeader i s) = s.onBus c ∧ s.bus.Within (HeaderBytes s i) c
      ∧ ShowsBank (s.onBus c) i := by
  split
  · exact ⟨s.bus, rfl, Bus.Within.refl _ _, hs ‹_›⟩
  · exact writeHeader_shows i hc

/-! ## What stands while other bytes are written -/

theorem Shows.kept {P : Nat → Prop} {s : State} {c : Bus} {o : Owner} (h : Shows s o) (hw : s.bus.Within P c)
    (hP : ∀ a, StatusBytes s a → ¬ P a) : Shows (s.onBus c) o := fun f hf => by
  rw [ownerFields_onBus] at hf
  have := ownerFields_bound o s f hf
  exact FieldShown.kept (a := base s) (h f hf) hw fun x ⟨h1, h2⟩ => hP x ⟨by omega, by omega⟩

theorem ShowsBank.kept {P : Nat → Prop} {s : State} {c : Bus} {i : BankIx} (h : ShowsBank s i)
    (hw : s.bus.Within P c) (hP : ∀ a, HeaderBytes s i a → ¬ P a) : ShowsBank (s.onBus c) i := fun f hf => by
  have := headerFields_bound _ f hf
  exact FieldShown.kept (a := base s + Config.bankHeader i) (h f hf) hw fun x ⟨h1, h2⟩ => hP x ⟨by omega, by omega⟩

theorem statusBytes_off_header {s : State} {i : BankIx} {a : Nat} (h : StatusBytes s a) : ¬ HeaderBytes s i a := by
  have := bankHeader_range i
  rintro ⟨h1, h2⟩
  obtain ⟨h3, h4⟩ := h
  omega

theorem header_off_header {s : State} {i k : BankIx} (hik : i ≠ k) {a : Nat} (h : HeaderBytes s i a) :
    ¬ HeaderBytes s k a := by
  obtain rfl := (eq_or_other i k).resolve_left (Ne.symm hik)
  cases i <;> simp only [HeaderBytes, Bytes, Config.bankHeader, Ix2.other] at h ⊢ <;> omega

end Sys2Proof.Machine

/-! O60: the status block and the bank headers as a mirror of the part (R113, R175), kept with no failing access by the
part's shared operations, those of its blocks and the jobs of the engine. -/

namespace Sys2Proof.Machine

/-! ## The mirror -/

/-- No access fails, and out of STOPPED the status block and the headers show the part. -/
structure Mirrored (s : State) : Prop where
  clear : Clear s
  shown : s.aiu.run ≠ .stopped → Mirrors s

/-- The fields of the owners beside some. -/
def otherFields (os : List Owner) (s : State) : List (List Field) :=
  (Owner.all.filter fun o => !os.contains o).map (ownerFields · s)

theorem ownerFields_of_others {os : List Owner} {s t : State} (h : otherFields os t = otherFields os s) (o : Owner) :
    o ∈ os ∨ ownerFields o t = ownerFields o s := by
  by_cases ho : o ∈ os
  · exact .inl ho
  · exact .inr (List.map_inj_left.1 h o (List.mem_filter.2 ⟨o.mem_all, by simpa using ho⟩))

/-- An update that leaves every field as it is. -/
theorem Mirrored.of_fields {s t : State} (h : Mirrored s) (hb : t.bus = s.bus) (ha : t.aiu.area = s.aiu.area)
    (hr : t.aiu.run ≠ .stopped → s.aiu.run ≠ .stopped) (hl : t.lbu.banks = s.lbu.banks)
    (hf : ∀ o, ownerFields o t = ownerFields o s) : Mirrored t := by
  have hbase := base_eq_of_area ha
  refine ⟨?_, fun hrun => ⟨fun o => ?_, fun i => ?_⟩⟩
  · unfold Clear
    rw [hb, hbase]
    exact h.clear
  · unfold Shows
    rw [hf, hb, hbase]
    exact (h.shown (hr hrun)).1 o
  · unfold ShowsBank
    rw [hl, hb, hbase]
    exact (h.shown (hr hrun)).2 i

/-- An update beside what is shown. -/
theorem Mirrored.of_same {s t : State} (h : Mirrored s) (hb : t.bus = s.bus) (ha : t.aiu.area = s.aiu.area)
    (hr : t.aiu.run ≠ .stopped → s.aiu.run ≠ .stopped) (hl : t.lbu.banks = s.lbu.banks)
    (hf : otherFields [] t = otherFields [] s) : Mirrored t :=
  h.of_fields hb ha hr hl fun o => (ownerFields_of_others hf o).resolve_left nofun

/-- Bytes written off the status block and the headers. -/
theorem Mirrored.write {P : Nat → Prop} {s : State} {c : Bus} (h : Mirrored s) (hw : s.bus.Within P c)
    (hP : ∀ a, FrontBytes s a → ¬ P a) : Mirrored (s.onBus c) := by
  refine ⟨h.clear.of_within hw rfl, fun hr => ?_⟩
  obtain ⟨hs, hb⟩ := h.shown hr
  refine ⟨fun o => (hs o).kept hw fun a ha => hP a (.inl ha), fun i => (hb i).kept hw fun a ha => hP a ?_⟩
  cases i
  · exact .inr (.inl ha)
  · exact .inr (.inr ha)

theorem Mirrored.read {s : State} {c : Bus} (h : Mirrored s) (hw : s.bus.Within (fun _ => False) c) :
    Mirrored (s.onBus c) :=
  h.write hw fun _ _ => id

theorem Mirrored.stopped {s : State} (hc : Clear s) (hr : s.aiu.run = .stopped) : Mirrored s :=
  ⟨hc, fun h => absurd hr h⟩

/-- An update and a rewrite whose owners include those whose fields it changes (R175). -/
theorem rewrite_fields_mirrored {os : List Owner} {s t : State} (h : Mirrored s) (hb : t.bus = s.bus)
    (ha : t.aiu.area = s.aiu.area) (hr : t.aiu.run ≠ .stopped → s.aiu.run ≠ .stopped)
    (hl : t.lbu.banks = s.lbu.banks) (hf : ∀ o, o ∈ os ∨ ownerFields o t = ownerFields o s) :
    Mirrored (rewrite os s t) := by
  have hbase := base_eq_of_area ha
  have hc : Clear t := by
    unfold Clear
    rw [hb, hbase]
    exact h.clear
  by_cases hrun : t.aiu.run = .stopped
  · obtain ⟨c, hw, e⟩ := (rewrite_shown os s t).of_clear hc
    rw [e]
    exact .stopped (hc.of_within hw rfl) hrun
  · obtain ⟨hs, hbank⟩ := h.shown (hr hrun)
    obtain ⟨c, e, hw, hl'⟩ := rewrite_leaves os s hc hrun
    rw [e]
    refine ⟨hc.of_within hw rfl, fun _ => ⟨fun o => ?_, fun i => ?_⟩⟩
    · unfold Shows
      rw [ownerFields_onBus]
      refine hl' o ?_
      rw [hb, hbase]
      rcases hf o with ho | ho
      · exact .inl ⟨ho, hs o⟩
      · rw [ho]
        exact .inr (hs o)
    · have hi : ShowsBank t i := by
        unfold ShowsBank
        rw [hl, hb, hbase]
        exact hbank i
      exact hi.kept hw fun a ha hsa => statusBytes_off_header hsa ha

/-- An update and the rewrite of the owners whose fields it changes (R175). -/
theorem rewrite_mirrored {os : List Owner} {s t : State} (h : Mirrored s) (hb : t.bus = s.bus)
    (ha : t.aiu.area = s.aiu.area) (hr : t.aiu.run ≠ .stopped → s.aiu.run ≠ .stopped)
    (hl : t.lbu.banks = s.lbu.banks) (hf : otherFields os t = otherFields os s) : Mirrored (rewrite os s t) :=
  rewrite_fields_mirrored h hb ha hr hl (ownerFields_of_others hf)

/-- An update of the banks and the rewrite of the headers of those it changes (R113). -/
theorem rewriteHeaders_mirrored {s t : State} (h : Mirrored s) (hb : t.bus = s.bus) (ha : t.aiu = s.aiu)
    (hf : otherFields [] t = otherFields [] s) : Mirrored (rewriteHeaders s t) := by
  have hbase : base t = base s := base_eq_of_area (congrArg Aiu.area ha)
  have hc : Clear t := by
    unfold Clear
    rw [hb, hbase]
    exact h.clear
  by_cases hrun : t.aiu.run = .stopped
  · obtain ⟨c, hw, e⟩ := (rewriteHeaders_shown s t).of_clear hc
    rw [e]
    exact .stopped (hc.of_within hw rfl) hrun
  · obtain ⟨hs, hbank⟩ := h.shown (ha ▸ hrun)
    have hso : ∀ o, Shows t o := fun o => by
      unfold Shows
      rw [(ownerFields_of_others hf o).resolve_left nofun, hb, hbase]
      exact hs o
    have hold : ∀ i, s.lbu.banks.get i = t.lbu.banks.get i → ShowsBank t i := fun i e => by
      unfold ShowsBank
      rw [← e, hb, hbase]
      exact hbank i
    obtain ⟨c, e0, hw0, h0⟩ := writeHeaderIf_shows (p := s.lbu.banks.i0 = t.lbu.banks.i0) hc (hold .i0)
    have hc0 : Clear (t.onBus c) := hc.of_within hw0 rfl
    obtain ⟨d, e1, hw1, h1⟩ := writeHeaderIf_shows (p := s.lbu.banks.i1 = t.lbu.banks.i1) hc0 fun e =>
      (hold .i1 e).kept hw0 fun a => header_off_header (by decide)
    have heq : rewriteHeaders s t = (t.onBus c).onBus d := by
      unfold rewriteHeaders
      rw [e0]
      exact e1
    rw [heq]
    refine ⟨hc0.of_within hw1 rfl, fun _ => ⟨fun o => ?_, fun i => ?_⟩⟩
    · exact ((hso o).kept hw0 fun a => statusBytes_off_header).kept hw1 fun a => statusBytes_off_header
    · cases i
      · exact h0.kept hw1 fun a => header_off_header (by decide)
      · exact h1

/-! ## Accesses to records -/

/-- A field of the work area off the status block and the headers. -/
def InRecords (s : State) (f : Field) : Prop :=
  base s + 0x80 ≤ f.off ∧ f.off + f.size ≤ base s + 0x1100
    ∨ base s + 0x1180 ≤ f.off ∧ f.off + f.size ≤ base s + 0x16000

/-- A record's fields are written with no failing access. -/
theorem writeFields_mirrored {k : FaultKind} {fs : List Field} {s t : State} {ok : Bool}
    (hw : writeFields k fs s = (ok, t)) (hf : ∀ f ∈ fs, InRecords s f) (h : Mirrored s) :
    ok = true ∧ ∃ c, t = s.onBus c ∧ Mirrored (s.onBus c) := by
  obtain ⟨c, e, hc, -⟩ := writeFields_clear k fs s h.clear.1 fun f hm => by
    have := hf f hm
    unfold InRecords at this
    exact Bus.answers_sub h.clear.2 (by omega) (by omega)
  cases hw.symm.trans e
  refine ⟨rfl, c, rfl, h.write hc fun a ha ⟨f, hm, hb⟩ => ?_⟩
  have := hf f hm
  simp only [FrontBytes, StatusBytes, HeaderBytes, InRecords, Bytes, Config.bankHeader] at ha hb this
  omega

theorem inRecords_card (s : State) (h : Head) (k : Fin 8) {f : Field} (hf : f.off + f.size ≤ 0x100) :
    InRecords s { f with off := cardAddr s h k + f.off } := by
  obtain ⟨h1, h2⟩ := cardAddr_range h k s
  exact .inl ⟨by dsimp only; omega, by dsimp only; omega⟩

theorem inRecords_placed (s : State) (h : Head) (k : Fin 8) {fs : List Field}
    (hf : ∀ f ∈ fs, f.off + f.size ≤ 0x100) : ∀ f ∈ placed (cardAddr s h k) fs, InRecords s f := fun f hm => by
  obtain ⟨g, hg, rfl⟩ := List.mem_map.1 hm
  exact inRecords_card s h k (hf g hg)

theorem inRecords_word (s : State) (h : Head) (k : Fin 8) (v : Nat) :
    ∀ f ∈ [(⟨cardAddr s h k, 4, v⟩ : Field)], InRecords s f := fun f hm => by
  cases List.mem_singleton.1 hm
  exact inRecords_card s h k (f := ⟨0, 4, v⟩) (by simp)

theorem inRecords_ending (s : State) (h : Head) (k : Fin 8) (e : Ending) :
    ∀ f ∈ endingFields s (cardAddr s h k) e, InRecords s f :=
  List.forall_mem_cons.2 ⟨inRecords_card s h k (f := ⟨0x20, 1, endingCode e⟩) (by simp),
    List.forall_mem_singleton.2 (inRecords_card s h k (f := ⟨0x24, 4, s.aiu.frameCount⟩) (by simp))⟩

theorem inRecords_slot (s : State) {f : Field} (hf : f.off + f.size ≤ 0x80) :
    InRecords s { f with off := slotAddr s + f.off } :=
  .inl ⟨by dsimp only [slotAddr, Config.directiveSlot]; omega, by dsimp only [slotAddr, Config.directiveSlot]; omega⟩

theorem inRecords_slotWord (s : State) (v : Nat) : ∀ f ∈ [(⟨slotAddr s, 4, v⟩ : Field)], InRecords s f :=
  fun f hm => by
    cases List.mem_singleton.1 hm
    exact inRecords_slot s (f := ⟨0, 4, v⟩) (by simp)

/-- The row that a BAKING bank's cursor stands at lies in the bank's storage (R111, R116). -/
theorem inRecords_row {s : State} {b : BankIx} {c : Nat} {look : Look} (hl : BankLaw s.lbu)
    (hb : s.lbu.banks.get b = .baking c look) : ∀ f ∈ rowFields s b look c, InRecords s f := fun f hm => by
  obtain ⟨-, -, -, hrow⟩ := hl
  obtain ⟨hmod, hlt⟩ := hrow b c look hb
  obtain ⟨k, hk, rfl⟩ := List.mem_map.1 hm
  have hk := List.mem_range.1 hk
  have := entryAddr_range s b (e := c + k) (by simp only [lutEntries] at hlt ⊢; omega)
  exact .inr ⟨by dsimp only; omega, by dsimp only; omega⟩

/-- A read of a record of the work area succeeds. -/
theorem busRead_mirrored {s t : State} {a n : Nat} {o : Option Nat} (hr : busRead s a n = (o, t)) (h : Mirrored s)
    (h1 : base s ≤ a) (h2 : a + n ≤ base s + 0x16000) :
    o ≠ none ∧ t = s.onBus s.bus.spend ∧ Mirrored (s.onBus s.bus.spend) := by
  rw [busRead_succeeds (h.clear.succeeds h1 h2)] at hr
  cases hr
  exact ⟨nofun, rfl, h.read (Bus.Within.spend _ _)⟩

/-! ## Shared operations -/

section
variable {s : State}

theorem setCause_mirrored (c : Cause) (h : Mirrored s) : Mirrored (setCause c s) :=
  rewrite_mirrored h rfl rfl id rfl rfl

theorem setCauseIf_mirrored (p : Bool) (c : Cause) (h : Mirrored s) : Mirrored (setCauseIf p c s) := by
  cases p
  · exact h
  · exact setCause_mirrored c h

theorem deliver_mirrored (e : MonEvent) (h : Mirrored s) : Mirrored (deliver e s) :=
  setCauseIf_mirrored _ _ (rewrite_mirrored h rfl rfl id rfl rfl)

theorem retire_mirrored (h : Mirrored s) : Mirrored (retire s) := rewriteHeaders_mirrored h rfl rfl rfl

theorem dropQuery_mirrored (h : Mirrored s) : Mirrored (dropQuery s) := rewriteHeaders_mirrored h rfl rfl rfl

theorem swap_mirrored (h : Mirrored s) : Mirrored (swap s) := by
  unfold swap
  split
  · exact h
  · exact setCause_mirrored _ (rewriteHeaders_mirrored h rfl rfl rfl)

theorem startSettle_mirrored (h : Mirrored s) : Mirrored (startSettle s) := rewrite_mirrored h rfl rfl id rfl rfl

theorem freezeOnCut_mirrored (h : Mirrored s) : Mirrored (freezeOnCut s) := by
  unfold freezeOnCut
  split
  · exact rewrite_mirrored h rfl rfl id rfl rfl
  · exact h

theorem cutActions_mirrored (cut : Bool) (h : Mirrored s) : Mirrored (cutActions cut s) := by
  cases cut
  · exact h
  · exact freezeOnCut_mirrored (startSettle_mirrored h)

/-- A sweep in RUNNING with no failing access sets the claims that it has read (R8). -/
theorem sweep_clear (hc : Clear s) (hr : s.aiu.run = .running) :
    ∃ c0 c1 p b, s.bus.Within (fun _ => False) b ∧ sweep s = setClaims c0 c1 p (s.onBus b) := by
  obtain ⟨b0, hw0, he0, h0⟩ := sweepTable_spec .i0 allSlots s
  have h0 := h0.resolve_left fun h => h.2 hc
  obtain ⟨b1, hw1, he1, h1⟩ := sweepTable_spec .i1 allSlots (s.onBus b0)
  have h1 := h1.resolve_left fun h => h.2 (hc.of_within hw0 rfl)
  have hw := hw0.trans hw1
  have hc1 : Clear (s.onBus b1) := hc.of_within hw rfl
  have hslot : (s.onBus b1).bus.succeeds (slotAddr s) 4 = true :=
    hc1.succeeds (by simp [slotAddr]) (by simp [slotAddr, Config.directiveSlot])
  unfold sweep
  rw [if_pos hr, show sweepTable .i0 allSlots s = (some _, s.onBus b0) from Prod.ext h0 he0]
  dsimp only
  rw [show sweepTable .i1 allSlots (s.onBus b0) = (some _, s.onBus b1) from Prod.ext h1 he1]
  dsimp only
  rw [slotAddr_onBus, busRead_succeeds hslot]
  exact ⟨_, _, _, b1.spend, hw.trans (Bus.Within.spend _ _), rfl⟩

theorem sweep_mirrored (h : Mirrored s) : Mirrored (sweep s) := by
  by_cases hr : s.aiu.run = .running
  · obtain ⟨c0, c1, p, b, hw, e⟩ := sweep_clear h.clear hr
    rw [e]
    exact rewrite_mirrored (h.read hw) rfl rfl id rfl rfl
  · rwa [sweep_not_running s hr]

theorem grant_mirrored (h : Mirrored s) : Mirrored (grant s) := by
  unfold grant
  split
  · split
    · exact h
    · unfold grantedState
      split
      · split <;> exact rewrite_mirrored h rfl rfl id rfl rfl
      · split
        · exact rewrite_mirrored h rfl rfl id rfl rfl
        · split <;> exact rewrite_mirrored h rfl rfl id rfl rfl
  · exact h

theorem sweepAndGrant_mirrored (h : Mirrored s) : Mirrored (sweepAndGrant s) := grant_mirrored (sweep_mirrored h)

theorem releaseEngine_mirrored (e : Option (JobEnding × JobKind)) (h : Mirrored s) :
    Mirrored (releaseEngine e s) :=
  dropQuery_mirrored (rewrite_mirrored h rfl rfl id rfl rfl)

theorem fallFree_mirrored (e : Option (JobEnding × JobKind)) (h : Mirrored s) : Mirrored (fallFree e s) :=
  sweepAndGrant_mirrored (releaseEngine_mirrored e h)

/-! ## The blocks -/

theorem trackerStep_mirrored (h : Mirrored s) : Mirrored (trackerStep s) := by
  unfold trackerStep takeStep
  split
  · have hd : Mirrored { s with ct := { s.ct with trackerDue := false } } := h.of_same rfl rfl id rfl rfl
    split
    · exact hd
    · exact deliver_mirrored _ (rewrite_mirrored hd rfl rfl id rfl rfl)
  · exact h

theorem endMiss_mirrored (h : Mirrored s) : Mirrored (endMiss s) :=
  deliver_mirrored _ (setCauseIf_mirrored _ _ (setCauseIf_mirrored _ _ (rewrite_mirrored h rfl rfl id rfl rfl)))

theorem judge_mirrored (k : ExchangeKind) (cs : List RxChar) (h : Mirrored s) : Mirrored (judge k cs s) := by
  unfold judge
  split
  · cases k
    · exact setCause_mirrored _ (rewrite_mirrored h rfl rfl id rfl rfl)
    · exact setCauseIf_mirrored _ _ (rewrite_mirrored h rfl rfl id rfl rfl)
  · exact endMiss_mirrored h

/-- An exchange that goes on is shown as the kind it was (12.2). -/
theorem putExchange_mirrored {k : ExchangeKind} {p q : ExchangePhase} (he : s.mlc.exchange = some ⟨k, p⟩)
    (h : Mirrored s) : Mirrored (putExchange (some ⟨k, q⟩) s) := by
  refine h.of_fields rfl rfl id rfl fun o => ?_
  cases o
  case mlc =>
    show mlcFields { s.mlc with exchange := some ⟨k, q⟩ } = mlcFields s.mlc
    unfold mlcFields exchangeCode
    rw [he]
  all_goals rfl

theorem takeChar_mirrored {k : ExchangeKind} {p : ExchangePhase} (cs : List RxChar)
    (he : s.mlc.exchange = some ⟨k, p⟩) (h : Mirrored s) : Mirrored (takeChar k cs s) := by
  unfold takeChar
  split
  · exact judge_mirrored k cs h
  · exact putExchange_mirrored he h

theorem requestSent_mirrored (h : Mirrored s) : Mirrored (requestSent s) := by
  unfold requestSent
  split
  case h_1 he => exact putExchange_mirrored he h
  all_goals exact h.of_same rfl rfl id rfl rfl

theorem replyWindowExpiry_mirrored (h : Mirrored s) : Mirrored (replyWindowExpiry s) := by
  unfold replyWindowExpiry
  split
  · exact endMiss_mirrored h
  all_goals exact h

theorem replyCharacter_mirrored (c : RxChar) (h : Mirrored s) : Mirrored (replyCharacter c s) := by
  unfold replyCharacter
  split
  case h_1 he => exact takeChar_mirrored _ he h
  case h_2 he => exact takeChar_mirrored _ he h
  all_goals exact h

theorem replyGapTimeout_mirrored (h : Mirrored s) : Mirrored (replyGapTimeout s) := by
  unfold replyGapTimeout
  split
  · exact judge_mirrored _ _ h
  all_goals exact h

theorem pollExpiry_mirrored (h : Mirrored s) : Mirrored (pollExpiry s) := by
  unfold pollExpiry
  split
  · dsimp only
    split
    · exact h.of_same rfl rfl id rfl rfl
    · exact rewrite_mirrored h rfl rfl id rfl rfl
  · exact h

theorem settleExpiry_mirrored (h : Mirrored s) : Mirrored (settleExpiry s) := rewrite_mirrored h rfl rfl id rfl rfl

theorem tick_mirrored (h : Mirrored s) : Mirrored (rewrite [.ct] s { s with ct := tick s.ct }) :=
  rewrite_mirrored h rfl rfl id rfl rfl

theorem countAdvance_mirrored (h : Mirrored s) : Mirrored (countAdvance s) := by
  have hr : (advancedAiu s.aiu).run = s.aiu.run := (advancedAiu_kept s.aiu).1
  exact tick_mirrored (rewrite_mirrored h rfl (advancedAiu_area s.aiu) (by rw [hr]; exact id) rfl rfl)

theorem frameSync_mirrored (h : Mirrored s) : Mirrored (frameSync s) := by
  have hd : Mirrored (takeDue s) := settleExpiry_mirrored (pollExpiry_mirrored (trackerStep_mirrored h))
  unfold frameSync
  split
  · dsimp only
    split
    · split
      · exact sweepAndGrant_mirrored (retire_mirrored (swap_mirrored (countAdvance_mirrored hd)))
      · exact sweepAndGrant_mirrored hd
    · exact hd
  · exact h

/-! ## The run states -/

/-- The entry into RUNNING makes the status block and the headers show the part (R113, R167, R175). -/
theorem enterRunning_mirrored (hc : Clear s) : Mirrored (enterRunning s) := by
  unfold enterRunning
  generalize hx : ({ s with aiu := { s.aiu with run := .running, areaInvalid := false } } : State) = x
  have hcx : Clear x := hx ▸ hc
  have hr : x.aiu.run ≠ .stopped := by
    rw [← hx]
    nofun
  obtain ⟨c, e, hw, hs⟩ := rewriteAll_leaves hcx hr
  have hc1 : Clear (x.onBus c) := hcx.of_within hw rfl
  obtain ⟨d, e0, hw0, h0⟩ := writeHeader_shows .i0 hc1
  have hc2 : Clear ((x.onBus c).onBus d) := hc1.of_within hw0 rfl
  obtain ⟨b, e1, hw1, h1⟩ := writeHeader_shows .i1 hc2
  rw [e, e0, e1]
  refine sweepAndGrant_mirrored ⟨hc2.of_within hw1 rfl, fun _ => ⟨fun o => ?_, fun i => ?_⟩⟩
  · exact ((hs o).kept hw0 fun a => statusBytes_off_header).kept hw1 fun a => statusBytes_off_header
  · cases i
    · exact h0.kept hw1 fun a => header_off_header (by decide)
    · exact h1

theorem runSet_mirrored (w : BitVec 32) (h : Mirrored s) : Mirrored (runSet w s) := by
  unfold runSet
  dsimp only
  split
  · rename_i hr
    split
    · exact .stopped h.clear hr
    · exact enterRunning_mirrored h.clear
  · exact h.of_same rfl rfl id rfl rfl

theorem runClear_mirrored (w : BitVec 32) (h : Mirrored s) : Mirrored (runClear w s) := by
  have hm : Mirrored (putMask w s) := h.of_same rfl rfl id rfl rfl
  unfold runClear
  dsimp only
  split
  · rename_i hr
    split
    · exact .stopped h.clear rfl
    · refine rewrite_mirrored hm rfl rfl (fun _ => ?_) rfl rfl
      rw [hr]
      nofun
  · exact hm

theorem drainComplete_mirrored (h : Mirrored s) : Mirrored (drainComplete s) := by
  unfold drainComplete
  split
  · exact .stopped h.clear rfl
  · exact h

end

/-! ## The bake -/

theorem rowBoundary_mirrored (b : BankIx) {s : State} (h : Mirrored s) : Mirrored (rowBoundary b s) := by
  unfold rowBoundary
  split
  · split
    · split
      · exact fallFree_mirrored _ h
      · exact h
    · exact sweepAndGrant_mirrored (setCause_mirrored _ (releaseEngine_mirrored _ h))
  · split
    · exact setCause_mirrored _ h
    · exact h

/-- The raise of a cursor with its header write (R113, R116). -/
theorem putBank_mirrored (i : BankIx) (b : Bank) {s : State} (h : Mirrored s) :
    Mirrored (writeHeader i (putBank i b s)) := by
  have hc : Clear (putBank i b s) := h.clear
  obtain ⟨c, e, hw, hi⟩ := writeHeader_shows i hc
  rw [e]
  refine ⟨hc.of_within hw rfl, fun hr => ⟨fun o => ?_, fun k => ?_⟩⟩
  · have ho : Shows (putBank i b s) o := by
      have := (h.shown hr).1 o
      cases o <;> exact this
    exact ho.kept hw fun a => statusBytes_off_header
  · by_cases hk : k = i
    · exact hk ▸ hi
    · have hks : ShowsBank (putBank i b s) k := by
        unfold ShowsBank
        rw [putBank_banks, Two.get_set_ne _ _ _ _ hk]
        exact (h.shown hr).2 k
      exact hks.kept hw fun a => header_off_header hk

theorem bakeRow_mirrored {s : State} (hl : BankLaw s.lbu) (h : Mirrored s) : Mirrored (bakeRow s) := by
  unfold bakeRow
  split
  case h_1 b _ =>
    split
    case h_1 c look hb =>
      split <;> rename_i hw <;>
        obtain ⟨hok, d, rfl, hd⟩ := writeFields_mirrored hw (inRecords_row hl hb) h
      · cases hok
      · exact rowBoundary_mirrored b (putBank_mirrored b _ hd)
    all_goals exact h
  all_goals exact h

/-! ## The take and the card job -/

section
variable {s : State} (h : Head) (k : Fin 8)

theorem afterEnded_mirrored (e : Ending) (n : Bool) (hs : Mirrored s) : Mirrored (afterEnded h e n s) := by
  have hc := setCauseIf_mirrored n .card (releaseEngine_mirrored (some (cardEnding e, .card)) hs)
  unfold afterEnded
  refine sweepAndGrant_mirrored ?_
  split
  · exact deliver_mirrored _ hc
  · exact hc

theorem endCard_mirrored (e : Ending) (n : Bool) (hs : Mirrored s) : Mirrored (endCard h k e n s) := by
  unfold endCard
  split <;> rename_i hw <;> obtain ⟨hok, c, rfl, hc⟩ := writeFields_mirrored hw
    (List.forall_mem_append.2 ⟨inRecords_ending s h k e, inRecords_word s h k _⟩) hs
  · cases hok
  · exact afterEnded_mirrored h e n hc

end

end Sys2Proof.Machine

/-! O60, continued: the take and the card job keep the mirror. -/

namespace Sys2Proof.Machine

section
variable {s t : State}

/-- An update of the job in hand that leaves it the same job to the status block. -/
theorem Mirrored.job_on (h : Mirrored s) (hce : ownerFields .ce t = ownerFields .ce s) (hb : t.bus = s.bus)
    (ha : t.aiu = s.aiu) (hl : t.lbu.banks = s.lbu.banks)
    (hf : otherFields [.ce] t = otherFields [.ce] s) : Mirrored t :=
  h.of_fields hb (ha ▸ rfl) (ha ▸ id) hl fun o =>
    (ownerFields_of_others hf o).elim (fun e => List.mem_singleton.1 e ▸ hce) id

/-- The same with the rewrite of the owners whose fields it changes. -/
theorem rewrite_job_on {os : List Owner} (h : Mirrored s) (hce : ownerFields .ce t = ownerFields .ce s)
    (hb : t.bus = s.bus) (ha : t.aiu = s.aiu) (hl : t.lbu.banks = s.lbu.banks)
    (hf : otherFields (.ce :: os) t = otherFields (.ce :: os) s) : Mirrored (rewrite os s t) := by
  refine rewrite_fields_mirrored h hb (ha ▸ rfl) (ha ▸ id) hl fun o => ?_
  rcases ownerFields_of_others hf o with ho | ho
  · rcases List.mem_cons.1 ho with rfl | ho
    · exact .inr hce
    · exact .inl ho
  · exact .inr ho

theorem ceFields_of_engine (hc : engineCode t.ce.engine = engineCode s.ce.engine)
    (hd : engineDetail t.ce.engine = engineDetail s.ce.engine) (ha : arbiterFields t.ce = arbiterFields s.ce) :
    ownerFields .ce t = ownerFields .ce s := by
  show conditionFields t.ce ++ arbiterFields t.ce = conditionFields s.ce ++ arbiterFields s.ce
  unfold conditionFields
  rw [hc, hd, ha]

theorem ceFields_take {h : Head} {k : Fin 8} {j : TakeJob} (he : s.ce.engine = .take h k j) (j' : TakeJob)
    (ht : t.ce.engine = .take h k j') (ha : arbiterFields t.ce = arbiterFields s.ce) :
    ownerFields .ce t = ownerFields .ce s :=
  ceFields_of_engine (by rw [ht, he]; rfl) (by rw [ht, he]; rfl) ha

theorem ceFields_card {h : Head} {k : Fin 8} {j : CardJob} (he : s.ce.engine = .card h k j) (j' : CardJob)
    (ht : t.ce.engine = .card h k j') (ha : arbiterFields t.ce = arbiterFields s.ce) :
    ownerFields .ce t = ownerFields .ce s :=
  ceFields_of_engine (by rw [ht, he]; rfl) (by rw [ht, he]; rfl) ha

/-- A directive job is shown without its stage, payload or result. -/
theorem ceFields_directive {j : DirJob} (he : s.ce.engine = .directive j) (j' : DirJob)
    (ht : t.ce.engine = .directive j') (ha : arbiterFields t.ce = arbiterFields s.ce) :
    ownerFields .ce t = ownerFields .ce s :=
  ceFields_of_engine (by rw [ht, he]; rfl) (by rw [ht, he]; rfl) ha

end

/-! ## The take -/

section
variable {s : State} (h : Head) (k : Fin 8)

theorem takeReread_mirrored {j : TakeJob} (he : s.ce.engine = .take h k j) (hs : Mirrored s) :
    Mirrored (takeReread h k j s) := by
  obtain ⟨b, hw, hr⟩ := takeReread_clear h k j s hs.clear
  have hb := hs.read hw
  split at hr <;> rw [hr]
  · exact hb.job_on (ceFields_take he _ rfl rfl) rfl rfl rfl rfl
  · exact fallFree_mirrored none hb

theorem takeWriteTaken_mirrored {j : TakeJob} (he : s.ce.engine = .take h k j) (hs : Mirrored s) :
    Mirrored (takeWriteTaken h k j s) := by
  unfold takeWriteTaken
  split <;> rename_i hw <;> obtain ⟨hok, c, rfl, hc⟩ := writeFields_mirrored hw (inRecords_word s h k _) hs
  · cases hok
  · exact hc.job_on (ceFields_take he _ rfl rfl) rfl rfl rfl rfl

theorem takeLastTaken_mirrored {j : TakeJob} (he : s.ce.engine = .take h k j) (hs : Mirrored s) :
    Mirrored (takeLastTaken h k j s) := by
  unfold takeLastTaken
  dsimp only
  split
  · exact hs.job_on (ceFields_take he _ rfl rfl) rfl rfl rfl rfl
  · exact rewrite_job_on hs (ceFields_take he _ rfl rfl) rfl rfl rfl rfl

theorem handOver_mirrored (j : TakeJob) (hs : Mirrored s) : Mirrored (handOver h k j s) :=
  rewrite_mirrored hs rfl rfl id rfl rfl

theorem takeFinish_mirrored (j : TakeJob) (hs : Mirrored s) : Mirrored (takeFinish h k j s) := by
  have hc := cutActions_mirrored j.req.cut hs
  unfold takeFinish
  split
  · exact endCard_mirrored h k _ _ hs
  · dsimp only
    split
    · exact handOver_mirrored h k j hc
    · exact hc

theorem takeStage_mirrored (st : TakeStage) (hs : Mirrored s) : Mirrored (takeStage s st) := by
  unfold takeStage
  split
  case h_1 h k j he =>
    split
    · cases st
      case reread => exact takeReread_mirrored h k he hs
      case writeTaken => exact takeWriteTaken_mirrored h k he hs
      case checks => exact hs.job_on (ceFields_take he _ rfl rfl) rfl rfl rfl rfl
      case lastTaken => exact takeLastTaken_mirrored h k he hs
      case finish => exact takeFinish_mirrored h k j hs
    · exact hs
  all_goals exact hs

/-! ## The card job -/

theorem cardCalibration_mirrored {j : CardJob} (he : s.ce.engine = .card h k j) (hs : Mirrored s) :
    Mirrored (cardCalibration h k j s) := by
  have hl : Mirrored (rewrite [.ciu] s (putLastTaken h j.lastBefore s)) := rewrite_mirrored hs rfl rfl id rfl rfl
  unfold cardCalibration
  split
  · exact hs.job_on (ceFields_card he _ rfl rfl) rfl rfl rfl rfl
  · dsimp only
    split
    · exact endCard_mirrored h k _ _ hl
    all_goals exact hl

/-- The tile list may lie anywhere; a read of it that memory does not answer ends the card (R30). -/
theorem cardTilePass_mirrored {j : CardJob} (he : s.ce.engine = .card h k j) (hs : Mirrored s) :
    Mirrored (cardTilePass h k j s) := by
  obtain ⟨b, hw, hyes, hno⟩ := tilePass_clear s.ce.filter s.mon.counters j.req.tileCount j.req.tileAddr
    Accumulators.zero (Quad.const 0) s hs.clear.1
  have hb := hs.read hw
  unfold cardTilePass
  by_cases ha : ListAnswers s j.req.tileAddr 16 j.req.tileCount
  · rw [hyes ha]
    exact hb.job_on (ceFields_card he _ rfl rfl) rfl rfl rfl rfl
  · rw [hno ha]
    exact endCard_mirrored h k _ _ hb

theorem cardEstimate_mirrored {j : CardJob} (he : s.ce.engine = .card h k j) (hs : Mirrored s) :
    Mirrored (cardEstimate h k j s) := by
  unfold cardEstimate
  dsimp only
  split
  · exact hs.job_on (ceFields_card he _ rfl rfl) rfl rfl rfl rfl
  · exact rewrite_job_on hs (ceFields_card he _ rfl rfl) rfl rfl rfl rfl

theorem cardWriteResult_mirrored {j : CardJob} (he : s.ce.engine = .card h k j) (hs : Mirrored s) :
    Mirrored (cardWriteResult h k j s) := by
  have hin := inRecords_placed s h k fun f hf => by
    have := resultFields_bound j f hf
    omega
  unfold cardWriteResult
  split <;> rename_i hw <;> obtain ⟨hok, c, rfl, hc⟩ := writeFields_mirrored hw hin hs
  · cases hok
  · exact hc.job_on (ceFields_card he _ rfl rfl) rfl rfl rfl rfl

theorem cardWriteEnding_mirrored {j : CardJob} (he : s.ce.engine = .card h k j) (hs : Mirrored s) :
    Mirrored (cardWriteEnding h k j s) := by
  unfold cardWriteEnding
  split <;> rename_i hw <;> obtain ⟨hok, c, rfl, hc⟩ := writeFields_mirrored hw (inRecords_ending s h k _) hs
  · cases hok
  · exact hc.job_on (ceFields_card he _ rfl rfl) rfl rfl rfl rfl

theorem cardFinish_mirrored (j : CardJob) (hs : Mirrored s) : Mirrored (cardFinish h k j s) := by
  unfold cardFinish
  split <;> rename_i hw <;> obtain ⟨hok, c, rfl, hc⟩ := writeFields_mirrored hw (inRecords_word s h k _) hs
  · cases hok
  · exact afterEnded_mirrored h _ _ hc

theorem cardStage_mirrored (st : CardStage) (hs : Mirrored s) : Mirrored (cardStage s st) := by
  unfold cardStage
  split
  case h_1 h k j he =>
    have on (j' : CardJob) : Mirrored (putCard h k j' s) := hs.job_on (ceFields_card he j' rfl rfl) rfl rfl rfl rfl
    split
    · cases st
      case calibration => exact cardCalibration_mirrored h k he hs
      case tilePass => exact cardTilePass_mirrored h k he hs
      case estimate => exact cardEstimate_mirrored h k he hs
      case bankQuery => exact dropQuery_mirrored (on _)
      case marks => exact rewrite_job_on hs (ceFields_card he _ rfl rfl) rfl rfl rfl rfl
      case monitorEvents => exact deliver_mirrored _ (on _)
      case writeResult => exact cardWriteResult_mirrored h k he hs
      case writeEnding => exact cardWriteEnding_mirrored h k he hs
      case finish => exact cardFinish_mirrored h k j hs
      all_goals exact on _
    · exact hs
  all_goals exact hs

end

end Sys2Proof.Machine

/-! O60, concluded: the directives keep the mirror, and so does every command. -/

namespace Sys2Proof.Machine

/-! ## What each kind of directive carries out -/

section
variable {s : State}

/-- With no planned failure the read phase leaves the state alone. -/
theorem readPoints_state (hp : s.bus.failPlan = []) (n addr : Nat) : (readPoints n addr s).2 = s := by
  obtain ⟨hyes, hno⟩ := readPoints_noPlan hp n addr
  by_cases h : PointsAnswer s addr n
  · rw [hyes h]
  · rw [hno h]

/-- The load buffer is not shown (R70). -/
theorem prepareLoad_mirrored (p : Nat) (h : Mirrored s) : Mirrored (prepareLoad p s).2 := by
  by_cases hc : field p 4 2 < 2 ∨ 12 < field p 4 2
  · rwa [prepareLoad_badCount hc]
  · rw [prepareLoad_counted (by omega) (by omega), readPoints_state h.clear.1]
    cases (readPoints (field p 4 2) (field p 0 4) s).1 with
    | none => exact h.of_same rfl rfl id rfl rfl
    | some ps =>
      show Mirrored (if validPoints ps then (none, buffered ps s)
        else (some ResultCode.refusedValue, buffered [] s)).2
      split <;> exact h.of_same rfl rfl id rfl rfl

/-- The commit writes the tracker's changed fields and all of the store's (R70). -/
theorem commitEffect_mirrored (p : Nat) (h : Mirrored s) : Mirrored (commitEffect p s).2 := by
  have hct : Clear (commitState s) := h.clear
  by_cases hrun : s.aiu.run = .stopped
  · obtain ⟨c, hw, e⟩ := (commitEffect_shown p s).of_clear hct
    rw [e]
    exact .stopped (hct.of_within hw rfl) hrun
  · obtain ⟨hs, hbank⟩ := h.shown hrun
    obtain ⟨c, e, hw, hl⟩ := rewrite_leaves [.it] s hct hrun
    have hc : Clear ((commitState s).onBus c) := hct.of_within hw rfl
    obtain ⟨d, e', hw', hl'⟩ := putStatus_leaves .cs (ownerFields .cs (commitState s)) hc hrun fun f hf => .inl hf
    have hd : (commitEffect p s).2 = ((commitState s).onBus c).onBus d := by
      rw [← e', ← ownerFields_onBus .cs _ c, ← e]
      rfl
    rw [hd]
    refine ⟨hc.of_within hw' rfl, fun _ => ⟨fun o f hf => ?_, fun i => ?_⟩⟩
    · refine hl' f (mem_statusFields (.inl hf)) ?_
      by_cases ho : o = .cs
      · exact .inl (ho ▸ hf)
      · refine .inr (hl o ?_ f hf)
        have hkept : o = .it ∨ ownerFields o (commitState s) = ownerFields o s := by
          cases o
          case cs => exact absurd rfl ho
          case it => exact .inl rfl
          all_goals exact .inr rfl
        rcases hkept with rfl | e
        · exact .inl ⟨List.mem_singleton_self _, hs .it⟩
        · rw [e]
          exact .inr (hs o)
    · exact (ShowsBank.kept (s := commitState s) (hbank i) hw fun a ha hsa => statusBytes_off_header hsa ha).kept hw'
        fun a ha hsa => statusBytes_off_header hsa ha

theorem bakeLutEffect_mirrored (p : Nat) (h : Mirrored s) : Mirrored (bakeLutEffect p s).2 := by
  have hr : Mirrored (s.onBus s.bus.spend) := h.read (Bus.Within.spend _ _)
  unfold bakeLutEffect
  split
  · exact h
  · split <;> rename_i hb <;> cases busRead_onBus hb
    · exact hr
    · exact rewriteHeaders_mirrored hr rfl rfl rfl

theorem abortedBanks_mirrored (h : Mirrored s) : Mirrored
    (rewriteHeaders s { s with lbu := { s.lbu with banks := s.lbu.banks.map abortedBank } }) :=
  rewriteHeaders_mirrored h rfl rfl rfl

theorem abortBakeEffect_mirrored (p : Nat) (h : Mirrored s) : Mirrored (abortBakeEffect p s).2 := by
  have hs := swap_mirrored h
  unfold abortBakeEffect
  dsimp only
  split
  · exact abortedBanks_mirrored hs
  · exact hs

theorem kindBody_prepare_mirrored (row : Option DirKind) (p : Nat) (h : Mirrored s) :
    Mirrored ((kindBody row).prepare p s).2 := by
  rcases row with _ | k
  · exact h
  · cases k
    case loadCalibration => exact prepareLoad_mirrored p h
    all_goals exact h

theorem setOrderEffect_mirrored (p : Nat) (h : Mirrored s) : Mirrored (setOrderEffect p s).2 := by
  unfold setOrderEffect
  split
  · exact h
  · exact rewrite_mirrored h rfl rfl id rfl rfl

theorem setFilterEffect_mirrored (p : Nat) (h : Mirrored s) : Mirrored (setFilterEffect p s).2 := by
  unfold setFilterEffect
  split
  · exact h
  · exact h.of_same rfl rfl id rfl rfl

theorem setGradeEffect_mirrored (p : Nat) (h : Mirrored s) : Mirrored (setGradeEffect p s).2 := by
  unfold setGradeEffect
  split
  · exact h
  · exact h.of_same rfl rfl id rfl rfl

theorem setTrackingEffect_mirrored (p : Nat) (h : Mirrored s) : Mirrored (setTrackingEffect p s).2 := by
  unfold setTrackingEffect
  split
  · exact rewrite_mirrored h rfl rfl id rfl rfl
  all_goals exact h

theorem switchContextEffect_mirrored (p : Nat) (h : Mirrored s) : Mirrored (switchContextEffect p s).2 := by
  unfold switchContextEffect
  split
  · exact h
  · split
    · exact h
    · exact rewrite_mirrored h rfl rfl id rfl rfl

theorem snapEffect_mirrored (p : Nat) (h : Mirrored s) : Mirrored (snapEffect p s).2 :=
  rewrite_mirrored h rfl rfl id rfl rfl

theorem setCadenceEffect_mirrored (p : Nat) (h : Mirrored s) : Mirrored (setCadenceEffect p s).2 :=
  rewrite_mirrored h rfl rfl id rfl rfl

theorem setPodEffect_mirrored (p : Nat) (h : Mirrored s) : Mirrored (setPodEffect p s).2 :=
  rewrite_mirrored h rfl rfl id rfl rfl

theorem setMonitorEffect_mirrored (p : Nat) (h : Mirrored s) : Mirrored (setMonitorEffect p s).2 := by
  unfold setMonitorEffect
  split
  · exact rewrite_mirrored h rfl rfl id rfl rfl
  all_goals exact h

theorem setFreezeEffect_mirrored (p : Nat) (h : Mirrored s) : Mirrored (setFreezeEffect p s).2 :=
  rewrite_mirrored h rfl rfl id rfl rfl

theorem clearMonitorEffect_mirrored (p : Nat) (h : Mirrored s) : Mirrored (clearMonitorEffect p s).2 :=
  rewrite_mirrored h rfl rfl id rfl rfl

theorem kindBody_effect_mirrored (row : Option DirKind) (p : Nat) (h : Mirrored s) :
    Mirrored ((kindBody row).effect p s).2 := by
  rcases row with _ | k
  · exact h
  · cases k
    case setOrder => exact setOrderEffect_mirrored p h
    case setFilter => exact setFilterEffect_mirrored p h
    case setGrade => exact setGradeEffect_mirrored p h
    case loadCalibration => exact commitEffect_mirrored p h
    case setTracking => exact setTrackingEffect_mirrored p h
    case switchContext => exact switchContextEffect_mirrored p h
    case snap => exact snapEffect_mirrored p h
    case bakeLut => exact bakeLutEffect_mirrored p h
    case abortBake => exact abortBakeEffect_mirrored p h
    case setCadence => exact setCadenceEffect_mirrored p h
    case setPod => exact setPodEffect_mirrored p h
    case setMonitor => exact setMonitorEffect_mirrored p h
    case setFreeze => exact setFreezeEffect_mirrored p h
    case clearMonitor => exact clearMonitorEffect_mirrored p h

/-! ## The stages of a directive -/

variable {j : DirJob}

/-- A directive job in hand goes on. -/
theorem Mirrored.putDirJob (h : Mirrored s) (he : s.ce.engine = .directive j) (j' : DirJob) :
    Mirrored (putDirJob j' s) :=
  h.job_on (ceFields_directive he j' rfl rfl) rfl rfl rfl rfl

theorem advanceDir_mirrored (next : DirStage) (r : Option ResultCode) (h : Mirrored s) :
    Mirrored (advanceDir next r s) := by
  unfold advanceDir
  split
  case h_1 j he => exact h.putDirJob he _
  all_goals exact h

theorem dirTake_mirrored (he : s.ce.engine = .directive j) (h : Mirrored s) : Mirrored (dirTake j s) := by
  unfold dirTake
  split <;> rename_i hr <;> obtain ⟨hok, rfl, hb⟩ := busRead_mirrored hr h (by simp [slotAddr])
    (by simp [slotAddr, Config.directiveSlot])
  · exact absurd rfl hok
  · split
    · split <;> rename_i hw <;> obtain ⟨hok, c, rfl, hc⟩ := writeFields_mirrored hw (inRecords_slotWord _ _) hb
      · cases hok
      · exact hc.putDirJob he _
    · exact fallFree_mirrored _ hb

theorem dirReadKind_mirrored (he : s.ce.engine = .directive j) (h : Mirrored s) : Mirrored (dirReadKind j s) := by
  unfold dirReadKind
  split <;> rename_i hr <;> obtain ⟨hok, rfl, hb⟩ := busRead_mirrored hr h (by simp [slotAddr, Nat.add_assoc])
    (by simp [slotAddr, Config.directiveSlot, Nat.add_assoc])
  · exact absurd rfl hok
  · exact hb.putDirJob he _

theorem dirReadPayload_mirrored (he : s.ce.engine = .directive j) (h : Mirrored s) :
    Mirrored (dirReadPayload j s) := by
  unfold dirReadPayload
  split
  · exact h.putDirJob he _
  · rename_i k _
    obtain ⟨c, hw, e, -⟩ := readSpans_spec s (slotAddr s + 0x10) (payloadSpans k)
    have hc := h.read hw
    split <;> rename_i hr <;> rw [hr] at e <;> cases e <;> exact hc.putDirJob he _

theorem dirPrepare_mirrored (row : Option DirKind) (he : s.ce.engine = .directive j) (h : Mirrored s) :
    Mirrored (dirPrepare (kindBody row) j s) := by
  unfold dirPrepare
  split
  · exact h.putDirJob he _
  · exact advanceDir_mirrored _ _ (kindBody_prepare_mirrored row _ h)

theorem dirEffect_mirrored (row : Option DirKind) (he : s.ce.engine = .directive j) (h : Mirrored s) :
    Mirrored (dirEffect (kindBody row) j s) := by
  unfold dirEffect
  split
  · exact h.putDirJob he _
  · exact advanceDir_mirrored _ _ (kindBody_effect_mirrored row _ h)

theorem dirWriteResult_mirrored (he : s.ce.engine = .directive j) (h : Mirrored s) :
    Mirrored (dirWriteResult j s) := by
  have hin : ∀ f ∈ [(⟨slotAddr s + 6, 2, resultCode (j.result.getD .done)⟩ : Field)], InRecords s f :=
    List.forall_mem_singleton.2 (inRecords_slot s (f := ⟨6, 2, resultCode (j.result.getD .done)⟩) (by simp))
  unfold dirWriteResult
  split <;> rename_i hw <;> obtain ⟨hok, c, rfl, hc⟩ := writeFields_mirrored hw hin h
  · cases hok
  · exact hc.putDirJob he _

theorem dirFinish_mirrored (j : DirJob) (h : Mirrored s) : Mirrored (dirFinish j s) := by
  unfold dirFinish
  split <;> rename_i hw <;> obtain ⟨hok, c, rfl, hc⟩ := writeFields_mirrored hw (inRecords_slotWord s _) h
  · cases hok
  · exact sweepAndGrant_mirrored (setCause_mirrored _ (releaseEngine_mirrored _ hc))

theorem dirStage_mirrored (row : Option DirKind) (st : DirStage) (h : Mirrored s) :
    Mirrored (dirStage (kindBody row) s st) := by
  by_cases hn : ∀ j, s.ce.engine = .directive j → j.next ≠ st
  · rwa [dirStage_skip _ s st hn]
  · push Not at hn
    obtain ⟨j, he, hst⟩ := hn
    rw [dirStage_work _ he hst]
    cases st
    case take => exact dirTake_mirrored he h
    case kind => exact dirReadKind_mirrored he h
    case payload => exact dirReadPayload_mirrored he h
    case prepare => exact dirPrepare_mirrored row he h
    case effect => exact dirEffect_mirrored row he h
    case result => exact dirWriteResult_mirrored he h
    case finish => exact dirFinish_mirrored j h

theorem runDirective_mirrored (row : Option DirKind) (u : DirStage) (h : Mirrored s) :
    Mirrored (runDirective row (kindBody row) u s) := by
  rcases runDirective_cases row (kindBody row) s with e | ⟨-, e⟩ <;> rw [e u]
  · exact h
  · exact List.foldlRecOn _ _ h fun _ hb st _ => dirStage_mirrored row st hb

end

/-! ## Every command -/

/-- The commands that are no directives; the resets and a write of AREA leave the part in STOPPED, or as it was. -/
theorem exec_plain_mirrored (c : Instr) (s t : State) (hc : directiveRowOf c = none) (hl : BankLaw s.lbu)
    (hs : Mirrored s) (h : exec c s = .next t) (hr : t.aiu.run ≠ .stopped) : Mirrored t := by
  cases c
  all_goals cases h
  case frameSync => exact frameSync_mirrored hs
  case retirement => exact retire_mirrored hs
  case trackerStep => exact trackerStep_mirrored hs
  case pollExpiry => exact pollExpiry_mirrored hs
  case settleExpiry => exact settleExpiry_mirrored hs
  case requestSent => exact requestSent_mirrored hs
  case replyWindowExpiry => exact replyWindowExpiry_mirrored hs
  case replyCharacter data parity stop => exact replyCharacter_mirrored _ hs
  case replyGapTimeout => exact replyGapTimeout_mirrored hs
  case take u => exact List.foldlRecOn _ _ hs fun _ hb st _ => takeStage_mirrored st hb
  case cardJob u => exact List.foldlRecOn _ _ hs fun _ hb st _ => cardStage_mirrored st hb
  case bakeRow => exact bakeRow_mirrored hl hs
  case drainComplete => exact drainComplete_mirrored hs
  case runSet w => exact runSet_mirrored w hs
  case runClear w => exact runClear_mirrored w hs
  case engineReset w => exact absurd rfl hr
  case attentionMaskWrite w =>
    cases controlRun w
    · exact runClear_mirrored w hs
    · exact runSet_mirrored w hs
  case areaWrite w =>
    change (areaWrite w s).aiu.run ≠ .stopped at hr
    show Mirrored (areaWrite w s)
    unfold areaWrite at hr ⊢
    split at hr
    · rename_i hst
      exact absurd hst hr
    · rwa [if_neg ‹_›]
  case attnWrite w => exact rewrite_mirrored hs rfl rfl id rfl rfl
  case registerWriteIgnored r w => exact hs
  case deviceReset => exact absurd rfl hr
  all_goals cases hc

theorem exec_mirrored (c : Instr) (s t : State) (hl : BankLaw s.lbu) (hs : Mirrored s) (h : exec c s = .next t)
    (hr : t.aiu.run ≠ .stopped) : Mirrored t := by
  rcases hc : directiveRowOf c with _ | ⟨row, u⟩
  · exact exec_plain_mirrored c s t hc hl hs h hr
  · rw [exec_directive hc h]
    exact runDirective_mirrored row u hs

/-- Settles O60: each operation of each command rewrites the fields that it changes; a fault, which needs a failing
access, never comes in. -/
theorem statusBlockMirrorsThePart : Obligations.StatusBlockMirrorsThePart := by
  intro c s t hc _ hl hm h hr
  exact (exec_mirrored c s t hl ⟨hc, hm⟩ h hr).shown hr

end Sys2Proof.Machine

/-! O56: the ranges of the timers, the counters, the settings, the marks, the contexts and the frame counts, with the
canonical form of memory. One relation says that all of them are kept from a state to another; each operation of the
model is in it. -/

namespace Sys2Proof.Machine

/-! ## The relation -/

/-- The mireds of the store's points, and of those of a load about to commit, lie in the range of R64: all that the
range of the contexts needs of the store's own relations (R60, R64). -/
def MiredBound (s : State) : Prop :=
  (∀ p ∈ s.cs.points, p.mired ≤ 16383)
    ∧ ∀ j p, AtEffect s .loadCalibration p j → ∀ q ∈ s.cs.loadBuffer, q.mired ≤ 16383

theorem GoodList.mired_le {ps : List CalPoint} (h : GoodList ps) : ∀ p ∈ ps, p.mired ≤ 16383 := by
  obtain ⟨-, -, hrange, -⟩ := h
  intro p hp
  obtain ⟨-, -, hm, -⟩ := hrange p hp
  exact hm

theorem StoreLaw.miredBound {s : State} (h : StoreLaw s) : MiredBound s := by
  obtain ⟨hgood, hempty, hready⟩ := h
  refine ⟨?_, fun j p hj => (hready j p hj).mired_le⟩
  cases hv : s.cs.valid
  · rw [hempty hv]
    nofun
  · exact (hgood hv).mired_le

/-- Each range that holds of the one state holds of the other, and memory stays canonical. An update that
leaves some of them alone takes them over from `KeepsRanges.refl`. -/
structure KeepsRanges (s t : State) : Prop where
  memory : s.bus.mem.wf → t.bus.mem.wf
  timers : TimerLaw s.ct → TimerLaw t.ct
  counters : CounterLaw s.mon → CounterLaw t.mon
  settings : SettingsLaw s.ce → SettingsLaw t.ce
  marks : MarkLaw s.it → MarkLaw t.it
  active : ActiveLaw s.it → ActiveLaw t.it
  contexts : MiredBound s → ContextLaw s.it → MiredBound t ∧ ContextLaw t.it
  count : CountLaw s → CountLaw t
  age : AgeLaw s → AgeLaw t

theorem KeepsRanges.refl (s : State) : KeepsRanges s s := ⟨id, id, id, id, id, id, And.intro, id, id⟩

theorem KeepsRanges.trans {s t u : State} (h : KeepsRanges s t) (k : KeepsRanges t u) : KeepsRanges s u where
  memory := k.memory ∘ h.memory
  timers := k.timers ∘ h.timers
  counters := k.counters ∘ h.counters
  settings := k.settings ∘ h.settings
  marks := k.marks ∘ h.marks
  active := k.active ∘ h.active
  contexts hs hc := (h.contexts hs hc).elim k.contexts
  count := k.count ∘ h.count
  age := k.age ∘ h.age

theorem foldl_ranges {α : Type} {f : State → α → State} (hf : ∀ s a, KeepsRanges s (f s a)) (l : List α)
    (s : State) : KeepsRanges s (l.foldl f s) :=
  List.foldlRecOn (motive := KeepsRanges s) l f (.refl s) fun t h a _ => h.trans (hf t a)

/-! ## The frames carried (R9, R14, R80, R147) -/

/-- The frame number of the card that the engine has in hand. -/
def heldFrame : Engine → Option Nat
  | .take _ _ j => some j.req.frame
  | .card _ _ j => some j.req.frame
  | .free => none
  | .directive _ => none
  | .bake _ => none

theorem ageLaw_iff (s : State) :
    AgeLaw s ↔ (∀ h e, s.it.latest.get h = some e → e.frame ≤ s.aiu.frameCount)
      ∧ (∀ r, s.mlc.reading = some r → r.stamp ≤ s.aiu.frameCount)
      ∧ ∀ f, heldFrame s.ce.engine = some f → f ≤ s.aiu.frameCount := by
  have held : ((∀ h k j, s.ce.engine = .take h k j → j.req.frame ≤ s.aiu.frameCount)
      ∧ ∀ h k j, s.ce.engine = .card h k j → j.req.frame ≤ s.aiu.frameCount)
      ↔ ∀ f, heldFrame s.ce.engine = some f → f ≤ s.aiu.frameCount := by
    cases s.ce.engine <;> simp [heldFrame]
  unfold AgeLaw
  rw [held]

/-- Frames that are carried over, or that the frame count has reached. -/
theorem AgeLaw.update {s t : State} (h : AgeLaw s) (hcount : s.aiu.frameCount ≤ t.aiu.frameCount)
    (hlatest : ∀ i e, t.it.latest.get i = some e → s.it.latest.get i = some e ∨ e.frame ≤ t.aiu.frameCount)
    (hreading : ∀ r, t.mlc.reading = some r → s.mlc.reading = some r ∨ r.stamp ≤ t.aiu.frameCount)
    (hheld : ∀ f, heldFrame t.ce.engine = some f → heldFrame s.ce.engine = some f ∨ f ≤ t.aiu.frameCount) :
    AgeLaw t := by
  obtain ⟨hl, hr, he⟩ := (ageLaw_iff s).1 h
  exact (ageLaw_iff t).2
    ⟨fun i e k => (hlatest i e k).elim (fun k => (hl i e k).trans hcount) id,
      fun r k => (hreading r k).elim (fun k => (hr r k).trans hcount) id,
      fun f k => (hheld f k).elim (fun k => (he f k).trans hcount) id⟩

/-- With no estimate, no reading and no card there is no frame to carry. -/
theorem ageLaw_of_none {s : State} (hl : ∀ i, s.it.latest.get i = none) (hr : s.mlc.reading = none)
    (he : s.ce.engine = .free) : AgeLaw s :=
  (ageLaw_iff s).2 ⟨fun i _ k => (nomatch (hl i).symm.trans k), fun _ k => (nomatch hr.symm.trans k),
    fun f k => (nomatch (he ▸ k : heldFrame .free = some f))⟩

/-- An advance of the count below saturation, with COUNT_END at its end (R169). -/
theorem CountLaw.advanced {s t : State} (h : CountLaw s) (hlt : s.aiu.frameCount < maxFrame)
    (ht : t.aiu = advancedAiu s.aiu) : CountLaw t := by
  obtain ⟨hle, hend⟩ := h
  unfold CountLaw
  rw [ht, advancedAiu]
  split
  · rename_i he
    exact ⟨he.le, iff_of_true rfl he⟩
  · rename_i hne
    exact ⟨hlt, iff_of_false (fun e => hlt.ne (hend.1 e)) hne⟩

theorem advancedAiu_frameCount (a : Aiu) : (advancedAiu a).frameCount = a.frameCount + 1 := by
  unfold advancedAiu
  split <;> rfl

/-! ## The timers (R129) -/

/-- The settle timer's part of the law. -/
def SettleLaw (c : Ct) : Prop :=
  c.settleLen ≤ 255 ∧ c.settleCount ≤ c.settleLen ∧ (c.settleRunning = false → c.settleCount = 0)
    ∧ (c.settleRunning = true → 1 ≤ c.settleLen)

/-- The part of the two modulo-n timers. -/
def ModuloLaw (c : Ct) : Prop :=
  (1 ≤ c.trackerLen ∧ c.trackerLen ≤ 64 ∧ 1 ≤ c.trackerCount ∧ c.trackerCount ≤ c.trackerLen)
    ∧ 1 ≤ c.pollLen ∧ c.pollLen ≤ 256 ∧ 1 ≤ c.pollCount ∧ c.pollCount ≤ c.pollLen

theorem timerLaw_iff (c : Ct) : TimerLaw c ↔ ModuloLaw c ∧ SettleLaw c := by
  unfold TimerLaw ModuloLaw SettleLaw
  simp only [and_assoc]

/-- A modulo-n timer under a new length (R134, R135). -/
theorem reloadedCount_range {old new count : Nat} (h1 : 1 ≤ count) (h2 : count ≤ old) (hn : 1 ≤ new) :
    1 ≤ reloadedCount old new count ∧ reloadedCount old new count ≤ new := by
  unfold reloadedCount
  split <;> omega

theorem TimerLaw.tick {c : Ct} (h : TimerLaw c) : TimerLaw (tick c) := by
  obtain ⟨⟨ht, hp⟩, hlen, hle, hstop, hrun⟩ := (timerLaw_iff c).1 h
  refine (timerLaw_iff _).2 ⟨⟨?_, ?_⟩, hlen, ?_, fun hr => ?_, hrun⟩
  · simp only [Machine.tick]
    split <;> omega
  · simp only [Machine.tick]
    split <;> omega
  · simp only [Machine.tick]
    split <;> omega
  · have hr' : c.settleRunning = false := hr
    simp only [Machine.tick, hr', Bool.false_eq_true, if_false, hstop hr']

theorem settleDue_iff (c : Ct) : settleDue c = true ↔ c.settleRunning = true ∧ c.settleCount = 0 := by
  simp [settleDue]

theorem TimerLaw.settleExpired {c : Ct} (h : TimerLaw c) : TimerLaw (settleExpired c) := by
  obtain ⟨hm, hlen, hle, -, -⟩ := (timerLaw_iff c).1 h
  unfold Machine.settleExpired
  split
  · rename_i hd
    exact (timerLaw_iff _).2 ⟨hm, hlen, hle, fun _ => ((settleDue_iff c).1 hd).2, nofun⟩
  · exact h

theorem TimerLaw.settleTriggered {c : Ct} (h : TimerLaw c) : TimerLaw (settleTriggered c) := by
  obtain ⟨hm, hlen, -, -, hrun⟩ := (timerLaw_iff c).1 h
  unfold Machine.settleTriggered
  split
  · rename_i hr
    split
    · exact (timerLaw_iff _).2 ⟨hm, hlen, le_rfl, fun e => absurd (hr.symm.trans e) nofun, hrun⟩
    · exact h
  · split
    · exact h
    · exact (timerLaw_iff _).2 ⟨hm, hlen, le_rfl, nofun, fun _ => Nat.pos_of_ne_zero ‹_›⟩

theorem TimerLaw.resettled {c : Ct} (h : TimerLaw c) {len : Nat} (hl : len ≤ 255) : TimerLaw (resettled c len) := by
  obtain ⟨hm, -, -, hstop, -⟩ := (timerLaw_iff c).1 h
  unfold Machine.resettled
  split
  · exact h
  · split
    · rename_i hr
      split
      · exact (timerLaw_iff _).2 ⟨hm, Nat.zero_le _, le_rfl, fun _ => rfl, nofun⟩
      · exact (timerLaw_iff _).2
          ⟨hm, hl, le_rfl, fun e => absurd (hr.symm.trans e) nofun, fun _ => Nat.pos_of_ne_zero ‹_›⟩
    · rename_i hr
      have hz := hstop (Bool.eq_false_iff.2 hr)
      exact (timerLaw_iff _).2 ⟨hm, hl, hz ▸ Nat.zero_le _, hstop, fun e => absurd e hr⟩

theorem TimerLaw.retracked {c : Ct} (h : TimerLaw c) {len : Nat} (h1 : 1 ≤ len) (h2 : len ≤ 64) :
    TimerLaw (retracked c len) := by
  obtain ⟨⟨⟨-, -, hc1, hc2⟩, hp⟩, hs⟩ := (timerLaw_iff c).1 h
  exact (timerLaw_iff _).2 ⟨⟨⟨h1, h2, reloadedCount_range hc1 hc2 h1⟩, hp⟩, hs⟩

theorem TimerLaw.repolled {c : Ct} (h : TimerLaw c) {len : Nat} (h1 : 1 ≤ len) (h2 : len ≤ 256) :
    TimerLaw (repolled c len) := by
  obtain ⟨⟨ht, -, -, hc1, hc2⟩, hs⟩ := (timerLaw_iff c).1 h
  exact (timerLaw_iff _).2 ⟨⟨ht, h1, h2, reloadedCount_range hc1 hc2 h1⟩, hs⟩

theorem TimerLaw.cadenced {c : Ct} (h : TimerLaw c) (p : Nat) : TimerLaw (cadenced p c) := by
  have ht : 1 ≤ clamp 1 64 (field p 0 2) ∧ clamp 1 64 (field p 0 2) ≤ 64 := by
    rw [clamp_one 64 _ (by decide)]
    omega
  have hs : clamp 0 255 (field p 2 2) ≤ 255 := by
    rw [clamp_zero]
    omega
  exact (h.settleExpired.retracked ht.1 ht.2).resettled hs

theorem TimerLaw.engineReset {c : Ct} (h : TimerLaw c) : TimerLaw (engineResetCt c) := by
  obtain ⟨⟨⟨ht1, ht2, -⟩, hp1, hp2, -⟩, hlen, -⟩ := (timerLaw_iff c).1 h
  exact (timerLaw_iff _).2 ⟨⟨⟨ht1, ht2, ht1, le_rfl⟩, hp1, hp2, hp1, le_rfl⟩, hlen, Nat.zero_le _, fun _ => rfl, nofun⟩

/-! ## The counters (R155) and the settings (R56, R96) -/

theorem CounterLaw.after {m : Mon} (h : CounterLaw m) (e : MonEvent) : CounterLaw (monAfter e m) := by
  intro i
  show ((m.counters.mapIdx (counterAfter m.frozen e)).get i).value < 2 ^ 48
  rw [Quad.get_mapIdx]
  unfold counterAfter
  split
  · split
    · exact h i
    · exact Nat.mod_lt _ (by decide)
  · exact h i

theorem CounterLaw.set {m n : Mon} (h : CounterLaw m) {i : Fin 4} {c : Counter} (hc : c.value < 2 ^ 48)
    (hn : n.counters = m.counters.set i c) : CounterLaw n := by
  intro k
  rw [hn]
  by_cases hk : k = i
  · rw [hk, Quad.get_set_eq]
    exact hc
  · rw [Quad.get_set_ne _ _ _ _ hk]
    exact h k

theorem counterLaw_cleared {m n : Mon} (hn : n.counters = m.counters.mapIdx fun _ c => clearedCounter c) :
    CounterLaw n := by
  intro i
  rw [hn, Quad.get_mapIdx]
  exact Nat.two_pow_pos 48

theorem field_lt (r off size : Nat) : field r off size < 256 ^ size := Nat.mod_lt _ (by positivity)

theorem SettingsLaw.setFilter {c : Ce} (h : SettingsLaw c) {p : Nat} (hp : field p 8 2 ≤ field p 0xA 2) :
    SettingsLaw { c with filter := carriedFilter p } := by
  obtain ⟨hk, hm, hs, -⟩ := h
  have hhi := field_lt p 0xA 2
  have hclip : clamp 0 256 (field p 0xC 2) ≤ 256 := by
    rw [clamp_zero]
    omega
  have hmin : 1 ≤ clamp 1 256 (field p 0xE 2) ∧ clamp 1 256 (field p 0xE 2) ≤ 256 := by
    rw [clamp_one 256 _ (by decide)]
    omega
  exact ⟨hk, hm, hs, hp, Nat.le_of_lt_succ hhi, hclip, hmin⟩

theorem SettingsLaw.setGrade {c : Ce} (h : SettingsLaw c) {k m s : Nat} (hkm : k < m) (hm : m ≤ 480) (hs : s ≤ 4096) :
    SettingsLaw { c with grading := { gK := k, gM := m, sMin := s } } := by
  obtain ⟨-, -, -, hf⟩ := h
  exact ⟨hkm, hm, hs, hf⟩

/-- A fault touches neither the filter nor the grade settings. -/
theorem SettingsLaw.terminated {c : Ce} (h : SettingsLaw c) : SettingsLaw (terminatedCe c) := by
  obtain ⟨-, -, hf, hg⟩ := terminatedCe_kept c
  unfold SettingsLaw
  rwa [hf, hg]

/-! ## The marks (R92) and the contexts (R51, R72, R73) -/

theorem MarkLaw.set_zero {t u : It} (h : MarkLaw t) (i : Head) (hu : u.marks = t.marks.set i 0) : MarkLaw u := by
  unfold MarkLaw
  rw [hu]
  cases i
  · exact ⟨Nat.zero_le _, h.2⟩
  · exact ⟨h.1, Nat.zero_le _⟩

/-- Raised marks saturate (R92). -/
theorem markLaw_added {t u : It} (n : Nat) (hu : u.marks = t.marks.map (addMarks n)) : MarkLaw u := by
  unfold MarkLaw
  rw [hu]
  exact ⟨Nat.min_le_left _ _, Nat.min_le_left _ _⟩

theorem ActiveLaw.set_context {t u : It} (h : ActiveLaw t) {i : Fin 4} {x : Context}
    (hu : u.contexts = t.contexts.set i (some x)) (ha : u.active = t.active ∨ u.active = i) : ActiveLaw u := by
  unfold ActiveLaw
  rw [hu]
  by_cases hk : u.active = i
  · rw [hk, Quad.get_set_eq]
    rfl
  · rw [Quad.get_set_ne _ _ _ _ hk, ha.resolve_right hk]
    exact h

/-- What R72 says of one context. -/
def ContextRange (x : Context) : Prop := x.mired ≤ 16383 ∧ InTrackingRange x.settings

theorem ContextLaw.set_context {t u : It} (h : ContextLaw t) {i : Fin 4} {x : Context} (hx : ContextRange x)
    (hu : u.contexts = t.contexts.set i (some x)) (hl : u.latest = t.latest) : ContextLaw u := by
  obtain ⟨hctx, hlatest⟩ := h
  refine ⟨fun k y hy => ?_, fun k e he => hlatest k e (hl ▸ he)⟩
  rw [hu] at hy
  by_cases hk : k = i
  · rw [hk, Quad.get_set_eq] at hy
    cases hy
    exact hx
  · rw [Quad.get_set_ne _ _ _ _ hk] at hy
    exact hctx k y hy

theorem ContextLaw.set_latest {t u : It} (h : ContextLaw t) {i : Head} {e : Latest} (he : e.mired ≤ 16383)
    (hc : u.contexts = t.contexts) (hu : u.latest = t.latest.set i (some e)) : ContextLaw u := by
  obtain ⟨hctx, hlatest⟩ := h
  refine ⟨fun k y hy => hctx k y (hc ▸ hy), fun k d hd => ?_⟩
  rw [hu] at hd
  by_cases hk : k = i
  · rw [hk, Two.get_set_eq] at hd
    cases hd
    exact he
  · rw [Two.get_set_ne _ _ _ _ hk] at hd
    exact hlatest k d hd

/-- The latest estimates discarded. -/
theorem ContextLaw.discarded {t u : It} (h : ContextLaw t) (hc : u.contexts = t.contexts)
    (hu : ∀ i, u.latest.get i = none) : ContextLaw u :=
  ⟨fun k y hy => h.1 k y (hc ▸ hy), fun k _ he => nomatch (hu k).symm.trans he⟩

section
variable {c : Cs} (h : ∀ p ∈ c.points, p.mired ≤ 16383)
include h

theorem storeTop_le : storeTop c ≤ 16383 := by
  unfold storeTop
  cases hp : c.points.head? with
  | none => exact Nat.zero_le _
  | some p => exact h p (List.mem_of_head? hp)

theorem storeBottom_le : storeBottom c ≤ 16383 := by
  unfold storeBottom
  cases hp : c.points.getLast? with
  | none => exact Nat.zero_le _
  | some p => exact h p (List.mem_of_getLast? hp)

theorem intoRange_le (m : Nat) : intoRange c m ≤ 16383 := by
  have htop := storeTop_le h
  have hbottom := storeBottom_le h
  unfold intoRange
  split
  · exact htop
  · split <;> omega

end

/-- The measured mired is no higher than a point's (R51). -/
theorem measuredMired_le {n : Nat} {ps : List CalPoint} (h : ∀ p ∈ ps, p.mired ≤ n) (b : Nat) :
    measuredMired ps b ≤ n := by
  induction ps, b using measuredMired.induct with
  | case1 => exact Nat.zero_le _
  | case2 p => exact h p List.mem_cons_self
  | case3 p q rest b hp =>
    rw [measuredMired, if_pos hp]
    exact h p List.mem_cons_self
  | case4 p q rest b hp hq =>
    rw [measuredMired, if_neg hp, if_pos hq]
    exact (Nat.sub_le _ _).trans (h p List.mem_cons_self)
  | case5 p q rest b hp hq ih =>
    rw [measuredMired, if_neg hp, if_neg hq]
    exact ih fun x hx => h x (List.mem_cons_of_mem _ hx)

/-- The target by policy is no higher than the highest value (R86). -/
theorem policyTarget_le {st : ContextSettings} {vs : List Nat} {n : Nat} (hne : vs ≠ []) (h : ∀ v ∈ vs, v ≤ n) :
    policyTarget st vs ≤ n := by
  have hsmall : smallest vs ≤ n := h _ (smallest_least hne).1
  have hmean : vs.sum / vs.length ≤ n := by
    refine Nat.div_le_of_le_mul ?_
    simpa using List.sum_le_card_nsmul vs n h
  unfold policyTarget
  split
  · exact hsmall
  · exact h _ (largest_greatest hne).1
  · split
    · exact hmean
    · exact hsmall

/-- A source contributes a mired in range (R81, R82). -/
theorem sourceValues_le {s : State} (h : ContextLaw s.it) (st : ContextSettings) :
    ∀ v ∈ sourceValues (sourcesAt st s), v ≤ 16383 := by
  obtain ⟨-, hlatest⟩ := h
  intro v hv
  simp only [sourceValues_eq, List.mem_append, Option.mem_toList] at hv
  rcases hv with (hv | hv) | hv
  · obtain ⟨e, he, -, -, rfl⟩ := headSource_eq_some_iff.1 hv
    exact hlatest .i0 e he
  · obtain ⟨e, he, -, -, rfl⟩ := headSource_eq_some_iff.1 hv
    exact hlatest .i1 e he
  · obtain ⟨r, -, -, -, -, -, -, -, rfl⟩ := podSource_eq_some_iff.1 hv
    exact Nat.min_le_right _ _

theorem decideStep_le {s : State} {x : Context} (hs : MiredBound s) (hc : ContextLaw s.it) (hx : x.mired ≤ 16383) :
    (decideStep x s).mired ≤ 16383 := by
  have htarget {vs : List Nat} (hne : vs ≠ []) (hvs : ∀ v ∈ vs, v ≤ 16383) :
      targetOf s.cs x.settings vs ≤ 16383 := by
    unfold targetOf
    split
    · exact intoRange_le hs.1 _
    · exact policyTarget_le hne hvs
  unfold decideStep
  dsimp only
  split
  · exact hx
  · split
    · exact hx
    · rename_i hne
      have ht := htarget hne (sourceValues_le hc x.settings)
      split
      · exact ht
      · exact (slewed_between x.settings x.mired _).2.trans (max_le hx ht)

theorem clampContext_settings (c : Cs) (x : Context) : (clampContext c x).settings = x.settings := by
  unfold clampContext
  split <;> rfl

theorem carriedSettings_range (policy : Policy) (p : Nat) : InTrackingRange (carriedSettings policy p) := by
  rw [carriedSettings_eq]
  unfold InTrackingRange
  dsimp only
  refine ⟨by omega, by omega, by omega, by omega, by omega, by omega, fun h => ?_⟩
  cases h
  · exact ⟨le_max_left _ _, max_le (by decide) (min_le_left _ _)⟩
  · exact ⟨le_max_left _ _, max_le (by decide) (min_le_left _ _)⟩

theorem initialMired_le {c : Cs} (h : ∀ p ∈ c.points, p.mired ≤ 16383) (p : Nat) : initialMired c p ≤ 16383 := by
  unfold initialMired
  dsimp only
  split
  · exact intoRange_le h _
  · rw [clamp_zero]
    exact Nat.min_le_left _ _

/-- The context that SET_TRACKING leaves (R76, R77). -/
theorem trackedContext_range {c : Cs} (h : ∀ p ∈ c.points, p.mired ≤ 16383) (policy : Policy) (p : Nat)
    {o : Option Context} (ho : ∀ x, o = some x → ContextRange x) :
    ContextRange (trackedContext c (carriedSettings policy p) p o) := by
  cases o with
  | none => exact ⟨initialMired_le h p, carriedSettings_range policy p⟩
  | some x => exact ⟨(ho x rfl).1, carriedSettings_range policy p⟩

end Sys2Proof.Machine

/-! The ranges under the part's accesses and shared operations, those of its blocks, the run states, the resets and the
bake. -/

namespace Sys2Proof.Machine

/-! ## The engine's condition -/

/-- The state with the engine's condition replaced. -/
def withEngine (e : Engine) (s : State) : State := { s with ce := { s.ce with engine := e } }

/-- A condition with a card that the frame count has reached, and a load at its effect with a good buffer. -/
theorem withEngine_ranges {e : Engine} {s : State}
    (hheld : AgeLaw s → ∀ f, heldFrame e = some f → f ≤ s.aiu.frameCount)
    (hload : ∀ j, e = .directive j → j.next = .effect → j.kind = some .loadCalibration → j.result = none →
      ∀ q ∈ s.cs.loadBuffer, q.mired ≤ 16383) : KeepsRanges s (withEngine e s) :=
  { KeepsRanges.refl s with
    contexts hs hc := ⟨⟨hs.1, fun j _ ⟨hj, hn, hk, _, hr⟩ => hload j hj hn hk hr⟩, hc⟩
    age h := h.update le_rfl (fun _ _ => .inl) (fun _ => .inl) fun f k => .inr (hheld h f k) }

/-- A condition with nothing in hand. -/
theorem withEngine_free_ranges (s : State) : KeepsRanges s (withEngine .free s) :=
  withEngine_ranges (fun _ => nofun) nofun

theorem putTake_ranges {h : Head} {k : Fin 8} {j : TakeJob} {s : State}
    (hj : AgeLaw s → j.req.frame ≤ s.aiu.frameCount) : KeepsRanges s (putTake h k j s) :=
  withEngine_ranges (e := .take h k j) (fun ha f e => by cases e; exact hj ha) nofun

theorem withCard_ranges {h : Head} {k : Fin 8} {j : CardJob} {s : State}
    (hj : AgeLaw s → j.req.frame ≤ s.aiu.frameCount) : KeepsRanges s (withEngine (.card h k j) s) :=
  withEngine_ranges (fun ha f e => by cases e; exact hj ha) nofun

theorem putDirJob_ranges {j : DirJob} {s : State}
    (hload : j.next = .effect → j.kind = some .loadCalibration → j.result = none →
      ∀ q ∈ s.cs.loadBuffer, q.mired ≤ 16383) : KeepsRanges s (putDirJob j s) :=
  withEngine_ranges (e := .directive j) (fun _ => nofun) fun _ e => by cases e; exact hload

/-! ## Accesses -/

theorem onBus_ranges {P : Nat → Prop} {s : State} {c : Bus} (h : s.bus.Within P c) : KeepsRanges s (s.onBus c) :=
  { KeepsRanges.refl s with
    memory := h.2.2.1 }

/-- The entry to FAULTED (R38, R69, R170). -/
theorem faultedState_ranges (k : FaultKind) (s : State) : KeepsRanges s (faultedState k s) :=
  { KeepsRanges.refl s with
    settings := SettingsLaw.terminated
    contexts hs hc := ⟨⟨hs.1, fun _ _ _ => nofun⟩, hc⟩
    age h := h.update le_rfl (fun _ _ => .inl) (fun _ => .inl) fun f e => by
      rw [faultedState_engine] at e
      cases e }

theorem KeepsRanges.of_shown {P : Nat → Prop} {s t : State} (h : Shown P s t) : KeepsRanges s t := by
  obtain ⟨c, hw, rfl⟩ | ⟨-, -, k, c, hw, rfl⟩ := h
  · exact onBus_ranges hw
  · exact (faultedState_ranges k s).trans (onBus_ranges (s := faultedState k s) hw)

/-- An update and what it shows. -/
theorem KeepsRanges.shown {P : Nat → Prop} {s t u : State} (h : KeepsRanges s t) (k : Shown P t u) :
    KeepsRanges s u :=
  h.trans (.of_shown k)

theorem enterFault_ranges (k : FaultKind) (s : State) : KeepsRanges s (enterFault k s) := by
  obtain ⟨c, hw, e⟩ := enterFault_spec k s
  rw [e]
  split
  · exact onBus_ranges hw
  · exact (faultedState_ranges k s).trans (onBus_ranges (s := faultedState k s) hw)

theorem busRead_ranges {s t : State} {a n : Nat} {o : Option Nat} (hr : busRead s a n = (o, t)) :
    KeepsRanges s t := by
  cases busRead_onBus hr
  exact onBus_ranges (Bus.Within.spend (fun _ => False) s.bus)

theorem readSpans_ranges {s t : State} {a : Nat} {ps : List (Nat × Nat)} {o : Option Nat}
    (hr : readSpans s a ps = (o, t)) : KeepsRanges s t := by
  obtain ⟨c, hw, e, -⟩ := readSpans_spec s a ps
  rw [hr] at e
  cases (show t = s.onBus c from e)
  exact onBus_ranges hw

theorem busWrite_ranges (s : State) (f : Field) : KeepsRanges s (busWrite s f).2 := by
  obtain ⟨c, e, hw, -⟩ := busWrite_spec s f
  rw [e]
  exact onBus_ranges hw

theorem writeFields_ranges {k : FaultKind} {fs : List Field} {s t : State} {ok : Bool}
    (hw : writeFields k fs s = (ok, t)) : KeepsRanges s t := by
  induction fs generalizing s with
  | nil =>
    cases hw
    exact .refl _
  | cons f fs ih =>
    have hf := busWrite_ranges s f
    unfold writeFields at hw
    split at hw <;> rename_i u hu <;> rw [hu] at hf
    · exact hf.trans (ih hw)
    · cases hw
      exact hf.trans (enterFault_ranges k u)

/-! ## Shared operations -/

section
variable (s : State)

theorem rewrite_ranges (os : List Owner) (before : State) : KeepsRanges s (rewrite os before s) :=
  .of_shown (rewrite_shown os before s)

variable {s} in
/-- An update and the rewrite of the fields it has changed (R175). -/
theorem KeepsRanges.rewritten {t before : State} {os : List Owner} (h : KeepsRanges s t) :
    KeepsRanges s (rewrite os before t) :=
  h.trans (rewrite_ranges t os before)

theorem setCauseIf_ranges (p : Bool) (c : Cause) : KeepsRanges s (setCauseIf p c s) :=
  KeepsRanges.shown (t := causedState p c s) { KeepsRanges.refl _ with } (setCauseIf_shown p c s)

theorem setCause_ranges (c : Cause) : KeepsRanges s (setCause c s) := setCauseIf_ranges s true c

theorem deliveredState_ranges (e : MonEvent) : KeepsRanges s (deliveredState e s) :=
  { KeepsRanges.refl s with
    counters h := h.after e }

theorem deliver_ranges (e : MonEvent) : KeepsRanges s (deliver e s) :=
  (deliveredState_ranges s e).shown (deliver_shown e s)

variable {s} in
theorem KeepsRanges.delivered {t : State} {e : MonEvent} (h : KeepsRanges s t) : KeepsRanges s (deliver e t) :=
  h.trans (deliver_ranges t e)

theorem retire_ranges : KeepsRanges s (retire s) :=
  KeepsRanges.shown (t := retiredState s) { KeepsRanges.refl _ with } (retire_shown s)

theorem dropQuery_ranges : KeepsRanges s (dropQuery s) :=
  KeepsRanges.shown (t := droppedState s) { KeepsRanges.refl _ with } (dropQuery_shown s)

variable {s} in
theorem KeepsRanges.dropped {t : State} (h : KeepsRanges s t) : KeepsRanges s (dropQuery t) :=
  h.trans (dropQuery_ranges t)

theorem rewriteHeaders_ranges (before : State) : KeepsRanges s (rewriteHeaders before s) :=
  .of_shown (rewriteHeaders_shown before s)

variable {s} in
theorem KeepsRanges.headersRewritten {t before : State} (h : KeepsRanges s t) :
    KeepsRanges s (rewriteHeaders before t) :=
  h.trans (rewriteHeaders_ranges t before)

theorem writeHeader_ranges (b : BankIx) : KeepsRanges s (writeHeader b s) := .of_shown (writeHeader_shown b s)

/-- The CUT actions start the settle timer and freeze the counters (R19). -/
theorem cutActions_ranges (cut : Bool) : KeepsRanges s (cutActions cut s) := by
  have hcut : KeepsRanges s (cutState cut s) := by
    cases cut
    · exact { KeepsRanges.refl _ with }
    · exact { KeepsRanges.refl _ with timers := fun h => h.settleExpired.settleTriggered }
  exact hcut.shown (cutActions_shown cut s)

theorem swap_ranges : KeepsRanges s (swap s) := by
  have hs : KeepsRanges s (swappedState s) := by
    unfold swappedState
    split
    · exact .refl s
    · exact { KeepsRanges.refl _ with }
  exact hs.shown (swap_shown s)

theorem sweep_ranges : KeepsRanges s (sweep s) := by
  by_cases hr : s.aiu.run = .running
  · rcases sweep_shown s hr with k | ⟨-, k⟩
    · exact KeepsRanges.shown (t := sweptState s) { KeepsRanges.refl _ with } k
    · exact KeepsRanges.shown (t := clearedClaims s) { KeepsRanges.refl _ with } k
  · rw [sweep_not_running s hr]
    exact .refl s

/-- A job just granted has read nothing: its take holds frame 0, its directive is not at its effect. -/
theorem grantedState_ranges (c : Claimant) : KeepsRanges s (grantedState c s) := by
  unfold grantedState
  split
  case h_1 h =>
    split
    · exact .refl s
    · rename_i slot _
      exact (putTake_ranges (h := h) (k := slot) (j := TakeJob.start) fun _ => Nat.zero_le _).trans
        { KeepsRanges.refl _ with }
  case h_2 =>
    split
    · exact (putDirJob_ranges (j := DirJob.start) (s := s) nofun).trans { KeepsRanges.refl _ with }
    · split
      · exact .refl s
      · rename_i b _
        exact withEngine_ranges (e := .bake b) (fun _ => nofun) nofun

theorem grant_ranges : KeepsRanges s (grant s) := by
  have hg : KeepsRanges s (afterGrant s) := by
    unfold afterGrant
    split
    · split
      · exact .refl s
      · exact grantedState_ranges s _
    · exact .refl s
  exact hg.shown (grant_shown s)

theorem sweepAndGrant_ranges : KeepsRanges s (sweepAndGrant s) := (sweep_ranges s).trans (grant_ranges _)

theorem releaseEngine_ranges (e : Option (JobEnding × JobKind)) : KeepsRanges s (releaseEngine e s) := by
  have hr : KeepsRanges s (releasedState e s) := (withEngine_free_ranges s).trans { KeepsRanges.refl _ with }
  exact hr.shown (releaseEngine_shown e s)

theorem fallFree_ranges (e : Option (JobEnding × JobKind)) : KeepsRanges s (fallFree e s) :=
  (releaseEngine_ranges s e).trans (sweepAndGrant_ranges _)

/-! ## The tracker, the link and the timers -/

/-- A step sets the active context, in range, and nothing else of what has one (R83 to R90). -/
theorem steppedState_ranges {x : Context} (hx : s.it.contexts.get s.it.active = some x) :
    KeepsRanges s (steppedState x (decideStep x s) s) :=
  { KeepsRanges.refl s with
    active h := h.set_context rfl (.inl rfl)
    contexts hs hc := by
      obtain ⟨hmired, hset⟩ := hc.1 _ x hx
      obtain ⟨-, hsame⟩ := steppedContext_kept x (decideStep x s)
      refine ⟨hs, hc.set_context ⟨?_, ?_⟩ rfl rfl⟩
      · rw [steppedContext_mired]
        exact decideStep_le hs hc hmired
      · rwa [hsame] }

theorem takeStep_ranges : KeepsRanges s (takeStep s) := by
  cases hx : s.it.contexts.get s.it.active with
  | none =>
    unfold takeStep
    rw [hx]
    exact .refl s
  | some x =>
    exact ((steppedState_ranges s hx).trans (deliveredState_ranges _ _)).shown (takeStep_shown s x hx)

theorem trackerStep_ranges : KeepsRanges s (trackerStep s) := by
  have hd : KeepsRanges s { s with ct := { s.ct with trackerDue := false } } := { KeepsRanges.refl _ with }
  unfold trackerStep
  split
  · exact hd.trans (takeStep_ranges _)
  · exact .refl s

theorem missedMlc_reading (m : Mlc) : (missedMlc m).reading = m.reading ∨ (missedMlc m).reading = none := by
  unfold missedMlc
  split
  · exact .inr rfl
  · split <;> exact .inl rfl

theorem endMiss_ranges : KeepsRanges s (endMiss s) := by
  have hm : KeepsRanges s (missedState s) :=
    { KeepsRanges.refl _ with
      counters := fun h => h.after .podMiss
      age := fun h => h.update le_rfl (fun _ _ => .inl)
        (fun r e => (missedMlc_reading s.mlc).elim (fun k => .inl (k ▸ e)) fun k => nomatch k.symm.trans e)
        fun _ => .inl }
  exact hm.shown (endMiss_shown s)

theorem endProbe_ranges (cs : List RxChar) : KeepsRanges s (endProbe cs s) := by
  have hp : KeepsRanges s (probedState cs s) :=
    { KeepsRanges.refl _ with age := fun h => h.update le_rfl (fun _ _ => .inl) nofun fun _ => .inl }
  exact hp.shown (endProbe_shown cs s)

/-- The reading held after a READ reply is the one before, or is stamped with the frame count (R147). -/
theorem storedReading_cases {held : Option Reading} {cs : List RxChar} {stamp : Nat} {r : Reading}
    (h : storedReading held (replyReading cs stamp) = some r) : held = some r ∨ r.stamp = stamp := by
  unfold storedReading at h
  split at h
  · cases h
    exact .inr rfl
  · split at h <;> cases h
    · exact .inl rfl
    · exact .inr rfl

theorem endRead_ranges (cs : List RxChar) : KeepsRanges s (endRead cs s) := by
  have hr : KeepsRanges s (readState cs s) :=
    { KeepsRanges.refl _ with
      marks := fun _ => markLaw_added _ rfl
      age := fun h => h.update le_rfl (fun _ _ => .inl) (fun _ e => (storedReading_cases e).imp id Eq.le)
        fun _ => .inl }
  exact hr.shown (endRead_shown cs s)

theorem judge_ranges (k : ExchangeKind) (cs : List RxChar) : KeepsRanges s (judge k cs s) := by
  unfold judge
  split
  · cases k
    · exact endProbe_ranges s cs
    · exact endRead_ranges s cs
  · exact endMiss_ranges s

theorem takeChar_ranges (k : ExchangeKind) (cs : List RxChar) : KeepsRanges s (takeChar k cs s) := by
  unfold takeChar
  split
  · exact judge_ranges s k cs
  · exact { KeepsRanges.refl _ with }

theorem requestSent_ranges : KeepsRanges s (requestSent s) := by
  unfold requestSent
  split <;> exact { KeepsRanges.refl _ with }

theorem replyWindowExpiry_ranges : KeepsRanges s (replyWindowExpiry s) := by
  unfold replyWindowExpiry
  split
  · exact endMiss_ranges s
  all_goals exact .refl s

theorem replyCharacter_ranges (c : RxChar) : KeepsRanges s (replyCharacter c s) := by
  unfold replyCharacter
  split
  · exact takeChar_ranges s _ _
  · exact takeChar_ranges s _ _
  all_goals exact .refl s

theorem replyGapTimeout_ranges : KeepsRanges s (replyGapTimeout s) := by
  unfold replyGapTimeout
  split
  · exact judge_ranges s _ _
  all_goals exact .refl s

theorem pollExpiry_ranges : KeepsRanges s (pollExpiry s) := by
  unfold pollExpiry
  split
  · dsimp only
    split
    · exact { KeepsRanges.refl _ with }
    · exact .rewritten { KeepsRanges.refl _ with }
  · exact .refl s

theorem settleExpiry_ranges : KeepsRanges s (settleExpiry s) := by
  have hs : KeepsRanges s { s with ct := settleExpired s.ct } :=
    { KeepsRanges.refl _ with timers := TimerLaw.settleExpired }
  exact hs.shown (settleExpiry_shown s)

/-- An advance of the count, below saturation (R130, R169). -/
theorem countAdvance_ranges (hlt : s.aiu.frameCount < maxFrame) : KeepsRanges s (countAdvance s) := by
  have ha : KeepsRanges s { s with aiu := advancedAiu s.aiu } :=
    { KeepsRanges.refl _ with
      count := fun h => h.advanced hlt rfl
      age := fun h => h.update ((Nat.le_succ _).trans_eq (advancedAiu_frameCount _).symm) (fun _ _ => .inl)
        (fun _ => .inl) fun _ => .inl }
  have ht (t : State) : KeepsRanges t { t with ct := tick t.ct } := { KeepsRanges.refl _ with timers := TimerLaw.tick }
  exact (ha.rewritten.trans (ht _)).rewritten

theorem frameSync_ranges : KeepsRanges s (frameSync s) := by
  have hd : KeepsRanges s (takeDue s) :=
    ((trackerStep_ranges s).trans (pollExpiry_ranges _)).trans (settleExpiry_ranges _)
  unfold frameSync
  split
  · dsimp only
    split
    · split
      · rename_i hlt
        exact (((hd.trans (countAdvance_ranges _ hlt)).trans (swap_ranges _)).trans (retire_ranges _)).trans
          (sweepAndGrant_ranges _)
      · exact hd.trans (sweepAndGrant_ranges _)
    · exact hd
  · exact .refl s

/-! ## The run states and the resets -/

theorem runSet_ranges (w : BitVec 32) : KeepsRanges s (runSet w s) := by
  have he (t : State) : KeepsRanges t (enterRunning t) := by
    have hr : KeepsRanges t { t with aiu := { t.aiu with run := .running, areaInvalid := false } } :=
      { KeepsRanges.refl _ with }
    exact (((hr.shown (rewriteAll_shown _)).trans (writeHeader_ranges _ .i0)).trans (writeHeader_ranges _ .i1)).trans
      (sweepAndGrant_ranges _)
  unfold runSet
  dsimp only
  split
  · split
    · exact { KeepsRanges.refl _ with }
    · exact KeepsRanges.trans (t := putMask w s) { KeepsRanges.refl _ with } (he _)
  · exact { KeepsRanges.refl _ with }

theorem runClear_ranges (w : BitVec 32) : KeepsRanges s (runClear w s) := by
  unfold runClear
  dsimp only
  split
  · split
    · exact { KeepsRanges.refl _ with }
    · exact .rewritten { KeepsRanges.refl _ with }
  · exact { KeepsRanges.refl _ with }

theorem drainComplete_ranges : KeepsRanges s (drainComplete s) := by
  unfold drainComplete
  split
  · exact { KeepsRanges.refl _ with }
  · exact .refl s

theorem areaWrite_ranges (w : BitVec 32) : KeepsRanges s (areaWrite w s) := by
  unfold areaWrite
  split
  · exact { KeepsRanges.refl _ with }
  · exact .refl s

/-- A frame count of 0 with COUNT_END clear (R174). -/
theorem countLaw_of_zero {t : State} (hf : t.aiu.frameCount = 0) (he : t.aiu.countEnd = false) : CountLaw t := by
  unfold CountLaw
  rw [hf, he]
  decide

theorem engineReset_ranges (w : BitVec 32) : KeepsRanges s (engineReset w s) :=
  { KeepsRanges.refl s with
    timers := TimerLaw.engineReset
    marks _ := ⟨Nat.zero_le _, Nat.zero_le _⟩
    contexts hs hc := ⟨⟨hs.1, fun _ _ _ => nofun⟩, hc.discarded rfl fun i => by cases i <;> rfl⟩
    count _ := countLaw_of_zero rfl rfl
    age _ := ageLaw_of_none (fun i => by cases i <;> rfl) rfl rfl }

theorem deviceReset_ranges : KeepsRanges s (deviceReset s) where
  memory := id
  timers _ := timerLaw_reset
  counters _ := counterLaw_reset
  settings _ := settingsLaw_reset
  marks _ := ⟨Nat.zero_le _, Nat.zero_le _⟩
  active _ := rfl
  contexts _ _ := ⟨⟨nofun, fun _ _ _ => nofun⟩, contextLaw_reset⟩
  count _ := countLaw_of_zero rfl rfl
  age _ := ageLaw_of_none latestReset_get rfl rfl

/-! ## The bake -/

theorem rowBoundary_ranges (b : BankIx) : KeepsRanges s (rowBoundary b s) := by
  unfold rowBoundary
  split
  · split
    · split
      · exact fallFree_ranges s _
      · exact .refl s
    · exact ((releaseEngine_ranges s _).trans (setCause_ranges _ _)).trans (sweepAndGrant_ranges _)
  · split
    · exact setCause_ranges s _
    · exact .refl s

theorem bakeRow_ranges : KeepsRanges s (bakeRow s) := by
  unfold bakeRow
  split
  case h_1 b _ =>
    split
    case h_1 c look _ =>
      split <;> rename_i u hu <;> have hw := writeFields_ranges hu
      · exact hw
      · have hp : KeepsRanges u (putBank b (raisedBank u.aiu.frameCount c look) u) := { KeepsRanges.refl _ with }
        exact ((hw.trans hp).trans (writeHeader_ranges _ b)).trans (rowBoundary_ranges _ b)
    all_goals exact .refl s
  all_goals exact .refl s

end

end Sys2Proof.Machine

/-! O56: the ranges under the jobs of the engine, and so under every step. The commit of a load needs the list that the
load's own preparation has checked, so a directive's stages carry along that its own kind's row goes on with it. -/

namespace Sys2Proof.Machine

/-! ## The take -/

theorem AgeLaw.take {s : State} {h : Head} {k : Fin 8} {j : TakeJob} (ha : AgeLaw s)
    (he : s.ce.engine = .take h k j) : j.req.frame ≤ s.aiu.frameCount := by
  obtain ⟨-, -, ht, -⟩ := ha
  exact ht h k j he

theorem AgeLaw.card {s : State} {h : Head} {k : Fin 8} {j : CardJob} (ha : AgeLaw s)
    (he : s.ce.engine = .card h k j) : j.req.frame ≤ s.aiu.frameCount := by
  obtain ⟨-, -, -, hc⟩ := ha
  exact hc h k j he

theorem afterEnded_ranges (h : Head) (e : Ending) (n : Bool) (s : State) : KeepsRanges s (afterEnded h e n s) := by
  have hc := (releaseEngine_ranges s (some (cardEnding e, .card))).trans (setCauseIf_ranges _ n .card)
  unfold afterEnded
  refine KeepsRanges.trans ?_ (sweepAndGrant_ranges _)
  split
  · exact hc.trans (deliver_ranges _ _)
  · exact hc

theorem endCard_ranges (s : State) (h : Head) (k : Fin 8) (e : Ending) (n : Bool) :
    KeepsRanges s (endCard h k e n s) := by
  unfold endCard
  split <;> rename_i hw <;> have hw := writeFields_ranges hw
  · exact hw
  · exact hw.trans (afterEnded_ranges h e n _)

section
variable {s : State} {h : Head} {k : Fin 8}

/-- The take in hand goes on with the values it has read. -/
theorem take_on_ranges {j j' : TakeJob} (he : s.ce.engine = .take h k j) (hj : j'.req = j.req) :
    KeepsRanges s (putTake h k j' s) :=
  putTake_ranges fun ha => hj ▸ ha.take he

/-- The card job in hand goes on with the values read at the take. -/
theorem card_on_ranges {j j' : CardJob} (he : s.ce.engine = .card h k j) (hj : j'.req = j.req) :
    KeepsRanges s (putCard h k j' s) :=
  withCard_ranges fun ha => hj ▸ ha.card he

theorem takeReread_ranges (j : TakeJob) : KeepsRanges s (takeReread h k j s) := by
  unfold takeReread
  split <;> rename_i hread <;> have hr := readSpans_ranges hread
  · exact hr.trans (enterFault_ranges _ _)
  · split
    · rename_i r u hready
      have hq : KeepsRanges u { u with lbu := { u.lbu with pendingQuery := some (field r 8 4) } } :=
        { KeepsRanges.refl _ with }
      exact (hr.trans hq).trans (putTake_ranges fun _ => hready.2)
    · exact hr.trans (fallFree_ranges _ _)

theorem takeWriteTaken_ranges {j : TakeJob} (he : s.ce.engine = .take h k j) :
    KeepsRanges s (takeWriteTaken h k j s) := by
  unfold takeWriteTaken
  split <;> rename_i hw <;> have hk := writeFields_ranges hw
  · exact hk
  · obtain ⟨c, -, rfl⟩ := writeFields_written hw
    exact hk.trans (take_on_ranges (s := s.onBus c) he rfl)

theorem takeLastTaken_ranges {j : TakeJob} (he : s.ce.engine = .take h k j) :
    KeepsRanges s (takeLastTaken h k j s) := by
  have ht : KeepsRanges s (putTake h k { j with next := .finish, lastBefore := s.ciu.lastTaken.get h } s) :=
    take_on_ranges he rfl
  unfold takeLastTaken
  dsimp only
  split
  · exact ht
  · exact .rewritten (ht.trans { KeepsRanges.refl _ with })

/-- A take that still holds its card after the CUT actions hands it over (R13.5, R19). -/
theorem takeFinish_ranges {j : TakeJob} (he : s.ce.engine = .take h k j) : KeepsRanges s (takeFinish h k j s) := by
  have hcut := cutActions_ranges s j.req.cut
  unfold takeFinish
  split
  · exact endCard_ranges s h k _ _
  · dsimp only
    split
    · rename_i hh
      have hheld : (cutActions j.req.cut s).ce.engine = .take h k j := by
        rcases (cutActions_keeps (cut := j.req.cut) (.refl s)).engine with e | e
        · exact e.trans he
        · rw [e] at hh
          cases hh
      have hcard : KeepsRanges (cutActions j.req.cut s)
          (withEngine (.card h k (CardJob.start j.req j.lastBefore)) (cutActions j.req.cut s)) :=
        withCard_ranges fun ha => ha.take hheld
      exact (hcut.trans hcard).rewritten
    · exact hcut

theorem takeStage_ranges (s : State) (st : TakeStage) : KeepsRanges s (takeStage s st) := by
  unfold takeStage
  split
  case h_1 h k j he =>
    split
    · cases st
      case reread => exact takeReread_ranges j
      case writeTaken => exact takeWriteTaken_ranges he
      case checks => exact take_on_ranges he rfl
      case lastTaken => exact takeLastTaken_ranges he
      case finish => exact takeFinish_ranges he
    · exact .refl s
  all_goals exact .refl s

/-! ## The card job -/

theorem cardCalibration_ranges {j : CardJob} (he : s.ce.engine = .card h k j) :
    KeepsRanges s (cardCalibration h k j s) := by
  have hl : KeepsRanges s (rewrite [.ciu] s (putLastTaken h j.lastBefore s)) :=
    .rewritten { KeepsRanges.refl _ with }
  unfold cardCalibration
  split
  · exact card_on_ranges he rfl
  · dsimp only
    split
    · exact hl.trans (endCard_ranges _ h k _ _)
    all_goals exact hl

theorem tilePass_ranges {f : FilterSettings} {c : Quad Counter} {n addr : Nat} {a : Accumulators} {ts : Quad Nat}
    {s t : State} {o : Option (Accumulators × Quad Nat)} (hr : tilePass f c n addr a ts s = (o, t)) :
    KeepsRanges s t := by
  induction n generalizing addr a ts s with
  | zero =>
    cases hr
    exact .refl _
  | succ n ih =>
    unfold tilePass at hr
    split at hr <;> rename_i hread <;> have hb := busRead_ranges hread
    · cases hr
      exact hb
    · exact hb.trans (ih hr)

theorem cardTilePass_ranges {j : CardJob} (he : s.ce.engine = .card h k j) :
    KeepsRanges s (cardTilePass h k j s) := by
  unfold cardTilePass
  split <;> rename_i hr <;> have hk := tilePass_ranges hr <;> obtain ⟨b, rfl⟩ := tilePass_onBus hr
  · exact hk.trans (endCard_ranges _ h k _ _)
  · exact hk.trans (card_on_ranges (s := s.onBus b) he rfl)

/-- The measured mired of an estimate is no higher than a point's (R51, R52). -/
theorem formEstimate_mired_le {f : FilterSettings} {ps : List CalPoint} {a : Accumulators} {m n : Nat}
    (hp : ∀ p ∈ ps, p.mired ≤ n) (hm : (formEstimate f ps a).mired = some m) : m ≤ n := by
  unfold formEstimate at hm
  dsimp only at hm
  split at hm <;> cases hm
  exact measuredMired_le hp _

/-- An estimate handed to the tracker, in range and of a frame that the count has reached. -/
theorem latest_ranges {e : Latest} (hm : MiredBound s → e.mired ≤ 16383)
    (hf : AgeLaw s → e.frame ≤ s.aiu.frameCount) (i : Head) :
    KeepsRanges s { s with it := { s.it with latest := s.it.latest.set i (some e) } } :=
  { KeepsRanges.refl s with
    contexts hs hc := ⟨hs, hc.set_latest (hm hs) rfl rfl⟩
    age ha := ha.update le_rfl (hlatest := fun k d hd => by
      by_cases hk : k = i
      · rw [hk, Two.get_set_eq] at hd
        cases hd
        exact .inr (hf ha)
      · rw [Two.get_set_ne _ _ _ _ hk] at hd
        exact .inl hd) (fun _ => .inl) fun _ => .inl }

/-- A GOOD estimate is handed over with the frame of its card (R31, R53, R54). -/
theorem cardEstimate_ranges {j : CardJob} (he : s.ce.engine = .card h k j) :
    KeepsRanges s (cardEstimate h k j s) := by
  unfold cardEstimate
  dsimp only
  split
  · exact card_on_ranges he rfl
  · rename_i m hm
    have hl := latest_ranges (s := s) (e := { mired := m, frame := j.req.frame })
      (fun hs => formEstimate_mired_le hs.1 hm) (fun ha => ha.card he) h
    exact .rewritten (hl.trans (card_on_ranges he rfl))

theorem cardMarks_ranges {j : CardJob} (he : s.ce.engine = .card h k j) : KeepsRanges s (cardMarks h k j s) := by
  have hm : KeepsRanges s { s with it := { s.it with marks := s.it.marks.set h 0 } } :=
    { KeepsRanges.refl _ with marks := fun ha => ha.set_zero h rfl }
  exact .rewritten (hm.trans (card_on_ranges he rfl))

theorem cardWriteResult_ranges {j : CardJob} (he : s.ce.engine = .card h k j) :
    KeepsRanges s (cardWriteResult h k j s) := by
  unfold cardWriteResult
  split <;> rename_i hw <;> have hk := writeFields_ranges hw
  · exact hk
  · obtain ⟨c, -, rfl⟩ := writeFields_written hw
    exact hk.trans (card_on_ranges (s := s.onBus c) he rfl)

theorem cardWriteEnding_ranges {j : CardJob} (he : s.ce.engine = .card h k j) :
    KeepsRanges s (cardWriteEnding h k j s) := by
  unfold cardWriteEnding
  split <;> rename_i hw <;> have hk := writeFields_ranges hw
  · exact hk
  · obtain ⟨c, -, rfl⟩ := writeFields_written hw
    exact hk.trans (card_on_ranges (s := s.onBus c) he rfl)

theorem cardFinish_ranges (j : CardJob) : KeepsRanges s (cardFinish h k j s) := by
  unfold cardFinish
  split <;> rename_i hw <;> have hw := writeFields_ranges hw
  · exact hw
  · exact hw.trans (afterEnded_ranges h _ _ _)

theorem cardStage_ranges (s : State) (st : CardStage) : KeepsRanges s (cardStage s st) := by
  unfold cardStage
  split
  case h_1 h k j he =>
    split
    · cases st
      case calibration => exact cardCalibration_ranges he
      case tilePass => exact cardTilePass_ranges he
      case estimate => exact cardEstimate_ranges he
      case bankQuery => exact .dropped (card_on_ranges he rfl)
      case marks => exact cardMarks_ranges he
      case monitorEvents => exact .delivered (card_on_ranges he rfl)
      case writeResult => exact cardWriteResult_ranges he
      case writeEnding => exact cardWriteEnding_ranges he
      case finish => exact cardFinish_ranges j
      all_goals exact card_on_ranges he rfl
    · exact .refl s
  all_goals exact .refl s

end

/-! ## The work of each kind of directive -/

section
variable {s : State} {j : DirJob}

theorem readPoints_ranges {n addr : Nat} {s t : State} {o : Option (List CalPoint)}
    (hr : readPoints n addr s = (o, t)) : KeepsRanges s t := by
  have hp {a : Nat} {s t : State} {o : Option Nat} (h : readPoint a s = (o, t)) : KeepsRanges s t := by
    unfold readPoint at h
    split at h
    · exact busRead_ranges h
    · cases h
      exact .refl _
  induction n generalizing addr s o t with
  | zero =>
    cases hr
    exact .refl _
  | succ n ih =>
    unfold readPoints at hr
    split at hr <;> rename_i hone <;> have h1 := hp hone
    · cases hr
      exact h1
    · split at hr <;> rename_i hrest <;> cases hr <;> exact h1.trans (ih hrest)

/-- A load buffer replaced while no load stands at its effect. -/
theorem buffered_ranges (ps : List CalPoint) (he : ∀ j, s.ce.engine = .directive j → j.next ≠ .effect) :
    KeepsRanges s (buffered ps s) :=
  { KeepsRanges.refl s with
    contexts hs hc := ⟨⟨hs.1, fun j _ ⟨hj, hn, _⟩ => absurd hn (he j hj)⟩, hc⟩ }

/-- The preparation of a load keeps the ranges, and leaves in the buffer, when it decides no refusal, mireds in range
(R62 to R64). -/
theorem prepareLoad_ranges (p : Nat) (he : ∀ j, s.ce.engine = .directive j → j.next ≠ .effect) :
    KeepsRanges s (prepareLoad p s).2
      ∧ ((prepareLoad p s).1 = none → ∀ q ∈ (prepareLoad p s).2.cs.loadBuffer, q.mired ≤ 16383) := by
  by_cases hcount : field p 4 2 < 2 ∨ 12 < field p 4 2
  · rw [prepareLoad_badCount hcount]
    exact ⟨.refl s, nofun⟩
  · rw [prepareLoad_counted (by omega) (by omega)]
    generalize hr : readPoints (field p 4 2) (field p 0 4) s = r
    obtain ⟨o, t⟩ := r
    have hk := readPoints_ranges hr
    obtain ⟨⟨b, rfl⟩, -⟩ := readPoints_found hr
    have hb (ps : List CalPoint) : KeepsRanges s (buffered ps (s.onBus b)) :=
      hk.trans (buffered_ranges (s := s.onBus b) ps he)
    cases o with
    | none => exact ⟨hb [], nofun⟩
    | some ps =>
      unfold readDecided
      dsimp only
      split
      · rename_i hv
        obtain ⟨hrange, -⟩ := (validPoints_iff ps).1 hv
        refine ⟨hb ps, fun _ q hq => ?_⟩
        obtain ⟨-, -, hm, -⟩ := hrange q hq
        exact hm
      · exact ⟨hb _, nofun⟩

/-- The commit of a load at its effect: the list was in range in the buffer (R64 to R67). -/
theorem commitState_ranges {p : Nat} (h : AtEffect s .loadCalibration p j) : KeepsRanges s (commitState s) :=
  { KeepsRanges.refl s with
    active ha := by
      show ((s.it.contexts.mapIdx fun _ (x : Option Context) =>
        x.map (clampContext (committedStore s.cs))).get s.it.active).isSome = true
      rw [Quad.get_mapIdx, Option.isSome_map]
      exact ha
    contexts hs hc := by
      have hbuffer : ∀ q ∈ (committedStore s.cs).points, q.mired ≤ 16383 := hs.2 j p h
      refine ⟨⟨hbuffer, fun _ _ _ => nofun⟩, fun i x hx => ?_, fun i _ he => ?_⟩
      · change (s.it.contexts.mapIdx fun _ (x : Option Context) =>
        x.map (clampContext (committedStore s.cs))).get i = some x at hx
        rw [Quad.get_mapIdx, Option.map_eq_some_iff] at hx
        obtain ⟨y, hy, rfl⟩ := hx
        rw [clampContext_mired, clampContext_settings]
        exact ⟨intoRange_le hbuffer _, (hc.1 i y hy).2⟩
      · cases i <;> cases he
    age ha := ha.update le_rfl (fun i _ he => by cases i <;> cases he) (fun _ => .inl) fun _ => .inl }

theorem setFilterEffect_ranges (p : Nat) : KeepsRanges s (setFilterEffect p s).2 := by
  unfold setFilterEffect
  split
  · exact .refl s
  · rename_i hle
    exact { KeepsRanges.refl _ with settings := fun h => h.setFilter (Nat.not_lt.1 hle) }

theorem setGradeEffect_ranges (p : Nat) : KeepsRanges s (setGradeEffect p s).2 := by
  unfold setGradeEffect
  split
  · exact .refl s
  · have hmin : clamp 0 4096 (field p 4 2) ≤ 4096 := by
      rw [clamp_zero]
      omega
    exact { KeepsRanges.refl _ with settings := fun h => h.setGrade (by omega) (by omega) hmin }

theorem setTrackingEffect_ranges (p : Nat) : KeepsRanges s (setTrackingEffect p s).2 := by
  unfold setTrackingEffect
  split
  · rename_i i policy _ _
    exact .rewritten
      { KeepsRanges.refl _ with
        active := fun h => h.set_context rfl (.inl rfl)
        contexts := fun hs hc => ⟨hs, hc.set_context (trackedContext_range hs.1 policy p (hc.1 i)) rfl rfl⟩ }
  all_goals exact .refl s

theorem switchContextEffect_ranges (p : Nat) : KeepsRanges s (switchContextEffect p s).2 := by
  unfold switchContextEffect
  split
  · exact .refl s
  · rename_i i _
    split
    · exact .refl s
    · rename_i x hx
      exact .rewritten
        { KeepsRanges.refl _ with
          active := fun h => h.set_context rfl (.inr rfl)
          contexts := fun hs hc => ⟨hs, hc.set_context (x := { x with generation := x.generation + 1 })
            (hc.1 i x hx) rfl rfl⟩ }

theorem setPodEffect_ranges (p : Nat) : KeepsRanges s (setPodEffect p s).2 := by
  have hlen : 1 ≤ clamp 1 256 (field p 2 2) ∧ clamp 1 256 (field p 2 2) ≤ 256 := by
    rw [clamp_one 256 _ (by decide)]
    omega
  exact .rewritten
    { KeepsRanges.refl _ with
      timers := fun h => h.repolled hlen.1 hlen.2
      age := fun h => h.update le_rfl (fun _ _ => .inl) (fun r (e : none = some r) => nomatch e) fun _ => .inl }

theorem setMonitorEffect_ranges (p : Nat) : KeepsRanges s (setMonitorEffect p s).2 := by
  unfold setMonitorEffect
  split
  · exact .rewritten { KeepsRanges.refl _ with counters := fun h => h.set (Nat.two_pow_pos 48) rfl }
  all_goals exact .refl s

theorem bakeLutEffect_ranges (p : Nat) : KeepsRanges s (bakeLutEffect p s).2 := by
  unfold bakeLutEffect
  split
  · exact .refl s
  · split <;> rename_i hr <;> have hk := busRead_ranges hr
    · exact hk
    · exact .headersRewritten (hk.trans { KeepsRanges.refl _ with })

theorem abortBakeEffect_ranges (p : Nat) : KeepsRanges s (abortBakeEffect p s).2 := by
  have hs := swap_ranges s
  unfold abortBakeEffect
  dsimp only
  split
  · exact .headersRewritten (hs.trans { KeepsRanges.refl _ with })
  · exact hs

/-- A directive carried out by its own kind's row. -/
theorem kindBody_effect_ranges (row : Option DirKind) (he : s.ce.engine = .directive j) (hn : j.next = .effect)
    (hk : j.kind = row) (hr : j.result = none) : KeepsRanges s ((kindBody row).effect j.payload s).2 := by
  rcases row with _ | k
  · exact .refl s
  · cases k <;> simp only [kindBody]
    case setOrder =>
      unfold setOrderEffect
      split
      · exact .refl s
      · exact .rewritten { KeepsRanges.refl _ with }
    case setFilter => exact setFilterEffect_ranges _
    case loadCalibration =>
      exact (commitState_ranges ⟨he, hn, hk, rfl, hr⟩).shown (commitEffect_shown j.payload s)
    case setTracking => exact setTrackingEffect_ranges _
    case switchContext => exact switchContextEffect_ranges _
    case setGrade => exact setGradeEffect_ranges _
    case bakeLut => exact bakeLutEffect_ranges _
    case abortBake => exact abortBakeEffect_ranges _
    case setCadence => exact .rewritten { KeepsRanges.refl _ with timers := fun h => h.cadenced _ }
    case setPod => exact setPodEffect_ranges _
    case setMonitor => exact setMonitorEffect_ranges _
    case clearMonitor => exact .rewritten { KeepsRanges.refl _ with counters := fun _ => counterLaw_cleared rfl }
    all_goals exact .rewritten { KeepsRanges.refl _ with }

/-! ## The stages of a directive -/

theorem dirTake_ranges (j : DirJob) : KeepsRanges s (dirTake j s) := by
  unfold dirTake
  split <;> rename_i hr <;> have hr := busRead_ranges hr
  · exact hr.trans (enterFault_ranges _ _)
  · split
    · split <;> rename_i hw <;> have hw := hr.trans (writeFields_ranges hw)
      · exact hw
      · exact hw.trans (putDirJob_ranges nofun)
    · exact hr.trans (fallFree_ranges _ _)

theorem dirReadKind_ranges (j : DirJob) : KeepsRanges s (dirReadKind j s) := by
  unfold dirReadKind
  split <;> rename_i hr <;> have hr := busRead_ranges hr
  · exact hr.trans (enterFault_ranges _ _)
  · exact hr.trans (putDirJob_ranges nofun)

theorem dirReadPayload_ranges (j : DirJob) : KeepsRanges s (dirReadPayload j s) := by
  unfold dirReadPayload
  split
  · exact putDirJob_ranges nofun
  · split <;> rename_i hr <;> exact (readSpans_ranges hr).trans (putDirJob_ranges nofun)

/-- A job moved on, with mireds in range in the buffer where it is a load that stands at its effect. -/
theorem advanceDir_ranges {next : DirStage} {r : Option ResultCode}
    (hl : next = .effect → ∀ j, s.ce.engine = .directive j → j.kind = some .loadCalibration → r = none →
      ∀ q ∈ s.cs.loadBuffer, q.mired ≤ 16383) : KeepsRanges s (advanceDir next r s) := by
  unfold advanceDir
  split
  case h_1 j he => exact putDirJob_ranges fun hn hk hr => hl hn j he hk (Option.or_eq_none_iff.1 hr).1
  all_goals exact .refl s

theorem dirPrepare_ranges (row : Option DirKind) (he : s.ce.engine = .directive j) (hn : j.next = .prepare)
    (hk : j.kind = row) : KeepsRanges s (dirPrepare (kindBody row) j s) := by
  have hne : ∀ j', s.ce.engine = .directive j' → j'.next ≠ .effect := fun j' he' hn' => by
    cases he.symm.trans he'
    cases hn.symm.trans hn'
  have hbody : KeepsRanges s ((kindBody row).prepare j.payload s).2
      ∧ (row = some .loadCalibration → ((kindBody row).prepare j.payload s).1 = none →
          ∀ q ∈ ((kindBody row).prepare j.payload s).2.cs.loadBuffer, q.mired ≤ 16383) := by
    rcases row with _ | k
    · exact ⟨.refl s, nofun⟩
    · cases k
      case loadCalibration =>
        obtain ⟨h1, h2⟩ := prepareLoad_ranges j.payload hne
        exact ⟨h1, fun _ => h2⟩
      all_goals exact ⟨.refl s, nofun⟩
  obtain ⟨hkeep, hbuffer⟩ := hbody
  unfold dirPrepare
  split
  · rename_i hr
    exact putDirJob_ranges fun _ _ (hnone : j.result = none) => by simp [hnone] at hr
  · refine hkeep.trans (advanceDir_ranges fun _ j' he' hk' => hbuffer ?_)
    rcases ((kindBody_keeps row).prepare j.payload s).engine with e | e <;> rw [e] at he'
    · cases he.symm.trans he'
      exact hk.symm.trans hk'
    · cases he'

theorem dirEffect_ranges (row : Option DirKind) (he : s.ce.engine = .directive j) (hn : j.next = .effect)
    (hk : j.kind = row) : KeepsRanges s (dirEffect (kindBody row) j s) := by
  unfold dirEffect
  split
  · exact putDirJob_ranges nofun
  · rename_i hr
    exact (kindBody_effect_ranges row he hn hk (by simpa using hr)).trans (advanceDir_ranges nofun)

/-- What may follow a failed write of a result code (R173). -/
theorem staleEnded_ranges (s : State) : KeepsRanges s (staleEnded s) := by
  have hu : KeepsRanges s { s with freeUses := s.freeUses + 1 } := { KeepsRanges.refl _ with }
  unfold staleEnded
  dsimp only
  split
  · exact hu.trans (busWrite_ranges _ _)
  · exact hu

theorem dirWriteResult_ranges (j : DirJob) : KeepsRanges s (dirWriteResult j s) := by
  unfold dirWriteResult
  split <;> rename_i hw <;> have hw := writeFields_ranges hw
  · exact hw.trans (staleEnded_ranges _)
  · exact hw.trans (putDirJob_ranges nofun)

theorem dirFinish_ranges (j : DirJob) : KeepsRanges s (dirFinish j s) := by
  unfold dirFinish
  split <;> rename_i hw <;> have hw := writeFields_ranges hw
  · exact hw
  · exact ((hw.trans (releaseEngine_ranges _ _)).trans (setCause_ranges _ _)).trans (sweepAndGrant_ranges _)

/-- A stage of a directive job run by the row that goes on with it. -/
theorem dirStage_ranges (row : Option DirKind) (s : State) (st : DirStage)
    (ha : ∀ j, s.ce.engine = .directive j → j.next = st → dirRowApplies row j s = true) :
    KeepsRanges s (dirStage (kindBody row) s st) := by
  by_cases hn : ∀ j, s.ce.engine = .directive j → j.next ≠ st
  · rw [dirStage_skip _ s st hn]
    exact .refl s
  · push Not at hn
    obtain ⟨j, he, rfl⟩ := hn
    replace ha := ha j he rfl
    rw [dirStage_work _ he rfl]
    cases hst : j.next <;> simp only [dirRowApplies, hst, beq_iff_eq] at ha
    case take => exact dirTake_ranges j
    case kind => exact dirReadKind_ranges j
    case payload => exact dirReadPayload_ranges j
    case prepare => exact dirPrepare_ranges row he hst ha
    case effect => exact dirEffect_ranges row he hst ha
    case result => exact dirWriteResult_ranges j
    case finish => exact dirFinish_ranges j

theorem runDirective_ranges (row : Option DirKind) (u : DirStage) (s : State) :
    KeepsRanges s (runDirective row (kindBody row) u s) := by
  rcases runDirective_cases row (kindBody row) s with e | ⟨⟨j, he, ha⟩, e⟩ <;> rw [e u]
  · exact .refl s
  · have hg : GoesOn row 0 s := fun j' e => by
      cases he.symm.trans e
      exact .inl ha
    refine (foldl_reached (Q := fun r t => KeepsRanges s t ∧ GoesOn row r t) (fun t st ⟨hk, hg⟩ => ⟨?_, ?_⟩)
      (DirStage.upTo_eq u).2 ⟨.refl s, hg⟩).1
    · refine hk.trans (dirStage_ranges row t st fun j e hn => (hg j e).resolve_right fun ⟨ht, hp⟩ => ?_)
      rw [← hn, ht] at hp
      cases hp
    · exact dirStage_goesOn (kindBody_keeps row) row t st hg

end

/-! ## Every command -/

/-- The commands that are no directives. -/
theorem exec_plain_ranges (c : Instr) (s t : State) (hc : directiveRowOf c = none) (h : exec c s = .next t) :
    KeepsRanges s t := by
  cases c
  all_goals cases h
  case frameSync => exact frameSync_ranges s
  case retirement => exact retire_ranges s
  case trackerStep => exact trackerStep_ranges s
  case pollExpiry => exact pollExpiry_ranges s
  case settleExpiry => exact settleExpiry_ranges s
  case requestSent => exact requestSent_ranges s
  case replyWindowExpiry => exact replyWindowExpiry_ranges s
  case replyCharacter data parity stop => exact replyCharacter_ranges s _
  case replyGapTimeout => exact replyGapTimeout_ranges s
  case take u => exact foldl_ranges takeStage_ranges _ s
  case cardJob u => exact foldl_ranges cardStage_ranges _ s
  case bakeRow => exact bakeRow_ranges s
  case drainComplete => exact drainComplete_ranges s
  case runSet w => exact runSet_ranges s w
  case runClear w => exact runClear_ranges s w
  case engineReset w => exact engineReset_ranges s w
  case attentionMaskWrite w =>
    cases controlRun w
    · exact runClear_ranges s w
    · exact runSet_ranges s w
  case areaWrite w => exact areaWrite_ranges s w
  case attnWrite w => exact .rewritten { KeepsRanges.refl _ with }
  case registerWriteIgnored r w => exact .refl s
  case deviceReset => exact deviceReset_ranges s
  all_goals cases hc

theorem exec_ranges (c : Instr) (s t : State) (h : exec c s = .next t) : KeepsRanges s t := by
  rcases hc : directiveRowOf c with _ | ⟨row, u⟩
  · exact exec_plain_ranges c s t hc h
  · rw [exec_directive hc h]
    exact runDirective_ranges row u s

theorem step_ranges (s t : State) (h : step s = .next t) : KeepsRanges s t := by
  unfold step at h
  split at h
  · cases h
    exact .refl _
  · rename_i c rest _
    have hp : KeepsRanges s { s with pending := rest } := { KeepsRanges.refl _ with }
    exact hp.trans (exec_ranges c _ t h)

/-- Settles O56: each operation of each command keeps all the ranges; of the store's relations the contexts' range needs
the bound of the points' mireds alone. -/
theorem everyStepKeepsRanges : Obligations.EveryStepKeepsRanges := by
  unfold Obligations.EveryStepKeepsRanges
  intro s t h
  obtain ⟨hmem, htimers, hcounters, hsettings, hmarks, hactive, hcontexts, hcount, hage⟩ := step_ranges s t h
  have hctx (hs : StoreLaw s) (hc : ContextLaw s.it) : ContextLaw t.it := (hcontexts hs.miredBound hc).2
  exact ⟨hmem, htimers, hcounters, hsettings, hmarks, hactive, hctx, hcount, hage⟩

end Sys2Proof.Machine

/-! O11: a frame sync takes the events of earlier advances first (R130, R132): once they are taken, nothing is left to
take. -/

namespace Sys2Proof.Machine

theorem settleDue_settleExpired (c : Ct) : settleDue (settleExpired c) = false := by
  unfold settleExpired
  split
  · rfl
  · exact Bool.eq_false_iff.2 ‹_›

section
variable {s : State}

/-- A shown step that ends in RUNNING began there. -/
theorem Shown.running {P : Nat → Prop} {t : State} (h : Shown P s t) (hr : t.aiu.run = .running) :
    s.aiu.run = .running := by
  obtain ⟨c, -, rfl⟩ | ⟨-, -, k, c, -, rfl⟩ := h
  · exact hr
  · cases hr

theorem Shown.ct_eq {P : Nat → Prop} {t : State} (h : Shown P s t) : t.ct = s.ct := by
  obtain ⟨c, -, rfl⟩ | ⟨-, -, k, c, -, rfl⟩ := h <;> rfl

/-- A step leaves the timers alone. -/
theorem takeStep_ct (s : State) : (takeStep s).ct = s.ct := by
  cases hx : s.it.contexts.get s.it.active with
  | none =>
    unfold takeStep
    rw [hx]
  | some x => exact (takeStep_shown s x hx).ct_eq

theorem trackerStep_not_due (hr : s.aiu.run = .running) : (trackerStep s).ct.trackerDue = false := by
  cases hd : s.ct.trackerDue
  · rwa [trackerStep_idle (.inl hd)]
  · rw [trackerStep_taken hd hr, takeStep_ct]
    rfl

/-- What a poll expiry that is taken leaves of the timers (R143). -/
theorem pollExpiry_ct (hr : s.aiu.run = .running) : (pollExpiry s).ct = { s.ct with pollDue := false } := by
  unfold pollExpiry
  split
  · dsimp only
    split
    · rfl
    · exact (rewrite_shown _ _ _).ct_eq
  · rename_i h
    have hd : s.ct.pollDue = false := Bool.eq_false_iff.2 fun hd => h ⟨hd, hr⟩
    rw [← hd]

theorem pollExpiry_running (hr : (pollExpiry s).aiu.run = .running) : s.aiu.run = .running := by
  unfold pollExpiry at hr
  split at hr
  · rename_i h
    exact h.2
  · exact hr

/-- Once the due events are taken, in RUNNING throughout, none is left (R132). -/
theorem takeDue_nothingDue (hs : s.aiu.run = .running) (ht : (takeDue s).aiu.run = .running) :
    NothingDue (takeDue s) := by
  have hsettle := settleExpiry_shown (pollExpiry (trackerStep s))
  have hpoll : (pollExpiry (trackerStep s)).aiu.run = .running := hsettle.running ht
  have htracker : (trackerStep s).aiu.run = .running := pollExpiry_running hpoll
  have hct : (takeDue s).ct = settleExpired { (trackerStep s).ct with pollDue := false } := by
    rw [← pollExpiry_ct htracker]
    exact hsettle.ct_eq
  have hkept (c : Ct) : (settleExpired c).trackerDue = c.trackerDue ∧ (settleExpired c).pollDue = c.pollDue := by
    unfold settleExpired
    split <;> exact ⟨rfl, rfl⟩
  unfold NothingDue
  rw [hct]
  exact ⟨(hkept _).1.trans (trackerStep_not_due hs), (hkept _).2, settleDue_settleExpired _⟩

/-- A frame sync after the due events are taken is the frame sync that takes them. -/
theorem frameSync_takeDue (hs : s.aiu.run = .running) : frameSync (takeDue s) = frameSync s := by
  by_cases ht : (takeDue s).aiu.run = .running
  · unfold frameSync
    rw [takeDue_of_nothingDue (takeDue_nothingDue hs ht), if_pos hs, if_pos ht]
  · unfold frameSync
    rw [if_pos hs]
    simp only [if_neg ht]

end

/-- Settles O11: what the three commands leave in turn is what the frame sync makes of the events due, and it finds none
of them again. -/
theorem frameSyncTakesOverdueFirst : Obligations.FrameSyncTakesOverdueFirst := by
  unfold Obligations.FrameSyncTakesOverdueFirst
  intro s t1 t2 t3 hs h1 h2 h3
  cases h1
  cases h2
  cases h3
  exact congrArg Host.Outcome.next (frameSync_takeDue hs).symm

end Sys2Proof.Machine

/-! O40 and O41: SET_CADENCE (R133, R134) and SET_POD (R135, R151). -/

namespace Sys2Proof.Machine

/-! ## SET_CADENCE -/

/-- A settle timer whose expiry is due counts as stopped (R132). -/
theorem settleExpired_eq (c : Ct) :
    settleExpired c = { c with settleRunning := c.settleRunning && c.settleCount != 0 } := by
  obtain ⟨tl, tc, pl, pc, sl, rt, run, count, td, pd⟩ := c
  unfold settleExpired settleDue
  cases run
  · rfl
  · rcases count with _ | count <;> rfl

/-- The settle timer under a new length: stopped by 0 and reloaded while it runs (R134). -/
theorem resettled_eq (c : Ct) (len : Nat) :
    resettled c len = { c with
      settleLen := len,
      settleRunning := if len = c.settleLen then c.settleRunning else c.settleRunning && len != 0,
      settleCount := if len = c.settleLen ∨ c.settleRunning = false then c.settleCount else len } := by
  unfold resettled
  by_cases hlen : len = c.settleLen
  · simp only [hlen, true_or, if_true]
  · cases hr : c.settleRunning
    · simp [hlen]
    · by_cases hz : len = 0
      · subst hz
        simp [hlen]
      · simp [hlen, hz]

/-- The timers under a SET_CADENCE payload, length by length (R132 to R134). -/
theorem cadenced_eq (p : Nat) (c : Ct) {n m : Nat} {running : Bool} (hn : n = max 1 (min 64 (field p 0 2)))
    (hm : m = min 255 (field p 2 2)) (hr : running = (c.settleRunning && c.settleCount != 0)) :
    cadenced p c = { c with
      trackerLen := n,
      trackerCount := if n = c.trackerLen then c.trackerCount else n,
      settleLen := m,
      settleRunning := if m = c.settleLen then running else running && m != 0,
      settleCount := if m = c.settleLen ∨ running = false then c.settleCount else m,
      retriggerable := bit (field p 4 2) 0 } := by
  subst hn hm hr
  unfold cadenced
  rw [clamp_one 64 _ (by decide), clamp_zero, resettled_eq, settleExpired_eq]
  rfl

/-- Settles O40: the effect is one update of the timers, described length by length. -/
theorem setCadenceDirective : Obligations.SetCadenceDirective := by
  unfold Obligations.SetCadenceDirective
  intro s p j n m running h hc hn hm hr
  rw [← cadenced_eq p s.ct hn hm hr]
  obtain ⟨b, hw, e⟩ := effect_shown .setCadence (kindBody (some .setCadence)) s { s with ct := cadenced p s.ct } _ p j
    .done (StatusBytes s) h hc rfl rfl rfl h.1 (rewrite_from [.ct] s _ rfl)
  exact ⟨b, hw, congrArg Host.Outcome.next e⟩

/-! ## SET_POD -/

/-- The character in progress of a request is one of its four (R139). -/
theorem characterInProgress_mem (k : ExchangeKind) (n : Nat) :
    characterInProgress k n ∈ (requestChars k).map (BitVec.ofNat 8) := by
  have hlt : (Config.characterInProgress n).val < (requestChars k).length := (Config.characterInProgress n).isLt
  unfold characterInProgress
  rw [List.getD_eq_getElem _ _ hlt]
  exact List.mem_map_of_mem (List.getElem_mem hlt)

/-- A request abandoned while it is sent leaves a character to be finished (R151.1). -/
theorem abandoned_sending {m : Mlc} {k : ExchangeKind} (h : m.exchange = some ⟨k, .sending⟩) :
    abandoned m = { m with exchange := none, finishing := some (characterInProgress k m.abandons),
                           abandons := m.abandons + 1 } := by
  unfold abandoned
  rw [h]

theorem abandoned_not_sending {m : Mlc} (h : ∀ k, m.exchange ≠ some ⟨k, .sending⟩) :
    abandoned m = { m with exchange := none } := by
  unfold abandoned
  split
  · rename_i k hk
    exact absurd hk (h k)
  · rfl
  · rfl
  · rename_i hx
    rw [← hx]

/-- The link that SET_POD leaves, field by field (R151). -/
theorem podSet_eq (enable : Bool) (floor : Nat) (m : Mlc) :
    podSet enable floor m = { m with
      link := if enable then .detect else .off, enable := enable, luxFloor := floor, missCount := 0, reading := none,
      lastMark := none, hold := false, exchange := none, finishing := (abandoned m).finishing,
      abandons := (abandoned m).abandons } := by
  unfold podSet
  rw [abandoned_eq]

/-- Settles O41: the abandonment by the phase of the exchange; the effect is one update of the causes, the link and the
poll timer. -/
theorem setPodDirective : Obligations.SetPodDirective := by
  unfold Obligations.SetPodDirective
  refine ⟨fun m => ⟨fun k hk => ⟨_, ?_, abandoned_sending hk⟩, abandoned_not_sending⟩, fun s p j n h hc hn => ?_⟩
  · have hmem := characterInProgress_mem k m.abandons
    cases k <;> exact hmem
  rw [← podSet_eq]
  obtain ⟨b, hw, e⟩ := effect_shown .setPod (kindBody (some .setPod)) s
    { s with
      aiu := { s.aiu with causes := podCauses s.mlc.hold s.aiu.causes },
      mlc := podSet (bit (field p 0 2) 0) (field p 4 2) s.mlc,
      ct := repolled s.ct (clamp 1 256 (field p 2 2)) } _ p j
    .done (StatusBytes s) h hc rfl rfl rfl h.1 (rewrite_from [.aiu, .ct, .mlc] s _ rfl)
  rw [clamp_one 256 _ (by decide), ← hn] at e
  exact ⟨b, hw, congrArg Host.Outcome.next e⟩

end Sys2Proof.Machine

/-! What of the part a command leaves alone when it is no event of the pod link: the link itself, the queue and the
count of free values. Each operation of the model that is none of the link's has one equation. -/

namespace Sys2Proof.Machine

/-! ## The link, the queue and the count of free values -/

/-- What no operation touches but the pod link's own, a reset, and the write that may follow a failed result code. -/
def linkSide (s : State) : Mlc × List Instr × Nat := (s.mlc, s.pending, s.freeUses)

theorem Shown.linkSide_eq {P : Nat → Prop} {s t : State} (h : Shown P s t) : linkSide t = linkSide s := by
  obtain ⟨c, -, rfl⟩ | ⟨-, -, k, c, -, rfl⟩ := h <;> rfl

theorem foldl_linkSide {α : Type} {f : State → α → State} (hf : ∀ s a, linkSide (f s a) = linkSide s) (l : List α)
    (s : State) : linkSide (l.foldl f s) = linkSide s :=
  List.foldlRecOn (motive := fun t => linkSide t = linkSide s) l f rfl fun t h a _ => (hf t a).trans h

/-! ## Accesses -/

theorem busRead_linkSide {s t : State} {a n : Nat} {o : Option Nat} (h : busRead s a n = (o, t)) :
    linkSide t = linkSide s := by
  cases busRead_onBus h
  rfl

theorem readSpans_linkSide {s t : State} {a : Nat} {ps : List (Nat × Nat)} {o : Option Nat}
    (h : readSpans s a ps = (o, t)) : linkSide t = linkSide s := by
  obtain ⟨c, rfl⟩ := readSpans_onBus h
  rfl

theorem tilePass_linkSide {f : FilterSettings} {c : Quad Counter} {n addr : Nat} {a : Accumulators} {ts : Quad Nat}
    {s t : State} {o : Option (Accumulators × Quad Nat)} (h : tilePass f c n addr a ts s = (o, t)) :
    linkSide t = linkSide s := by
  obtain ⟨b, rfl⟩ := tilePass_onBus h
  rfl

theorem readPoints_linkSide {n addr : Nat} {s t : State} {o : Option (List CalPoint)}
    (h : readPoints n addr s = (o, t)) : linkSide t = linkSide s := by
  obtain ⟨⟨b, rfl⟩, -⟩ := readPoints_found h
  rfl

@[simp] theorem enterFault_linkSide (k : FaultKind) (s : State) : linkSide (enterFault k s) = linkSide s := by
  obtain ⟨c, -, e⟩ := enterFault_spec k s
  rw [e]
  split <;> rfl

theorem writeFields_linkSide {k : FaultKind} {fs : List Field} {s t : State} {ok : Bool}
    (h : writeFields k fs s = (ok, t)) : linkSide t = linkSide s := by
  obtain ⟨c, rfl | rfl⟩ := writeFields_ends h
  · rfl
  · exact enterFault_linkSide k _

/-! ## Shared operations -/

section
variable (s : State)

@[simp] theorem rewrite_linkSide (os : List Owner) (before : State) : linkSide (rewrite os before s) = linkSide s :=
  (rewrite_shown os before s).linkSide_eq

@[simp] theorem rewriteAll_linkSide : linkSide (rewriteAll s) = linkSide s := (rewriteAll_shown s).linkSide_eq

@[simp] theorem writeHeader_linkSide (b : BankIx) : linkSide (writeHeader b s) = linkSide s :=
  (writeHeader_shown b s).linkSide_eq

@[simp] theorem rewriteHeaders_linkSide (before : State) : linkSide (rewriteHeaders before s) = linkSide s :=
  (rewriteHeaders_shown before s).linkSide_eq

@[simp] theorem setCauseIf_linkSide (p : Bool) (c : Cause) : linkSide (setCauseIf p c s) = linkSide s :=
  (setCauseIf_shown p c s).linkSide_eq

@[simp] theorem setCause_linkSide (c : Cause) : linkSide (setCause c s) = linkSide s :=
  (setCause_shown c s).linkSide_eq

@[simp] theorem deliver_linkSide (e : MonEvent) : linkSide (deliver e s) = linkSide s := (deliver_shown e s).linkSide_eq

@[simp] theorem retire_linkSide : linkSide (retire s) = linkSide s := (retire_shown s).linkSide_eq

@[simp] theorem dropQuery_linkSide : linkSide (dropQuery s) = linkSide s := (dropQuery_shown s).linkSide_eq

@[simp] theorem cutActions_linkSide (cut : Bool) : linkSide (cutActions cut s) = linkSide s :=
  (cutActions_shown cut s).linkSide_eq

@[simp] theorem settleExpiry_linkSide : linkSide (settleExpiry s) = linkSide s := (settleExpiry_shown s).linkSide_eq

@[simp] theorem releaseEngine_linkSide (e : Option (JobEnding × JobKind)) :
    linkSide (releaseEngine e s) = linkSide s :=
  (releaseEngine_shown e s).linkSide_eq

@[simp] theorem swap_linkSide : linkSide (swap s) = linkSide s := by
  refine (swap_shown s).linkSide_eq.trans ?_
  unfold swappedState
  split <;> rfl

@[simp] theorem sweep_linkSide : linkSide (sweep s) = linkSide s := by
  by_cases hr : s.aiu.run = .running
  · rcases sweep_shown s hr with h | ⟨-, h⟩ <;> exact h.linkSide_eq
  · rw [sweep_not_running s hr]

theorem grantedState_linkSide (c : Claimant) : linkSide (grantedState c s) = linkSide s := by
  unfold grantedState
  split
  case h_1 h => split <;> rfl
  case h_2 =>
    split
    · rfl
    · split <;> rfl

@[simp] theorem grant_linkSide : linkSide (grant s) = linkSide s := by
  refine (grant_shown s).linkSide_eq.trans ?_
  unfold afterGrant
  split
  · split
    · rfl
    · exact grantedState_linkSide s _
  · rfl

@[simp] theorem sweepAndGrant_linkSide : linkSide (sweepAndGrant s) = linkSide s := by
  simp only [sweepAndGrant, grant_linkSide, sweep_linkSide]

@[simp] theorem fallFree_linkSide (e : Option (JobEnding × JobKind)) : linkSide (fallFree e s) = linkSide s := by
  simp only [fallFree, sweepAndGrant_linkSide, releaseEngine_linkSide]

/-! ## The tracker, the timers and the run states -/

@[simp] theorem takeStep_linkSide : linkSide (takeStep s) = linkSide s := by
  cases hx : s.it.contexts.get s.it.active with
  | none =>
    unfold takeStep
    rw [hx]
  | some x => exact (takeStep_shown s x hx).linkSide_eq

@[simp] theorem trackerStep_linkSide : linkSide (trackerStep s) = linkSide s := by
  unfold trackerStep
  split
  · exact takeStep_linkSide _
  · rfl

@[simp] theorem countAdvance_linkSide : linkSide (countAdvance s) = linkSide s :=
  (rewrite_linkSide _ _ _).trans (rewrite_linkSide _ _ _)

@[simp] theorem enterRunning_linkSide : linkSide (enterRunning s) = linkSide s := by
  simp only [enterRunning, sweepAndGrant_linkSide, writeHeader_linkSide, rewriteAll_linkSide]
  rfl

theorem runSet_linkSide (w : BitVec 32) : linkSide (runSet w s) = linkSide s := by
  unfold runSet
  dsimp only
  split
  · split
    · rfl
    · exact enterRunning_linkSide _
  · rfl

theorem runClear_linkSide (w : BitVec 32) : linkSide (runClear w s) = linkSide s := by
  unfold runClear
  dsimp only
  split
  · split
    · rfl
    · exact rewrite_linkSide _ _ _
  · rfl

theorem drainComplete_linkSide : linkSide (drainComplete s) = linkSide s := by
  unfold drainComplete
  split <;> rfl

theorem areaWrite_linkSide (w : BitVec 32) : linkSide (areaWrite w s) = linkSide s := by
  unfold areaWrite
  split <;> rfl

theorem attnWrite_linkSide (w : BitVec 32) : linkSide (attnWrite w s) = linkSide s := rewrite_linkSide _ _ _

/-! ## The bake -/

theorem rowBoundary_linkSide (b : BankIx) : linkSide (rowBoundary b s) = linkSide s := by
  unfold rowBoundary
  split
  · split
    · split <;> simp
    · simp
  · split <;> simp

theorem bakeRow_linkSide : linkSide (bakeRow s) = linkSide s := by
  unfold bakeRow
  split
  case h_1 b _ =>
    split
    case h_1 c look _ =>
      split <;> rename_i u hu <;> have hw := writeFields_linkSide hu
      · exact hw
      · exact (rowBoundary_linkSide _ b).trans ((writeHeader_linkSide _ b).trans hw)
    all_goals rfl
  all_goals rfl

/-! ## The take and the card job -/

variable (h : Head) (k : Fin 8)

@[simp] theorem afterEnded_linkSide (e : Ending) (n : Bool) : linkSide (afterEnded h e n s) = linkSide s := by
  unfold afterEnded
  rw [sweepAndGrant_linkSide]
  split <;> simp

@[simp] theorem endCard_linkSide (e : Ending) (n : Bool) : linkSide (endCard h k e n s) = linkSide s := by
  unfold endCard
  split <;> rename_i hw <;> simp [writeFields_linkSide hw]

theorem takeReread_linkSide (j : TakeJob) : linkSide (takeReread h k j s) = linkSide s := by
  unfold takeReread
  split <;> rename_i hread <;> have hr := readSpans_linkSide hread
  · exact (enterFault_linkSide _ _).trans hr
  · split
    · exact hr
    · exact (fallFree_linkSide _ _).trans hr

theorem takeWriteTaken_linkSide (j : TakeJob) : linkSide (takeWriteTaken h k j s) = linkSide s := by
  unfold takeWriteTaken
  split <;> rename_i hw <;> have hw := writeFields_linkSide hw <;> exact hw

theorem takeLastTaken_linkSide (j : TakeJob) : linkSide (takeLastTaken h k j s) = linkSide s := by
  unfold takeLastTaken
  dsimp only
  split
  · rfl
  · exact rewrite_linkSide _ _ _

theorem takeFinish_linkSide (j : TakeJob) : linkSide (takeFinish h k j s) = linkSide s := by
  unfold takeFinish
  split
  · exact endCard_linkSide s h k _ _
  · have hcut := cutActions_linkSide s j.req.cut
    dsimp only
    split
    · exact (rewrite_linkSide _ _ _).trans hcut
    · exact hcut

omit h k in
theorem takeStage_linkSide (st : TakeStage) : linkSide (takeStage s st) = linkSide s := by
  unfold takeStage
  split
  case h_1 h k j _ =>
    split
    · cases st
      case reread => exact takeReread_linkSide s h k j
      case writeTaken => exact takeWriteTaken_linkSide s h k j
      case checks => rfl
      case lastTaken => exact takeLastTaken_linkSide s h k j
      case finish => exact takeFinish_linkSide s h k j
    · rfl
  all_goals rfl

theorem cardCalibration_linkSide (j : CardJob) : linkSide (cardCalibration h k j s) = linkSide s := by
  have hl : linkSide (rewrite [.ciu] s (putLastTaken h j.lastBefore s)) = linkSide s := rewrite_linkSide _ _ _
  unfold cardCalibration
  split
  · rfl
  · dsimp only
    split
    · exact (endCard_linkSide _ h k _ _).trans hl
    all_goals exact hl

theorem cardTilePass_linkSide (j : CardJob) : linkSide (cardTilePass h k j s) = linkSide s := by
  unfold cardTilePass
  split <;> rename_i hp <;> have hr := tilePass_linkSide hp
  · exact (endCard_linkSide _ h k _ _).trans hr
  · exact hr

theorem cardEstimate_linkSide (j : CardJob) : linkSide (cardEstimate h k j s) = linkSide s := by
  unfold cardEstimate
  dsimp only
  split
  · rfl
  · exact rewrite_linkSide _ _ _

theorem cardWriteResult_linkSide (j : CardJob) : linkSide (cardWriteResult h k j s) = linkSide s := by
  unfold cardWriteResult
  split <;> rename_i hw <;> have hw := writeFields_linkSide hw <;> exact hw

theorem cardWriteEnding_linkSide (j : CardJob) : linkSide (cardWriteEnding h k j s) = linkSide s := by
  unfold cardWriteEnding
  split <;> rename_i hw <;> have hw := writeFields_linkSide hw <;> exact hw

theorem cardFinish_linkSide (j : CardJob) : linkSide (cardFinish h k j s) = linkSide s := by
  unfold cardFinish
  split <;> rename_i hw <;> simp [writeFields_linkSide hw]

omit h k in
theorem cardStage_linkSide (st : CardStage) : linkSide (cardStage s st) = linkSide s := by
  unfold cardStage
  split
  case h_1 h k j _ =>
    split
    · cases st
      case calibration => exact cardCalibration_linkSide s h k j
      case tilePass => exact cardTilePass_linkSide s h k j
      case estimate => exact cardEstimate_linkSide s h k j
      case bankQuery => exact dropQuery_linkSide _
      case marks => exact rewrite_linkSide _ _ _
      case monitorEvents => exact deliver_linkSide _ _
      case writeResult => exact cardWriteResult_linkSide s h k j
      case writeEnding => exact cardWriteEnding_linkSide s h k j
      case finish => exact cardFinish_linkSide s h k j
      all_goals rfl
    · rfl
  all_goals rfl

end

/-! ## The stages of a directive, but for its effect and its result code -/

section
variable (s : State)

@[simp] theorem advanceDir_linkSide (next : DirStage) (r : Option ResultCode) :
    linkSide (advanceDir next r s) = linkSide s := by
  unfold advanceDir
  split <;> rfl

variable (j : DirJob)

theorem dirTake_linkSide : linkSide (dirTake j s) = linkSide s := by
  unfold dirTake
  split <;> rename_i hread <;> have hr := busRead_linkSide hread
  · exact (enterFault_linkSide _ _).trans hr
  · split
    · split <;> rename_i hw <;> exact (writeFields_linkSide hw).trans hr
    · exact (fallFree_linkSide _ _).trans hr

theorem dirReadKind_linkSide : linkSide (dirReadKind j s) = linkSide s := by
  unfold dirReadKind
  split <;> rename_i hread <;> have hr := busRead_linkSide hread
  · exact (enterFault_linkSide _ _).trans hr
  · exact hr

theorem dirReadPayload_linkSide : linkSide (dirReadPayload j s) = linkSide s := by
  unfold dirReadPayload
  split
  · rfl
  · split <;> rename_i hr <;> have hr := readSpans_linkSide hr <;> exact hr

theorem dirFinish_linkSide : linkSide (dirFinish j s) = linkSide s := by
  unfold dirFinish
  split <;> rename_i hw <;> simp [writeFields_linkSide hw]

omit j

theorem prepareLoad_linkSide (p : Nat) : linkSide (prepareLoad p s).2 = linkSide s := by
  by_cases hcount : field p 4 2 < 2 ∨ 12 < field p 4 2
  · rw [prepareLoad_badCount hcount]
  · rw [prepareLoad_counted (by omega) (by omega)]
    generalize hr : readPoints (field p 4 2) (field p 0 4) s = r
    obtain ⟨o, t⟩ := r
    refine Eq.trans ?_ (readPoints_linkSide hr)
    cases o with
    | none => rfl
    | some ps =>
      unfold readDecided
      dsimp only
      split <;> rfl

theorem kindBody_prepare_linkSide (row : Option DirKind) (p : Nat) :
    linkSide ((kindBody row).prepare p s).2 = linkSide s := by
  rcases row with _ | k
  · rfl
  · cases k
    case loadCalibration => exact prepareLoad_linkSide s p
    all_goals rfl

theorem dirPrepare_linkSide (j : DirJob) (row : Option DirKind) :
    linkSide (dirPrepare (kindBody row) j s) = linkSide s := by
  unfold dirPrepare
  split
  · rfl
  · exact (advanceDir_linkSide _ _ _).trans (kindBody_prepare_linkSide s row _)

theorem setOrderEffect_linkSide (p : Nat) : linkSide (setOrderEffect p s).2 = linkSide s := by
  unfold setOrderEffect
  split
  · rfl
  · exact rewrite_linkSide _ _ _

theorem setFilterEffect_linkSide (p : Nat) : linkSide (setFilterEffect p s).2 = linkSide s := by
  unfold setFilterEffect
  split <;> rfl

theorem setGradeEffect_linkSide (p : Nat) : linkSide (setGradeEffect p s).2 = linkSide s := by
  unfold setGradeEffect
  split <;> rfl

theorem setTrackingEffect_linkSide (p : Nat) : linkSide (setTrackingEffect p s).2 = linkSide s := by
  unfold setTrackingEffect
  split
  · exact rewrite_linkSide _ _ _
  all_goals rfl

theorem switchContextEffect_linkSide (p : Nat) : linkSide (switchContextEffect p s).2 = linkSide s := by
  unfold switchContextEffect
  split
  · rfl
  · split
    · rfl
    · exact rewrite_linkSide _ _ _

theorem setMonitorEffect_linkSide (p : Nat) : linkSide (setMonitorEffect p s).2 = linkSide s := by
  unfold setMonitorEffect
  split
  · exact rewrite_linkSide _ _ _
  all_goals rfl

theorem bakeLutEffect_linkSide (p : Nat) : linkSide (bakeLutEffect p s).2 = linkSide s := by
  unfold bakeLutEffect
  split
  · rfl
  · split <;> rename_i hread <;> have hr := busRead_linkSide hread
    · exact hr
    · exact (rewriteHeaders_linkSide _ _).trans hr

theorem abortBakeEffect_linkSide (p : Nat) : linkSide (abortBakeEffect p s).2 = linkSide s := by
  unfold abortBakeEffect
  dsimp only
  split
  · exact (rewriteHeaders_linkSide _ _).trans (swap_linkSide s)
  · exact swap_linkSide s

/-- Of the directives SET_POD alone touches the link (R151). -/
theorem kindBody_effect_linkSide {row : Option DirKind} (hr : row ≠ some .setPod) (p : Nat) :
    linkSide ((kindBody row).effect p s).2 = linkSide s := by
  rcases row with _ | k
  · rfl
  · cases k
    case setOrder => exact setOrderEffect_linkSide s p
    case setFilter => exact setFilterEffect_linkSide s p
    case loadCalibration => exact (commitEffect_shown p s).linkSide_eq
    case setTracking => exact setTrackingEffect_linkSide s p
    case switchContext => exact switchContextEffect_linkSide s p
    case setGrade => exact setGradeEffect_linkSide s p
    case bakeLut => exact bakeLutEffect_linkSide s p
    case abortBake => exact abortBakeEffect_linkSide s p
    case setPod => exact absurd rfl hr
    case setMonitor => exact setMonitorEffect_linkSide s p
    all_goals exact rewrite_linkSide _ _ _

end

end Sys2Proof.Machine

/-! O54 and O2: what a command makes of the pod link, the queue and the free values. One relation holds the law of the
link with the number of free values that may be drawn; the numbers add up along the stages of a directive. -/

namespace Sys2Proof.Machine

/-! ## The law of the link (R144 to R146, R149) -/

section
variable {m : Mlc}

/-- A link that is not OFF stays enabled whatever else it becomes (R142). -/
theorem LinkLaw.off_iff (h : LinkLaw m) (hm : m.link ≠ .off) {l : LinkState} (hl : l ≠ .off) :
    l = .off ↔ m.enable = false := by
  obtain ⟨-, -, -, henable, -⟩ := h
  exact iff_of_false hl fun e => hm (henable.2 e)

theorem LinkLaw.kind_iff (h : LinkLaw m) {k : ExchangeKind} {p : ExchangePhase} (hx : m.exchange = some ⟨k, p⟩) :
    (k = .probe ↔ m.link = .detect) ∧ (k = .read ↔ m.link = .linked) := by
  obtain ⟨-, -, hkind, -, -⟩ := h
  exact hkind _ hx

/-- A link with nothing of a pod held and no exchange in flight, in the state its enable gives (R151, R154). -/
theorem linkLaw_of_idle (hl : m.link = if m.enable then .detect else .off) (hn : m.missCount = 0)
    (hh : m.hold = false) (hr : m.reading = none) (hm : m.lastMark = none) (hx : m.exchange = none) : LinkLaw m := by
  refine ⟨hn.trans_le (Nat.zero_le 2), fun _ => ⟨hn, hh, hr, hm⟩, fun _ e => ?_, ?_, fun _ => hx⟩
  · cases hx.symm.trans e
  · rw [hl]
    cases m.enable <;> decide

/-- A miss: counted while LINKED, and the third leaves the link in DETECT with nothing held (R145, R146). -/
theorem LinkLaw.missed (h : LinkLaw m) : LinkLaw (missedMlc m) := by
  obtain ⟨hmiss, hidle, -, henable, -⟩ := id h
  unfold missedMlc
  split
  · rename_i hlose
    simp only [missLoses, Bool.and_eq_true, beq_iff_eq] at hlose
    exact ⟨Nat.zero_le 2, fun _ => ⟨rfl, rfl, rfl, rfl⟩, nofun, h.off_iff (by simp [hlose.1]) nofun, fun _ => rfl⟩
  · rename_i hkeep
    split
    · rename_i hl
      simp only [missLoses, hl, beq_self_eq_true, Bool.true_and, decide_eq_true_eq] at hkeep
      exact ⟨by show m.missCount + 1 ≤ 2; omega, fun hn => absurd hl hn, nofun, henable, fun _ => rfl⟩
    · exact ⟨hmiss, hidle, nofun, henable, fun _ => rfl⟩

/-- A valid PROBE reply finds the pod (R144). -/
theorem LinkLaw.probed (h : LinkLaw m) {p : ExchangePhase} (hx : m.exchange = some ⟨.probe, p⟩) (cs : List RxChar) :
    LinkLaw (probedMlc cs m) := by
  have hl : m.link = .detect := (h.kind_iff hx).1.1 rfl
  exact ⟨Nat.zero_le 2, fun hn => absurd rfl hn, nofun, h.off_iff (by simp [hl]) nofun, fun _ => rfl⟩

/-- A valid READ reply comes while LINKED (R145). -/
theorem LinkLaw.read (h : LinkLaw m) {p : ExchangePhase} (hx : m.exchange = some ⟨.read, p⟩) (cs : List RxChar)
    (stamp : Nat) : LinkLaw (readMlc cs stamp m) := by
  have hl : m.link = .linked := (h.kind_iff hx).2.1 rfl
  obtain ⟨-, -, -, henable, -⟩ := h
  exact ⟨Nat.zero_le 2, fun hn => absurd hl hn, nofun, henable, fun _ => rfl⟩

/-- An exchange moved on to another phase (R140). -/
theorem LinkLaw.phase (h : LinkLaw m) {k : ExchangeKind} {p : ExchangePhase} (hx : m.exchange = some ⟨k, p⟩)
    (q : ExchangePhase) : LinkLaw { m with exchange := some ⟨k, q⟩ } := by
  have hkind := h.kind_iff hx
  obtain ⟨hmiss, hidle, -, henable, hline⟩ := h
  exact ⟨hmiss, hidle, fun x e => by cases e; exact hkind, henable, fun hf => nomatch hx.symm.trans (hline hf)⟩

/-- A poll begins the exchange of the link's state, and takes the character of an earlier request as finished (R143). -/
theorem LinkLaw.begun (h : LinkLaw m) {k : ExchangeKind} (hk : pollBegins m = some k) : LinkLaw (begunMlc k m) := by
  have hkind : (k = .probe ↔ m.link = .detect) ∧ (k = .read ↔ m.link = .linked) := by
    unfold pollBegins at hk
    split at hk <;> cases hk <;> rename_i hl <;> simp [hl]
  obtain ⟨hmiss, hidle, -, henable, -⟩ := h
  exact ⟨hmiss, hidle, fun x e => by cases e; exact hkind, henable, fun hf => absurd rfl hf⟩

theorem LinkLaw.quiet (h : LinkLaw m) : LinkLaw { m with finishing := none } := by
  obtain ⟨hmiss, hidle, hkind, henable, -⟩ := h
  exact ⟨hmiss, hidle, hkind, henable, fun hf => absurd rfl hf⟩

theorem linkLaw_podSet (enable : Bool) (floor : Nat) (m : Mlc) : LinkLaw (podSet enable floor m) :=
  linkLaw_of_idle rfl rfl rfl rfl rfl (abandoned_exchange m)

theorem linkLaw_engineReset (m : Mlc) : LinkLaw (engineResetMlc m) :=
  linkLaw_of_idle (congrArg (if · = true then LinkState.detect else .off) (abandoned_enable m).symm) rfl rfl rfl rfl
    (abandoned_exchange m)

theorem linkLaw_deviceReset (m : Mlc) : LinkLaw (deviceResetMlc m) := linkLaw_of_idle rfl rfl rfl rfl rfl rfl

/-- At most one request is abandoned (R151.1, R154). -/
theorem abandoned_abandons (m : Mlc) :
    m.abandons ≤ (abandoned m).abandons ∧ (abandoned m).abandons ≤ m.abandons + 1 := by
  unfold abandoned
  split
  · exact ⟨Nat.le_succ _, le_rfl⟩
  all_goals exact ⟨le_rfl, Nat.le_succ _⟩

theorem missedMlc_abandons (m : Mlc) : (missedMlc m).abandons = m.abandons := by
  unfold missedMlc
  split
  · rfl
  · split <;> rfl

end

/-! ## The relation -/

/-- The link keeps its law and the queue stays; of the free values at most `e` of R173 (an ENDED after a failed result
code) and at most `c` of R151 (a character in progress) are drawn. -/
structure LinkMove (e c : Nat) (s t : State) : Prop where
  law : LinkLaw s.mlc → LinkLaw t.mlc
  queue : t.pending = s.pending
  enders : s.freeUses ≤ t.freeUses ∧ t.freeUses ≤ s.freeUses + e
  chars : s.mlc.abandons ≤ t.mlc.abandons ∧ t.mlc.abandons ≤ s.mlc.abandons + c

section
variable {s t u : State} {e c e' c' : Nat}

theorem LinkMove.mono (h : LinkMove e c s t) (he : e ≤ e') (hc : c ≤ c') : LinkMove e' c' s t := by
  obtain ⟨hlaw, hqueue, ⟨he1, he2⟩, hc1, hc2⟩ := h
  exact ⟨hlaw, hqueue, ⟨he1, by omega⟩, hc1, by omega⟩

theorem LinkMove.trans (h : LinkMove e c s t) (k : LinkMove e' c' t u) : LinkMove (e + e') (c + c') s u := by
  obtain ⟨hlaw, hqueue, ⟨he1, he2⟩, hc1, hc2⟩ := h
  obtain ⟨klaw, kqueue, ⟨ke1, ke2⟩, kc1, kc2⟩ := k
  exact ⟨klaw ∘ hlaw, kqueue.trans hqueue, ⟨by omega, by omega⟩, by omega, by omega⟩

/-- A new link beside the queue and the count of R173's free values. -/
theorem LinkMove.of_link {m : Mlc} (ht : linkSide t = (m, s.pending, s.freeUses)) (hm : LinkLaw s.mlc → LinkLaw m)
    (hc : s.mlc.abandons ≤ m.abandons ∧ m.abandons ≤ s.mlc.abandons + c) : LinkMove 0 c s t := by
  simp only [linkSide, Prod.mk.injEq] at ht
  obtain ⟨rfl, hqueue, huses⟩ := ht
  exact ⟨hm, hqueue, ⟨huses.ge, huses.le⟩, hc⟩

/-- A new link that abandons no request. -/
theorem LinkMove.of_law {m : Mlc} (ht : linkSide t = (m, s.pending, s.freeUses)) (hm : LinkLaw s.mlc → LinkLaw m)
    (hc : m.abandons = s.mlc.abandons) : LinkMove 0 0 s t :=
  .of_link ht hm ⟨hc.ge, hc.le⟩

theorem LinkMove.of_same (h : linkSide t = linkSide s) : LinkMove 0 0 s t := .of_law h id rfl

theorem LinkMove.refl (s : State) : LinkMove 0 0 s s := .of_same rfl

/-- A change of the link, and what leaves the link alone after it. -/
theorem LinkMove.then_same (h : LinkMove e c s t) (k : linkSide u = linkSide t) : LinkMove e c s u :=
  h.trans (.of_same k)

/-- What leaves the link alone, and a change of the link after it. -/
theorem LinkMove.after_same (h : LinkMove e c t u) (k : linkSide t = linkSide s) : LinkMove e c s u :=
  ((LinkMove.of_same k).trans h).mono (Nat.zero_add e).le (Nat.zero_add c).le

/-- The free values drawn along a run of operations add up. -/
theorem foldl_linkMove {α : Type} {f : State → α → State} {es cs : α → Nat}
    (hf : ∀ s a, LinkMove (es a) (cs a) s (f s a)) (l : List α) (s : State) :
    LinkMove (l.map es).sum (l.map cs).sum s (l.foldl f s) := by
  induction l generalizing s with
  | nil => exact .refl s
  | cons a l ih => exact (hf s a).trans (ih _)

end

/-! ## The pod link -/

section
variable (s : State)

theorem endMiss_linkMove : LinkMove 0 0 s (endMiss s) :=
  .of_law (m := missedMlc s.mlc) (endMiss_shown s).linkSide_eq LinkLaw.missed (missedMlc_abandons s.mlc)

/-- The end of an exchange in flight (R141). -/
theorem judge_linkMove {k : ExchangeKind} {p : ExchangePhase} (hx : s.mlc.exchange = some ⟨k, p⟩) (cs : List RxChar) :
    LinkMove 0 0 s (judge k cs s) := by
  unfold judge
  split
  · cases k
    · exact .of_law (m := probedMlc cs s.mlc) (endProbe_shown cs s).linkSide_eq (·.probed hx cs) rfl
    · exact .of_law (m := readMlc cs s.aiu.frameCount s.mlc) (endRead_shown cs s).linkSide_eq (·.read hx cs _) rfl
  · exact endMiss_linkMove s

theorem putExchange_linkMove {k : ExchangeKind} {p : ExchangePhase} (hx : s.mlc.exchange = some ⟨k, p⟩)
    (q : ExchangePhase) : LinkMove 0 0 s (putExchange (some ⟨k, q⟩) s) :=
  .of_law rfl (·.phase hx q) rfl

theorem takeChar_linkMove {k : ExchangeKind} {p : ExchangePhase} (hx : s.mlc.exchange = some ⟨k, p⟩)
    (cs : List RxChar) : LinkMove 0 0 s (takeChar k cs s) := by
  unfold takeChar
  split
  · exact judge_linkMove s hx cs
  · exact putExchange_linkMove s hx _

theorem requestSent_linkMove : LinkMove 0 0 s (requestSent s) := by
  have hquiet : LinkMove 0 0 s (lineQuiet s) := .of_law rfl LinkLaw.quiet rfl
  unfold requestSent
  split
  case h_1 k hx => exact putExchange_linkMove s hx _
  all_goals exact hquiet

theorem replyWindowExpiry_linkMove : LinkMove 0 0 s (replyWindowExpiry s) := by
  unfold replyWindowExpiry
  split
  · exact endMiss_linkMove s
  all_goals exact .refl s

theorem replyCharacter_linkMove (c : RxChar) : LinkMove 0 0 s (replyCharacter c s) := by
  unfold replyCharacter
  split
  case h_1 hx => exact takeChar_linkMove s hx _
  case h_2 hx => exact takeChar_linkMove s hx _
  all_goals exact .refl s

theorem replyGapTimeout_linkMove : LinkMove 0 0 s (replyGapTimeout s) := by
  unfold replyGapTimeout
  split
  case h_1 hx => exact judge_linkMove s hx _
  all_goals exact .refl s

theorem pollExpiry_linkMove : LinkMove 0 0 s (pollExpiry s) := by
  unfold pollExpiry
  split
  · dsimp only
    split
    · exact .of_same rfl
    · rename_i k hk
      exact .of_law (m := begunMlc k s.mlc) (rewrite_linkSide _ _ _) (·.begun hk) rfl
  · exact .refl s

theorem frameSync_linkMove : LinkMove 0 0 s (frameSync s) := by
  have hdue : LinkMove 0 0 s (takeDue s) :=
    ((pollExpiry_linkMove _).after_same (trackerStep_linkSide s)).then_same (settleExpiry_linkSide _)
  unfold frameSync
  split
  · dsimp only
    split
    · split
      · exact hdue.then_same (by simp)
      · exact hdue.then_same (by simp)
    · exact hdue
  · exact .refl s

theorem engineReset_linkMove (w : BitVec 32) : LinkMove 0 1 s (engineReset w s) :=
  .of_link (m := engineResetMlc s.mlc) rfl (fun _ => linkLaw_engineReset s.mlc) (abandoned_abandons s.mlc)

theorem deviceReset_linkMove : LinkMove 0 1 s (deviceReset s) :=
  .of_link (m := deviceResetMlc s.mlc) rfl (fun _ => linkLaw_deviceReset s.mlc) (abandoned_abandons s.mlc)

/-! ## The stages of a directive -/

theorem setPodEffect_linkMove (p : Nat) : LinkMove 0 1 s (setPodEffect p s).2 :=
  .of_link (m := podSet (bit (field p 0x00 2) 0) (field p 0x04 2) s.mlc) (rewrite_linkSide _ _ _)
    (fun _ => linkLaw_podSet _ _ s.mlc) (abandoned_abandons s.mlc)

theorem dirEffect_linkMove (row : Option DirKind) (j : DirJob) : LinkMove 0 1 s (dirEffect (kindBody row) j s) := by
  have hbody : LinkMove 0 1 s ((kindBody row).effect j.payload s).2 := by
    by_cases hr : row = some .setPod
    · rw [hr]
      exact setPodEffect_linkMove s _
    · exact (LinkMove.of_same (kindBody_effect_linkSide s hr _)).mono le_rfl (Nat.zero_le 1)
  unfold dirEffect
  split
  · exact ((LinkMove.refl s).mono le_rfl (Nat.zero_le 1)).then_same rfl
  · exact hbody.then_same (advanceDir_linkSide _ _ _)

theorem dirWriteResult_linkMove (j : DirJob) : LinkMove 1 0 s (dirWriteResult j s) := by
  have hstale (t : State) : LinkMove 1 0 t (staleEnded t) := by
    obtain ⟨c, e⟩ := staleEnded_eq t
    rw [e]
    exact ⟨id, rfl, ⟨Nat.le_succ _, le_rfl⟩, le_rfl, le_rfl⟩
  unfold dirWriteResult
  split <;> rename_i hw <;> have hw := writeFields_linkSide hw
  · exact (hstale _).after_same hw
  · exact ((LinkMove.refl s).mono (Nat.zero_le 1) le_rfl).then_same hw

/-- The free values of R173 that a stage may draw. -/
def stageEnders (st : DirStage) : Nat := if st = .result then 1 else 0

/-- The free values of R151 that a stage may draw. -/
def stageChars (st : DirStage) : Nat := if st = .effect then 1 else 0

theorem dirStage_linkMove (row : Option DirKind) (st : DirStage) :
    LinkMove (stageEnders st) (stageChars st) s (dirStage (kindBody row) s st) := by
  by_cases hn : ∀ j, s.ce.engine = .directive j → j.next ≠ st
  · rw [dirStage_skip _ s st hn]
    exact (LinkMove.refl s).mono (Nat.zero_le _) (Nat.zero_le _)
  · push Not at hn
    obtain ⟨j, he, hst⟩ := hn
    rw [dirStage_work _ he hst]
    cases st
    case take => exact .of_same (dirTake_linkSide s j)
    case kind => exact .of_same (dirReadKind_linkSide s j)
    case payload => exact .of_same (dirReadPayload_linkSide s j)
    case prepare => exact .of_same (dirPrepare_linkSide s j row)
    case effect => exact dirEffect_linkMove s row j
    case result => exact dirWriteResult_linkMove s j
    case finish => exact .of_same (dirFinish_linkSide s j)

/-- A directive passes each of its stages once. -/
theorem runDirective_linkMove (row : Option DirKind) (u : DirStage) :
    LinkMove 1 1 s (runDirective row (kindBody row) u s) := by
  rcases runDirective_cases row (kindBody row) s with e | ⟨-, e⟩ <;> rw [e u]
  · exact (LinkMove.refl s).mono (Nat.zero_le 1) (Nat.zero_le 1)
  · have h := foldl_linkMove (fun t => dirStage_linkMove t row) (DirStage.all.take (u.rank + 1)) s
    exact h.mono (by cases u <;> decide) (by cases u <;> decide)

end

/-! ## Every command -/

/-- The commands that are no directives draw no free value of R173, and one of R151 only by a reset. -/
theorem exec_plain_linkMove (c : Instr) (s t : State) (hc : directiveRowOf c = none) (h : exec c s = .next t) :
    LinkMove 0 1 s t := by
  have none_left {t : State} (h : LinkMove 0 0 s t) : LinkMove 0 1 s t := h.mono le_rfl (Nat.zero_le 1)
  have same {t : State} (h : linkSide t = linkSide s) : LinkMove 0 1 s t := none_left (.of_same h)
  cases c
  all_goals cases h
  case frameSync => exact none_left (frameSync_linkMove s)
  case retirement => exact same (retire_linkSide s)
  case trackerStep => exact same (trackerStep_linkSide s)
  case pollExpiry => exact none_left (pollExpiry_linkMove s)
  case settleExpiry => exact same (settleExpiry_linkSide s)
  case requestSent => exact none_left (requestSent_linkMove s)
  case replyWindowExpiry => exact none_left (replyWindowExpiry_linkMove s)
  case replyCharacter data parity stop => exact none_left (replyCharacter_linkMove s _)
  case replyGapTimeout => exact none_left (replyGapTimeout_linkMove s)
  case take u => exact same (foldl_linkSide takeStage_linkSide _ s)
  case cardJob u => exact same (foldl_linkSide cardStage_linkSide _ s)
  case bakeRow => exact same (bakeRow_linkSide s)
  case drainComplete => exact same (drainComplete_linkSide s)
  case runSet w => exact same (runSet_linkSide s w)
  case runClear w => exact same (runClear_linkSide s w)
  case engineReset w => exact engineReset_linkMove s w
  case attentionMaskWrite w =>
    cases controlRun w
    · exact same (runClear_linkSide s w)
    · exact same (runSet_linkSide s w)
  case areaWrite w => exact same (areaWrite_linkSide s w)
  case attnWrite w => exact same (attnWrite_linkSide s w)
  case registerWriteIgnored r w => exact same rfl
  case deviceReset => exact deviceReset_linkMove s
  all_goals cases hc

theorem exec_linkMove (c : Instr) (s t : State) (h : exec c s = .next t) : LinkMove 1 1 s t := by
  rcases hc : directiveRowOf c with _ | ⟨row, u⟩
  · exact (exec_plain_linkMove c s t hc h).mono (Nat.zero_le 1) le_rfl
  · rw [exec_directive hc h]
    exact runDirective_linkMove s row u

/-- No command stops the part. -/
theorem exec_answers (c : Instr) (s : State) : ∃ t, exec c s = .next t := by
  cases c <;> exact ⟨_, rfl⟩

/-- Settles O54: a command moves the link within its law, and the queue is no part of the link. -/
theorem everyStepKeepsLinkLaw : Obligations.EveryStepKeepsLinkLaw := by
  unfold Obligations.EveryStepKeepsLinkLaw
  intro s t hs h
  unfold step at h
  split at h
  · cases h
    exact hs
  · rename_i c rest _
    exact (exec_linkMove c { s with pending := rest } t h).law hs

/-- Settles O2: each command answers, and along its stages at most one free value of each kind is drawn. -/
theorem everyCommandAnswers : Obligations.EveryCommandAnswers := by
  unfold Obligations.EveryCommandAnswers
  intro c s
  obtain ⟨t, h⟩ := exec_answers c s
  obtain ⟨-, hqueue, ⟨he1, he2⟩, hc1, hc2⟩ := exec_linkMove c s t h
  exact ⟨t, h, hqueue, by omega, by omega⟩

end Sys2Proof.Machine

/-! O19 to O22: the two expiries and the settle timer (R131, R132, R143), the exchange on the line (R138 to R140), and
what its end makes of the link (R141, R144 to R149). -/

namespace Sys2Proof.Machine

/-- A shown step, as the obligations write it. -/
theorem Shown.next {P : Nat → Prop} {s u t : State} (h : Shown P u t) (hc : Clear s) (hb : u.bus = s.bus)
    (ha : base u = base s) :
    ∃ b, s.bus.Within P b ∧ (.next t : Host.Outcome State Fault Refusal) = .next (u.onBus b) := by
  have hsame : s.bus.Within P u.bus := by
    rw [hb]
    exact Bus.Within.refl P s.bus
  have hu : Clear u := hc.of_within hsame ha
  obtain ⟨b, hw, e⟩ := h.of_clear hu
  exact ⟨b, hb ▸ hw, congrArg _ e⟩

/-! ## The expiries and the settle timer -/

section
variable {s : State}

theorem pollExpiry_idle (h : s.ct.pollDue = false ∨ s.aiu.run ≠ .running) : pollExpiry s = s := by
  refine if_neg fun ⟨hd, hr⟩ => ?_
  rcases h with h | h
  · cases h.symm.trans hd
  · exact h hr

/-- The link once a due poll expiry is taken (R143). -/
def polledMlc (m : Mlc) : Mlc :=
  { m with exchange := m.exchange.or (openedExchange m.link),
           finishing := if m.exchange = none ∧ m.link ≠ .off then none else m.finishing }

theorem polledMlc_skipped {m : Mlc} (h : pollBegins m = none) : polledMlc m = m := by
  obtain ⟨link, en, floor, miss, cls, rd, last, hold, x, fin, n⟩ := m
  rcases x with _ | x
  · cases link
    case off => rfl
    all_goals cases h
  · rfl

theorem polledMlc_begun {m : Mlc} {k : ExchangeKind} (h : pollBegins m = some k) : polledMlc m = begunMlc k m := by
  obtain ⟨link, en, floor, miss, cls, rd, last, hold, x, fin, n⟩ := m
  rcases x with _ | x
  · cases link <;> cases h <;> rfl
  · cases h

/-- A due poll expiry begins the exchange of the link's state, or is skipped (R143). -/
theorem pollExpiry_shown (hd : s.ct.pollDue = true) (hr : s.aiu.run = .running) :
    Shown (StatusBytes s) { s with ct := { s.ct with pollDue := false }, mlc := polledMlc s.mlc } (pollExpiry s) := by
  unfold pollExpiry
  rw [if_pos ⟨hd, hr⟩]
  dsimp only
  split
  · rename_i hk
    rw [polledMlc_skipped hk]
    exact Shown.refl _ _
  · rename_i k hk
    rw [polledMlc_begun hk]
    exact rewrite_from _ _ _ rfl

end

theorem settleExpired_idle {c : Ct} (h : c.settleRunning = false ∨ c.settleCount ≠ 0) : settleExpired c = c := by
  refine if_neg fun hd => ?_
  obtain ⟨hr, hz⟩ := (settleDue_iff c).1 hd
  rcases h with h | h
  · cases h.symm.trans hr
  · exact h hz

theorem settleExpired_due {c : Ct} (hr : c.settleRunning = true) (hz : c.settleCount = 0) :
    settleExpired c = { c with settleRunning := false } :=
  if_pos ((settleDue_iff c).2 ⟨hr, hz⟩)

/-- Nothing is done without a settle expiry. -/
theorem settleExpiry_idle {s : State} (h : s.ct.settleRunning = false ∨ s.ct.settleCount ≠ 0) : settleExpiry s = s := by
  unfold settleExpiry
  rw [settleExpired_idle h]
  exact rewrite_self _ s

/-- A start that finds the timer stopped, or at a due expiry, which counts as stopped (R131, R132). -/
theorem settleStarted_stopped {c : Ct} (h : c.settleRunning = false ∨ c.settleCount = 0) (hl : 1 ≤ c.settleLen) :
    settleStarted c = { c with settleRunning := true, settleCount := c.settleLen } := by
  have hstop : settleExpired c = { c with settleRunning := false } := by
    cases hr : c.settleRunning
    · rw [settleExpired_idle (.inl hr), ← hr]
    · exact settleExpired_due hr (h.resolve_left (by simp [hr]))
  unfold settleStarted
  rw [hstop]
  exact (if_neg Bool.false_ne_true).trans (if_neg (by show c.settleLen ≠ 0; omega))

theorem settleStarted_zero {c : Ct} (hr : c.settleRunning = false) (hl : c.settleLen = 0) : settleStarted c = c := by
  unfold settleStarted settleTriggered
  rw [settleExpired_idle (.inl hr), hr, hl]
  rfl

/-- A start while the timer runs (R131). -/
theorem settleStarted_running {c : Ct} (hr : c.settleRunning = true) (hn : 1 ≤ c.settleCount) :
    settleStarted c = if c.retriggerable then { c with settleCount := c.settleLen } else c := by
  unfold settleStarted settleTriggered
  rw [settleExpired_idle (.inr (by omega)), if_pos hr]

/-- Settles O19: each expiry by whether it is due, the start of the settle timer by whether it runs. -/
theorem timerExpiries : Obligations.TimerExpiries := by
  unfold Obligations.TimerExpiries
  refine ⟨fun s hc => ⟨fun hd hr => ?_, fun h => ?_, fun hr hz => ?_, fun h => ?_⟩, fun c =>
    ⟨settleStarted_zero, settleStarted_stopped, fun hr hn ht => ?_, fun hr hn ht => ?_⟩⟩
  · exact (pollExpiry_shown hd hr).next hc rfl rfl
  · exact congrArg _ (pollExpiry_idle h)
  · rw [← settleExpired_due hr hz]
    exact (settleExpiry_shown s).next hc rfl rfl
  · exact congrArg _ (settleExpiry_idle h)
  · rw [settleStarted_running hr hn, if_pos ht]
  · rw [settleStarted_running hr hn, ht]
    rfl

/-! ## The line (R138, R139) -/

/-- The ones among the low bits, counted along the line. -/
theorem onesBelow_eq_count (b : BitVec 8) (n : Nat) : onesBelow b n = ((List.range n).map b.getLsbD).count true := by
  induction n with
  | zero => rfl
  | succ n ih =>
    rw [onesBelow, ih, List.range_succ, List.map_append, List.count_append, Nat.add_comm]
    cases hb : b.getLsbD n <;> simp [flag, hb]

theorem parityBit_iff (b : BitVec 8) : parityBit b = true ↔ ((List.range 8).map b.getLsbD).count true % 2 = 0 := by
  rw [parityBit, onesBelow_eq_count, beq_iff_eq]

/-- A parity bit makes the number of ones odd exactly when it is the character's own (R138). -/
theorem ones_odd_iff (b : BitVec 8) (parity : Bool) :
    (((List.range 8).map b.getLsbD).count true + if parity = true then 1 else 0) % 2 = 1 ↔ parity = parityBit b := by
  have h := parityBit_iff b
  generalize ((List.range 8).map b.getLsbD).count true = n at h ⊢
  cases parity
  · rw [if_neg Bool.false_ne_true, eq_comm (a := false), ← Bool.not_eq_true, h]
    omega
  · rw [if_pos rfl, eq_comm (a := true), h]
    omega

theorem lineBits_eq (b : BitVec 8) :
    lineBits b = false :: ((List.range 8).map b.getLsbD ++ [parityBit b] ++ [true]) := by
  simp [lineBits]

/-- The data bits with the parity bit, between the start bit and the stop bit, hold an odd number of ones. -/
theorem lineBits_odd (b : BitVec 8) : (((lineBits b).drop 1).take 9).count true % 2 = 1 := by
  have h9 : ((List.range 8).map b.getLsbD ++ [parityBit b]).length = 9 := by simp
  have hone : [parityBit b].count true = if parityBit b = true then 1 else 0 := by cases parityBit b <;> rfl
  rw [lineBits_eq, List.drop_one, List.tail_cons, List.take_left' h9, List.count_append, hone]
  exact (ones_odd_iff b (parityBit b)).2 rfl

theorem drivenBits_sending {m : Mlc} {k : ExchangeKind} (h : m.exchange = some ⟨k, .sending⟩) :
    drivenBits m = some (requestBits k) := by
  unfold drivenBits
  rw [h]

theorem drivenBits_not_sending {m : Mlc} (h : ∀ k, m.exchange ≠ some ⟨k, .sending⟩) :
    drivenBits m = m.finishing.map lineBits := by
  unfold drivenBits
  split
  · rename_i k hk
    exact absurd hk (h k)
  all_goals rfl

/-! ## The exchange up to its end (R140) -/

section
variable {s : State} {k : ExchangeKind} {cs : List RxChar}

theorem requestSent_sending (h : s.mlc.exchange = some ⟨k, .sending⟩) :
    requestSent s = putExchange (some ⟨k, .awaiting⟩) s := by
  unfold requestSent
  rw [h]

theorem requestSent_not_sending (h : ∀ k, s.mlc.exchange ≠ some ⟨k, .sending⟩) : requestSent s = lineQuiet s := by
  unfold requestSent
  split
  · rename_i k hk
    exact absurd hk (h k)
  all_goals rfl

/-- Neither while idle nor while a request is sent is a reply under way. -/
theorem reply_none_under_way (c : RxChar) (h : s.mlc.exchange = none ∨ s.mlc.exchange = some ⟨k, .sending⟩) :
    replyCharacter c s = s ∧ replyWindowExpiry s = s ∧ replyGapTimeout s = s := by
  unfold replyCharacter replyWindowExpiry replyGapTimeout
  rcases h with h | h <;> rw [h] <;> exact ⟨rfl, rfl, rfl⟩

theorem replyCharacter_awaiting (c : RxChar) (h : s.mlc.exchange = some ⟨k, .awaiting⟩) :
    replyCharacter c s = takeChar k [c] s := by
  unfold replyCharacter
  rw [h]

theorem replyCharacter_receiving (c : RxChar) (h : s.mlc.exchange = some ⟨k, .receiving cs⟩) :
    replyCharacter c s = takeChar k (cs ++ [c]) s := by
  unfold replyCharacter
  rw [h]

theorem replyWindowExpiry_awaiting (h : s.mlc.exchange = some ⟨k, .awaiting⟩) : replyWindowExpiry s = endMiss s := by
  unfold replyWindowExpiry
  rw [h]

theorem replyWindowExpiry_receiving (h : s.mlc.exchange = some ⟨k, .receiving cs⟩) : replyWindowExpiry s = s := by
  unfold replyWindowExpiry
  rw [h]

theorem replyGapTimeout_awaiting (h : s.mlc.exchange = some ⟨k, .awaiting⟩) : replyGapTimeout s = s := by
  unfold replyGapTimeout
  rw [h]

theorem replyGapTimeout_receiving (h : s.mlc.exchange = some ⟨k, .receiving cs⟩) :
    replyGapTimeout s = judge k cs s := by
  unfold replyGapTimeout
  rw [h]

/-- A reply short of its length goes on. -/
theorem takeChar_short (h : cs.length < replyLength k) :
    takeChar k cs s = putExchange (some ⟨k, .receiving cs⟩) s :=
  if_neg (Nat.not_le.2 h)

theorem takeChar_full (h : cs.length = replyLength k) : takeChar k cs s = judge k cs s := if_pos h.ge

theorem one_lt_replyLength (k : ExchangeKind) : 1 < replyLength k := by cases k <;> decide

end

/-- Settles O20: the line by what is sent on it, and each event of the exchange by its phase. -/
theorem replyIsCollected : Obligations.ReplyIsCollected := by
  unfold Obligations.ReplyIsCollected
  refine ⟨fun m => ⟨fun k hk => ?_, fun hn => ⟨fun hf => ?_, fun c hf => ?_⟩⟩,
    fun data => ⟨parityBit data, rfl, lineBits_odd data⟩, fun data parity stop => ⟨rfl, ?_⟩,
    fun data parity stop k cs s =>
      ⟨fun h => ?_, fun h => ?_, fun h => ?_, fun h => ⟨?_, ?_⟩, fun h => ⟨?_, fun hl => ?_⟩⟩⟩
  · rw [drivenBits_sending hk]
    cases k <;> rfl
  · rw [drivenBits_not_sending hn, hf]
    rfl
  · rw [drivenBits_not_sending hn, hf]
    rfl
  · rw [ones_odd_iff]
    simp [rxChar]
  · exact congrArg _ (requestSent_sending h)
  · exact congrArg _ (requestSent_not_sending h)
  · obtain ⟨hchar, hwindow, hgap⟩ := reply_none_under_way (rxChar data parity stop) h
    exact ⟨congrArg _ hchar, congrArg _ hwindow, congrArg _ hgap⟩
  · exact congrArg _ ((replyCharacter_awaiting _ h).trans (takeChar_short (one_lt_replyLength k)))
  · exact congrArg _ (replyGapTimeout_awaiting h)
  · exact congrArg _ (replyWindowExpiry_receiving h)
  · exact congrArg _ ((replyCharacter_receiving _ h).trans (takeChar_short (by simpa using hl)))

/-! ## The end of an exchange (R141) -/

/-- When a reply is valid, test by test (R139, R141). -/
theorem replyValid_iff (k : ExchangeKind) (cs : List RxChar) :
    replyValid k cs = true ↔ cs.length = replyLength k ∧ (∀ c ∈ cs, c.good = true) ∧ charAt cs 0 = syncChar
      ∧ charAt cs 1 = requestKind k + 0x80 ∧ charAt cs 2 = replyLen k
      ∧ ((cs.drop 1).map fun c => c.data.toNat).sum % 256 = 0 ∧ (k = .probe → charAt cs 4 = 1) := by
  unfold replyValid
  simp only [Bool.and_eq_true, beq_iff_eq, List.all_eq_true, and_assoc]
  cases k <;> simp

theorem charAt_of_get {cs : List RxChar} {i : Nat} {c : RxChar} (h : cs[i]? = some c) : charAt cs i = c.data.toNat := by
  simp [charAt, List.getD_eq_getElem?_getD, h]

theorem charAt_beyond {cs : List RxChar} {i : Nat} (h : cs.length ≤ i) : charAt cs i = 0 :=
  List.getD_eq_default _ _ (by simpa using h)

/-- A reply that a gap ends short of its length is a miss. -/
theorem replyValid_short {k : ExchangeKind} {cs : List RxChar} (h : cs.length < replyLength k) :
    replyValid k cs = false :=
  Bool.eq_false_iff.2 fun hv => h.ne ((replyValid_iff k cs).1 hv).1

/-- The state after an ended reply is judged (R141). -/
def judgedState (k : ExchangeKind) (cs : List RxChar) (s : State) : State :=
  if replyValid k cs then
    match k with
    | .probe => probedState cs s
    | .read => readState cs s
  else missedState s

theorem judgedState_kept (k : ExchangeKind) (cs : List RxChar) (s : State) :
    (judgedState k cs s).bus = s.bus ∧ base (judgedState k cs s) = base s := by
  unfold judgedState
  split
  · cases k <;> exact ⟨rfl, rfl⟩
  · exact ⟨rfl, rfl⟩

theorem judge_shown (k : ExchangeKind) (cs : List RxChar) (s : State) :
    Shown (StatusBytes s) (judgedState k cs s) (judge k cs s) := by
  unfold judge judgedState
  split
  · cases k
    · exact endProbe_shown cs s
    · exact endRead_shown cs s
  · exact endMiss_shown s

theorem judge_next (k : ExchangeKind) (cs : List RxChar) {s : State} (hc : Clear s) :
    ∃ b, s.bus.Within (StatusBytes s) b
      ∧ (.next (judge k cs s) : Host.Outcome State Fault Refusal) = .next ((judgedState k cs s).onBus b) :=
  (judge_shown k cs s).next hc (judgedState_kept k cs s).1 (judgedState_kept k cs s).2

/-- Settles O21: the tests of a valid reply, and the three ends: by the last character, by the window, by a gap. -/
theorem replyIsJudged : Obligations.ReplyIsJudged := by
  unfold Obligations.ReplyIsJudged
  refine ⟨fun k cs => ?_, fun cs i => ⟨fun c => charAt_of_get, charAt_beyond⟩, fun data parity stop k cs s hc =>
    ⟨fun h hl => ?_, fun h => ?_, fun h hl => ?_⟩⟩
  · rw [replyValid_iff]
    cases k <;> rfl
  · have he : replyCharacter (rxChar data parity stop) s = judge k (cs ++ [rxChar data parity stop]) s :=
      (replyCharacter_receiving _ h).trans (takeChar_full (by simpa using hl))
    show ∃ b, _ ∧ (.next (replyCharacter _ s) : Host.Outcome State Fault Refusal) = _
    rw [he]
    exact judge_next k _ hc
  · show ∃ b, _ ∧ (.next (replyWindowExpiry s) : Host.Outcome State Fault Refusal) = _
    rw [replyWindowExpiry_awaiting h]
    exact (endMiss_shown s).next hc rfl rfl
  · show ∃ b, _ ∧ (.next (replyGapTimeout s) : Host.Outcome State Fault Refusal) = _
    have hmiss : judgedState k cs s = missedState s := if_neg (by simp [replyValid_short hl])
    rw [replyGapTimeout_receiving h, ← hmiss]
    exact judge_next k cs hc

/-! ## What the end makes of the link (R144 to R149) -/

section
variable {m : Mlc}

theorem missLoses_iff (m : Mlc) : missLoses m = true ↔ m.link = .linked ∧ 2 ≤ m.missCount := by
  simp [missLoses]

theorem missedMlc_counted (hl : m.link = .linked) (hn : m.missCount < 2) :
    missedMlc m = { m with exchange := none, missCount := m.missCount + 1 } := by
  unfold missedMlc
  rw [if_neg fun h => Nat.not_le.2 hn ((missLoses_iff m).1 h).2, if_pos hl]

theorem missedMlc_lost (hl : m.link = .linked) (hn : 2 ≤ m.missCount) :
    missedMlc m = { m with exchange := none, link := .detect, missCount := 0, reading := none, lastMark := none,
                           hold := false } :=
  if_pos ((missLoses_iff m).2 ⟨hl, hn⟩)

theorem missedMlc_not_linked (hl : m.link ≠ .linked) : missedMlc m = { m with exchange := none } := by
  unfold missedMlc
  rw [if_neg fun h => hl ((missLoses_iff m).1 h).1, if_neg hl]

end

/-- A reading under the sequence held is not taken (R147). -/
theorem storedReading_same {held : Option Reading} {r : Reading} (h : ∃ x, held = some x ∧ x.sequence = r.sequence) :
    storedReading held r = held := by
  obtain ⟨x, rfl, hx⟩ := h
  exact if_pos hx

theorem storedReading_new {held : Option Reading} {r : Reading} (h : ∀ x, held = some x → x.sequence ≠ r.sequence) :
    storedReading held r = some r := by
  cases held with
  | none => rfl
  | some x => exact if_neg (h x rfl)

/-- The presses reported lead from the count held to the count of the reply (R148). -/
theorem newMarks_some {last count : Nat} (hl : last < 256) (hc : count < 256) :
    newMarks (some last) count < 256 ∧ (last + newMarks (some last) count) % 256 = count := by
  simp only [newMarks]
  omega

/-- A pending count saturates (R92). -/
theorem addMarks_eq (n m : Nat) : addMarks n m = if 255 < m + n then 255 else m + n := by
  unfold addMarks
  split <;> omega

/-- Settles O22: a miss by the link and its count, a READ by the sequence of its reading. -/
theorem linkAfterAReply : Obligations.LinkAfterAReply := by
  unfold Obligations.LinkAfterAReply
  refine ⟨fun m cs stamp => ⟨missedMlc_counted, missedMlc_lost, missedMlc_not_linked, rfl, fun r hr hs => ?_,
    fun hn => ?_⟩, fun _ => rfl, fun _ _ => newMarks_some, addMarks_eq⟩
  · unfold readMlc
    rw [storedReading_same ⟨r, hr, hs⟩]
    rfl
  · unfold readMlc
    rw [storedReading_new hn]
    rfl

end Sys2Proof.Machine

/-! O58: what a command makes of the monitor block. Of all the commands only SET_MONITOR, CLEAR_MONITOR and a device
reset touch a counter otherwise than by an event, and an event does nothing to a frozen counter (R157, R161). -/

namespace Sys2Proof.Machine

/-! ## The moves of the monitor block -/

/-- One move of the monitor block that replaces no counter: an event handed to the counters (R157), a CUT card that
passes intake, or SET_FREEZE (R161). -/
inductive MonMove : Mon → Mon → Prop where
  | event (e : MonEvent) (m : Mon) : MonMove m (monAfter e m)
  | cut (m : Mon) : MonMove m (cutMon m)
  | freezeOnCut (b : Bool) (m : Mon) : MonMove m { m with freezeOnCut := b }

/-- Such moves lead from the monitor block of the one state to that of the other. -/
def MonMoves (s t : State) : Prop := Relation.ReflTransGen MonMove s.mon t.mon

/-- The counters stand frozen at the values `q`. -/
def FrozenAt (q : Quad Counter) (m : Mon) : Prop := m.counters = q ∧ m.frozen = true

theorem Quad.mapIdx_id {α : Type} (t : Quad α) : t.mapIdx (fun _ a => a) = t := rfl

/-- A counter that is off, is frozen or is not served by the event does not evaluate it (R157). -/
theorem counterAfter_idle {frozen : Bool} {e : MonEvent} {i : Fin 4} {c : Counter}
    (h : c.settings.enable = false ∨ frozen = true ∨ amount i c.settings e = none) : counterAfter frozen e i c = c := by
  unfold counterAfter
  split
  · rename_i hon
    rcases h with h | h | h
    · exact nomatch h.symm.trans hon.1
    · exact nomatch h.symm.trans hon.2
    · rw [h]
  · rfl

theorem MonMove.frozenAt {m n : Mon} (h : MonMove m n) {q : Quad Counter} (hm : FrozenAt q m) : FrozenAt q n := by
  obtain ⟨hq, hf⟩ := hm
  cases h with
  | event e =>
    refine ⟨?_, hf⟩
    have hsame : counterAfter m.frozen e = fun _ c => c := funext₂ fun _ _ => counterAfter_idle (.inr (.inl hf))
    show m.counters.mapIdx (counterAfter m.frozen e) = q
    rw [hsame, Quad.mapIdx_id, hq]
  | cut => exact ⟨hq, by rw [cutMon, hf, Bool.true_or]⟩
  | freezeOnCut b => exact ⟨hq, hf⟩

theorem MonMoves.frozenAt {s t : State} (h : MonMoves s t) {q : Quad Counter} (hs : FrozenAt q s.mon) :
    FrozenAt q t.mon := by
  unfold MonMoves at h
  generalize t.mon = n at h ⊢
  induction h with
  | refl => exact hs
  | tail _ h ih => exact h.frozenAt ih

theorem MonMoves.refl (s : State) : MonMoves s s := Relation.ReflTransGen.refl

theorem MonMoves.trans {s t u : State} (h : MonMoves s t) (k : MonMoves t u) : MonMoves s u :=
  Relation.ReflTransGen.trans h k

theorem MonMoves.of_move {s t : State} (h : MonMove s.mon t.mon) : MonMoves s t := .single h

theorem MonMoves.of_eq {s t : State} (h : t.mon = s.mon) : MonMoves s t := by
  unfold MonMoves
  rw [h]

/-- Moves, and what leaves the monitor block alone after them. -/
theorem MonMoves.then_eq {s t u : State} (h : MonMoves s t) (k : u.mon = t.mon) : MonMoves s u := h.trans (.of_eq k)

theorem Shown.mon_eq {P : Nat → Prop} {s t : State} (h : Shown P s t) : t.mon = s.mon := by
  obtain ⟨c, -, rfl⟩ | ⟨-, -, k, c, -, rfl⟩ := h <;> rfl

theorem foldl_monMoves {α : Type} {f : State → α → State} (hf : ∀ s a, MonMoves s (f s a)) (l : List α) (s : State) :
    MonMoves s (l.foldl f s) :=
  List.foldlRecOn (motive := MonMoves s) l f (.refl s) fun t h a _ => h.trans (hf t a)

/-! ## Accesses -/

theorem busRead_mon {s t : State} {a n : Nat} {o : Option Nat} (h : busRead s a n = (o, t)) : t.mon = s.mon := by
  cases busRead_onBus h
  rfl

theorem readSpans_mon {s t : State} {a : Nat} {ps : List (Nat × Nat)} {o : Option Nat}
    (h : readSpans s a ps = (o, t)) : t.mon = s.mon := by
  obtain ⟨c, rfl⟩ := readSpans_onBus h
  rfl

@[simp] theorem enterFault_mon (k : FaultKind) (s : State) : (enterFault k s).mon = s.mon := by
  obtain ⟨c, -, e⟩ := enterFault_spec k s
  rw [e]
  split <;> rfl

theorem writeFields_mon {k : FaultKind} {fs : List Field} {s t : State} {ok : Bool}
    (h : writeFields k fs s = (ok, t)) : t.mon = s.mon := by
  obtain ⟨c, rfl | rfl⟩ := writeFields_ends h
  · rfl
  · exact enterFault_mon k _

/-! ## Shared operations -/

section
variable (s : State)

@[simp] theorem rewrite_mon (os : List Owner) (before : State) : (rewrite os before s).mon = s.mon :=
  (rewrite_shown os before s).mon_eq

@[simp] theorem rewriteAll_mon : (rewriteAll s).mon = s.mon := (rewriteAll_shown s).mon_eq

@[simp] theorem writeHeader_mon (b : BankIx) : (writeHeader b s).mon = s.mon := (writeHeader_shown b s).mon_eq

@[simp] theorem rewriteHeaders_mon (before : State) : (rewriteHeaders before s).mon = s.mon :=
  (rewriteHeaders_shown before s).mon_eq

@[simp] theorem setCauseIf_mon (p : Bool) (c : Cause) : (setCauseIf p c s).mon = s.mon :=
  (setCauseIf_shown p c s).mon_eq

@[simp] theorem setCause_mon (c : Cause) : (setCause c s).mon = s.mon := (setCause_shown c s).mon_eq

@[simp] theorem retire_mon : (retire s).mon = s.mon := (retire_shown s).mon_eq

@[simp] theorem dropQuery_mon : (dropQuery s).mon = s.mon := (dropQuery_shown s).mon_eq

@[simp] theorem releaseEngine_mon (e : Option (JobEnding × JobKind)) : (releaseEngine e s).mon = s.mon :=
  (releaseEngine_shown e s).mon_eq

@[simp] theorem swap_mon : (swap s).mon = s.mon := by
  refine (swap_shown s).mon_eq.trans ?_
  unfold swappedState
  split <;> rfl

@[simp] theorem sweep_mon : (sweep s).mon = s.mon := by
  by_cases hr : s.aiu.run = .running
  · rcases sweep_shown s hr with h | ⟨-, h⟩ <;> exact h.mon_eq
  · rw [sweep_not_running s hr]

theorem grantedState_mon (c : Claimant) : (grantedState c s).mon = s.mon := by
  unfold grantedState
  split
  case h_1 => split <;> rfl
  case h_2 =>
    split
    · rfl
    · split <;> rfl

@[simp] theorem grant_mon : (grant s).mon = s.mon := by
  refine (grant_shown s).mon_eq.trans ?_
  unfold afterGrant
  split
  · split
    · rfl
    · exact grantedState_mon s _
  · rfl

@[simp] theorem sweepAndGrant_mon : (sweepAndGrant s).mon = s.mon := by
  rw [sweepAndGrant, grant_mon, sweep_mon]

@[simp] theorem fallFree_mon (e : Option (JobEnding × JobKind)) : (fallFree e s).mon = s.mon := by
  rw [fallFree, sweepAndGrant_mon, releaseEngine_mon]

theorem deliveredState_monMoves (e : MonEvent) : MonMoves s (deliveredState e s) := .of_move (.event e s.mon)

theorem deliver_monMoves (e : MonEvent) : MonMoves s (deliver e s) :=
  (deliveredState_monMoves s e).then_eq (deliver_shown e s).mon_eq

theorem cutActions_monMoves (cut : Bool) : MonMoves s (cutActions cut s) := by
  have hcut : MonMoves s (cutState cut s) := by
    cases cut
    · exact .refl s
    · exact .of_move (.cut s.mon)
  exact hcut.then_eq (cutActions_shown cut s).mon_eq

/-! ## The tracker, the link and the timers -/

theorem takeStep_monMoves : MonMoves s (takeStep s) := by
  cases hx : s.it.contexts.get s.it.active with
  | none =>
    unfold takeStep
    rw [hx]
    exact .refl s
  | some x =>
    have hstep := deliveredState_monMoves (steppedState x (decideStep x s) s) (stepEvent (decideStep x s))
    exact hstep.then_eq (takeStep_shown s x hx).mon_eq

theorem trackerStep_monMoves : MonMoves s (trackerStep s) := by
  unfold trackerStep
  split
  · exact takeStep_monMoves { s with ct := { s.ct with trackerDue := false } }
  · exact .refl s

theorem endMiss_monMoves : MonMoves s (endMiss s) :=
  MonMoves.then_eq (t := missedState s) (.of_move (.event .podMiss s.mon)) (endMiss_shown s).mon_eq

theorem judge_monMoves (k : ExchangeKind) (cs : List RxChar) : MonMoves s (judge k cs s) := by
  unfold judge
  split
  · cases k
    · exact .of_eq (endProbe_shown cs s).mon_eq
    · exact .of_eq (endRead_shown cs s).mon_eq
  · exact endMiss_monMoves s

theorem takeChar_monMoves (k : ExchangeKind) (cs : List RxChar) : MonMoves s (takeChar k cs s) := by
  unfold takeChar
  split
  · exact judge_monMoves s k cs
  · exact .refl s

theorem requestSent_mon : (requestSent s).mon = s.mon := by
  unfold requestSent
  split <;> rfl

theorem replyWindowExpiry_monMoves : MonMoves s (replyWindowExpiry s) := by
  unfold replyWindowExpiry
  split
  · exact endMiss_monMoves s
  all_goals exact .refl s

theorem replyCharacter_monMoves (c : RxChar) : MonMoves s (replyCharacter c s) := by
  unfold replyCharacter
  split
  · exact takeChar_monMoves s _ _
  · exact takeChar_monMoves s _ _
  all_goals exact .refl s

theorem replyGapTimeout_monMoves : MonMoves s (replyGapTimeout s) := by
  unfold replyGapTimeout
  split
  · exact judge_monMoves s _ _
  all_goals exact .refl s

theorem pollExpiry_mon : (pollExpiry s).mon = s.mon := by
  unfold pollExpiry
  split
  · dsimp only
    split
    · rfl
    · exact rewrite_mon _ _ _
  · rfl

theorem settleExpiry_mon : (settleExpiry s).mon = s.mon := (settleExpiry_shown s).mon_eq

theorem countAdvance_mon : (countAdvance s).mon = s.mon := (rewrite_mon _ _ _).trans (rewrite_mon _ _ _)

theorem frameSync_monMoves : MonMoves s (frameSync s) := by
  have hdue : MonMoves s (takeDue s) :=
    (trackerStep_monMoves s).then_eq ((settleExpiry_mon _).trans (pollExpiry_mon _))
  unfold frameSync
  split
  · dsimp only
    split
    · split
      · exact hdue.then_eq (by rw [sweepAndGrant_mon, retire_mon, swap_mon, countAdvance_mon])
      · exact hdue.then_eq (sweepAndGrant_mon _)
    · exact hdue
  · exact .refl s

/-! ## The run states and the bake -/

theorem enterRunning_mon : (enterRunning s).mon = s.mon := by
  simp only [enterRunning, sweepAndGrant_mon, writeHeader_mon, rewriteAll_mon]

theorem runSet_mon (w : BitVec 32) : (runSet w s).mon = s.mon := by
  unfold runSet
  dsimp only
  split
  · split
    · rfl
    · exact enterRunning_mon _
  · rfl

theorem runClear_mon (w : BitVec 32) : (runClear w s).mon = s.mon := by
  unfold runClear
  dsimp only
  split
  · split
    · rfl
    · exact rewrite_mon _ _ _
  · rfl

theorem drainComplete_mon : (drainComplete s).mon = s.mon := by
  unfold drainComplete
  split <;> rfl

theorem areaWrite_mon (w : BitVec 32) : (areaWrite w s).mon = s.mon := by
  unfold areaWrite
  split <;> rfl

theorem rowBoundary_mon (b : BankIx) : (rowBoundary b s).mon = s.mon := by
  unfold rowBoundary
  split
  · split
    · split <;> simp
    · simp
  · split <;> simp

theorem bakeRow_mon : (bakeRow s).mon = s.mon := by
  unfold bakeRow
  split
  case h_1 b _ =>
    split
    case h_1 c look _ =>
      split <;> rename_i hu <;> have hw := writeFields_mon hu
      · exact hw
      · exact (rowBoundary_mon _ b).trans ((writeHeader_mon _ b).trans hw)
    all_goals rfl
  all_goals rfl

/-! ## The take and the card job -/

variable (h : Head) (k : Fin 8)

/-- A card ended LATE is an event of the counters (R159). -/
theorem afterEnded_monMoves (e : Ending) (n : Bool) : MonMoves s (afterEnded h e n s) := by
  have hc : (setCauseIf n .card (releaseEngine (some (cardEnding e, .card)) s)).mon = s.mon := by
    rw [setCauseIf_mon, releaseEngine_mon]
  unfold afterEnded
  refine MonMoves.then_eq ?_ (sweepAndGrant_mon _)
  split
  · exact (MonMoves.of_eq hc).trans (deliver_monMoves _ _)
  · exact .of_eq hc

theorem endCard_monMoves (e : Ending) (n : Bool) : MonMoves s (endCard h k e n s) := by
  unfold endCard
  split <;> rename_i hw <;> have hw := MonMoves.of_eq (writeFields_mon hw)
  · exact hw
  · exact hw.trans (afterEnded_monMoves _ h e n)

theorem takeReread_mon (j : TakeJob) : (takeReread h k j s).mon = s.mon := by
  unfold takeReread
  split <;> rename_i hread <;> have hr := readSpans_mon hread
  · exact (enterFault_mon _ _).trans hr
  · split
    · exact hr
    · exact (fallFree_mon _ _).trans hr

theorem takeWriteTaken_mon (j : TakeJob) : (takeWriteTaken h k j s).mon = s.mon := by
  unfold takeWriteTaken
  split <;> rename_i hw <;> have hw := writeFields_mon hw <;> exact hw

theorem takeLastTaken_mon (j : TakeJob) : (takeLastTaken h k j s).mon = s.mon := by
  unfold takeLastTaken
  dsimp only
  split
  · rfl
  · exact rewrite_mon _ _ _

/-- The end of a take is an ending of the card or the CUT actions with the hand-over (R16, R19). -/
theorem takeFinish_monMoves (j : TakeJob) : MonMoves s (takeFinish h k j s) := by
  unfold takeFinish
  split
  · exact endCard_monMoves s h k _ _
  · have hcut := cutActions_monMoves s j.req.cut
    dsimp only
    split
    · exact hcut.then_eq (rewrite_mon _ _ _)
    · exact hcut

omit h k in
theorem takeStage_monMoves (st : TakeStage) : MonMoves s (takeStage s st) := by
  unfold takeStage
  split
  case h_1 h k j _ =>
    split
    · cases st
      case reread => exact .of_eq (takeReread_mon s h k j)
      case writeTaken => exact .of_eq (takeWriteTaken_mon s h k j)
      case checks => exact .refl s
      case lastTaken => exact .of_eq (takeLastTaken_mon s h k j)
      case finish => exact takeFinish_monMoves s h k j
    · exact .refl s
  all_goals exact .refl s

theorem cardCalibration_monMoves (j : CardJob) : MonMoves s (cardCalibration h k j s) := by
  have hl : MonMoves s (rewrite [.ciu] s (putLastTaken h j.lastBefore s)) := .of_eq (rewrite_mon _ _ _)
  unfold cardCalibration
  split
  · exact .refl s
  · dsimp only
    split
    · exact hl.trans (endCard_monMoves _ h k _ _)
    all_goals exact hl

theorem cardTilePass_monMoves (j : CardJob) : MonMoves s (cardTilePass h k j s) := by
  unfold cardTilePass
  split <;> rename_i hp <;> obtain ⟨b, rfl⟩ := tilePass_onBus hp
  · exact endCard_monMoves (s.onBus b) h k _ _
  · exact .refl s

theorem cardEstimate_mon (j : CardJob) : (cardEstimate h k j s).mon = s.mon := by
  unfold cardEstimate
  dsimp only
  split
  · rfl
  · exact rewrite_mon _ _ _

theorem cardWriteResult_mon (j : CardJob) : (cardWriteResult h k j s).mon = s.mon := by
  unfold cardWriteResult
  split <;> rename_i hw <;> have hw := writeFields_mon hw <;> exact hw

theorem cardWriteEnding_mon (j : CardJob) : (cardWriteEnding h k j s).mon = s.mon := by
  unfold cardWriteEnding
  split <;> rename_i hw <;> have hw := writeFields_mon hw <;> exact hw

theorem cardFinish_monMoves (j : CardJob) : MonMoves s (cardFinish h k j s) := by
  unfold cardFinish
  split <;> rename_i hw <;> have hw := MonMoves.of_eq (writeFields_mon hw)
  · exact hw
  · exact hw.trans (afterEnded_monMoves _ h _ _)

omit h k in
theorem cardStage_monMoves (st : CardStage) : MonMoves s (cardStage s st) := by
  unfold cardStage
  split
  case h_1 h k j _ =>
    split
    · cases st
      case calibration => exact cardCalibration_monMoves s h k j
      case tilePass => exact cardTilePass_monMoves s h k j
      case estimate => exact .of_eq (cardEstimate_mon s h k j)
      case bankQuery => exact .of_eq (dropQuery_mon _)
      case marks => exact .of_eq (rewrite_mon _ _ _)
      case monitorEvents => exact deliver_monMoves (putCard h k { j with next := .monitorSnapshot } s) _
      case writeResult => exact .of_eq (cardWriteResult_mon s h k j)
      case writeEnding => exact .of_eq (cardWriteEnding_mon s h k j)
      case finish => exact cardFinish_monMoves s h k j
      all_goals exact .refl s
    · exact .refl s
  all_goals exact .refl s

end

/-! ## The stages of a directive -/

section
variable (s : State)

theorem advanceDir_mon (next : DirStage) (r : Option ResultCode) : (advanceDir next r s).mon = s.mon := by
  unfold advanceDir
  split <;> rfl

variable (j : DirJob)

theorem dirTake_mon : (dirTake j s).mon = s.mon := by
  unfold dirTake
  split <;> rename_i hread <;> have hr := busRead_mon hread
  · exact (enterFault_mon _ _).trans hr
  · split
    · split <;> rename_i hw <;> exact (writeFields_mon hw).trans hr
    · exact (fallFree_mon _ _).trans hr

theorem dirReadKind_mon : (dirReadKind j s).mon = s.mon := by
  unfold dirReadKind
  split <;> rename_i hread <;> have hr := busRead_mon hread
  · exact (enterFault_mon _ _).trans hr
  · exact hr

theorem dirReadPayload_mon : (dirReadPayload j s).mon = s.mon := by
  unfold dirReadPayload
  split
  · rfl
  · split <;> rename_i hr <;> have hr := readSpans_mon hr <;> exact hr

theorem dirWriteResult_mon : (dirWriteResult j s).mon = s.mon := by
  unfold dirWriteResult
  split <;> rename_i u hw <;> have hw := writeFields_mon hw
  · obtain ⟨c, e⟩ := staleEnded_eq u
    rw [e]
    exact hw
  · exact hw

theorem dirFinish_mon : (dirFinish j s).mon = s.mon := by
  unfold dirFinish
  split <;> rename_i hw <;> simp [writeFields_mon hw]

omit j

theorem prepareLoad_mon (p : Nat) : (prepareLoad p s).2.mon = s.mon := by
  by_cases hcount : field p 4 2 < 2 ∨ 12 < field p 4 2
  · rw [prepareLoad_badCount hcount]
  · rw [prepareLoad_counted (by omega) (by omega)]
    generalize hr : readPoints (field p 4 2) (field p 0 4) s = r
    obtain ⟨o, t⟩ := r
    obtain ⟨⟨b, rfl⟩, -⟩ := readPoints_found hr
    cases o with
    | none => rfl
    | some ps =>
      unfold readDecided
      dsimp only
      split <;> rfl

theorem dirPrepare_mon (j : DirJob) (row : Option DirKind) : (dirPrepare (kindBody row) j s).mon = s.mon := by
  have hbody : ((kindBody row).prepare j.payload s).2.mon = s.mon := by
    rcases row with _ | k
    · rfl
    · cases k
      case loadCalibration => exact prepareLoad_mon s _
      all_goals rfl
  unfold dirPrepare
  split
  · rfl
  · exact (advanceDir_mon _ _ _).trans hbody

theorem setOrderEffect_mon (p : Nat) : (setOrderEffect p s).2.mon = s.mon := by
  unfold setOrderEffect
  split
  · rfl
  · exact rewrite_mon _ _ _

theorem setFilterEffect_mon (p : Nat) : (setFilterEffect p s).2.mon = s.mon := by
  unfold setFilterEffect
  split <;> rfl

theorem setGradeEffect_mon (p : Nat) : (setGradeEffect p s).2.mon = s.mon := by
  unfold setGradeEffect
  split <;> rfl

theorem setTrackingEffect_mon (p : Nat) : (setTrackingEffect p s).2.mon = s.mon := by
  unfold setTrackingEffect
  split
  · exact rewrite_mon _ _ _
  all_goals rfl

theorem switchContextEffect_mon (p : Nat) : (switchContextEffect p s).2.mon = s.mon := by
  unfold switchContextEffect
  split
  · rfl
  · split
    · rfl
    · exact rewrite_mon _ _ _

theorem bakeLutEffect_mon (p : Nat) : (bakeLutEffect p s).2.mon = s.mon := by
  unfold bakeLutEffect
  split
  · rfl
  · split <;> rename_i hread <;> have hr := busRead_mon hread
    · exact hr
    · exact (rewriteHeaders_mon _ _).trans hr

theorem abortBakeEffect_mon (p : Nat) : (abortBakeEffect p s).2.mon = s.mon := by
  unfold abortBakeEffect
  dsimp only
  split
  · exact (rewriteHeaders_mon _ _).trans (swap_mon s)
  · exact swap_mon s

/-- Of the directives SET_FREEZE, SET_MONITOR and CLEAR_MONITOR alone touch the monitor block, the first without its
counters (R161 to R163). -/
theorem kindBody_effect_monMoves {row : Option DirKind} (hset : row ≠ some .setMonitor)
    (hclear : row ≠ some .clearMonitor) (p : Nat) : MonMoves s ((kindBody row).effect p s).2 := by
  rcases row with _ | k
  · exact .refl s
  · cases k
    case setOrder => exact .of_eq (setOrderEffect_mon s p)
    case setFilter => exact .of_eq (setFilterEffect_mon s p)
    case loadCalibration => exact .of_eq (commitEffect_shown p s).mon_eq
    case setTracking => exact .of_eq (setTrackingEffect_mon s p)
    case switchContext => exact .of_eq (switchContextEffect_mon s p)
    case setGrade => exact .of_eq (setGradeEffect_mon s p)
    case bakeLut => exact .of_eq (bakeLutEffect_mon s p)
    case abortBake => exact .of_eq (abortBakeEffect_mon s p)
    case setMonitor => exact absurd rfl hset
    case setFreeze =>
      have hmove : MonMoves s { s with mon := { s.mon with freezeOnCut := bit (field p 0x00 1) 0 } } :=
        .of_move (.freezeOnCut _ s.mon)
      exact hmove.then_eq (rewrite_mon _ _ _)
    case clearMonitor => exact absurd rfl hclear
    all_goals exact .of_eq (rewrite_mon _ _ _)

theorem dirStage_monMoves {row : Option DirKind} (hset : row ≠ some .setMonitor) (hclear : row ≠ some .clearMonitor)
    (st : DirStage) : MonMoves s (dirStage (kindBody row) s st) := by
  by_cases hn : ∀ j, s.ce.engine = .directive j → j.next ≠ st
  · rw [dirStage_skip _ s st hn]
    exact .refl s
  · push Not at hn
    obtain ⟨j, he, hst⟩ := hn
    rw [dirStage_work _ he hst]
    cases st
    case take => exact .of_eq (dirTake_mon s j)
    case kind => exact .of_eq (dirReadKind_mon s j)
    case payload => exact .of_eq (dirReadPayload_mon s j)
    case prepare => exact .of_eq (dirPrepare_mon s j row)
    case effect =>
      show MonMoves s (dirEffect (kindBody row) j s)
      unfold dirEffect
      split
      · exact .refl s
      · exact (kindBody_effect_monMoves s hset hclear _).then_eq (advanceDir_mon _ _ _)
    case result => exact .of_eq (dirWriteResult_mon s j)
    case finish => exact .of_eq (dirFinish_mon s j)

theorem runDirective_monMoves {row : Option DirKind} (hset : row ≠ some .setMonitor)
    (hclear : row ≠ some .clearMonitor) (u : DirStage) : MonMoves s (runDirective row (kindBody row) u s) := by
  rcases runDirective_cases row (kindBody row) s with e | ⟨-, e⟩ <;> rw [e u]
  · exact .refl s
  · exact foldl_monMoves (fun t => dirStage_monMoves t hset hclear) _ s

end

/-! ## Every command -/

/-- The commands that are no directives; an engine reset keeps the monitor block (R174). -/
theorem exec_plain_monMoves (c : Instr) (s t : State) (hc : directiveRowOf c = none) (hreset : c ≠ .deviceReset)
    (h : exec c s = .next t) : MonMoves s t := by
  cases c
  all_goals cases h
  case frameSync => exact frameSync_monMoves s
  case retirement => exact .of_eq (retire_mon s)
  case trackerStep => exact trackerStep_monMoves s
  case pollExpiry => exact .of_eq (pollExpiry_mon s)
  case settleExpiry => exact .of_eq (settleExpiry_mon s)
  case requestSent => exact .of_eq (requestSent_mon s)
  case replyWindowExpiry => exact replyWindowExpiry_monMoves s
  case replyCharacter data parity stop => exact replyCharacter_monMoves s _
  case replyGapTimeout => exact replyGapTimeout_monMoves s
  case take u => exact foldl_monMoves takeStage_monMoves _ s
  case cardJob u => exact foldl_monMoves cardStage_monMoves _ s
  case bakeRow => exact .of_eq (bakeRow_mon s)
  case drainComplete => exact .of_eq (drainComplete_mon s)
  case runSet w => exact .of_eq (runSet_mon s w)
  case runClear w => exact .of_eq (runClear_mon s w)
  case engineReset w => exact .refl s
  case attentionMaskWrite w =>
    cases controlRun w
    · exact .of_eq (runClear_mon s w)
    · exact .of_eq (runSet_mon s w)
  case areaWrite w => exact .of_eq (areaWrite_mon s w)
  case attnWrite w => exact .of_eq (rewrite_mon _ _ _)
  case registerWriteIgnored r w => exact .refl s
  case deviceReset => exact absurd rfl hreset
  all_goals cases hc

theorem exec_monMoves (c : Instr) (s t : State) (h : exec c s = .next t)
    (hc : ∀ u, c ≠ .setMonitor u ∧ c ≠ .clearMonitor u) (hreset : c ≠ .deviceReset) : MonMoves s t := by
  rcases hrow : directiveRowOf c with _ | ⟨row, u⟩
  · exact exec_plain_monMoves c s t hrow hreset h
  · rw [exec_directive hrow h]
    have he := directiveRowOf_eq_some hrow
    refine runDirective_monMoves s (fun hr => ?_) (fun hr => ?_) u
    · exact (hc u).1 (by rw [he, hr, directiveRow])
    · exact (hc u).2 (by rw [he, hr, directiveRow])

/-- Settles O58: each move that such a command can make of the monitor block leaves frozen counters as they are. -/
theorem frozenCountersStand : Obligations.FrozenCountersStand := by
  unfold Obligations.FrozenCountersStand
  intro c s t h hf hc hreset
  exact (exec_monMoves c s t h hc hreset).frozenAt ⟨rfl, hf⟩

end Sys2Proof.Machine

/-! O42: SET_MONITOR, SET_FREEZE and CLEAR_MONITOR (R161 to R163). -/

namespace Sys2Proof.Machine

theorem monSourceOf_high {n : Nat} (h : 9 < n) : monSourceOf n = none := by
  obtain ⟨k, rfl⟩ := Nat.exists_eq_add_of_le' (show 10 ≤ n from h)
  rfl

theorem headSelectOf_high {n : Nat} (h : 2 < n) : headSelectOf n = none := by
  obtain ⟨k, rfl⟩ := Nat.exists_eq_add_of_le' (show 3 ≤ n from h)
  rfl

/-- The settings carried are absent when either code is unknown (R162). -/
theorem carriedCounter_unknown {p : Nat} (h : 9 < field p 1 1 ∨ 2 < field p 5 1) : carriedCounter p = none := by
  unfold carriedCounter
  rcases h with h | h
  · rw [monSourceOf_high h]
  · rw [headSelectOf_high h]
    cases monSourceOf (field p 1 1) <;> rfl

theorem setMonitorEffect_set {s : State} {p : Nat} {i : Fin 4} {c : CounterSettings}
    (hi : quadIndex (field p 0 1) = some i) (hc : carriedCounter p = some c) :
    setMonitorEffect p s = (.done, rewrite [.mon] s
      (putCounter i { value := 0, wrapped := false, edgeMemory := false, settings := c } s)) := by
  unfold setMonitorEffect
  rw [hi, hc]

theorem setMonitorEffect_refused {s : State} {p : Nat}
    (h : quadIndex (field p 0 1) = none ∨ carriedCounter p = none) : setMonitorEffect p s = (.refusedValue, s) := by
  unfold setMonitorEffect
  rcases h with h | h
  · rw [h]
  · rw [h]
    cases quadIndex (field p 0 1) <;> rfl

section
variable {s : State} {p : Nat} {j : DirJob}

/-- A directive at its effect that updates the monitor block and shows it. -/
theorem exec_monitor_effect {k : DirKind} {m : Mon} (h : AtEffect s k p j) (hc : Clear s)
    (he : (kindBody (some k)).effect p s = (.done, rewrite [.mon] s { s with mon := m })) :
    ∃ b, s.bus.Within (StatusBytes s) b ∧ exec (directiveRow (some k) .effect) s = .next
      ((putDirJob (decidedJob j .done) { s with mon := m }).onBus b) := by
  obtain ⟨b, hw, e⟩ := effect_shown k (kindBody (some k)) s { s with mon := m } _ p j .done (StatusBytes s) h hc he
    rfl rfl h.1 (rewrite_from [.mon] s { s with mon := m } rfl)
  exact ⟨b, hw, by rw [exec_directiveRow, e]⟩

/-- SET_MONITOR (R162). -/
theorem setMonitor_atEffect (h : AtEffect s .setMonitor p j) (hc : Clear s) :
    (∀ (i : Fin 4) (src : MonSource) (sel : HeadSelect),
      field p 0 1 = i.val → monSourceOf (field p 1 1) = some src → headSelectOf (field p 5 1) = some sel →
      ∃ b, s.bus.Within (StatusBytes s) b ∧ exec (.setMonitor .effect) s = .next
        ((putDirJob (decidedJob j .done)
          (putCounter i
            { value := 0, wrapped := false, edgeMemory := false, settings :=
                { source := src, level := field p 2 2, invert := bit (field p 4 1) 0,
                  edge := bit (field p 4 1) 1, select := sel, enable := bit (field p 4 1) 2 } }
            s)).onBus b))
    ∧ ((3 < field p 0 1 ∨ 9 < field p 1 1 ∨ 2 < field p 5 1) →
      exec (.setMonitor .effect) s = .next (putDirJob (decidedJob j .refusedValue) s)) := by
  refine ⟨fun i src sel hi hsrc hsel => ?_, fun hr => ?_⟩
  · refine exec_monitor_effect h hc (setMonitorEffect_set (by rw [hi, quadIndex_val]) ?_)
    unfold carriedCounter
    rw [hsrc, hsel]
  · exact exec_atEffect h (setMonitorEffect_refused (hr.imp quadIndex_high carriedCounter_unknown)) h.1

end

/-- Settles O42: SET_MONITOR by the codes it carries, the other two as one update of the monitor block. -/
theorem monitorDirectives : Obligations.MonitorDirectives := by
  unfold Obligations.MonitorDirectives
  intro s p j hc
  exact ⟨fun h => setMonitor_atEffect h hc, fun h => exec_monitor_effect h hc rfl,
    fun h => exec_monitor_effect h hc rfl⟩

end Sys2Proof.Machine

/-! O50 and O51: the amount of an event (R156), and what a counter makes of it (R157, R158). -/

namespace Sys2Proof.Machine

/-! ## The amount by source (R156) -/

section
variable {i : Fin 4} {c : CounterSettings} {h : Head} {ts : Quad Nat} {e : Estimate}

theorem selects_iff : selects c h = true ↔ c.select = .both ∨ c.select = .only h := by
  unfold selects
  cases c.select <;> simp

theorem amount_unpicked (hp : ¬ selects c h = true) :
    amount i c (.card h ts e) = none ∧ amount i c (.late h) = none :=
  ⟨if_neg hp, if_neg fun k => hp k.2⟩

theorem amount_late (hp : selects c h = true) (hs : c.source = .late) : amount i c (.late h) = some 1 :=
  if_pos ⟨hs, hp⟩

/-- A card's amount by the source, once its head is selected. -/
theorem amount_card_picked (hp : selects c h = true) :
    (c.source = .tileLevel ∨ c.source = .tileClip → amount i c (.card h ts e) = some (ts.get i))
    ∧ (c.source = .estMired → amount i c (.card h ts e) = e.mired.map fun m => flag (levelTest c m))
    ∧ (c.source = .weak → amount i c (.card h ts e) = some (if e.reason = .none then 0 else 1)) := by
  simp only [amount, if_pos hp]
  refine ⟨?_, fun hs => by rw [hs], fun hs => ?_⟩
  · rintro (hs | hs) <;> rw [hs]
  · rw [hs]
    cases e.reason <;> rfl

theorem amount_card_unserved (hs : c.source ∉ [.tileLevel, .tileClip, .estMired, .weak]) :
    amount i c (.card h ts e) = none := by
  simp only [amount]
  split
  · generalize c.source = source at hs ⊢
    cases source
    case tileLevel | tileClip | estMired | weak => exact absurd (by decide) hs
    all_goals rfl
  · rfl

variable {slew idle : Bool} {spread : Option Nat}

/-- A step's amount by the source. -/
theorem amount_step :
    (c.source = .slew → amount i c (.step slew idle spread) = some (flag slew))
    ∧ (c.source = .noSource → amount i c (.step slew idle spread) = some (flag idle))
    ∧ (c.source = .spread → amount i c (.step slew idle spread) = spread.map fun v => flag (levelTest c v)) := by
  unfold amount
  exact ⟨fun hs => by rw [hs], fun hs => by rw [hs], fun hs => by rw [hs]⟩

theorem amount_step_unserved (hs : c.source ∉ [.slew, .noSource, .spread]) :
    amount i c (.step slew idle spread) = none := by
  simp only [amount]
  generalize c.source = source at hs ⊢
  cases source
  case slew | noSource | spread => exact absurd (by decide) hs
  all_goals rfl

end

/-! ## The tallies of the tile pass (R30, R156) -/

/-- A counter's tally counts the tiles that are in it. -/
theorem foldl_addTallies_get (counters : Quad Counter) (tiles : List Tile) (ts : Quad Nat) (i : Fin 4) :
    (tiles.foldl (addTallies counters) ts).get i
      = ts.get i + tiles.countP (tallied (counters.get i).settings) := by
  induction tiles generalizing ts with
  | nil => rfl
  | cons t tiles ih =>
    rw [List.foldl_cons, ih, addTallies, Quad.get_mapIdx, List.countP_cons, flag]
    omega

theorem tallies_get (counters : Quad Counter) (tiles : List Tile) (i : Fin 4) :
    (tiles.foldl (addTallies counters) (Quad.const 0)).get i = tiles.countP (tallied (counters.get i).settings) := by
  rw [foldl_addTallies_get, quad_get_const, Nat.zero_add]

theorem tallied_eq (c : CounterSettings) (t : Tile) :
    (c.source = .tileLevel → tallied c t = (decide (t.pixels ≠ 0) && levelTest c (t.gSum / t.pixels)))
    ∧ (c.source = .tileClip →
      tallied c t = (decide (t.pixels ≠ 0) && levelTest c (t.clipped * 256 / t.pixels))) := by
  have hne : (t.pixels != 0) = decide (t.pixels ≠ 0) := Bool.eq_iff_iff.2 (by simp)
  refine ⟨fun hs => ?_, fun hs => ?_⟩
  · rw [tallied, hs, hne]
    rfl
  · rw [tallied, hs, hne]

/-- Settles O50: the amounts source by source, and a tally as the number of tiles in it. -/
theorem eventAmounts : Obligations.EventAmounts := by
  unfold Obligations.EventAmounts
  intro i c h ts e slew idle spread
  dsimp only
  simp only [← selects_iff]
  obtain ⟨hslew, hidle, hspread⟩ := amount_step (i := i) (c := c) (slew := slew) (idle := idle) (spread := spread)
  refine ⟨amount_unpicked, fun hp => ?_, hslew, hidle, hspread, fun hs => if_pos hs, amount_card_unserved,
    amount_step_unserved, fun hs => if_neg hs, fun hs => if_neg fun k => hs k.1, fun counters tiles hc => ?_⟩
  · obtain ⟨htally, hmired, hweak⟩ := amount_card_picked (i := i) (ts := ts) (e := e) hp
    exact ⟨htally, hmired, hweak, amount_late hp⟩
  · rw [tallies_get, hc]
    exact ⟨fun hs => congrArg tiles.countP (funext fun t => (tallied_eq c t).1 hs),
      fun hs => congrArg tiles.countP (funext fun t => (tallied_eq c t).2 hs)⟩

/-! ## A counter under an event (R157, R158) -/

section
variable {frozen : Bool} {e : MonEvent} {i : Fin 4} {c : Counter} {x : Nat}

theorem added_eq (c : Counter) (x : Nat) :
    added c x = if c.settings.edge = false then x else if 1 ≤ x ∧ c.edgeMemory = false then 1 else 0 := by
  unfold added
  cases c.settings.edge <;> rfl

theorem added_le (hx : x ≤ 2 ^ 48) : added c x ≤ 2 ^ 48 := by
  unfold added
  split
  · split <;> decide
  · exact hx

theorem counterAfter_served (hon : c.settings.enable = true) (hf : frozen = false)
    (hx : amount i c.settings e = some x) : counterAfter frozen e i c = evaluated c x := by
  rw [counterAfter, if_pos ⟨hon, hf⟩, hx]

theorem evaluated_below (h : c.value + added c x < 2 ^ 48) :
    evaluated c x = { c with value := c.value + added c x, edgeMemory := decide (1 ≤ x) } := by
  unfold evaluated
  dsimp only
  rw [Nat.mod_eq_of_lt h, decide_eq_false (Nat.not_le.2 h), Bool.or_false]

theorem evaluated_wraps (hv : c.value < 2 ^ 48) (hx : x ≤ 2 ^ 48) (h : 2 ^ 48 ≤ c.value + added c x) :
    evaluated c x
      = { c with value := c.value + added c x - 2 ^ 48, wrapped := true, edgeMemory := decide (1 ≤ x) } := by
  have hsum : c.value + added c x - 2 ^ 48 < 2 ^ 48 := by
    have := added_le (c := c) hx
    omega
  unfold evaluated
  dsimp only
  rw [Nat.mod_eq_sub_mod h, Nat.mod_eq_of_lt hsum, decide_eq_true h, Bool.or_true]

theorem wrapsOn_iff : wrapsOn frozen e i c = true ↔
    c.settings.enable = true ∧ frozen = false
      ∧ ∃ x, amount i c.settings e = some x ∧ 2 ^ 48 ≤ c.value + added c x := by
  unfold wrapsOn
  by_cases hon : c.settings.enable = true ∧ frozen = false
  · rw [if_pos hon]
    cases hx : amount i c.settings e <;> simp [hon.1, hon.2]
  · rw [if_neg hon]
    exact iff_of_false nofun fun ⟨hen, hf, _⟩ => hon ⟨hen, hf⟩

end

theorem Quad.any_iff (t : Quad Bool) : t.toList.any id = true ↔ ∃ i, t.get i = true := by
  simp [Quad.toList, Fin.exists_fin_succ, Quad.get]

theorem wrapsAny_iff (e : MonEvent) (m : Mon) :
    wrapsAny e m = true ↔ ∃ i, wrapsOn m.frozen e i (m.counters.get i) = true := by
  simp only [wrapsAny, Quad.any_iff, Quad.get_mapIdx]

/-- MON_WRAP is set exactly when some counter wraps (R158). -/
theorem deliveredState_causes (e : MonEvent) (s : State) :
    (deliveredState e s).aiu.causes = s.aiu.causes
        ∧ (∀ i, wrapsOn s.mon.frozen e i (s.mon.counters.get i) = false)
      ∨ (deliveredState e s).aiu.causes = withCause s.aiu.causes .monWrap
        ∧ ∃ i, wrapsOn s.mon.frozen e i (s.mon.counters.get i) = true := by
  show causesIf (wrapsAny e s.mon) .monWrap s.aiu.causes = _ ∧ _ ∨ causesIf (wrapsAny e s.mon) .monWrap _ = _ ∧ _
  by_cases hw : wrapsAny e s.mon = true
  · exact .inr ⟨if_pos hw, (wrapsAny_iff e s.mon).1 hw⟩
  · refine .inl ⟨if_neg hw, fun i => Bool.eq_false_iff.2 fun hi => hw ?_⟩
    exact (wrapsAny_iff e s.mon).2 ⟨i, hi⟩

/-- Settles O51: the amount added is the one sum under both the value and the wrap. -/
theorem counterEvaluation : Obligations.CounterEvaluation := by
  unfold Obligations.CounterEvaluation
  simp only [← added_eq]
  refine ⟨fun frozen e i c hv => ⟨counterAfter_idle, fun x hon hf hx hle => ?_⟩, fun _ _ _ _ => wrapsOn_iff,
    deliveredState_causes⟩
  rw [counterAfter_served hon hf hx]
  exact ⟨evaluated_below, evaluated_wraps hv hle⟩

end Sys2Proof.Machine

/-! O3 to O6: the registers (R166 to R168, R171) and the run state that CONTROL's RUN bit moves (R37, R167). -/

namespace Sys2Proof.Machine

/-! ## CONTROL's RUN bit -/

section
variable {s : State} (w : BitVec 32)

/-- Out of STOPPED only the mask of a word with RUN set is taken (R166, R167). -/
theorem runSet_not_stopped (h : s.aiu.run ≠ .stopped) : runSet w s = putMask w s := if_neg h

/-- Out of RUNNING only the mask of a word with RUN clear is taken (R166, R167). -/
theorem runClear_not_running (h : s.aiu.run ≠ .running) : runClear w s = putMask w s := if_neg h

/-- A write to CONTROL acts by its RUN bit (R166). -/
theorem exec_attentionMaskWrite_set (h : w.getLsbD 0 = true) :
    exec (.attentionMaskWrite w) s = .next (runSet w s) :=
  congrArg Host.Outcome.next (if_pos h)

theorem exec_attentionMaskWrite_clear (h : w.getLsbD 0 = false) :
    exec (.attentionMaskWrite w) s = .next (runClear w s) :=
  congrArg Host.Outcome.next (if_neg (Bool.not_eq_true _ ▸ h))

end

/-! ## What the registers read (12.1) -/

theorem flag_testBit (b : Bool) (i : Nat) : (flag b).testBit i = if i = 0 then b else false := by
  cases b
  · simp [flag]
  · cases i <;> simp [flag, Nat.testBit_succ]

/-- CONTROL reads RUN in bit 0 and the mask from bit 16 on (12.1). -/
theorem readControl_getLsbD (a : Aiu) (i : Nat) :
    (readRegister .control a).getLsbD i
      = if i = 0 then a.run == .running else if 16 ≤ i then a.mask.getLsbD (i - 16) else false := by
  have hlow : flag (a.run == .running) < 2 ^ 16 := by
    unfold flag
    split <;> decide
  have hword : flag (a.run == .running) + a.mask.toNat * 2 ^ 16
      = 2 ^ 16 * a.mask.toNat + flag (a.run == .running) := by ring
  show (BitVec.ofNat 32 (flag (a.run == .running) + a.mask.toNat * 2 ^ 16)).getLsbD i = _
  rw [BitVec.getLsbD_ofNat, hword, Nat.testBit_two_pow_mul_add _ hlow, flag_testBit]
  by_cases h16 : i < 16
  · simp only [h16, if_true, show i < 32 by omega, decide_true, Bool.true_and, if_neg (Nat.not_le.2 h16)]
  · simp only [h16, if_false, show i ≠ 0 by omega, Nat.not_lt.1 h16, if_true]
    by_cases h32 : i < 32
    · simp only [h32, decide_true, Bool.true_and]
      rfl
    · simp only [h32, decide_false, Bool.false_and]
      exact (BitVec.getLsbD_of_ge _ _ (by omega)).symm

/-- STATE reads the four codes in their fields (12.1). -/
theorem readState_toNat (a : Aiu) :
    (readRegister .state a).toNat
      = runCode a.run + 4 * flag a.areaInvalid + 8 * flag a.countEnd + 256 * faultCode a.faultKind := by
  have hrun : runCode a.run ≤ 3 := by cases a.run <;> decide
  have hflag : ∀ b, flag b ≤ 1 := by decide
  have hfault : faultCode a.faultKind ≤ 6 := by
    rcases a.faultKind with _ | k
    · decide
    · cases k <;> decide
  have h1 := hflag a.areaInvalid
  have h2 := hflag a.countEnd
  show (BitVec.ofNat 32 _).toNat = _
  rw [BitVec.toNat_ofNat, Nat.mod_eq_of_lt (by omega)]
  ring

/-- Settles O3: each write by the run state that heeds it, each register by its fields. -/
theorem registerWritesAndReads : Obligations.RegisterWritesAndReads := by
  unfold Obligations.RegisterWritesAndReads
  refine ⟨fun w r s => ⟨fun h => congrArg Host.Outcome.next (if_pos h),
    fun h => congrArg Host.Outcome.next (if_neg h), ?_, exec_attentionMaskWrite_set w,
    exec_attentionMaskWrite_clear w, rfl⟩,
    fun a => ⟨rfl, rfl, readControl_getLsbD a, BitVec.ofNat_toNat 32 a.causes, readState_toNat a, fun h => ?_⟩⟩
  · rintro (⟨hb, hr⟩ | ⟨hb, hr⟩)
    · rw [exec_attentionMaskWrite_set w hb, runSet_not_stopped w hr]
      rfl
    · rw [exec_attentionMaskWrite_clear w hb, runClear_not_running w hr]
      rfl
  · show (BitVec.ofNat 32 a.frameCount).toNat = _
    rw [BitVec.toNat_ofNat, Nat.mod_eq_of_lt (show a.frameCount < 2 ^ 32 from Nat.lt_succ_of_le h)]

/-! ## The attention causes (R171) -/

theorem causeBit_lt (c : Cause) : causeBit c < 9 := by cases c <;> decide

/-- Each of the nine bits is the bit of a cause (12.7). -/
theorem exists_causeBit {i : Nat} (h : i < 9) : ∃ c, causeBit c = i := by
  have key : ∀ i : Fin 9,
      ∃ c ∈ [Cause.card, .directive, .bank, .podFound, .podLost, .hold, .monWrap, .countEnd, .fault],
        causeBit c = i.val := by decide
  obtain ⟨c, -, hc⟩ := key ⟨i, h⟩
  exact ⟨c, hc⟩

theorem hasCause_clearCauses (w : BitVec 32) (causes : BitVec 9) (c : Cause) :
    hasCause (clearCauses causes w) c = (hasCause causes c && !w.getLsbD (causeBit c)) := by
  simp [hasCause, clearCauses, attnCauses, causeBit_lt c]

/-- The line is the disjunction over the causes (R171). -/
theorem attnLine_iff (a : Aiu) :
    attnLine a = true ↔ ∃ c, hasCause a.causes c = true ∧ hasCause a.mask c = true := by
  unfold attnLine hasCause
  rw [bne_iff_ne]
  constructor
  · intro hne
    by_contra hnone
    push Not at hnone
    refine hne (BitVec.eq_of_getLsbD_eq fun i hi => ?_)
    obtain ⟨c, rfl⟩ := exists_causeBit hi
    refine Eq.trans ?_ BitVec.getLsbD_zero.symm
    rw [BitVec.getLsbD_and, Bool.eq_false_iff, Ne, Bool.and_eq_true]
    exact fun h => hnone c h.1 h.2
  · rintro ⟨c, hc, hm⟩ hz
    have hbit := congrArg (BitVec.getLsbD · (causeBit c)) hz
    simp only [BitVec.getLsbD_and, hc, hm] at hbit
    cases hbit.trans BitVec.getLsbD_zero

/-- Settles O4: the write is one update of the causes with its rewrite, and the line a disjunction over them. -/
theorem attentionCausesAndLine : Obligations.AttentionCausesAndLine := by
  unfold Obligations.AttentionCausesAndLine
  refine ⟨fun w s hc => ?_, attnLine_iff⟩
  have hs : Shown (StatusBytes s) { s with aiu := { s.aiu with causes := clearCauses s.aiu.causes w } }
      (attnWrite w s) :=
    rewrite_from [.aiu] s _ rfl
  obtain ⟨b, hw, he⟩ := hs.next hc rfl rfl
  exact ⟨_, b, hw, he, hasCause_clearCauses w s.aiu.causes⟩

/-! ## Starting and stopping (R37, R167, R168) -/

theorem areaInvalid_iff (area : BitVec 32) : areaInvalid area = true ↔ area = 0 ∨ area.toNat % 4096 ≠ 0 := by
  simp [areaInvalid]

/-- The state at the entry into RUNNING (R167). -/
def startedState (s : State) : State := { s with aiu := { s.aiu with run := .running, areaInvalid := false } }

/-- The entry into RUNNING with no failing access (R113, R167, R175). -/
theorem enterRunning_swept {s : State} (hc : Clear s) :
    ∃ b, s.bus.Within (FrontBytes s) b ∧ SweptTo ((startedState s).onBus b) (enterRunning s) := by
  have hall : Shown (FrontBytes (startedState s)) (startedState s) (rewriteAll (startedState s)) :=
    (rewriteAll_shown (startedState s)).mono frontBytes_of_status
  obtain ⟨b, hw, he⟩ := ((hall.front (writeHeader_front .i0 _)).front (writeHeader_front .i1 _)).of_clear hc
  refine ⟨b, hw, ?_⟩
  show SweptTo _ (sweepAndGrant (writeHeader .i1 (writeHeader .i0 (rewriteAll (startedState s)))))
  rw [he]
  exact sweepAndGrant_swept _ (Clear.of_within (s := s) hc hw rfl)

/-- Settles O5: the three branches of RUN_SET. -/
theorem runSetChecksAndStarts : Obligations.RunSetChecksAndStarts := by
  unfold Obligations.RunSetChecksAndStarts
  refine fun w s => ⟨fun h => congrArg Host.Outcome.next (runSet_not_stopped w h), fun hs ha => ?_,
    fun hs hz hm hc => ?_⟩
  · have hset : runSet w s = { putMask w s with aiu := { (putMask w s).aiu with areaInvalid := true } } :=
      (if_pos hs).trans (if_pos ((areaInvalid_iff _).2 ha))
    exact congrArg Host.Outcome.next hset
  · have hvalid : ¬ areaInvalid s.aiu.area = true := fun h => ((areaInvalid_iff _).1 h).elim hz (· hm)
    have hset : runSet w s = enterRunning (putMask w s) := (if_pos hs).trans (if_neg hvalid)
    obtain ⟨b, hw, ht⟩ := enterRunning_swept (s := putMask w s) hc
    exact ⟨b, _, hw, congrArg Host.Outcome.next hset, ht⟩

/-- RUN cleared under a job: DRAINING (R167). -/
theorem runClear_draining {s : State} (w : BitVec 32) (hr : s.aiu.run = .running) (he : s.ce.engine ≠ .free) :
    Shown (StatusBytes s) { s with aiu := { s.aiu with mask := controlMask w, run := .draining } } (runClear w s) := by
  have hclear : runClear w s = rewrite [.aiu] (putMask w s)
      { s with aiu := { s.aiu with mask := controlMask w, run := .draining } } :=
    (if_pos hr).trans (if_neg fun h => he ((isFree_iff _).1 h))
  rw [hclear]
  exact rewrite_from [.aiu] (putMask w s) _ rfl

/-- Settles O6: the branches of RUN_CLEAR and of DRAIN_COMPLETE. -/
theorem runClearDrainsAndStops : Obligations.RunClearDrainsAndStops := by
  unfold Obligations.RunClearDrainsAndStops
  refine fun w s => ⟨fun h => congrArg Host.Outcome.next (runClear_not_running w h), fun hr he => ?_,
    fun hr he hc => ?_, fun hr he => ?_, fun h => ?_⟩
  · exact congrArg Host.Outcome.next ((if_pos hr).trans (if_pos ((isFree_iff _).2 he)))
  · obtain ⟨b, hw, ht⟩ := (runClear_draining w hr he).next hc rfl rfl
    exact ⟨b, hw, ht⟩
  · exact congrArg Host.Outcome.next (if_pos ⟨hr, (isFree_iff _).2 he⟩)
  · refine congrArg Host.Outcome.next (if_neg fun ⟨hr, he⟩ => ?_)
    exact h.elim (· hr) (· ((isFree_iff _).1 he))

end Sys2Proof.Machine

/-! O10: a frame sync with nothing overdue (R122, R124, R130, R132, R169). -/

namespace Sys2Proof.Machine

/-! ## The advance -/

/-- The state after the advance of the frame count, before the swap (R130, R132, R169). -/
def advancedState (s : State) : State := { s with aiu := advancedAiu s.aiu, ct := tick s.ct }

theorem advancedAiu_eq (a : Aiu) :
    advancedAiu a
      = { a with
          frameCount := a.frameCount + 1,
          countEnd := a.countEnd || decide (a.frameCount + 1 = maxFrame),
          causes := causesIf (decide (a.frameCount + 1 = maxFrame)) .countEnd a.causes } := by
  unfold advancedAiu
  split <;> rename_i h <;> simp [h, causesIf]

/-- The timers of which no expiry stands, at an advance (R130, R132). -/
theorem tick_of_taken {c : Ct} (ht : c.trackerDue = false) (hp : c.pollDue = false) :
    tick c
      = { c with
          trackerCount := if c.trackerCount ≤ 1 then c.trackerLen else c.trackerCount - 1,
          trackerDue := decide (c.trackerCount ≤ 1),
          pollCount := if c.pollCount ≤ 1 then c.pollLen else c.pollCount - 1,
          pollDue := decide (c.pollCount ≤ 1),
          settleCount := if c.settleRunning then c.settleCount - 1 else c.settleCount } := by
  simp only [tick, ht, hp, Bool.false_or]

/-- What the advance does (R136, R169). -/
theorem countAdvance_shown (s : State) : Shown (StatusBytes s) (advancedState s) (countAdvance s) := by
  have hcount := rewrite_from [.aiu] s { s with aiu := advancedAiu s.aiu } (base_eq_of_area (advancedAiu_area s.aiu))
  generalize ht : rewrite [.aiu] s { s with aiu := advancedAiu s.aiu } = t at hcount
  have htick : Shown (StatusBytes s) { t with ct := tick t.ct } (rewrite [.ct] t { t with ct := tick t.ct }) := by
    rw [← statusBytes_eq (hcount.base_eq.trans (base_eq_of_area (advancedAiu_area s.aiu)))]
    exact rewrite_from [.ct] t { t with ct := tick t.ct } rfl
  have hadvance : countAdvance s = rewrite [.ct] t { t with ct := tick t.ct } := by rw [← ht]; rfl
  rw [hadvance]
  exact hcount.andThen (f := fun t => { t with ct := tick t.ct })
    ⟨fun _ _ => rfl, fun _ _ => rfl, fun _ => rfl, fun _ => rfl, fun _ => rfl⟩ htick

/-! ## The swap and the retirement after it -/

theorem swappedState_onBus (s : State) (b : Bus) : swappedState (s.onBus b) = (swappedState s).onBus b := by
  unfold swappedState
  simp only [onBus_aiu, onBus_lbu]
  split <;> rfl

theorem swappedState_kept (s : State) : (swappedState s).bus = s.bus ∧ base (swappedState s) = base s := by
  unfold swappedState
  split <;> exact ⟨rfl, rfl⟩

theorem Clear.of_kept {s t : State} (h : Clear s) (hb : t.bus = s.bus) (ha : base t = base s) : Clear t := by
  unfold Clear
  rw [hb, ha]
  exact h

theorem swap_clear {s : State} (hc : Clear s) :
    ∃ b, s.bus.Within (FrontBytes s) b ∧ swap s = (swappedState s).onBus b := by
  obtain ⟨hbus, hbase⟩ := swappedState_kept s
  obtain ⟨b, hw, he⟩ := (swap_shown s).of_clear (hc.of_kept hbus hbase)
  exact ⟨b, hbus ▸ hw, he⟩

theorem retire_clear {s : State} (hc : Clear s) :
    ∃ b, s.bus.Within (FrontBytes s) b ∧ retire s = (retiredState s).onBus b := by
  obtain ⟨b, hw, he⟩ := (retire_shown s).of_clear (s := retiredState s) hc
  exact ⟨b, hw.mono releaseBytes_front, he⟩

/-- What the blocks make of an advance, with no failing access (R122, R124, R130, R169). -/
theorem advance_clear {s : State} (hc : Clear s) :
    ∃ b, s.bus.Within (FrontBytes s) b
      ∧ retire (swap (countAdvance s)) = (retiredState (swappedState (advancedState s))).onBus b := by
  have hbase : base (advancedState s) = base s := base_eq_of_area (advancedAiu_area s.aiu)
  have hcl {t : State} {b : Bus} (hb : base t = base s) (hw : s.bus.Within (FrontBytes s) b) : Clear (t.onBus b) :=
    hc.of_within (t := t.onBus b) hw hb
  obtain ⟨b, hw, he⟩ := (countAdvance_shown s).of_clear (hc.of_kept rfl hbase)
  have hwb : s.bus.Within (FrontBytes s) b := hw.mono frontBytes_of_status
  obtain ⟨c, hw', hswap⟩ := swap_clear (hcl hbase hwb)
  rw [swappedState_onBus, onBus_onBus] at hswap
  have hswbase : base (swappedState (advancedState s)) = base s := (swappedState_kept _).2.trans hbase
  have hwc : s.bus.Within (FrontBytes s) c :=
    hwb.trans (frontBytes_eq (s := s) (t := (advancedState s).onBus b) hbase ▸ hw')
  obtain ⟨d, hw'', hretire⟩ := retire_clear (hcl hswbase hwc)
  have hwd : s.bus.Within (FrontBytes s) d :=
    hwc.trans (frontBytes_eq (s := s) (t := (swappedState (advancedState s)).onBus c) hswbase ▸ hw'')
  refine ⟨d, hwd, ?_⟩
  rw [he, hswap, hretire]
  rfl

/-! ## FRAME_SYNC -/

/-- A frame sync in RUNNING with nothing overdue: the advance, below saturation, then the sweep and the grant. -/
theorem frameSync_running {s : State} (hr : s.aiu.run = .running) (hn : NothingDue s) :
    frameSync s = if s.aiu.frameCount < maxFrame then sweepAndGrant (retire (swap (countAdvance s)))
      else sweepAndGrant s := by
  unfold frameSync
  rw [takeDue_of_nothingDue hn, if_pos hr]
  exact if_pos hr

/-- Settles O10: the frame sync by the run state and by the count. -/
theorem frameSyncAdvances : Obligations.FrameSyncAdvances := by
  unfold Obligations.FrameSyncAdvances
  refine fun s => ⟨fun h => congrArg Host.Outcome.next (if_neg h), fun hr hm hn hc => ?_, fun hr hm hn hc => ?_⟩
  · have hsync : frameSync s = sweepAndGrant s := (frameSync_running hr hn).trans (if_neg (Nat.not_lt.2 hm))
    exact ⟨_, congrArg Host.Outcome.next hsync, sweepAndGrant_swept s hc⟩
  · obtain ⟨b, hw, he⟩ := advance_clear hc
    have hsync : frameSync s = sweepAndGrant (retire (swap (countAdvance s))) :=
      (frameSync_running hr hn).trans (if_pos hm)
    have hbase : base (retiredState (swappedState (advancedState s))) = base s :=
      (swappedState_kept _).2.trans (base_eq_of_area (advancedAiu_area s.aiu))
    have hswept := sweepAndGrant_swept _
      (hc.of_within (t := (retiredState (swappedState (advancedState s))).onBus b) hw hbase)
    rw [← he, ← hsync, he, advancedState, advancedAiu_eq, tick_of_taken hn.1 hn.2.1] at hswept
    exact ⟨b, _, hw, rfl, hswept⟩

end Sys2Proof.Machine

/-! O32 and O33: how a directive job ends (R28, R172), and a failed write of its result code (R173). -/

namespace Sys2Proof.Machine

/-! ## The last two stages -/

/-- A directive whose result is decided runs the stages of the result code and of ENDED. -/
theorem runDirective_fromResult {row : Option DirKind} (b : DirBody) {s : State} {j : DirJob}
    (he : s.ce.engine = .directive j) (hk : j.kind = row) (hn : j.next = .result) :
    runDirective row b .finish s = dirStage b (dirWriteResult j s) .finish := by
  have happ : dirRowApplies row j s = true := by simp [dirRowApplies, hn, hk]
  have hskip : ([DirStage.take, .kind, .payload, .prepare, .effect].foldl (dirStage b) s) = s :=
    foldl_skip fun st hst => dirStage_skip b s st fun j' e hn' => by
      cases he.symm.trans e
      rw [← hn', hn] at hst
      exact absurd hst (by decide)
  calc runDirective row b .finish s
      = dirStage b
          (dirStage b ([DirStage.take, .kind, .payload, .prepare, .effect].foldl (dirStage b) s) .result) .finish :=
        runDirective_applies b .finish he happ
    _ = dirStage b (dirWriteResult j s) .finish := by rw [hskip, dirStage_work b he hn]; rfl

/-- The status block and the headers lie off the slot (section 1.3). -/
theorem frontBytes_off_slot {s : State} {a : Nat} (h1 : slotAddr s ≤ a) (h2 : a < slotAddr s + 0x80) :
    ¬ FrontBytes s a := by
  simp only [slotAddr, Config.directiveSlot] at h1 h2
  rintro (h | h | h) <;>
    simp only [StatusBytes, HeaderBytes, Bytes, Config.bankHeader] at h <;> omega

/-! ## With no failing access -/

/-- A number written into the slot is all that changes, and reads back. -/
theorem writeSlot_clear {s : State} {a n v : Nat} (hc : Clear s) (h1 : slotAddr s ≤ a)
    (h2 : a + n ≤ slotAddr s + 0x80) (hv : v < 256 ^ n) :
    ∃ b, writeFields .slotWrite [⟨a, n, v⟩] s = (true, s.onBus b) ∧ s.bus.Within (Bytes a n) b
      ∧ b.mem.readLE a n = v := by
  have hans : s.bus.answers a n = true := by
    simp only [slotAddr, Config.directiveSlot] at h1 h2
    exact Bus.answers_sub hc.2 (by omega) (by omega)
  obtain ⟨b, he, hw, hread⟩ := writeFields_clear .slotWrite [⟨a, n, v⟩] s hc.1 fun f hf => by
    cases List.mem_singleton.1 hf
    exact hans
  refine ⟨b, he, hw.mono fun x ⟨f, hf, hx⟩ => by cases List.mem_singleton.1 hf; exact hx, ?_⟩
  rw [hread (List.pairwise_singleton _ _) _ List.mem_cons_self, Nat.mod_eq_of_lt hv]

/-- The result code written (R172.5). -/
theorem dirWriteResult_clear {s : State} {j : DirJob} {r : ResultCode} (hr : j.result = some r) (hc : Clear s) :
    ∃ b, s.bus.Within (Bytes (slotAddr s + 6) 2) b ∧ b.mem.readLE (slotAddr s + 6) 2 = resultCode r
      ∧ dirWriteResult j s = (putDirJob { j with next := .finish } s).onBus b := by
  have hcode : resultCode r < 256 ^ 2 := by cases r <;> decide
  obtain ⟨b, he, hw, hread⟩ := writeSlot_clear hc (Nat.le_add_right _ 6) (by omega) hcode
  refine ⟨b, hw, hread, ?_⟩
  unfold dirWriteResult
  rw [hr, Option.getD_some, he]
  rfl

/-- The engine fallen free, a cause set, and the sweep with its grant (R25, R28, R171). -/
theorem causedRelease_swept (e : Option (JobEnding × JobKind)) (c : Cause) {s : State} (hc : Clear s) :
    ∃ b, s.bus.Within (ReleaseBytes s) b
      ∧ SweptTo ((causedState true c (releasedState e s)).onBus b)
          (sweepAndGrant (setCause c (releaseEngine e s))) := by
  have hfree := releaseEngine_shown e s
  have hcause := setCauseIf_shown true c (releaseEngine e s)
  rw [statusBytes_eq hfree.base_eq] at hcause
  obtain ⟨b, hw, he⟩ := (hfree.andThen (update_caused true c) (hcause.mono fun _ => .inl)).of_clear
    (s := causedState true c (releasedState e s)) hc
  refine ⟨b, hw, ?_⟩
  rw [show setCause c (releaseEngine e s) = _ from he]
  exact sweepAndGrant_swept _ (Clear.of_within (s := s) hc hw rfl)

/-- ENDED written, with which the job ends (R172.6, R172.7). -/
theorem dirFinish_clear {s : State} {j : DirJob} {r : ResultCode} (hr : j.result = some r) (hc : Clear s) :
    ∃ b, s.bus.Within (fun a => ReleaseBytes s a ∨ Bytes (slotAddr s) 4 a) b ∧ b.mem.readLE (slotAddr s) 4 = 3
      ∧ SweptTo ((causedState true .directive (releasedState (some (dirEnding r, .directive)) s)).onBus b)
          (dirFinish j s) := by
  obtain ⟨c, he, hw, hended⟩ := writeSlot_clear (n := 4) (v := Config.slotEnded) hc le_rfl (by omega) (by decide)
  obtain ⟨b, hwb, hs⟩ := causedRelease_swept (some (dirEnding r, .directive)) .directive
    (hc.of_within (t := s.onBus c) hw rfl)
  refine ⟨b, (hw.mono fun _ => .inr).trans (hwb.mono fun _ => .inl), ?_, ?_⟩
  · rw [hwb.readLE fun a h1 h2 ha => frontBytes_off_slot (s := s) h1 (by omega) (releaseBytes_front a ha)]
    exact hended
  · unfold dirFinish
    rw [he, hr]
    exact hs

/-- A directive whose result is decided, to its end (R172.5 to R172.7). -/
theorem runDirective_ends {row : Option DirKind} (b : DirBody) {s : State} {j : DirJob} {r : ResultCode}
    (he : s.ce.engine = .directive j) (hk : j.kind = row) (hn : j.next = .result) (hr : j.result = some r)
    (hc : Clear s) :
    ∃ c, s.bus.Within (fun a => ReleaseBytes s a ∨ SlotBytes s a) c
      ∧ c.mem.readLE (slotAddr s) 4 = 3 ∧ c.mem.readLE (slotAddr s + 6) 2 = resultCode r
      ∧ SweptTo ((causedState true .directive (releasedState (some (dirEnding r, .directive)) s)).onBus c)
          (runDirective row b .finish s) := by
  obtain ⟨c, hw, hcode, hwrite⟩ := dirWriteResult_clear hr hc
  obtain ⟨d, hwd, hended, hs⟩ := dirFinish_clear (s := (putDirJob { j with next := .finish } s).onBus c)
    (j := { j with next := .finish }) hr (hc.of_within (t := (putDirJob { j with next := .finish } s).onBus c) hw rfl)
  have hcode' : d.mem.readLE (slotAddr s + 6) 2 = c.mem.readLE (slotAddr s + 6) 2 := by
    refine hwd.readLE fun a h1 h2 ha => ?_
    rcases ha with ha | ha
    · exact frontBytes_off_slot (s := s) (by omega) (by omega) (releaseBytes_front (s := s) a ha)
    · have hlt : a < slotAddr s + 4 := ha.2
      omega
  refine ⟨d, (hw.mono fun _ h => .inr (.inr h)).trans (hwd.mono fun _ => .imp_right .inl), hended,
    hcode'.trans hcode, ?_⟩
  rw [runDirective_fromResult b he hk hn, hwrite, dirStage_work b (j := { j with next := .finish }) rfl rfl]
  exact hs

/-! ## A directive of an unknown kind -/

/-- The job of a directive refused for its kind, before a stage. -/
def refusedJob (next : DirStage) : DirJob :=
  { next := next, kind := none, payload := 0, result := some .refusedKind }

/-- The stages between the kind and the result pass over a job refused for its kind (R172). -/
theorem refusedJob_passes (b : DirBody) (s : State) :
    dirStage b (putDirJob (refusedJob .prepare) s) .prepare = putDirJob (refusedJob .effect) s
      ∧ dirStage b (putDirJob (refusedJob .effect) s) .effect = putDirJob (refusedJob .result) s :=
  ⟨rfl, rfl⟩

/-- A directive refused for its kind comes to the write of its result with nothing carried out (R172). -/
theorem runDirective_unknown (b : DirBody) {s : State} (he : s.ce.engine = .directive DirJob.start) (hc : Clear s)
    (hs : s.bus.mem.readLE (slotAddr s) 4 = 1) (hk : dirKindOf (s.bus.mem.readLE (slotAddr s + 4) 2) = none) :
    ∃ c, s.bus.Within (Bytes (slotAddr s) 4) c
      ∧ runDirective none b .finish s = runDirective none b .finish (putDirJob (refusedJob .result) (s.onBus c)) := by
  obtain ⟨c, hw, -, hp⟩ := runDirective_payload none b s he hc hs hk
  have hpayload : runDirective none b .payload s = putDirJob (refusedJob .prepare) (s.onBus c) := hp
  obtain ⟨hprepare, heffect⟩ := refusedJob_passes b (s.onBus c)
  have happ : dirRowApplies none DirJob.start s = true := by simp [dirRowApplies, DirJob.start, hk]
  refine ⟨c, hw, ?_⟩
  calc runDirective none b .finish s
      = [DirStage.prepare, .effect, .result, .finish].foldl (dirStage b) (runDirective none b .payload s) := by
        rw [runDirective_applies b .finish he happ, runDirective_applies b .payload he happ]
        rfl
    _ = dirStage b (dirStage b (putDirJob (refusedJob .result) (s.onBus c)) .result) .finish := by
        rw [hpayload, List.foldl_cons, hprepare, List.foldl_cons, heffect]
        rfl
    _ = runDirective none b .finish (putDirJob (refusedJob .result) (s.onBus c)) := by
        rw [dirStage_work b (j := refusedJob .result) (st := .result) rfl rfl,
          runDirective_fromResult (row := none) b (j := refusedJob .result) rfl rfl rfl]
        rfl

/-- Settles O32: both come to the write of the result code, and end by it. -/
theorem directiveEnds : Obligations.DirectiveEnds := by
  unfold Obligations.DirectiveEnds
  refine ⟨fun s j r he hn hr hc => ?_, fun s he hc hs hk => ?_⟩
  · obtain ⟨b, hw, hended, hcode, hswept⟩ := runDirective_ends (kindBody j.kind) he rfl hn hr hc
    exact ⟨b, _, hw, hended, hcode, exec_directiveRow j.kind .finish s, hswept⟩
  · obtain ⟨c, hw, hrun⟩ := runDirective_unknown (kindBody none) he hc hs hk
    obtain ⟨b, hwb, hended, hcode, hswept⟩ := runDirective_ends (row := none) (kindBody none)
      (s := putDirJob (refusedJob .result) (s.onBus c)) (j := refusedJob .result) rfl rfl rfl rfl
      (hc.of_within (t := putDirJob (refusedJob .result) (s.onBus c)) hw rfl)
    rw [← hrun] at hswept
    exact ⟨b, _, (hw.mono fun _ h => .inr (.inl h)).trans hwb, hended, hcode, rfl, hswept⟩

/-! ## A failed write of the result code (R173) -/

/-- What may still come after the failed write: ENDED or nothing. -/
theorem staleEnded_spec (s : State) :
    ∃ c, s.bus.Within (Bytes (slotAddr s) 4) c
      ∧ staleEnded s = ({ s with freeUses := s.freeUses + 1 } : State).onBus c
      ∧ (c.mem.readLE (slotAddr s) 4 = s.bus.mem.readLE (slotAddr s) 4 ∨ c.mem.readLE (slotAddr s) 4 = 3) := by
  unfold staleEnded
  dsimp only
  split
  · obtain ⟨c, he, hw, -, -, hm⟩ := busWrite_spec { s with freeUses := s.freeUses + 1 }
      ⟨slotAddr { s with freeUses := s.freeUses + 1 }, 4, Config.slotEnded⟩
    refine ⟨c, hw, he, ?_⟩
    rw [hm]
    split
    · exact .inr (Memory.readLE_writeLE_eq _ _ _ _)
    · exact .inl rfl
  · exact ⟨s.bus, Bus.Within.refl _ _, rfl, .inl rfl⟩

/-- The failed write of the result code: FAULTED, and a slot of which at most the state is written. -/
theorem dirWriteResult_planned {s : State} {plan : List Bool} (j : DirJob) (hf : s.aiu.run ≠ .faulted)
    (hp : s.bus.failPlan = true :: plan) :
    ∃ c, dirWriteResult j s = ({ faultedState .slotWrite s with freeUses := s.freeUses + 1 } : State).onBus c
      ∧ c.mem.readLE (slotAddr s + 6) 2 = s.bus.mem.readLE (slotAddr s + 6) 2
      ∧ (c.mem.readLE (slotAddr s) 4 = s.bus.mem.readLE (slotAddr s) 4 ∨ c.mem.readLE (slotAddr s) 4 = 3) := by
  obtain ⟨b, hw, he⟩ := enterFault_spec .slotWrite s.spendAccess
  rw [if_neg (show ¬ s.spendAccess.aiu.run = .faulted from hf)] at he
  obtain ⟨c, hwc, hstale, hstate⟩ := staleEnded_spec ((faultedState .slotWrite s).onBus b)
  have hb {off n : Nat} (h : off + n ≤ 0x80) :
      b.mem.readLE (slotAddr s + off) n = s.bus.mem.readLE (slotAddr s + off) n :=
    hw.readLE fun a h1 h2 => frontBytes_off_slot (s := s) (by omega) (by omega)
  refine ⟨c, ?_, ?_, hstate.imp_left (·.trans (hb (off := 0) (by decide)))⟩
  · unfold dirWriteResult writeFields
    rw [busWrite_planned hp]
    exact (congrArg staleEnded he).trans hstale
  · rw [← hb (by decide)]
    refine hwc.readLE fun a h1 h2 ha => ?_
    have hlt : a < slotAddr s + 4 := ha.2
    omega

/-- Settles O33: the failed write ends the job, so the stage of ENDED finds none. -/
theorem resultWriteFault : Obligations.ResultWriteFault := by
  unfold Obligations.ResultWriteFault
  intro s j r plan he hn hr hf hp
  obtain ⟨c, hwrite, hcode, hstate⟩ := dirWriteResult_planned j hf hp
  have hfree : (dirWriteResult j s).ce.engine = .free := by
    rw [hwrite]
    exact faultedState_engine .slotWrite s
  have hrun : runDirective j.kind (kindBody j.kind) .finish s = dirWriteResult j s :=
    (runDirective_fromResult _ he rfl hn).trans (dirStage_skip _ _ _ fun j' e => nomatch hfree.symm.trans e)
  refine ⟨dirWriteResult j s, (exec_directiveRow j.kind .finish s).trans (congrArg _ hrun), ?_⟩
  rw [hwrite]
  exact ⟨rfl, rfl, rfl, faultedState_engine .slotWrite s,
    faultedState_lastEnding .slotWrite (by rw [he]; rfl), hcode, hstate⟩

end Sys2Proof.Machine

/-! O53: between resets FAULTED is not left, and the frame count moves at a frame sync alone (R169, R170). One relation
holds both, kept by each operation of the model; the stages of a job, which FAULTED has none of, need the count only. -/

namespace Sys2Proof.Machine

/-! ## The relation -/

/-- FAULTED, with the engine FREE (R38, R170). -/
def Halted (s : State) : Prop := s.aiu.run = .faulted ∧ s.ce.engine = .free

/-- The frame count stands, and FAULTED is not left. -/
structure Stands (s t : State) : Prop where
  count : t.aiu.frameCount = s.aiu.frameCount
  halted : Halted s → Halted t ∧ t.aiu.faultKind = s.aiu.faultKind

theorem Stands.refl (s : State) : Stands s s := ⟨rfl, fun h => ⟨h, rfl⟩⟩

theorem Stands.trans {s t u : State} (h : Stands s t) (k : Stands t u) : Stands s u where
  count := k.count.trans h.count
  halted hs := by
    obtain ⟨ht, hkind⟩ := h.halted hs
    obtain ⟨hu, hkind'⟩ := k.halted ht
    exact ⟨hu, hkind'.trans hkind⟩

/-- An update beside the count, the run state, the fault kind and the engine. -/
theorem Stands.of_same {s t : State} (hc : t.aiu.frameCount = s.aiu.frameCount) (hr : t.aiu.run = s.aiu.run)
    (hk : t.aiu.faultKind = s.aiu.faultKind) (he : t.ce.engine = s.ce.engine) : Stands s t :=
  ⟨hc, fun h => ⟨⟨hr.trans h.1, he.trans h.2⟩, hk⟩⟩

/-- Outside FAULTED the count is all that must stand. -/
theorem Stands.of_running {s t : State} (hr : s.aiu.run ≠ .faulted) (hc : t.aiu.frameCount = s.aiu.frameCount) :
    Stands s t :=
  ⟨hc, fun h => absurd h.1 hr⟩

/-- While a job is in hand the count is all that must stand. -/
theorem Stands.in_hand {s t : State} (he : s.ce.engine ≠ .free) (hc : t.aiu.frameCount = s.aiu.frameCount) :
    Stands s t :=
  ⟨hc, fun h => absurd h.2 he⟩

theorem Shown.stands {P : Nat → Prop} {s t : State} (h : Shown P s t) : Stands s t := by
  obtain ⟨c, -, rfl⟩ | ⟨-, hr, k, c, -, rfl⟩ := h
  · exact .of_same rfl rfl rfl rfl
  · exact .of_running hr rfl

theorem Stands.shown {P : Nat → Prop} {s t u : State} (h : Stands s t) (k : Shown P t u) : Stands s u :=
  h.trans k.stands

theorem foldl_stands {α : Type} {f : State → α → State} (hf : ∀ s a, Stands s (f s a)) (l : List α)
    (s : State) : Stands s (l.foldl f s) :=
  List.foldlRecOn (motive := Stands s) l f (.refl s) fun t h a _ => h.trans (hf t a)

/-! ## Accesses -/

theorem enterFault_stands (k : FaultKind) (s : State) : Stands s (enterFault k s) := by
  obtain ⟨c, -, e⟩ := enterFault_spec k s
  rw [e]
  split
  · exact .of_same rfl rfl rfl rfl
  · rename_i hr
    exact .of_running hr rfl

theorem busRead_count {s t : State} {a n : Nat} {o : Option Nat} (h : busRead s a n = (o, t)) :
    t.aiu.frameCount = s.aiu.frameCount := by
  cases busRead_onBus h
  rfl

theorem readSpans_count {s t : State} {a : Nat} {ps : List (Nat × Nat)} {o : Option Nat}
    (h : readSpans s a ps = (o, t)) : t.aiu.frameCount = s.aiu.frameCount := by
  obtain ⟨c, rfl⟩ := readSpans_onBus h
  rfl

theorem writeFields_count {k : FaultKind} {fs : List Field} {s t : State} {ok : Bool}
    (h : writeFields k fs s = (ok, t)) : t.aiu.frameCount = s.aiu.frameCount := by
  obtain ⟨c, rfl | rfl⟩ := writeFields_ends h
  · rfl
  · exact (enterFault_stands k _).count

/-! ## Shared operations -/

section
variable (s : State)

theorem rewrite_stands (os : List Owner) (before : State) : Stands s (rewrite os before s) :=
  (rewrite_shown os before s).stands

theorem setCauseIf_stands (p : Bool) (c : Cause) : Stands s (setCauseIf p c s) :=
  Stands.shown (t := causedState p c s) (.of_same rfl rfl rfl rfl) (setCauseIf_shown p c s)

theorem retire_stands : Stands s (retire s) :=
  Stands.shown (t := retiredState s) (.of_same rfl rfl rfl rfl) (retire_shown s)

theorem dropQuery_stands : Stands s (dropQuery s) :=
  Stands.shown (t := droppedState s) (.of_same rfl rfl rfl rfl) (dropQuery_shown s)

theorem deliver_stands (e : MonEvent) : Stands s (deliver e s) :=
  Stands.shown (t := deliveredState e s) (.of_same rfl rfl rfl rfl) (deliver_shown e s)

theorem cutActions_stands (cut : Bool) : Stands s (cutActions cut s) :=
  Stands.shown (t := cutState cut s) (.of_same rfl rfl rfl rfl) (cutActions_shown cut s)

theorem swap_stands : Stands s (swap s) := by
  refine Stands.shown (t := swappedState s) ?_ (swap_shown s)
  unfold swappedState
  split <;> exact .of_same rfl rfl rfl rfl

theorem sweep_stands : Stands s (sweep s) := by
  by_cases hr : s.aiu.run = .running
  · rcases sweep_shown s hr with h | ⟨-, h⟩
    · exact Stands.shown (t := sweptState s) (.of_same rfl rfl rfl rfl) h
    · exact Stands.shown (t := clearedClaims s) (.of_same rfl rfl rfl rfl) h
  · rw [sweep_not_running s hr]
    exact .refl s

/-- A grant is made in RUNNING alone (R25). -/
theorem grant_stands : Stands s (grant s) := by
  by_cases hr : s.aiu.run = .running
  · refine .of_running (fun h => nomatch hr.symm.trans h) ?_
    rw [(grant_shown s).stands.count, (afterGrant_kept s).1]
  · rw [grant_not_running hr]
    exact .refl s

theorem sweepAndGrant_stands : Stands s (sweepAndGrant s) := (sweep_stands s).trans (grant_stands _)

theorem releaseEngine_stands (e : Option (JobEnding × JobKind)) : Stands s (releaseEngine e s) :=
  Stands.shown (t := releasedState e s) ⟨rfl, fun h => ⟨⟨h.1, rfl⟩, rfl⟩⟩ (releaseEngine_shown e s)

theorem fallFree_stands (e : Option (JobEnding × JobKind)) : Stands s (fallFree e s) :=
  (releaseEngine_stands s e).trans (sweepAndGrant_stands _)

/-! ## The tracker, the link and the timers -/

theorem takeStep_stands : Stands s (takeStep s) := by
  cases hx : s.it.contexts.get s.it.active with
  | none =>
    unfold takeStep
    rw [hx]
    exact .refl s
  | some x =>
    exact Stands.shown (t := deliveredState (stepEvent (decideStep x s)) (steppedState x (decideStep x s) s))
      (.of_same rfl rfl rfl rfl) (takeStep_shown s x hx)

theorem trackerStep_stands : Stands s (trackerStep s) := by
  unfold trackerStep
  split
  · have hdue : Stands s { s with ct := { s.ct with trackerDue := false } } := .of_same rfl rfl rfl rfl
    exact hdue.trans (takeStep_stands _)
  · exact .refl s

theorem endMiss_stands : Stands s (endMiss s) :=
  Stands.shown (t := missedState s) (.of_same rfl rfl rfl rfl) (endMiss_shown s)

theorem judge_stands (k : ExchangeKind) (cs : List RxChar) : Stands s (judge k cs s) := by
  unfold judge
  split
  · cases k
    · exact Stands.shown (t := probedState cs s) (.of_same rfl rfl rfl rfl) (endProbe_shown cs s)
    · exact Stands.shown (t := readState cs s) (.of_same rfl rfl rfl rfl) (endRead_shown cs s)
  · exact endMiss_stands s

theorem takeChar_stands (k : ExchangeKind) (cs : List RxChar) : Stands s (takeChar k cs s) := by
  unfold takeChar
  split
  · exact judge_stands s k cs
  · exact .of_same rfl rfl rfl rfl

theorem requestSent_stands : Stands s (requestSent s) := by
  unfold requestSent
  split <;> exact .of_same rfl rfl rfl rfl

theorem replyWindowExpiry_stands : Stands s (replyWindowExpiry s) := by
  unfold replyWindowExpiry
  split
  · exact endMiss_stands s
  all_goals exact .refl s

theorem replyCharacter_stands (c : RxChar) : Stands s (replyCharacter c s) := by
  unfold replyCharacter
  split
  · exact takeChar_stands s _ _
  · exact takeChar_stands s _ _
  all_goals exact .refl s

theorem replyGapTimeout_stands : Stands s (replyGapTimeout s) := by
  unfold replyGapTimeout
  split
  · exact judge_stands s _ _
  all_goals exact .refl s

theorem pollExpiry_stands : Stands s (pollExpiry s) := by
  by_cases hd : s.ct.pollDue = true ∧ s.aiu.run = .running
  · refine Stands.shown ?_ (pollExpiry_shown hd.1 hd.2)
    exact .of_same rfl rfl rfl rfl
  · rw [show pollExpiry s = s from if_neg hd]
    exact .refl s

theorem settleExpiry_stands : Stands s (settleExpiry s) :=
  Stands.shown (t := { s with ct := settleExpired s.ct }) (.of_same rfl rfl rfl rfl) (settleExpiry_shown s)

theorem takeDue_stands : Stands s (takeDue s) :=
  (trackerStep_stands s).trans ((pollExpiry_stands _).trans (settleExpiry_stands _))

/-! ## The run states -/

/-- A write to CONTROL in FAULTED takes the mask alone (R167). -/
theorem putMask_stands (w : BitVec 32) : Stands s (putMask w s) := .of_same rfl rfl rfl rfl

theorem enterRunning_count : (enterRunning s).aiu.frameCount = s.aiu.frameCount := by
  have hfront : Stands (startedState s) (writeHeader .i1 (writeHeader .i0 (rewriteAll (startedState s)))) :=
    (rewriteAll_shown _).stands.trans ((writeHeader_shown .i0 _).stands.trans (writeHeader_shown .i1 _).stands)
  have hstarted : Stands (startedState s) (enterRunning s) := hfront.trans (sweepAndGrant_stands _)
  exact hstarted.count

theorem runSet_stands (w : BitVec 32) : Stands s (runSet w s) := by
  by_cases hr : s.aiu.run = .stopped
  · refine .of_running (fun h => nomatch hr.symm.trans h) ?_
    rw [show runSet w s = _ from if_pos hr]
    split
    · rfl
    · exact enterRunning_count (putMask w s)
  · rw [runSet_not_stopped w hr]
    exact putMask_stands s w

theorem runClear_stands (w : BitVec 32) : Stands s (runClear w s) := by
  by_cases hr : s.aiu.run = .running
  · refine .of_running (fun h => nomatch hr.symm.trans h) ?_
    rw [show runClear w s = _ from if_pos hr]
    split
    · rfl
    · exact (rewrite_stands _ _ _).count
  · rw [runClear_not_running w hr]
    exact putMask_stands s w

theorem drainComplete_stands : Stands s (drainComplete s) := by
  unfold drainComplete
  split
  · rename_i h
    exact .of_running (fun k => nomatch h.1.symm.trans k) rfl
  · exact .refl s

theorem areaWrite_stands (w : BitVec 32) : Stands s (areaWrite w s) := by
  unfold areaWrite
  split <;> exact .of_same rfl rfl rfl rfl

theorem attnWrite_stands (w : BitVec 32) : Stands s (attnWrite w s) :=
  Stands.trans (t := { s with aiu := { s.aiu with causes := clearCauses s.aiu.causes w } })
    (.of_same rfl rfl rfl rfl) (rewrite_stands _ _ _)

/-! ## The bake -/

theorem rowBoundary_stands (b : BankIx) : Stands s (rowBoundary b s) := by
  unfold rowBoundary
  split
  · split
    · split
      · exact fallFree_stands s _
      · exact .refl s
    · exact (releaseEngine_stands s _).trans ((setCauseIf_stands _ true _).trans (sweepAndGrant_stands _))
  · split
    · exact setCauseIf_stands s true _
    · exact .refl s

theorem bakeRow_stands : Stands s (bakeRow s) := by
  unfold bakeRow
  split
  case h_1 b he =>
    refine .in_hand (fun h => nomatch he.symm.trans h) ?_
    split
    case h_1 c look _ =>
      split <;> rename_i hu <;> have hw := writeFields_count hu
      · exact hw
      · exact ((writeHeader_shown b _).stands.trans (rowBoundary_stands _ b)).count.trans hw
    all_goals rfl
  all_goals exact .refl s

/-! ## The take and the card job -/

variable (h : Head) (k : Fin 8)

theorem afterEnded_count (e : Ending) (n : Bool) : (afterEnded h e n s).aiu.frameCount = s.aiu.frameCount := by
  have hcaused := (releaseEngine_stands s (some (cardEnding e, .card))).trans (setCauseIf_stands _ n .card)
  unfold afterEnded
  refine (sweepAndGrant_stands _).count.trans ?_
  split
  · exact (hcaused.trans (deliver_stands _ _)).count
  · exact hcaused.count

theorem endCard_count (e : Ending) (n : Bool) : (endCard h k e n s).aiu.frameCount = s.aiu.frameCount := by
  unfold endCard
  split <;> rename_i hw <;> have hw := writeFields_count hw
  · exact hw
  · exact (afterEnded_count _ h e n).trans hw

theorem takeReread_count (j : TakeJob) : (takeReread h k j s).aiu.frameCount = s.aiu.frameCount := by
  unfold takeReread
  split <;> rename_i hread <;> have hr := readSpans_count hread
  · exact (enterFault_stands _ _).count.trans hr
  · split
    · exact hr
    · exact (fallFree_stands _ _).count.trans hr

theorem takeWriteTaken_count (j : TakeJob) : (takeWriteTaken h k j s).aiu.frameCount = s.aiu.frameCount := by
  unfold takeWriteTaken
  split <;> rename_i hw <;> have hw := writeFields_count hw <;> exact hw

theorem takeLastTaken_count (j : TakeJob) : (takeLastTaken h k j s).aiu.frameCount = s.aiu.frameCount := by
  unfold takeLastTaken
  dsimp only
  split
  · rfl
  · exact (rewrite_stands _ _ _).count

theorem takeFinish_count (j : TakeJob) : (takeFinish h k j s).aiu.frameCount = s.aiu.frameCount := by
  unfold takeFinish
  split
  · exact endCard_count s h k _ _
  · have hcut := (cutActions_stands s j.req.cut).count
    dsimp only
    split
    · exact (rewrite_stands _ _ _).count.trans hcut
    · exact hcut

omit h k in
theorem takeStage_stands (st : TakeStage) : Stands s (takeStage s st) := by
  unfold takeStage
  split
  case h_1 h k j he =>
    refine .in_hand (fun hf => nomatch he.symm.trans hf) ?_
    split
    · cases st
      case reread => exact takeReread_count s h k j
      case writeTaken => exact takeWriteTaken_count s h k j
      case checks => rfl
      case lastTaken => exact takeLastTaken_count s h k j
      case finish => exact takeFinish_count s h k j
    · rfl
  all_goals exact .refl s

theorem cardCalibration_count (j : CardJob) : (cardCalibration h k j s).aiu.frameCount = s.aiu.frameCount := by
  have hl := (rewrite_stands (putLastTaken h j.lastBefore s) [.ciu] s).count
  unfold cardCalibration
  split
  · rfl
  · dsimp only
    split
    · exact (endCard_count _ h k _ _).trans hl
    all_goals exact hl

theorem cardTilePass_count (j : CardJob) : (cardTilePass h k j s).aiu.frameCount = s.aiu.frameCount := by
  unfold cardTilePass
  split <;> rename_i hp <;> obtain ⟨b, rfl⟩ := tilePass_onBus hp
  · exact endCard_count (s.onBus b) h k _ _
  · rfl

theorem cardEstimate_count (j : CardJob) : (cardEstimate h k j s).aiu.frameCount = s.aiu.frameCount := by
  unfold cardEstimate
  dsimp only
  split
  · rfl
  · exact (rewrite_stands _ _ _).count

theorem cardWriteResult_count (j : CardJob) : (cardWriteResult h k j s).aiu.frameCount = s.aiu.frameCount := by
  unfold cardWriteResult
  split <;> rename_i hw <;> have hw := writeFields_count hw <;> exact hw

theorem cardWriteEnding_count (j : CardJob) : (cardWriteEnding h k j s).aiu.frameCount = s.aiu.frameCount := by
  unfold cardWriteEnding
  split <;> rename_i hw <;> have hw := writeFields_count hw <;> exact hw

theorem cardFinish_count (j : CardJob) : (cardFinish h k j s).aiu.frameCount = s.aiu.frameCount := by
  unfold cardFinish
  split <;> rename_i hw <;> have hw := writeFields_count hw
  · exact hw
  · exact (afterEnded_count _ h _ _).trans hw

omit h k in
theorem cardStage_stands (st : CardStage) : Stands s (cardStage s st) := by
  unfold cardStage
  split
  case h_1 h k j he =>
    refine .in_hand (fun hf => nomatch he.symm.trans hf) ?_
    split
    · cases st
      case calibration => exact cardCalibration_count s h k j
      case tilePass => exact cardTilePass_count s h k j
      case estimate => exact cardEstimate_count s h k j
      case bankQuery => exact (dropQuery_stands _).count
      case marks => exact (rewrite_stands _ _ _).count
      case monitorEvents => exact (deliver_stands _ _).count
      case writeResult => exact cardWriteResult_count s h k j
      case writeEnding => exact cardWriteEnding_count s h k j
      case finish => exact cardFinish_count s h k j
      all_goals rfl
    · rfl
  all_goals exact .refl s

end

/-! ## The stages of a directive -/

section
variable (s : State)

theorem advanceDir_count (next : DirStage) (r : Option ResultCode) :
    (advanceDir next r s).aiu.frameCount = s.aiu.frameCount := by
  unfold advanceDir
  split <;> rfl

variable (j : DirJob)

theorem dirTake_count : (dirTake j s).aiu.frameCount = s.aiu.frameCount := by
  unfold dirTake
  split <;> rename_i hread <;> have hr := busRead_count hread
  · exact (enterFault_stands _ _).count.trans hr
  · split
    · split <;> rename_i hw <;> exact (writeFields_count hw).trans hr
    · exact (fallFree_stands _ _).count.trans hr

theorem dirReadKind_count : (dirReadKind j s).aiu.frameCount = s.aiu.frameCount := by
  unfold dirReadKind
  split <;> rename_i hread <;> have hr := busRead_count hread
  · exact (enterFault_stands _ _).count.trans hr
  · exact hr

theorem dirReadPayload_count : (dirReadPayload j s).aiu.frameCount = s.aiu.frameCount := by
  unfold dirReadPayload
  split
  · rfl
  · split <;> rename_i hr <;> have hr := readSpans_count hr <;> exact hr

theorem dirWriteResult_count : (dirWriteResult j s).aiu.frameCount = s.aiu.frameCount := by
  unfold dirWriteResult
  split <;> rename_i u hw <;> have hw := writeFields_count hw
  · obtain ⟨c, e⟩ := staleEnded_eq u
    rw [e]
    exact hw
  · exact hw

theorem dirFinish_count : (dirFinish j s).aiu.frameCount = s.aiu.frameCount := by
  unfold dirFinish
  split <;> rename_i hw <;> have hw := writeFields_count hw
  · exact hw
  · refine Eq.trans ?_ hw
    exact ((releaseEngine_stands _ _).trans ((setCauseIf_stands _ true _).trans (sweepAndGrant_stands _))).count

omit j

theorem prepareLoad_count (p : Nat) : (prepareLoad p s).2.aiu.frameCount = s.aiu.frameCount := by
  by_cases hcount : field p 4 2 < 2 ∨ 12 < field p 4 2
  · rw [prepareLoad_badCount hcount]
  · rw [prepareLoad_counted (by omega) (by omega)]
    generalize hr : readPoints (field p 4 2) (field p 0 4) s = r
    obtain ⟨o, t⟩ := r
    obtain ⟨⟨b, rfl⟩, -⟩ := readPoints_found hr
    cases o with
    | none => rfl
    | some ps =>
      unfold readDecided
      dsimp only
      split <;> rfl

theorem dirPrepare_count (j : DirJob) (row : Option DirKind) :
    (dirPrepare (kindBody row) j s).aiu.frameCount = s.aiu.frameCount := by
  have hbody : ((kindBody row).prepare j.payload s).2.aiu.frameCount = s.aiu.frameCount := by
    rcases row with _ | k
    · rfl
    · cases k
      case loadCalibration => exact prepareLoad_count s _
      all_goals rfl
  unfold dirPrepare
  split
  · rfl
  · exact (advanceDir_count _ _ _).trans hbody

theorem bakeLutEffect_count (p : Nat) : (bakeLutEffect p s).2.aiu.frameCount = s.aiu.frameCount := by
  unfold bakeLutEffect
  split
  · rfl
  · split <;> rename_i hread <;> have hr := busRead_count hread
    · exact hr
    · exact (rewriteHeaders_shown _ _).stands.count.trans hr

theorem abortBakeEffect_count (p : Nat) : (abortBakeEffect p s).2.aiu.frameCount = s.aiu.frameCount := by
  unfold abortBakeEffect
  dsimp only
  split
  · exact (rewriteHeaders_shown _ _).stands.count.trans (swap_stands s).count
  · exact (swap_stands s).count

/-- What a kind carries out is an update beside the count, or none, with its rewrite. -/
theorem kindBody_effect_count (row : Option DirKind) (p : Nat) :
    ((kindBody row).effect p s).2.aiu.frameCount = s.aiu.frameCount := by
  rcases row with _ | k
  · rfl
  · cases k
    case loadCalibration => exact (commitEffect_shown p s).stands.count
    case bakeLut => exact bakeLutEffect_count s p
    case abortBake => exact abortBakeEffect_count s p
    case setCadence => exact (rewrite_stands _ _ _).count
    case setPod => exact (rewrite_stands _ _ _).count
    case snap => exact (rewrite_stands _ _ _).count
    case setFreeze => exact (rewrite_stands _ _ _).count
    case clearMonitor => exact (rewrite_stands _ _ _).count
    case setOrder =>
      show (setOrderEffect p s).2.aiu.frameCount = _
      unfold setOrderEffect
      split
      · rfl
      · exact (rewrite_stands _ _ _).count
    case setFilter =>
      show (setFilterEffect p s).2.aiu.frameCount = _
      unfold setFilterEffect
      split <;> rfl
    case setGrade =>
      show (setGradeEffect p s).2.aiu.frameCount = _
      unfold setGradeEffect
      split <;> rfl
    case setTracking =>
      show (setTrackingEffect p s).2.aiu.frameCount = _
      unfold setTrackingEffect
      split
      · exact (rewrite_stands _ _ _).count
      all_goals rfl
    case switchContext =>
      show (switchContextEffect p s).2.aiu.frameCount = _
      unfold switchContextEffect
      split
      · rfl
      · split
        · rfl
        · exact (rewrite_stands _ _ _).count
    case setMonitor =>
      show (setMonitorEffect p s).2.aiu.frameCount = _
      unfold setMonitorEffect
      split
      · exact (rewrite_stands _ _ _).count
      all_goals rfl

theorem dirStage_stands (row : Option DirKind) (st : DirStage) : Stands s (dirStage (kindBody row) s st) := by
  by_cases hn : ∀ j, s.ce.engine = .directive j → j.next ≠ st
  · rw [dirStage_skip _ s st hn]
    exact .refl s
  · push Not at hn
    obtain ⟨j, he, hst⟩ := hn
    rw [dirStage_work _ he hst]
    refine .in_hand (fun hf => nomatch he.symm.trans hf) ?_
    cases st
    case take => exact dirTake_count s j
    case kind => exact dirReadKind_count s j
    case payload => exact dirReadPayload_count s j
    case prepare => exact dirPrepare_count s j row
    case effect =>
      show (dirEffect (kindBody row) j s).aiu.frameCount = _
      unfold dirEffect
      split
      · rfl
      · exact (advanceDir_count _ _ _).trans (kindBody_effect_count s row _)
    case result => exact dirWriteResult_count s j
    case finish => exact dirFinish_count s j

theorem runDirective_stands (row : Option DirKind) (u : DirStage) :
    Stands s (runDirective row (kindBody row) u s) := by
  rcases runDirective_cases row (kindBody row) s with e | ⟨-, e⟩ <;> rw [e u]
  · exact .refl s
  · exact foldl_stands (fun t => dirStage_stands t row) _ s

end

/-! ## Every command -/

/-- The commands that are no directives, but for the frame sync and the two resets. -/
theorem exec_plain_stands (c : Instr) (s t : State) (hc : directiveRowOf c = none) (hsync : c ≠ .frameSync)
    (hreset : ¬ IsReset c) (h : exec c s = .next t) : Stands s t := by
  cases c
  all_goals cases h
  case frameSync => exact absurd rfl hsync
  case retirement => exact retire_stands s
  case trackerStep => exact trackerStep_stands s
  case pollExpiry => exact pollExpiry_stands s
  case settleExpiry => exact settleExpiry_stands s
  case requestSent => exact requestSent_stands s
  case replyWindowExpiry => exact replyWindowExpiry_stands s
  case replyCharacter data parity stop => exact replyCharacter_stands s _
  case replyGapTimeout => exact replyGapTimeout_stands s
  case take u => exact foldl_stands takeStage_stands _ s
  case cardJob u => exact foldl_stands cardStage_stands _ s
  case bakeRow => exact bakeRow_stands s
  case drainComplete => exact drainComplete_stands s
  case runSet w => exact runSet_stands s w
  case runClear w => exact runClear_stands s w
  case engineReset w => exact absurd (.inr ⟨w, rfl⟩) hreset
  case attentionMaskWrite w =>
    cases controlRun w
    · exact runClear_stands s w
    · exact runSet_stands s w
  case areaWrite w => exact areaWrite_stands s w
  case attnWrite w => exact attnWrite_stands s w
  case registerWriteIgnored r w => exact .refl s
  case deviceReset => exact absurd (.inl rfl) hreset
  all_goals cases hc

theorem exec_stands (c : Instr) (s t : State) (hsync : c ≠ .frameSync) (hreset : ¬ IsReset c)
    (h : exec c s = .next t) : Stands s t := by
  rcases hrow : directiveRowOf c with _ | ⟨row, u⟩
  · exact exec_plain_stands c s t hrow hsync hreset h
  · rw [exec_directive hrow h]
    exact runDirective_stands s row u

theorem frameSync_not_running {s : State} (h : s.aiu.run ≠ .running) : frameSync s = s := if_neg h

/-- A frame sync leaves the count, or raises it by 1 below saturation (R169). -/
theorem frameSync_count (s : State) :
    (frameSync s).aiu.frameCount = s.aiu.frameCount
      ∨ s.aiu.frameCount < maxFrame ∧ (frameSync s).aiu.frameCount = s.aiu.frameCount + 1 := by
  have hdue := (takeDue_stands s).count
  unfold frameSync
  split
  · dsimp only
    split
    · split
      · rename_i hlt
        have hreact := ((swap_stands (countAdvance (takeDue s))).trans
          ((retire_stands _).trans (sweepAndGrant_stands _))).count
        have hadvance : (countAdvance (takeDue s)).aiu.frameCount = (takeDue s).aiu.frameCount + 1 :=
          (countAdvance_shown _).stands.count.trans (advancedAiu_frameCount _)
        rw [hdue] at hlt hadvance
        exact .inr ⟨hlt, hreact.trans hadvance⟩
      · exact .inl ((sweepAndGrant_stands _).count.trans hdue)
    · exact .inl hdue
  · exact .inl rfl

/-- Settles O53: FAULTED and the count stand at every command but a reset and the frame sync, which does nothing outside
RUNNING and counts at most once. -/
theorem betweenResets : Obligations.BetweenResets := by
  unfold Obligations.BetweenResets
  refine ⟨fun c s t hr he hreset h => ?_, fun c s t h hreset => ?_⟩
  · have hs : Stands s t := by
      by_cases hsync : c = .frameSync
      · cases hsync
        cases h
        rw [frameSync_not_running fun hrun => nomatch hr.symm.trans hrun]
        exact .refl s
      · exact exec_stands c s t hsync hreset h
    obtain ⟨⟨hrun, hfree⟩, hkind⟩ := hs.halted ⟨hr, he⟩
    exact ⟨hrun, hkind, hfree, hs.count⟩
  · by_cases hsync : c = .frameSync
    · cases hsync
      cases h
      refine ⟨?_, ?_, fun hne => ⟨rfl, ?_⟩, fun hle => ?_⟩
      · rcases frameSync_count s with e | ⟨-, e⟩ <;> omega
      · rcases frameSync_count s with e | ⟨-, e⟩ <;> omega
      · by_contra hn
        exact hne (congrArg (·.aiu.frameCount) (frameSync_not_running hn))
      · rcases frameSync_count s with e | ⟨hlt, e⟩ <;> omega
    · have hcount := (exec_stands c s t hsync hreset h).count
      exact ⟨hcount.ge, by omega, fun hne => absurd hcount hne, hcount.trans_le⟩

end Sys2Proof.Machine

/-! O1: what a step does with the queue, by its shape. -/

namespace Sys2Proof.Machine

theorem step_of_pending_nil {s : State} (h : s.pending = []) : step s = .next s := by
  simp only [step, h]

theorem step_of_pending_cons {s : State} {c : Instr} {rest : List Instr} (h : s.pending = c :: rest) :
    step s = exec c { s with pending := rest } := by
  simp only [step, h]

/-- Settles O1: the queue holds a front command, or it is empty. -/
theorem stepTakesFrontCommand : Obligations.StepTakesFrontCommand := by
  unfold Obligations.StepTakesFrontCommand
  intro c rest s
  exact ⟨step_of_pending_cons rfl, step_of_pending_nil rfl⟩

end Sys2Proof.Machine
